-- ==== Sys2Proof/Word.lean ====
section
/-! DEFINITION. The word types of the block (spec/00_scope.md R7, R11): the 32-bit host word and the 8-bit bus byte. -/

namespace Sys2Proof

/-- A host word: 32 bits, bit 0 least significant (R7, R11). -/
abbrev Word := BitVec 32

/-- A bus byte: 8 bits (R7). -/
abbrev Byte := BitVec 8

end Sys2Proof
end

