-- ==== Sys2Proof/Config.lean ====
section
/-! DEFINITION. What an implementation of the block fixes (spec/00_scope.md R7, R10): the parameters with the spec's defaults, the parameters the spec leaves OPEN, and the free value of spec/93_implementation_defined.md I3. -/

namespace Sys2Proof

/-- The three parameters with a default (R7). A claim quantifies over them: they stand in State and no step
changes them. R10 asks that each be positive (`paramsPositive`, Sys2Proof/Safety.lean). -/
structure Params where
  /-- N_CTL: the poll ceiling of a control-bit self-clear. -/
  nCtl : Nat := 50
  /-- N_XFER: the poll ceiling of a byte transfer. -/
  nXfer : Nat := 500
  /-- N_REC: the iterations of the recovery FSM's clock-toggle loop. -/
  nRec : Nat := 10
  deriving DecidableEq, Repr

/-- BUF_CAP: the capacity of BUF in bytes, fixed (R7). -/
abbrev Config.bufCap : Nat := 256

/-- T_REC: the argument of every recovery delay, in units of 10 µs. OPEN in the spec (R7), so a free constant
(log 4). -/
opaque Config.tRec : Nat

/-- BRG_INIT: the clock divisor MODSTART writes. OPEN in the spec (R7), so a free constant (log 4). -/
opaque Config.brgInit : BitVec 16

/-- SLEW_INIT: the slew-rate bit MODSTART writes. OPEN in the spec (R7), so a free constant (log 4). -/
opaque Config.slewInit : Bool

/-- BASE: the platform address of the host register window. OPEN in the spec (R7, R80), so a free constant
(log 4). -/
opaque Config.base : Nat

/-- The n-th bit a LineSense returns while CON.ON = 1: any bit the Environment chooses (R149), a free value
applied to the counter `State.draws` (log 7). -/
opaque Config.freeSense : Nat → Bool

end Sys2Proof
end

