-- ==== Sys2Proof/Syntax.lean ====
section
/-! DEFINITION. The commands of the block: one constructor for each row of spec/opcode_table.json (spec/30_encoding.md R113), with the operands that row reads. -/

namespace Sys2Proof

/-- A command. An operand stands where R113's column "fields" names it; a field a command does not read is not
part of it (it may hold any value in the word). The byte count of READ and WRITE is the COUNT register, not an
operand (R111). -/
inductive Instr where
  /-- INIT (R300). -/
  | init
  /-- MODSTART (R302). -/
  | modstart
  /-- POLL addr7 (R260). -/
  | poll (addr7 : BitVec 7)
  /-- READ addr7, sub8 (R265). -/
  | read (addr7 : BitVec 7) (sub8 : Byte)
  /-- WRITE addr7, sub8 (R275). -/
  | write (addr7 : BitVec 7) (sub8 : Byte)
  /-- WRBYTE byte8 (R235). -/
  | wrbyte (byte8 : Byte)
  /-- RDBYTE ACK | NAK (R240): true answers the byte with ACK. -/
  | rdbyte (ack : Bool)
  /-- START (R222). -/
  | start
  /-- RSTART (R226). -/
  | rstart
  /-- STOP (R230). -/
  | stop
  /-- RECOVER (R200). -/
  | recover
  deriving DecidableEq, Repr

end Sys2Proof
end

