-- ==== Sys2Proof/WellFormed.lean ====
section
/-! DEFINITION. Which command words are legal (spec/30_encoding.md R116, R117), said without the decoder. The operands of `Instr` have the widths of their fields in their types, so every `Instr` is well formed; what can be ill formed is a word. -/

namespace Sys2Proof

/-- R116, first condition: OP is not 0x0. -/
def CmdWord.opNonzero (w : Word) : Bool := w.extractLsb' 0 4 != 0#4

/-- R116, second condition: OP is none of 0xC, 0xD, 0xE, 0xF. -/
def CmdWord.opAssigned (w : Word) : Bool := decide ((w.extractLsb' 0 4).toNat < 0xC)

/-- R116, third condition: CMDW[7:5] = 0. -/
def CmdWord.rsv0Zero (w : Word) : Bool := w.extractLsb' 5 3 == 0#3

/-- R116, fourth condition: CMDW[31:23] = 0. -/
def CmdWord.rsv1Zero (w : Word) : Bool := w.extractLsb' 23 9 == 0#9

/-- A word is legal when none of R116's four conditions makes it illegal. -/
def CmdWord.legal (w : Word) : Bool :=
  CmdWord.opNonzero w && CmdWord.opAssigned w && CmdWord.rsv0Zero w && CmdWord.rsv1Zero w

/-- R117: a READ (OP 4) or WRITE (OP 5) needs COUNT ≤ BUF_CAP; no other command looks at COUNT. -/
def CmdWord.countLegal (w : Word) (count : BitVec 16) : Bool :=
  if w.extractLsb' 0 4 == 4#4 || w.extractLsb' 0 4 == 5#4 then decide (count.toNat ≤ Config.bufCap) else true

/-- A submission is accepted when the word is legal and the count is (R292). -/
def CmdWord.accepted (w : Word) (count : BitVec 16) : Bool := CmdWord.legal w && CmdWord.countLegal w count

end Sys2Proof
end

