-- ==== Sys2Proof/Decode.lean ====
section
/-! DEFINITION. The decoder of a command word, total and rejecting by name, and the encoder (spec/30_encoding.md R110, R112, R113, R116). -/

namespace Sys2Proof

/-- CMDW[3:0]: the operation (R110). -/
def opField (w : Word) : BitVec 4 := w.extractLsb' 0 4

/-- CMDW[4]: RDBYTE's acknowledge policy (R110). -/
def ackField (w : Word) : Bool := w.getLsbD 4

/-- CMDW[7:5]: reserved (R110). -/
def rsv0Field (w : Word) : BitVec 3 := w.extractLsb' 5 3

/-- CMDW[15:8]: WRBYTE's byte, the sub-address of READ and WRITE (R110). -/
def data8Field (w : Word) : Byte := w.extractLsb' 8 8

/-- CMDW[22:16]: the target address (R110). -/
def addr7Field (w : Word) : BitVec 7 := w.extractLsb' 16 7

/-- CMDW[31:23]: reserved (R110). -/
def rsv1Field (w : Word) : BitVec 9 := w.extractLsb' 23 9

/-- Why a word is illegal (R116). -/
inductive DecodeError where
  /-- OP = 0x0. -/
  | opZero
  /-- OP is one of 0xC, 0xD, 0xE, 0xF. -/
  | opUnassigned
  /-- CMDW[7:5] ≠ 0. -/
  | reserved0
  /-- CMDW[31:23] ≠ 0. -/
  | reserved1
  deriving DecidableEq, Repr

/-- The opcode map of R113, for a word whose reserved fields are 0. -/
def decodeOp (w : Word) : Except DecodeError Instr :=
  match (opField w).toNat with
  | 0x0 => .error .opZero
  | 0x1 => .ok .init
  | 0x2 => .ok .modstart
  | 0x3 => .ok (.poll (addr7Field w))
  | 0x4 => .ok (.read (addr7Field w) (data8Field w))
  | 0x5 => .ok (.write (addr7Field w) (data8Field w))
  | 0x6 => .ok (.wrbyte (data8Field w))
  | 0x7 => .ok (.rdbyte (ackField w))
  | 0x8 => .ok .start
  | 0x9 => .ok .rstart
  | 0xA => .ok .stop
  | 0xB => .ok .recover
  | _ => .error .opUnassigned

/-- The decoder: one word is the whole command (R111); a word R116 calls illegal is rejected by name. -/
def decode (w : Word) : Except DecodeError Instr :=
  if rsv0Field w ≠ 0#3 then .error .reserved0
  else if rsv1Field w ≠ 0#9 then .error .reserved1
  else decodeOp w

/-- R112's encoding function: a field an operation does not use is given as 0. -/
def enc (op : BitVec 4) (ack : Bool) (data8 : Byte) (addr7 : BitVec 7) : Word :=
  addr7.setWidth 32 <<< 16 ||| data8.setWidth 32 <<< 8 ||| (BitVec.ofBool ack).setWidth 32 <<< 4 ||| op.setWidth 32

/-- The word of a command (R112, R113, R125). -/
def encode (i : Instr) : Word :=
  match i with
  | .init => enc 0x1#4 false 0 0
  | .modstart => enc 0x2#4 false 0 0
  | .poll a => enc 0x3#4 false 0 a
  | .read a sub => enc 0x4#4 false sub a
  | .write a sub => enc 0x5#4 false sub a
  | .wrbyte v => enc 0x6#4 false v 0
  | .rdbyte ack => enc 0x7#4 ack 0 0
  | .start => enc 0x8#4 false 0 0
  | .rstart => enc 0x9#4 false 0 0
  | .stop => enc 0xA#4 false 0 0
  | .recover => enc 0xB#4 false 0 0

/-- The command word whose bits, numbered as spec/opcode_table.json numbers them, are w; every bit above nbits
is 0. None where a row would be wider than the one word a command has (R111). -/
def tableWord (nbits w : Nat) : Option Word :=
  if nbits ≤ 32 then some (BitVec.ofNat 32 (w % 2 ^ nbits)) else none

/-- The command the decoder reads from a table row's word (`tableWord`). -/
def decodeTableWord (nbits w : Nat) : Option Instr :=
  match tableWord nbits w with
  | none => none
  | some word =>
    match decode word with
    | .ok i => some i
    | .error _ => none

end Sys2Proof
end

