-- ==== Sys2Proof/Machine/State.lean ====
section
/-! DEFINITION. The state of the block, as spec/10_state.md gives it, the reasons a step can stop, and the state after reset (R50). -/

namespace Sys2Proof.Machine

/-- The two lines of the bus (R17). -/
inductive Line where
  | scl
  | sda
  deriving DecidableEq, Repr

/-- The five primitives, as the argument of the diagnostic event NotIdle(p) (R155). -/
inductive Prim where
  | start
  | rstart
  | stop
  | wrbyte
  | rdbyte
  deriving DecidableEq, Repr

/-- The fields of CON the Engine can write (R40). -/
inductive ConField where
  | sen
  | rsen
  | pen
  | rcen
  | acken
  | ackdt
  | slew
  | ie
  | on
  deriving DecidableEq, Repr

/-- The results (R320): the success values ok, ack and byte, the twelve ErrorKinds, and the block's own NONE and
ILLEGAL_COMMAND. -/
inductive Result where
  | none
  | ok
  | ack
  | byte (b : Byte)
  | nak
  | busCollision
  | clockStuck
  | transmitBufferFull
  | receiveOverflow
  | receiveTimeout
  | sclLow
  | sdaLow
  | hardware
  | badAddr
  | busDirty
  | commFail
  | illegalCommand
  deriving DecidableEq, Repr

/-- CON, the controller's control register (R40); its reserved bits read 0 (`Con.word`). -/
structure Con where
  sen : Bool := false
  rsen : Bool := false
  pen : Bool := false
  rcen : Bool := false
  acken : Bool := false
  ackdt : Bool := false
  slew : Bool := false
  ie : Bool := false
  on : Bool := false
  deriving DecidableEq, Repr

/-- STAT, the controller's status register (R42); its reserved bits read 0 (`Stat.word`). -/
structure Stat where
  tbf : Bool := false
  rbf : Bool := false
  i2cov : Bool := false
  iwcol : Bool := false
  bcl : Bool := false
  trstat : Bool := false
  ackstat : Bool := false
  deriving DecidableEq, Repr

/-- RES, the result register (R34); its reserved bits read 0 (`ResReg.word`). -/
structure ResReg where
  code : BitVec 5 := 0
  data : Byte := 0
  nxfer : BitVec 16 := 0
  deriving DecidableEq, Repr

/-- The values latched at command acceptance (R38). -/
structure Latch where
  op : BitVec 4 := 0
  ack : Bool := false
  data8 : Byte := 0
  addr7 : BitVec 7 := 0
  count : BitVec 16 := 0
  deriving DecidableEq, Repr

/-- The Engine's working registers: those of R39, and the other variables of the pseudocode that live across an
action (log 9). -/
structure Work where
  /-- Reads of the current bounded poll. -/
  k : Nat := 0
  /-- Iterations of the recovery loop. -/
  j : Nat := 0
  /-- Iterations of the transfer loop. -/
  i : Nat := 0
  /-- Completed data bytes of READ or WRITE. -/
  nx : Nat := 0
  /-- The last CON read. -/
  c : Con := {}
  /-- The last STAT read. -/
  s : Stat := {}
  /-- The last byte read. -/
  b : Byte := 0
  /-- A sub-operation's result: RECOVER, START, RSTART, RDBYTE. -/
  r : Result := .none
  /-- A sub-operation's result: WRBYTE. -/
  w : Result := .none
  /-- A sub-operation's result: STOP. -/
  t : Result := .none
  /-- The tracker bit read by `d <- DIRTY`. -/
  d : Bool := false
  /-- The last sample of SCL. -/
  x : Bool := false
  /-- The last sample of SDA. -/
  y : Bool := false
  /-- WRBYTE's operand. -/
  v : Byte := 0
  /-- RDBYTE's operand. -/
  ack : Bool := false
  /-- The error a primitive or RECOVER is about to finish with. -/
  e : Result := .none
  /-- The error a transfer is about to finish with. -/
  xe : Result := .none
  /-- The outermost operation's result, between its `finish` and `Complete`. -/
  fin : Result := .none
  deriving DecidableEq, Repr

/-- The lines: the block's own drives (R43) and the outside pulls (R48). -/
structure Lines where
  sclOut : Bool := true
  sdaOut : Bool := true
  extSclLow : Bool := false
  extSdaLow : Bool := false
  deriving DecidableEq, Repr

/-- One Engine action as the history H records it: its arguments and, for a read, the value returned
(R14, R49). -/
inductive Action where
  /-- CtlRead(CON). -/
  | readCon (c : Con)
  /-- CtlRead(STAT). -/
  | readStat (s : Stat)
  /-- CtlRead(RCV). -/
  | readRcv (b : Byte)
  /-- CtlWrite(CON.F, v). -/
  | writeCon (f : ConField) (v : Bool)
  /-- CtlWrite(TRN, v). -/
  | writeTrn (v : Byte)
  /-- CtlWrite(BRG, v). -/
  | writeBrg (v : BitVec 16)
  /-- LineDrive(L, v). -/
  | lineDrive (l : Line) (v : Bool)
  /-- LineSense(L), with the level it returned. -/
  | lineSense (l : Line) (x : Bool)
  /-- Delay(n). -/
  | delay (n : Nat)
  /-- Diag(NotIdle(p)). -/
  | diag (p : Prim)
  /-- DIRTY <- v. -/
  | dirtyWrite (v : Bool)
  /-- d <- DIRTY, with the value read. -/
  | dirtyRead (d : Bool)
  /-- MemRead(i, 1), with the byte read. -/
  | memRead (i : Nat) (b : Byte)
  /-- MemWrite(i, 1, b). -/
  | memWrite (i : Nat) (b : Byte)
  /-- Complete(code, data, nxfer). -/
  | complete (code : BitVec 5) (data : Byte) (nxfer : BitVec 16)
  deriving DecidableEq, Repr

/-- The FSM positions (R32): the labels in the left margin of the pseudocode, and `fin`, the position of the
`Complete` action (log 8). -/
inductive Label where
  /-- INIT (R300). -/
  | i1 | i2 | i3
  /-- MODSTART (R302). -/
  | m1 | m2 | m3 | m4
  /-- CYCLE_ENABLE (R152). -/
  | e1 | e2
  /-- IDLE_CHECK (R154). -/
  | q1 | q2 | q3
  /-- RECOVER (R200). -/
  | v1 | v2 | v3 | v4 | v5 | v6a | v6b | v6c | v6d | v6e | v7 | v8 | v9 | v10 | v11 | v12 | v13 | v14 | v15 | v16 | vf
  /-- START (R222). -/
  | s1 | s2 | s3 | s4 | s5 | sc
  /-- RSTART (R226). -/
  | g1 | g2 | g3 | g4 | g5 | gc
  /-- STOP (R230). -/
  | t1 | t2 | t3 | t4 | t5 | tc
  /-- WRBYTE (R235). -/
  | w1 | w2 | w3 | w4 | w5 | wc
  /-- RDBYTE (R240). -/
  | b1 | b2 | b3 | b4 | b5 | b6 | b7 | b8
  /-- The failure exit of every primitive (R221). -/
  | pf
  /-- POLL (R260). -/
  | p1 | p2 | p3 | p4 | p5 | p6 | px
  /-- READ (R265). -/
  | d1 | d2 | d3 | d4 | d5 | d6 | d7a | d7b | d8 | d9 | dx
  /-- WRITE (R275). -/
  | x1 | x2 | x3 | x4 | x5a | x5b | x6 | x7 | xx
  /-- UNWIND (R270). -/
  | u1 | u2
  /-- Complete (R296). -/
  | fin
  deriving DecidableEq, Repr

/-- BUF's contents: (address, byte) pairs in one canonical form (`Memory.wf`, Sys2Proof/Machine/Ops.lean). -/
abbrev Memory := List Host.Cell

/-- One Environment step: any combination of R160's liberties, and nothing else. -/
structure EnvStep where
  /-- Clear CON.SEN. -/
  clrSen : Bool := false
  /-- Clear CON.RSEN. -/
  clrRsen : Bool := false
  /-- Clear CON.PEN. -/
  clrPen : Bool := false
  /-- Clear CON.RCEN. -/
  clrRcen : Bool := false
  /-- Clear CON.ACKEN. -/
  clrAcken : Bool := false
  /-- Set or clear STAT.TBF. -/
  tbf : Option Bool := none
  /-- Set or clear STAT.RBF. -/
  rbf : Option Bool := none
  /-- Set or clear STAT.I2COV. -/
  i2cov : Option Bool := none
  /-- Set or clear STAT.IWCOL. -/
  iwcol : Option Bool := none
  /-- Set or clear STAT.BCL. -/
  bcl : Option Bool := none
  /-- Set or clear STAT.TRSTAT. -/
  trstat : Option Bool := none
  /-- Set or clear STAT.ACKSTAT. -/
  ackstat : Option Bool := none
  /-- Write a value into RCV. -/
  rcv : Option Byte := none
  /-- Set EXT_SCL_LOW. -/
  extSclLow : Option Bool := none
  /-- Set EXT_SDA_LOW. -/
  extSdaLow : Option Bool := none
  deriving DecidableEq, Repr

/-- What a reset leaves unspecified (R50, R360): the Environment's draws, and the contents BUF and TRN happen to
have. -/
structure ResetDraw where
  stat : Stat := {}
  rcv : Byte := 0
  trn : Byte := 0
  extSclLow : Bool := false
  extSdaLow : Bool := false
  buf : List Host.Cell := []
  deriving DecidableEq, Repr

/-- One entry of the schedule: one step of the Host, the Environment or the platform, or a mark
(logs 1, 2, 14). -/
inductive Event where
  /-- The Engine's turn: one action if BUSY = 1, nothing otherwise (R6). -/
  | engine
  /-- An Environment step (R160). -/
  | env (e : EnvStep)
  /-- HostRead(off) (R291). -/
  | hostRead (off : BitVec 9)
  /-- HostWrite(off, w) (R292, R293, R294). -/
  | hostWrite (off : BitVec 9) (w : Word)
  /-- The pseudo-instruction WAIT (R126): the Host reads ESTAT until BUSY = 0. -/
  | hostWait
  /-- A Host access of another width than 32 bits (R81): it has no meaning. -/
  | hostNarrow
  /-- Reset, with the values it leaves unspecified (R360). -/
  | reset (d : ResetDraw)
  /-- No agent's step: the step of the model ends here, the command stays where it is (log 1). -/
  | pause
  deriving DecidableEq, Repr

/-- The state. -/
structure State where
  /-- CMD.CMDW (R33). -/
  cmd : Word
  /-- RES (R34). -/
  res : ResReg
  /-- ESTAT.BUSY (R35). -/
  busy : Bool
  /-- DIRTY, the Bus State Tracker (R36). -/
  dirty : Bool
  /-- ESTAT.HOSTERR (R35). -/
  hostErr : Bool
  /-- COUNT (R37). -/
  count : BitVec 16
  /-- BUF (R41). -/
  buf : Memory
  /-- FSM (R32): empty is IDLE; otherwise the label stack, the deepest label first. -/
  fsm : List Label
  /-- L_OP, L_ACK, L_DATA8, L_ADDR7, L_COUNT (R38). -/
  latch : Latch
  /-- The working registers (R39). -/
  work : Work
  /-- CON (R40); CON.ON is also ESTAT.CTL_ON (R35). -/
  con : Con
  /-- STAT (R42). -/
  stat : Stat
  /-- TRN (R44). -/
  trn : Byte
  /-- RCV (R44). -/
  rcv : Byte
  /-- BRG (R46). -/
  brg : BitVec 16
  /-- LINE's drives (R43) and the outside pulls (R48). -/
  line : Lines
  /-- H (R49), the newest action first (log 12). -/
  hist : List Action
  /-- N_CTL, N_XFER, N_REC (R7): fixed for the machine (log 3). -/
  params : Params
  /-- The schedule: what comes next, in one total order (R93; log 2). The model's own field. -/
  inputs : List Event
  /-- The words HostRead returned (R290), the newest first (log 14). The model's own field. -/
  hostLog : List Word
  /-- How many free line samples were taken (R149; log 7). The model's own field. -/
  draws : Nat
  deriving DecidableEq, Repr

/-- Why the machine stops. The block has no trap (R330): no state that meets the invariant reaches one of
these (log 15). -/
inductive Fault where
  /-- The Engine accessed BUF outside 0..255 (R84 excludes it). Raised by MemRead and MemWrite. Safe. -/
  | bufIndex
  /-- The label stack is no position of R32. Raised by the Engine's sequencing. Safe. -/
  | noPosition
  deriving DecidableEq, Repr

/-- What the model gives no meaning. -/
inductive Refusal where
  /-- A command without a meaning yet; raised by exec alone. Safe. -/
  | notModelled (mnemonic : String)
  /-- A Host access of another width than 32 bits (R81, I19): "a model refuses a Host program that makes one".
  Raised by the step. Safe. -/
  | hostWidth
  deriving DecidableEq, Repr

/-- The machine right after reset (R50). BUF, STAT, TRN, RCV and the outside pulls are unspecified there; zero is the model's
choice (logs 5, 6), and the `reset` event takes any value for them. -/
def State.reset : State :=
  { cmd := 0, res := {}, busy := false, dirty := true, hostErr := false, count := 0, buf := [], fsm := [], latch := {},
    work := {}, con := {}, stat := {}, trn := 0, rcv := 0, brg := 0, line := {}, hist := [], params := {}, inputs := [],
    hostLog := [], draws := 0 }

end Sys2Proof.Machine
end

