-- ==== Sys2Proof/Machine/Ops.lean ====
section
/-! DEFINITION. The named operations over memory and registers: BUF's bytes, the word views of the registers, the Engine's atomic actions (spec/40_register_interface.md), the Host's accesses (spec/45_host_interface.md), the Environment's step, `Complete`, which ends every command with its one result (the block's only "trap entry", spec/60_exceptions.md R332), and reset. -/

namespace Sys2Proof.Machine

/-! ## Sequencing of outcomes -/

/-- Goes on with `f` from a next state; a fault or a refusal stays. -/
def andThen (o : Host.Outcome State Fault Refusal) (f : State → Host.Outcome State Fault Refusal) :
    Host.Outcome State Fault Refusal :=
  match o with
  | .next s => f s
  | .fault r => .fault r
  | .refused r => .refused r

/-! ## BUF (R41, R84) -/

/-- What an address no entry lists reads as. R41 leaves it unspecified; zero is the model's choice (log 6). -/
def Memory.unlisted (_address : Nat) : Byte := 0

/-- BUF's addresses (R41). -/
def Memory.inRange (a : Nat) : Bool := decide (a < Config.bufCap)

/-- The byte at an address. -/
def Memory.read (m : Memory) (a : Nat) : Byte :=
  match m with
  | [] => Memory.unlisted a
  | (b, v) :: rest => if b = a then v else Memory.read rest a

/-- Adds an entry in front, unless it says what an unlisted address reads as. -/
def Memory.put (a : Nat) (v : Byte) (m : Memory) : Memory := if v = Memory.unlisted a then m else (a, v) :: m

/-- Sets one byte, keeping the canonical form. -/
def Memory.write (m : Memory) (a : Nat) (v : Byte) : Memory :=
  match m with
  | [] => Memory.put a v []
  | (b, u) :: rest =>
    if a < b then Memory.put a v ((b, u) :: rest)
    else if a = b then Memory.put a v rest
    else (b, u) :: Memory.write rest a v

/-- Every address of the list is above `low`, in BUF, strictly rising, and no entry says what an unlisted
address reads as. -/
def Memory.wfFrom (low : Nat) (m : Memory) : Bool :=
  match m with
  | [] => true
  | (a, v) :: rest =>
    decide (low ≤ a) && Memory.inRange a && decide (v ≠ Memory.unlisted a) && Memory.wfFrom (a + 1) rest

/-- The canonical form. -/
def Memory.wf (m : Memory) : Bool := Memory.wfFrom 0 m

/-- The canonical memory with the given cells (an address outside BUF is dropped; of two cells at one address
the first wins). -/
def Memory.ofCells (cells : List Host.Cell) : Memory :=
  match cells with
  | [] => []
  | (a, v) :: rest => if Memory.inRange a then Memory.write (Memory.ofCells rest) a v else Memory.ofCells rest

/-! ## Word views of the registers -/

/-- CON as a 32-bit word (R40). -/
def Con.word (c : Con) : Word :=
  0#16 ++ BitVec.ofBool c.on ++ 0#7 ++ BitVec.ofBool c.ie ++ BitVec.ofBool c.slew ++ BitVec.ofBool c.ackdt ++
    BitVec.ofBool c.acken ++ BitVec.ofBool c.rcen ++ BitVec.ofBool c.pen ++ BitVec.ofBool c.rsen ++ BitVec.ofBool c.sen

/-- STAT as a 32-bit word (R42). -/
def Stat.word (s : Stat) : Word :=
  0#25 ++ BitVec.ofBool s.ackstat ++ BitVec.ofBool s.trstat ++ BitVec.ofBool s.bcl ++ BitVec.ofBool s.iwcol ++
    BitVec.ofBool s.i2cov ++ BitVec.ofBool s.rbf ++ BitVec.ofBool s.tbf

/-- RES as a 32-bit word (R34). -/
def ResReg.word (r : ResReg) : Word := r.nxfer ++ r.data ++ 0#3 ++ r.code

/-- ESTAT as a 32-bit word (R35, R291); CTL_ON is CON.ON. -/
def State.estat (s : State) : Word :=
  0#28 ++ BitVec.ofBool s.con.on ++ BitVec.ofBool s.hostErr ++ BitVec.ofBool s.dirty ++ BitVec.ofBool s.busy

/-- The level of a line while CON.ON = 0: the wired AND of the block's drive and the outside pull (R47). -/
def State.level (l : Line) (s : State) : Bool :=
  match l with
  | .scl => s.line.sclOut && !s.line.extSclLow
  | .sda => s.line.sdaOut && !s.line.extSdaLow

/-- SCL_IN: the level while CON.ON = 0, a free value while CON.ON = 1 (R47; log 7). -/
def State.sclIn (s : State) : Bool := if s.con.on then Config.freeSense s.draws else s.level .scl

/-- SDA_IN: the level while CON.ON = 0, a free value of its own while CON.ON = 1 (R47; log 7). -/
def State.sdaIn (s : State) : Bool := if s.con.on then Config.freeSense (s.draws + 1) else s.level .sda

/-- LINE as a 32-bit word (R43). -/
def State.lineWord (s : State) : Word :=
  0#28 ++ BitVec.ofBool s.sdaIn ++ BitVec.ofBool s.sclIn ++ BitVec.ofBool s.line.sdaOut ++ BitVec.ofBool s.line.sclOut

/-- Whether the block itself pulls a line low through the LINE port (R165). -/
def State.drivesLow (l : Line) (s : State) : Bool :=
  match l with
  | .scl => !s.con.on && !s.line.sclOut
  | .sda => !s.con.on && !s.line.sdaOut

/-! ## Controller actions (R140–R147) -/

/-- Appends an action to the history H (R49). -/
def State.record (a : Action) (s : State) : State := { s with hist := a :: s.hist }

/-- `c <- CtlRead(CON)` (R140). -/
def ctlReadCon (s : State) : State := State.record (.readCon s.con) { s with work := { s.work with c := s.con } }

/-- `s <- CtlRead(STAT)` (R141): a snapshot; reading clears nothing. -/
def ctlReadStat (s : State) : State := State.record (.readStat s.stat) { s with work := { s.work with s := s.stat } }

/-- `b <- CtlRead(RCV)` (R142): the byte, and STAT.RBF <- 0 in the same action. -/
def ctlReadRcv (s : State) : State :=
  State.record (.readRcv s.rcv) { s with work := { s.work with b := s.rcv }, stat := { s.stat with rbf := false } }

/-- One field of CON set to v. -/
def Con.set (f : ConField) (v : Bool) (c : Con) : Con :=
  match f with
  | .sen => { c with sen := v }
  | .rsen => { c with rsen := v }
  | .pen => { c with pen := v }
  | .rcen => { c with rcen := v }
  | .acken => { c with acken := v }
  | .ackdt => { c with ackdt := v }
  | .slew => { c with slew := v }
  | .ie => { c with ie := v }
  | .on => { c with on := v }

/-- One field of CON. -/
def Con.get (f : ConField) (c : Con) : Bool :=
  match f with
  | .sen => c.sen
  | .rsen => c.rsen
  | .pen => c.pen
  | .rcen => c.rcen
  | .acken => c.acken
  | .ackdt => c.ackdt
  | .slew => c.slew
  | .ie => c.ie
  | .on => c.on

/-- What a write of CON.ON does to the collision flags: a change from 0 to 1 clears BCL and IWCOL (R145, R152). -/
def Stat.afterEnable (rises : Bool) (st : Stat) : Stat := if rises then { st with bcl := false, iwcol := false } else st

/-- `CtlWrite(CON.F, v)` (R143, R144, R145). -/
def ctlWriteCon (f : ConField) (v : Bool) (s : State) : State :=
  State.record (.writeCon f v)
    { s with con := s.con.set f v, stat := s.stat.afterEnable (decide (f = .on) && v && !s.con.on) }

/-- `CtlWrite(TRN, v)` (R146). -/
def ctlWriteTrn (v : Byte) (s : State) : State := State.record (.writeTrn v) { s with trn := v }

/-- `CtlWrite(BRG, v)` (R147). -/
def ctlWriteBrg (v : BitVec 16) (s : State) : State := State.record (.writeBrg v) { s with brg := v }

/-! ## The LINE port (R148, R149) -/

/-- `LineDrive(L, v)` (R148): the drive is stored whatever CON.ON is. -/
def lineDrive (l : Line) (v : Bool) (s : State) : State :=
  State.record (.lineDrive l v)
    { s with line := match l with
      | .scl => { s.line with sclOut := v }
      | .sda => { s.line with sdaOut := v } }

/-- The level LineSense returns: the wired AND while CON.ON = 0, a free value while CON.ON = 1 (R149; log 7). -/
def State.sensed (l : Line) (s : State) : Bool := if s.con.on then Config.freeSense s.draws else s.level l

/-- `x <- LineSense(SCL)` or `y <- LineSense(SDA)` (R149). -/
def lineSense (l : Line) (s : State) : State :=
  State.record (.lineSense l (s.sensed l))
    { s with
      work := match l with
        | .scl => { s.work with x := s.sensed l }
        | .sda => { s.work with y := s.sensed l }
      draws := if s.con.on then s.draws + 1 else s.draws }

/-! ## Delay, diagnostics and the tracker (R150, R155, R181–R183) -/

/-- `Delay(T_REC)` (R150): no effect on any state. -/
def delay (s : State) : State := State.record (.delay Config.tRec) s

/-- `Diag(NotIdle(p))` (R155). -/
def diag (p : Prim) (s : State) : State := State.record (.diag p) s

/-- `DIRTY <- v`: markDirty() with v = true (R182), markClean() with v = false (R183). -/
def dirtyWrite (v : Bool) (s : State) : State := State.record (.dirtyWrite v) { s with dirty := v }

/-- `d <- DIRTY`: isDirty() (R181). -/
def dirtyRead (s : State) : State := State.record (.dirtyRead s.dirty) { s with work := { s.work with d := s.dirty } }

/-! ## BUF, by the Engine (R84) -/

/-- `v <- MemRead(i, 1)` with the loop index i (R84, R275). -/
def memRead (s : State) : Host.Outcome State Fault Refusal :=
  if Memory.inRange s.work.i then
    .next (State.record (.memRead s.work.i (Memory.read s.buf s.work.i))
      { s with work := { s.work with v := Memory.read s.buf s.work.i } })
  else .fault .bufIndex

/-- `MemWrite(i, 1, b)` with the loop index i and the last byte read b (R84, R265). -/
def memWrite (s : State) : Host.Outcome State Fault Refusal :=
  if Memory.inRange s.work.i then
    .next (State.record (.memWrite s.work.i s.work.b) { s with buf := Memory.write s.buf s.work.i s.work.b })
  else .fault .bufIndex

/-! ## The end of a command (R296) -/

/-- `Complete(code, data, nxfer)`: RES is written, BUSY <- 0, FSM <- IDLE, in one action (R296). -/
def complete (code : BitVec 5) (data : Byte) (nxfer : BitVec 16) (s : State) : State :=
  State.record (.complete code data nxfer) { s with res := { code, data, nxfer }, busy := false, fsm := [] }

/-! ## The Host window (R80, R291–R294) -/

/-- What a window offset reaches: bits 8:2 decode, bits 1:0 are ignored (R80, R88). -/
inductive HostReg where
  | cmd
  | res
  | estat
  | count
  | unmapped
  /-- Word k of the BUF window. -/
  | bufWord (k : Nat)
  deriving DecidableEq, Repr

/-- R80's map. -/
def hostReg (off : BitVec 9) : HostReg :=
  match off.toNat / 4 with
  | 0 => .cmd
  | 1 => .res
  | 2 => .estat
  | 3 => .count
  | n => if n < 64 then .unmapped else .bufWord (n - 64)

/-- The window offset of a platform address, if it is in the window at BASE (R80, R85). -/
def windowOffset (address : Nat) : Option (BitVec 9) :=
  if Config.base ≤ address ∧ address < Config.base + 512 then some (BitVec.ofNat 9 (address - Config.base)) else none

/-- Word k of the BUF window, little-endian (R82). -/
def bufWord (m : Memory) (k : Nat) : Word :=
  Memory.read m (4 * k + 3) ++ Memory.read m (4 * k + 2) ++ Memory.read m (4 * k + 1) ++ Memory.read m (4 * k)

/-- Sets word k of the BUF window, little-endian: always all four bytes (R82). -/
def setBufWord (m : Memory) (k : Nat) (w : Word) : Memory :=
  Memory.write
    (Memory.write (Memory.write (Memory.write m (4 * k) (w.extractLsb' 0 8)) (4 * k + 1) (w.extractLsb' 8 8)) (4 * k + 2)
      (w.extractLsb' 16 8))
    (4 * k + 3) (w.extractLsb' 24 8)

/-- The word HostRead(off) returns (R291). -/
def hostReadValue (off : BitVec 9) (s : State) : Word :=
  match hostReg off with
  | .cmd => s.cmd
  | .res => s.res.word
  | .estat => s.estat
  | .count => s.count.setWidth 32
  | .unmapped => 0
  | .bufWord k => bufWord s.buf k

/-- HostRead(off): the word goes to the Host; nothing else changes (R291). -/
def hostRead (off : BitVec 9) (s : State) : State := { s with hostLog := hostReadValue off s :: s.hostLog }

/-- A Host write the block drops because BUSY = 1 (R293). -/
def hostDropped (s : State) : State := { s with hostErr := true }

/-- HostWrite(off, w) (R292, R293, R294): what the write stores. A word stored in CMD is then submitted
(`submit`, Sys2Proof/Machine/Submit.lean). -/
def hostWrite (off : BitVec 9) (w : Word) (s : State) : State :=
  match hostReg off with
  | .cmd => if s.busy then hostDropped s else { s with cmd := w }
  | .res => s
  | .estat => if w.getLsbD 2 then { s with hostErr := false } else s
  | .count => if s.busy then hostDropped s else { s with count := w.setWidth 16 }
  | .unmapped => s
  | .bufWord k => if s.busy then hostDropped s else { s with buf := setBufWord s.buf k w }

/-! ## The Environment's step (R160) -/

/-- CON after an Environment step: it can clear a request bit and do nothing else to CON. -/
def Con.afterEnv (e : EnvStep) (c : Con) : Con :=
  { c with
    sen := c.sen && !e.clrSen
    rsen := c.rsen && !e.clrRsen
    pen := c.pen && !e.clrPen
    rcen := c.rcen && !e.clrRcen
    acken := c.acken && !e.clrAcken }

/-- STAT after an Environment step: any bit set, cleared or left. -/
def Stat.afterEnv (e : EnvStep) (st : Stat) : Stat :=
  { tbf := e.tbf.getD st.tbf
    rbf := e.rbf.getD st.rbf
    i2cov := e.i2cov.getD st.i2cov
    iwcol := e.iwcol.getD st.iwcol
    bcl := e.bcl.getD st.bcl
    trstat := e.trstat.getD st.trstat
    ackstat := e.ackstat.getD st.ackstat }

/-- An Environment step (R160). -/
def envStep (e : EnvStep) (s : State) : State :=
  { s with
    con := s.con.afterEnv e
    stat := s.stat.afterEnv e
    rcv := e.rcv.getD s.rcv
    line := { s.line with
      extSclLow := e.extSclLow.getD s.line.extSclLow
      extSdaLow := e.extSdaLow.getD s.line.extSdaLow } }

/-! ## Reset (R360) -/

/-- Reset: every item of block state at its value of R50, the unspecified ones as drawn. A running command is
abandoned with no Complete. The parameters, the schedule, the Host's log and the count of free samples are no block state
and stay. -/
def resetBlock (d : ResetDraw) (s : State) : State :=
  { State.reset with
    stat := d.stat
    rcv := d.rcv
    trn := d.trn
    line := { extSclLow := d.extSclLow, extSdaLow := d.extSdaLow }
    buf := Memory.ofCells d.buf
    params := s.params
    inputs := s.inputs
    hostLog := s.hostLog
    draws := s.draws }

end Sys2Proof.Machine
end

