-- ==== Sys2Proof/Machine/Operands.lean ====
section
/-! DEFINITION. The operand forms: how an address byte is assembled (spec/30_encoding.md R114), what a command latches at acceptance (spec/10_state.md R38), and how a transfer passes operands to the primitive it calls (spec/44_transfers.md). -/

namespace Sys2Proof.Machine

/-- The direction of an address byte: 0 for a write, 1 for a read (R114). -/
inductive Direction where
  | write
  | read
  deriving DecidableEq, Repr

/-- The direction bit (R114). -/
def Direction.bit (d : Direction) : Byte :=
  match d with
  | .write => 0
  | .read => 1

/-- `addrbyte(a, dir) = (zext_8(a) << 1) | dir` (R114). -/
def addrByte (a : BitVec 7) (d : Direction) : Byte := a.setWidth 8 <<< 1 ||| d.bit

/-- The acknowledge bit RDBYTE writes to ACKDT: `¬ack`, so 0 sends ACK and 1 sends NAK (R114, R241). -/
def ackdtOf (ack : Bool) : Bool := !ack

/-- A submission: the operation, the operands its command gives, and the operation's first label (R292). -/
structure Submission where
  op : BitVec 4
  ack : Option Bool := none
  data8 : Option Byte := none
  addr7 : Option (BitVec 7) := none
  entry : Label

/-- The values latched at acceptance (R38, R292): an operand the command has, and for a field it does not read,
what the command word in CMD holds there (log 11). -/
def Submission.latched (u : Submission) (s : State) : Latch :=
  { op := u.op
    ack := u.ack.getD (ackField s.cmd)
    data8 := u.data8.getD (data8Field s.cmd)
    addr7 := u.addr7.getD (addr7Field s.cmd)
    count := s.count }

/-- L_COUNT as a number. -/
def State.lcount (s : State) : Nat := s.latch.count.toNat

/-- READ and WRITE with COUNT > BUF_CAP are rejected (R117). -/
def countTooLarge (s : State) : Bool := decide (Config.bufCap < s.count.toNat)

/-- Sets WRBYTE's operand. -/
def State.withV (v : Byte) (s : State) : State := { s with work := { s.work with v := v } }

/-- Sets RDBYTE's operand. -/
def State.withAck (ack : Bool) (s : State) : State := { s with work := { s.work with ack := ack } }

/-- WRBYTE's operand in the address-write step of a transfer. -/
def State.withAddrWrite (s : State) : State := s.withV (addrByte s.latch.addr7 .write)

/-- WRBYTE's operand in the address-read step of READ. -/
def State.withAddrRead (s : State) : State := s.withV (addrByte s.latch.addr7 .read)

/-- WRBYTE's operand in the sub-address step of READ and WRITE. -/
def State.withSub (s : State) : State := s.withV s.latch.data8

/-- RDBYTE's operand in iteration i of READ: ACK unless the byte is the last (R265, R266). -/
def State.withAckUnlessLast (s : State) : State := s.withAck (decide (s.work.i + 1 < s.lcount))

end Sys2Proof.Machine
end

