-- ==== Sys2Proof/Machine/Flags.lean ====
section
/-! DEFINITION. The conditions the Engine computes from its snapshots (spec/40_register_interface.md R154, spec/43_primitives.md) and the result codes (spec/60_exceptions.md R321). -/

namespace Sys2Proof.Machine

/-- The controller is not idle: a request bit is set or a transmission is in progress (R154). -/
def notIdle (c : Con) (s : Stat) : Bool := c.sen || c.rsen || c.pen || c.rcen || c.acken || s.trstat

/-- The collision check of START, RSTART and STOP: BCL (R222). -/
def Stat.busCollided (s : Stat) : Bool := s.bcl

/-- The collision check of WRBYTE: BCL or IWCOL (R235, R238). -/
def Stat.writeCollided (s : Stat) : Bool := s.bcl || s.iwcol

/-- The completion condition of a request poll: the request bit reads 0 (R222, R226, R230, R240). -/
def Con.cleared (f : ConField) (c : Con) : Bool := !c.get f

/-- RES.CODE of a result (R321). -/
def Result.code (r : Result) : BitVec 5 :=
  match r with
  | .none => 0
  | .ok => 1
  | .ack => 2
  | .byte _ => 3
  | .nak => 4
  | .busCollision => 5
  | .clockStuck => 6
  | .transmitBufferFull => 7
  | .receiveOverflow => 8
  | .receiveTimeout => 9
  | .sclLow => 10
  | .sdaLow => 11
  | .hardware => 12
  | .badAddr => 13
  | .busDirty => 14
  | .commFail => 15
  | .illegalCommand => 16

/-- RES.DATA of a result: the byte of Byte(b), otherwise 0 (R34, R296). -/
def Result.data (r : Result) : Byte :=
  match r with
  | .byte b => b
  | _ => 0

/-- RES.NXFER: NX for READ (OP 4) and WRITE (OP 5), otherwise 0 (R297). -/
def State.nxfer (s : State) : BitVec 16 :=
  if s.latch.op = 0x4#4 ∨ s.latch.op = 0x5#4 then BitVec.ofNat 16 s.work.nx else 0

end Sys2Proof.Machine
end

