-- ==== Sys2Proof/Machine/Sequencer.lean ====
section
/-! DEFINITION. The Engine's sequencing: `goto`, the call of a sub-operation, `finish`, and where each caller goes on when its sub-operation finishes (spec/00_scope.md R15, spec/10_state.md R32, spec/60_exceptions.md R351). A call and a return take no action: they are folded into the action before them (R14). -/

namespace Sys2Proof.Machine

/-- The first label of the sub-operation a line calls; none where the line is an action of its own. -/
def Label.callee (l : Label) : Option Label :=
  match l with
  | .p2 => some .v1
  | .p3 | .d2 | .x2 => some .s1
  | .p4 | .d3 | .d4 | .d6 | .x3 | .x4 | .x5b => some .w1
  | .d5 => some .g1
  | .d7a => some .b1
  | .p5 | .d8 | .x6 | .u1 => some .t1
  | .s1 | .g1 | .t1 | .w1 | .b1 => some .q1
  | .sc | .gc | .tc | .wc => some .e1
  | _ => none

/-- The stack a line stands for, deepest label first: the line, its callee's first line, and that one's callee
(R351: calls nest at most two deep). -/
def Label.opened (l : Label) : List Label :=
  match l.callee with
  | none => [l]
  | some m =>
    match m.callee with
    | none => [m, l]
    | some n => [n, m, l]

/-- `goto l`, in the operation that runs now. -/
def State.goto (l : Label) (s : State) : State := { s with fsm := l.opened ++ s.fsm.tail }

/-- The failure exit of a primitive with error e: `goto PF with e` (R221). -/
def State.toPf (e : Result) (s : State) : State := State.goto .pf { s with work := { s.work with e := e } }

/-- The failure exit of RECOVER with error e: `goto VF with e` (R207). -/
def State.toVf (e : Result) (s : State) : State := State.goto .vf { s with work := { s.work with e := e } }

/-- An exit of a transfer with error e: `goto l with e` (R270, R271). -/
def State.toExit (l : Label) (e : Result) (s : State) : State := State.goto l { s with work := { s.work with xe := e } }

/-- `goto UNWIND with e` (R270). -/
def State.unwind (e : Result) (s : State) : State := s.toExit .u1 e

/-- The head of READ's data loop, D7: the next RDBYTE with its acknowledge policy, or the final Stop (R265). -/
def State.readLoop (s : State) : State := if s.work.i < s.lcount then s.withAckUnlessLast.goto .d7a else s.goto .d8

/-- The head of WRITE's data loop, X5: the next byte, or the final Stop (R275). -/
def State.writeLoop (s : State) : State := if s.work.i < s.lcount then s.goto .x5a else s.goto .x6

/-- `i <- 0; NX <- 0` (R265, R275). -/
def State.startLoop (s : State) : State := { s with work := { s.work with i := 0, nx := 0 } }

/-- `i <- i + 1; NX <- i` (R265, R275). -/
def State.nextByte (s : State) : State := { s with work := { s.work with i := s.work.i + 1, nx := s.work.i + 1 } }

/-- `k <- 0`, before a bounded poll (R228). -/
def State.startPoll (s : State) : State := { s with work := { s.work with k := 0 } }

/-- `k <- k + 1`, with each read of a bounded poll (R228). -/
def State.countPoll (s : State) : State := { s with work := { s.work with k := s.work.k + 1 } }

/-- Keeps a sub-operation's result in r. -/
def State.keepR (r : Result) (s : State) : State := { s with work := { s.work with r := r } }

/-- Keeps a WRBYTE's result in w. -/
def State.keepW (r : Result) (s : State) : State := { s with work := { s.work with w := r } }

/-- Keeps a STOP's result in t. -/
def State.keepT (r : Result) (s : State) : State := { s with work := { s.work with t := r } }

/-- POLL's classification after its Stop, P5 (R260, R262). -/
def State.pollClassify (s : State) : State :=
  if s.work.w = .ack ∧ s.work.t = .ok then s.goto .p6
  else if s.work.w = .ack then s.toExit .px .commFail
  else if s.work.w = .nak then s.toExit .px .badAddr
  else s.toExit .px .commFail

/-- The address-write step of READ (D3) and WRITE (X3): only here a NAK is BadAddr (R265, R267, R275). -/
def State.afterAddr (next : Label) (s : State) : State :=
  if s.work.w = .nak then s.unwind .badAddr
  else if s.work.w ≠ .ack then s.unwind .commFail
  else s.withSub.goto next

/-- Where a caller goes on when its sub-operation finishes with result r. -/
def resume (caller : Label) (r : Result) (s : State) : Host.Outcome State Fault Refusal :=
  match caller with
  -- IDLE_CHECK in a primitive
  | .s1 => .next (s.goto .s2)
  | .g1 => .next (s.goto .g2)
  | .t1 => .next (s.goto .t2)
  | .w1 => .next (s.goto .w2)
  | .b1 => .next (s.goto .b2)
  -- CYCLE_ENABLE in a primitive
  | .sc => .next (s.toPf .busCollision)
  | .gc => .next (s.toPf .busCollision)
  | .tc => .next (s.toPf .busCollision)
  | .wc => .next (s.toPf .busCollision)
  -- POLL
  | .p2 => .next (if r = .ok then (s.keepR r).goto .p3 else (s.keepR r).toExit .px .hardware)
  | .p3 => .next (if r = .ok then (s.keepR r).withAddrWrite.goto .p4 else (s.keepR r).unwind .commFail)
  | .p4 => .next ((s.keepW r).goto .p5)
  | .p5 => .next (s.keepT r).pollClassify
  -- READ
  | .d2 => .next (if r = .ok then (s.keepR r).withAddrWrite.goto .d3 else (s.keepR r).unwind .commFail)
  | .d3 => .next ((s.keepW r).afterAddr .d4)
  | .d4 => .next (if r = .ack then (s.keepW r).goto .d5 else (s.keepW r).unwind .commFail)
  | .d5 => .next (if r = .ok then (s.keepR r).withAddrRead.goto .d6 else (s.keepR r).unwind .commFail)
  | .d6 => .next (if r = .ack then (s.keepW r).startLoop.readLoop else (s.keepW r).unwind .commFail)
  | .d7a =>
    match r with
    | .byte b => .next ({ s.keepR r with work := { (s.keepR r).work with b := b } }.goto .d7b)
    | _ => .next ((s.keepR r).unwind .commFail)
  | .d8 => .next (if r = .ok then (s.keepT r).goto .d9 else (s.keepT r).toExit .dx .commFail)
  -- WRITE
  | .x2 => .next (if r = .ok then (s.keepR r).withAddrWrite.goto .x3 else (s.keepR r).unwind .commFail)
  | .x3 => .next ((s.keepW r).afterAddr .x4)
  | .x4 => .next (if r = .ack then (s.keepW r).startLoop.writeLoop else (s.keepW r).unwind .commFail)
  | .x5b => .next (if r = .ack then (s.keepW r).nextByte.writeLoop else (s.keepW r).unwind .commFail)
  | .x6 => .next (if r = .ok then (s.keepT r).goto .x7 else (s.keepT r).toExit .xx .commFail)
  -- UNWIND: STOP's result is discarded
  | .u1 => .next ((s.keepT r).goto .u2)
  | _ => .fault .noPosition

/-- `finish r` (R13, R15): a sub-operation returns r to its caller; the outermost operation goes to its one
`Complete` action with r. -/
def State.finish (r : Result) (s : State) : Host.Outcome State Fault Refusal :=
  match s.fsm with
  | [] => .fault .noPosition
  | [_] => .next { s with fsm := [.fin], work := { s.work with fin := r } }
  | _ :: caller :: rest => resume caller r { s with fsm := caller :: rest }

end Sys2Proof.Machine
end

