-- ==== Sys2Proof/Machine/Shared.lean ====
section
/-! DEFINITION. The actions of the sub-sequences every primitive uses, CYCLE_ENABLE and IDLE_CHECK (spec/40_register_interface.md R152, R154), the bounded poll (spec/43_primitives.md R228), the failure exit PF (R221), and the `Complete` action (spec/45_host_interface.md R296). -/

namespace Sys2Proof.Machine

/-- E1: CON.ON <- 0. -/
def actE1 (s : State) : Host.Outcome State Fault Refusal := .next ((ctlWriteCon .on false s).goto .e2)

/-- E2: CON.ON <- 1, which clears BCL and IWCOL. -/
def actE2 (s : State) : Host.Outcome State Fault Refusal := (ctlWriteCon .on true s).finish .ok

/-- The primitive whose IDLE_CHECK runs, read off the caller's label. -/
def Label.prim (l : Label) : Option Prim :=
  match l with
  | .s1 => some .start
  | .g1 => some .rstart
  | .t1 => some .stop
  | .w1 => some .wrbyte
  | .b1 => some .rdbyte
  | _ => none

/-- Q1: the CON snapshot. -/
def actQ1 (s : State) : Host.Outcome State Fault Refusal := .next ((ctlReadCon s).goto .q2)

/-- Q2: the STAT snapshot, and whether the controller is idle by the two snapshots. -/
def actQ2 (s : State) : Host.Outcome State Fault Refusal :=
  if notIdle (ctlReadStat s).work.c (ctlReadStat s).work.s then .next ((ctlReadStat s).goto .q3)
  else (ctlReadStat s).finish .ok

/-- Q3: the diagnostic event; the primitive goes on whatever was read. -/
def actQ3 (s : State) : Host.Outcome State Fault Refusal :=
  match s.fsm with
  | _ :: caller :: _ =>
    match caller.prim with
    | some p => (diag p s).finish .ok
    | none => .fault .noPosition
  | _ => .fault .noPosition

/-- One iteration of `POLL_UNTIL(REG, cond, N)` (R228): the read is counted; completion if `done` holds of the
value just read; a timeout if this was read N; otherwise the same line again. -/
def pollUntil (read : State → State) (done : State → Bool) (n : Nat) (onDone onTimeout : State → State) (s : State) :
    State :=
  let s' := (read s).countPoll
  if done s' then onDone s' else if s'.work.k = n then onTimeout s' else s'

/-- The poll of a request bit of CON until it reads 0, with ceiling N_CTL and timeout ClockStuck (S4, G4, T4,
B6). -/
def pollRequest (f : ConField) (onDone : State → State) (s : State) : State :=
  pollUntil ctlReadCon (fun t => t.work.c.cleared f) s.params.nCtl onDone (State.toPf .clockStuck) s

/-- Asserts a request bit (S2, G2, T2, B3, B5). -/
def assertRequest (f : ConField) (s : State) : State := ctlWriteCon f true s

/-- The first collision check, right after the request (S3, G3, T3). -/
def firstCheck (collision poll : Label) (s : State) : State :=
  if (ctlReadStat s).work.s.busCollided then (ctlReadStat s).goto collision else (ctlReadStat s).startPoll.goto poll

/-- The second collision check, after the request completed (S5, G5, T5). -/
def secondCheck (collision : Label) (s : State) : Host.Outcome State Fault Refusal :=
  if (ctlReadStat s).work.s.busCollided then .next ((ctlReadStat s).goto collision) else (ctlReadStat s).finish .ok

/-- PF: DIRTY <- 1, then finish with the error. -/
def actPf (s : State) : Host.Outcome State Fault Refusal := (dirtyWrite true s).finish s.work.e

/-- The Complete action of the outermost operation's result (R296, R297). -/
def actFin (s : State) : Host.Outcome State Fault Refusal :=
  .next (complete s.work.fin.code s.work.fin.data s.nxfer s)

end Sys2Proof.Machine
end

