-- ==== Sys2Proof/Machine/Primitives.lean ====
section
/-! DEFINITION. The actions of the five primitives START, RSTART, STOP, WRBYTE and RDBYTE (spec/43_primitives.md). -/

namespace Sys2Proof.Machine

/-! ## START (R222) -/

/-- S2: the request. -/
def actS2 (s : State) : Host.Outcome State Fault Refusal := .next ((assertRequest .sen s).goto .s3)

/-- S3: the first collision check. -/
def actS3 (s : State) : Host.Outcome State Fault Refusal := .next (firstCheck .sc .s4 s)

/-- S4: poll SEN. -/
def actS4 (s : State) : Host.Outcome State Fault Refusal := .next (pollRequest .sen (State.goto .s5) s)

/-- S5: the second collision check. -/
def actS5 (s : State) : Host.Outcome State Fault Refusal := secondCheck .sc s

/-! ## RSTART (R226) -/

/-- G2: the request. -/
def actG2 (s : State) : Host.Outcome State Fault Refusal := .next ((assertRequest .rsen s).goto .g3)

/-- G3: the first collision check. -/
def actG3 (s : State) : Host.Outcome State Fault Refusal := .next (firstCheck .gc .g4 s)

/-- G4: poll RSEN. -/
def actG4 (s : State) : Host.Outcome State Fault Refusal := .next (pollRequest .rsen (State.goto .g5) s)

/-- G5: the second collision check. -/
def actG5 (s : State) : Host.Outcome State Fault Refusal := secondCheck .gc s

/-! ## STOP (R230) -/

/-- T2: the request. -/
def actT2 (s : State) : Host.Outcome State Fault Refusal := .next ((assertRequest .pen s).goto .t3)

/-- T3: the first collision check. -/
def actT3 (s : State) : Host.Outcome State Fault Refusal := .next (firstCheck .tc .t4 s)

/-- T4: poll PEN. -/
def actT4 (s : State) : Host.Outcome State Fault Refusal := .next (pollRequest .pen (State.goto .t5) s)

/-- T5: the second collision check. -/
def actT5 (s : State) : Host.Outcome State Fault Refusal := secondCheck .tc s

/-! ## WRBYTE (R235) -/

/-- W2: a byte still queued is TransmitBufferFull, before any bus activity (R236). -/
def actW2 (s : State) : Host.Outcome State Fault Refusal :=
  .next (if (ctlReadStat s).work.s.tbf then (ctlReadStat s).toPf .transmitBufferFull else (ctlReadStat s).goto .w3)

/-- W3: the byte goes to the outgoing register. -/
def actW3 (s : State) : Host.Outcome State Fault Refusal := .next ((ctlWriteTrn s.work.v s).startPoll.goto .w4)

/-- W4: poll transmit-in-progress, ceiling N_XFER, timeout ClockStuck (R237). -/
def actW4 (s : State) : Host.Outcome State Fault Refusal :=
  .next (pollUntil ctlReadStat (fun t => !t.work.s.trstat) s.params.nXfer (State.goto .w5) (State.toPf .clockStuck) s)

/-- W5: a collision wins over the acknowledge bit (R238). -/
def actW5 (s : State) : Host.Outcome State Fault Refusal :=
  if (ctlReadStat s).work.s.writeCollided then .next ((ctlReadStat s).goto .wc)
  else if (ctlReadStat s).work.s.ackstat then .next ((ctlReadStat s).toPf .nak)
  else (ctlReadStat s).finish .ack

/-! ## RDBYTE (R240) -/

/-- B2: the acknowledge value to send (R241). -/
def actB2 (s : State) : Host.Outcome State Fault Refusal := .next ((ctlWriteCon .ackdt (ackdtOf s.work.ack) s).goto .b3)

/-- B3: receive-enable. -/
def actB3 (s : State) : Host.Outcome State Fault Refusal := .next ((assertRequest .rcen s).startPoll.goto .b4)

/-- B4: poll receive-buffer-full, ceiling N_XFER, timeout ReceiveTimeout (R242). -/
def actB4 (s : State) : Host.Outcome State Fault Refusal :=
  .next (pollUntil ctlReadStat (fun t => t.work.s.rbf) s.params.nXfer (State.goto .b5) (State.toPf .receiveTimeout) s)

/-- B5: acknowledge-enable. -/
def actB5 (s : State) : Host.Outcome State Fault Refusal := .next ((assertRequest .acken s).startPoll.goto .b6)

/-- B6: poll the self-clear of ACKEN (R242). -/
def actB6 (s : State) : Host.Outcome State Fault Refusal := .next (pollRequest .acken (State.goto .b7) s)

/-- B7: the overflow check; on overflow RCV is not read (R243). -/
def actB7 (s : State) : Host.Outcome State Fault Refusal :=
  .next (if (ctlReadStat s).work.s.i2cov then (ctlReadStat s).toPf .receiveOverflow else (ctlReadStat s).goto .b8)

/-- B8: the byte, which clears RBF. -/
def actB8 (s : State) : Host.Outcome State Fault Refusal := (ctlReadRcv s).finish (.byte (ctlReadRcv s).work.b)

end Sys2Proof.Machine
end

