-- ==== Sys2Proof/Machine/Recovery.lean ====
section
/-! DEFINITION. The actions of the stuck-line recovery FSM, RECOVER (spec/42_recovery.md R200). -/

namespace Sys2Proof.Machine

/-- V6, the head of the toggle loop: exactly N_REC iterations (R203). -/
def State.recoverLoop (s : State) : State := if s.work.j < s.params.nRec then s.goto .v6a else s.goto .v7

/-- `j <- 0`. -/
def State.startToggles (s : State) : State := { s with work := { s.work with j := 0 } }

/-- `j <- j + 1`. -/
def State.nextToggle (s : State) : State := { s with work := { s.work with j := s.work.j + 1 } }

/-- V1: the controller is disabled, so the lines are the LINE port's. -/
def actV1 (s : State) : Host.Outcome State Fault Refusal := .next ((ctlWriteCon .on false s).goto .v2)

/-- V2: release SDA. -/
def actV2 (s : State) : Host.Outcome State Fault Refusal := .next ((lineDrive .sda true s).goto .v3)

/-- V3: release SCL. -/
def actV3 (s : State) : Host.Outcome State Fault Refusal := .next ((lineDrive .scl true s).goto .v4)

/-- V4: the fixed short delay. -/
def actV4 (s : State) : Host.Outcome State Fault Refusal := .next ((delay s).goto .v5)

/-- V5: SCL must read 1 (R202). -/
def actV5 (s : State) : Host.Outcome State Fault Refusal :=
  .next (if (lineSense .scl s).work.x then (lineSense .scl s).startToggles.recoverLoop else (lineSense .scl s).toVf .sclLow)

/-- V6a: sample SDA; an iteration that reads 1 toggles nothing. -/
def actV6a (s : State) : Host.Outcome State Fault Refusal :=
  .next (if (lineSense .sda s).work.y then (lineSense .sda s).nextToggle.recoverLoop else (lineSense .sda s).goto .v6b)

/-- V6b: SCL low. -/
def actV6b (s : State) : Host.Outcome State Fault Refusal := .next ((lineDrive .scl false s).goto .v6c)

/-- V6c: delay. -/
def actV6c (s : State) : Host.Outcome State Fault Refusal := .next ((delay s).goto .v6d)

/-- V6d: SCL high. -/
def actV6d (s : State) : Host.Outcome State Fault Refusal := .next ((lineDrive .scl true s).goto .v6e)

/-- V6e: delay; the next iteration. -/
def actV6e (s : State) : Host.Outcome State Fault Refusal := .next (delay s).nextToggle.recoverLoop

/-- V7: sense SCL. -/
def actV7 (s : State) : Host.Outcome State Fault Refusal := .next ((lineSense .scl s).goto .v8)

/-- V8: sense SDA; either line low is SDA_low (R204). -/
def actV8 (s : State) : Host.Outcome State Fault Refusal :=
  .next (if (lineSense .sda s).work.x && (lineSense .sda s).work.y then (lineSense .sda s).goto .v9
    else (lineSense .sda s).toVf .sdaLow)

/-- V9: SDA falls while SCL is high, a start condition. -/
def actV9 (s : State) : Host.Outcome State Fault Refusal := .next ((lineDrive .sda false s).goto .v10)

/-- V10: hold. -/
def actV10 (s : State) : Host.Outcome State Fault Refusal := .next ((delay s).goto .v11)

/-- V11: SDA rises while SCL is high, a stop condition. -/
def actV11 (s : State) : Host.Outcome State Fault Refusal := .next ((lineDrive .sda true s).goto .v12)

/-- V12: delay. -/
def actV12 (s : State) : Host.Outcome State Fault Refusal := .next ((delay s).goto .v13)

/-- V13: sense SCL. -/
def actV13 (s : State) : Host.Outcome State Fault Refusal := .next ((lineSense .scl s).goto .v14)

/-- V14: sense SDA; SCL low is SCL_low, else SDA low is SDA_low (R206). -/
def actV14 (s : State) : Host.Outcome State Fault Refusal :=
  .next (if !(lineSense .sda s).work.x then (lineSense .sda s).toVf .sclLow
    else if !(lineSense .sda s).work.y then (lineSense .sda s).toVf .sdaLow
    else (lineSense .sda s).goto .v15)

/-- V15: the controller is enabled again. -/
def actV15 (s : State) : Host.Outcome State Fault Refusal := .next ((ctlWriteCon .on true s).goto .v16)

/-- V16: DIRTY <- 0. -/
def actV16 (s : State) : Host.Outcome State Fault Refusal := (dirtyWrite false s).finish .ok

/-- VF: DIRTY <- 1; CON.ON stays 0 (R207). -/
def actVf (s : State) : Host.Outcome State Fault Refusal := (dirtyWrite true s).finish s.work.e

end Sys2Proof.Machine
end

