-- ==== Sys2Proof/Machine/Setup.lean ====
section
/-! DEFINITION. The actions of INIT and MODSTART (spec/45_host_interface.md R300, R302). -/

namespace Sys2Proof.Machine

/-- I1: release SCL. -/
def actI1 (s : State) : Host.Outcome State Fault Refusal := .next ((lineDrive .scl true s).goto .i2)

/-- I2: release SDA. -/
def actI2 (s : State) : Host.Outcome State Fault Refusal := .next ((lineDrive .sda true s).goto .i3)

/-- I3: DIRTY <- 1. -/
def actI3 (s : State) : Host.Outcome State Fault Refusal := (dirtyWrite true s).finish .ok

/-- M1: the clock divisor. -/
def actM1 (s : State) : Host.Outcome State Fault Refusal := .next ((ctlWriteBrg Config.brgInit s).goto .m2)

/-- M2: the slew-rate bit. -/
def actM2 (s : State) : Host.Outcome State Fault Refusal := .next ((ctlWriteCon .slew Config.slewInit s).goto .m3)

/-- M3: the interrupt-enable bit is left clear. -/
def actM3 (s : State) : Host.Outcome State Fault Refusal := .next ((ctlWriteCon .ie false s).goto .m4)

/-- M4: the controller is enabled. -/
def actM4 (s : State) : Host.Outcome State Fault Refusal := (ctlWriteCon .on true s).finish .ok

end Sys2Proof.Machine
end

