-- ==== Sys2Proof/Machine/Transfers.lean ====
section
/-! DEFINITION. The actions the transfers POLL, READ and WRITE perform themselves (spec/44_transfers.md); what they do with a sub-operation's result is `resume` (Sys2Proof/Machine/Sequencer.lean). -/

namespace Sys2Proof.Machine

/-! ## UNWIND (R270) -/

/-- U2: DIRTY <- 1, then finish with the error being unwound for. -/
def actU2 (s : State) : Host.Outcome State Fault Refusal := (dirtyWrite true s).finish s.work.xe

/-! ## POLL (R260) -/

/-- P1: a dirty bus is recovered first. -/
def actP1 (s : State) : Host.Outcome State Fault Refusal :=
  .next (if (dirtyRead s).work.d then (dirtyRead s).goto .p2 else (dirtyRead s).goto .p3)

/-- P6: the success exit (R261). -/
def actP6 (s : State) : Host.Outcome State Fault Refusal := (dirtyWrite false s).finish .ok

/-- PX: the plain failure exit (R271). -/
def actPx (s : State) : Host.Outcome State Fault Refusal := (dirtyWrite true s).finish s.work.xe

/-! ## READ (R265) -/

/-- D1: a dirty bus is refused with BusDirty, with no bus activity. -/
def actD1 (s : State) : Host.Outcome State Fault Refusal :=
  .next (if (dirtyRead s).work.d then (dirtyRead s).toExit .dx .busDirty else (dirtyRead s).goto .d2)

/-- D7b: the byte is stored, and the loop goes on. -/
def actD7b (s : State) : Host.Outcome State Fault Refusal := andThen (memWrite s) fun t => .next t.nextByte.readLoop

/-- D9: the success exit (R266). -/
def actD9 (s : State) : Host.Outcome State Fault Refusal := (dirtyWrite false s).finish .ok

/-- DX: the plain failure exit (R271). -/
def actDx (s : State) : Host.Outcome State Fault Refusal := (dirtyWrite true s).finish s.work.xe

/-! ## WRITE (R275) -/

/-- X1: a dirty bus is refused with BusDirty, with no bus activity. -/
def actX1 (s : State) : Host.Outcome State Fault Refusal :=
  .next (if (dirtyRead s).work.d then (dirtyRead s).toExit .xx .busDirty else (dirtyRead s).goto .x2)

/-- X5a: the next byte is read from BUF. -/
def actX5a (s : State) : Host.Outcome State Fault Refusal := andThen (memRead s) fun t => .next (t.goto .x5b)

/-- X7: the success exit (R276). -/
def actX7 (s : State) : Host.Outcome State Fault Refusal := (dirtyWrite false s).finish .ok

/-- XX: the plain failure exit (R271). -/
def actXx (s : State) : Host.Outcome State Fault Refusal := (dirtyWrite true s).finish s.work.xe

end Sys2Proof.Machine
end

