-- ==== Sys2Proof/Machine/Engine.lean ====
section
/-! DEFINITION. The Engine: the action at each FSM position (spec/10_state.md R32), one agent's step while a command runs (spec/20_memory.md R93, spec/45_host_interface.md R295), and the run of a command. -/

namespace Sys2Proof.Machine

/-- The action at a label. A line that calls a sub-operation is no action: its callee's label stands on top of
it (`Label.opened`). -/
def actAt (l : Label) (s : State) : Host.Outcome State Fault Refusal :=
  match l with
  | .i1 => actI1 s
  | .i2 => actI2 s
  | .i3 => actI3 s
  | .m1 => actM1 s
  | .m2 => actM2 s
  | .m3 => actM3 s
  | .m4 => actM4 s
  | .e1 => actE1 s
  | .e2 => actE2 s
  | .q1 => actQ1 s
  | .q2 => actQ2 s
  | .q3 => actQ3 s
  | .v1 => actV1 s
  | .v2 => actV2 s
  | .v3 => actV3 s
  | .v4 => actV4 s
  | .v5 => actV5 s
  | .v6a => actV6a s
  | .v6b => actV6b s
  | .v6c => actV6c s
  | .v6d => actV6d s
  | .v6e => actV6e s
  | .v7 => actV7 s
  | .v8 => actV8 s
  | .v9 => actV9 s
  | .v10 => actV10 s
  | .v11 => actV11 s
  | .v12 => actV12 s
  | .v13 => actV13 s
  | .v14 => actV14 s
  | .v15 => actV15 s
  | .v16 => actV16 s
  | .vf => actVf s
  | .s2 => actS2 s
  | .s3 => actS3 s
  | .s4 => actS4 s
  | .s5 => actS5 s
  | .g2 => actG2 s
  | .g3 => actG3 s
  | .g4 => actG4 s
  | .g5 => actG5 s
  | .t2 => actT2 s
  | .t3 => actT3 s
  | .t4 => actT4 s
  | .t5 => actT5 s
  | .w2 => actW2 s
  | .w3 => actW3 s
  | .w4 => actW4 s
  | .w5 => actW5 s
  | .b2 => actB2 s
  | .b3 => actB3 s
  | .b4 => actB4 s
  | .b5 => actB5 s
  | .b6 => actB6 s
  | .b7 => actB7 s
  | .b8 => actB8 s
  | .pf => actPf s
  | .p1 => actP1 s
  | .p6 => actP6 s
  | .px => actPx s
  | .d1 => actD1 s
  | .d7b => actD7b s
  | .d9 => actD9 s
  | .dx => actDx s
  | .x1 => actX1 s
  | .x5a => actX5a s
  | .x7 => actX7 s
  | .xx => actXx s
  | .u2 => actU2 s
  | .fin => actFin s
  | .s1 | .g1 | .t1 | .w1 | .b1 | .sc | .gc | .tc | .wc | .p2 | .p3 | .p4 | .p5 | .d2 | .d3 | .d4 | .d5 | .d6 | .d7a | .d8 | .x2 | .x3 | .x4 | .x5b | .x6 | .u1 =>
    .fault .noPosition

/-- One Engine step: the action at the FSM position (R14, R32, R295). -/
def act (s : State) : Host.Outcome State Fault Refusal :=
  match s.fsm with
  | [] => .fault .noPosition
  | l :: _ => actAt l s

/-- The events at which a step of the model ends (log 1). -/
def Event.isBoundary (e : Event) : Bool :=
  match e with
  | .hostNarrow | .reset _ | .pause => true
  | .engine | .env _ | .hostRead _ | .hostWrite _ _ | .hostWait => false

/-- The next event is one at which a step of the model ends. -/
def State.atBoundary (s : State) : Bool :=
  match s.inputs with
  | [] => false
  | e :: _ => e.isBoundary

/-- The state with the rest of its schedule. -/
def State.withInputs (rest : List Event) (s : State) : State := { s with inputs := rest }

/-- One agent's step while a command runs (R93, R295): the next event of the schedule. With none left, or with
the Host waiting, the Engine goes on. A boundary event is left where it is. -/
def tick (s : State) : Host.Outcome State Fault Refusal :=
  match s.inputs with
  | [] => act s
  | .engine :: rest => act (s.withInputs rest)
  | .env e :: rest => .next (envStep e (s.withInputs rest))
  | .hostRead off :: rest => .next (hostRead off (s.withInputs rest))
  | .hostWrite off w :: rest => .next (hostWrite off w (s.withInputs rest))
  | .hostWait :: _ => act s
  | .hostNarrow :: _ => .next s
  | .reset _ :: _ => .next s
  | .pause :: _ => .next s

/-- The running command goes on to its `Complete`, or to a boundary event, within a number of agents' steps. -/
def run (fuel : Nat) (s : State) : Host.Outcome State Fault Refusal :=
  match fuel with
  | 0 => .next s
  | n + 1 => if !s.busy || s.atBoundary then .next s else andThen (tick s) (run n)

/-- B_REC of R285. -/
def recoverBound (p : Params) : Nat := 5 * p.nRec + 15

/-- B_C of R285: START, RSTART, STOP (R248). -/
def requestBound (p : Params) : Nat := p.nCtl + 9

/-- B_W of R285: WRBYTE (R248). -/
def wrbyteBound (p : Params) : Nat := p.nXfer + 9

/-- B_R of R285: RDBYTE (R248). -/
def rdbyteBound (p : Params) : Nat := p.nXfer + p.nCtl + 8

/-- At least the Engine actions of any command, its Complete included (R285, R341): a READ of a full buffer, and
more than a POLL and a WRITE. -/
def commandBound (p : Params) : Nat :=
  recoverBound p + 4 * requestBound p + 4 * wrbyteBound p +
    Config.bufCap * (rdbyteBound p + 1 + wrbyteBound p + 1) + 8

/-- Enough agents' steps for the command that runs: the events of the schedule and the Engine's actions. -/
def State.fuel (s : State) : Nat := s.inputs.length + commandBound s.params

/-- The running command goes on to its `Complete`, or to a boundary event (log 1). -/
def runCommand (s : State) : Host.Outcome State Fault Refusal := run s.fuel s

end Sys2Proof.Machine
end

