-- ==== Sys2Proof/Machine/Commands.lean ====
section
/-! DEFINITION. What a submission does: acceptance, rejection, or the drop while BUSY = 1 (spec/45_host_interface.md R292, R293, R299), and the run of the accepted operation. -/

namespace Sys2Proof.Machine

/-- Acceptance (R292): the operands are latched, RES <- 0, BUSY <- 1, FSM <- the operation's first label. NX
starts at 0, so that a failure before the data loop reports none (R297; log 10), and the operands of a directly
issued WRBYTE or RDBYTE are DATA8 and ACK (R235, R240). -/
def accept (u : Submission) (s : State) : State :=
  { s with
    latch := u.latched s
    res := {}
    busy := true
    fsm := u.entry.opened
    work := { s.work with nx := 0, v := (u.latched s).data8, ack := (u.latched s).ack } }

/-- Rejection: RES <- ILLEGAL_COMMAND and no Engine action (R116, R117, R299). -/
def reject (s : State) : State := { s with res := { code := Result.illegalCommand.code, data := 0, nxfer := 0 } }

/-- A submission of a command other than READ and WRITE: dropped while BUSY = 1, else accepted and run. -/
def perform (u : Submission) (s : State) : Host.Outcome State Fault Refusal :=
  if s.busy then .next (hostDropped s) else runCommand (accept u s)

/-- A submission of READ or WRITE: rejected if COUNT > BUF_CAP (R117). -/
def performCounted (u : Submission) (s : State) : Host.Outcome State Fault Refusal :=
  if s.busy then .next (hostDropped s)
  else if countTooLarge s then .next (reject s)
  else runCommand (accept u s)

end Sys2Proof.Machine
end

