-- ==== Sys2Proof/Machine/PrimitiveCommands.lean ====
section
/-! DEFINITION. The meanings of the primitives issued as commands (spec/45_host_interface.md R304). -/

namespace Sys2Proof.Machine

/-- START (R222): S1 to S5 (`actS2` and on). -/
def execStart (s : State) : Host.Outcome State Fault Refusal := perform { op := 0x8#4, entry := .s1 } s

/-- RSTART (R226): G1 to G5 (`actG2` and on). -/
def execRstart (s : State) : Host.Outcome State Fault Refusal := perform { op := 0x9#4, entry := .g1 } s

/-- STOP (R230): T1 to T5 (`actT2` and on). -/
def execStop (s : State) : Host.Outcome State Fault Refusal := perform { op := 0xA#4, entry := .t1 } s

/-- WRBYTE v (R235): W1 to W5 (`actW2` and on), with v in DATA8. -/
def execWrbyte (v : Byte) (s : State) : Host.Outcome State Fault Refusal :=
  perform { op := 0x6#4, data8 := some v, entry := .w1 } s

/-- RDBYTE ack (R240): B1 to B8 (`actB2` and on), with ack in ACK. -/
def execRdbyte (ack : Bool) (s : State) : Host.Outcome State Fault Refusal :=
  perform { op := 0x7#4, ack := some ack, entry := .b1 } s

end Sys2Proof.Machine
end

