-- ==== Sys2Proof/Machine/SetupCommands.lean ====
section
/-! DEFINITION. The meanings of the machine-management commands INIT, MODSTART and RECOVER (spec/60_exceptions.md R343). -/

namespace Sys2Proof.Machine

/-- INIT (R300): I1, I2, I3 (`actI1` and on); result Ok. -/
def execInit (s : State) : Host.Outcome State Fault Refusal := perform { op := 0x1#4, entry := .i1 } s

/-- MODSTART (R302): M1 to M4 (`actM1` and on); result Ok. -/
def execModstart (s : State) : Host.Outcome State Fault Refusal := perform { op := 0x2#4, entry := .m1 } s

/-- RECOVER (R200): V1 to V16 or VF (`actV1` and on); result Ok, SCL_low or SDA_low. -/
def execRecover (s : State) : Host.Outcome State Fault Refusal := perform { op := 0xB#4, entry := .v1 } s

end Sys2Proof.Machine
end

