-- ==== Sys2Proof/Machine/TransferCommands.lean ====
section
/-! DEFINITION. The meanings of the transfers (spec/44_transfers.md). -/

namespace Sys2Proof.Machine

/-- POLL a (R260): P1 to P6, PX or UNWIND (`actP1`, `resume` and on). -/
def execPoll (a : BitVec 7) (s : State) : Host.Outcome State Fault Refusal :=
  perform { op := 0x3#4, addr7 := some a, entry := .p1 } s

/-- READ a, sub (R265): D1 to D9, DX or UNWIND (`actD1`, `resume` and on). -/
def execRead (a : BitVec 7) (sub : Byte) (s : State) : Host.Outcome State Fault Refusal :=
  performCounted { op := 0x4#4, data8 := some sub, addr7 := some a, entry := .d1 } s

/-- WRITE a, sub (R275): X1 to X7, XX or UNWIND (`actX1`, `resume` and on). -/
def execWrite (a : BitVec 7) (sub : Byte) (s : State) : Host.Outcome State Fault Refusal :=
  performCounted { op := 0x5#4, data8 := some sub, addr7 := some a, entry := .x1 } s

end Sys2Proof.Machine
end

