-- ==== Sys2Proof/Machine/Dispatch.lean ====
section
/-! DEFINITION. The command dispatch: one arm for each constructor of Instr (spec/30_encoding.md R113). -/

namespace Sys2Proof.Machine

def exec (i : Instr) (s : State) : Host.Outcome State Fault Refusal :=
  match i with
  | .init => Sys2Proof.Machine.execInit s
  | .modstart => Sys2Proof.Machine.execModstart s
  | .poll addr7 => Sys2Proof.Machine.execPoll addr7 s
  | .read addr7 sub8 => Sys2Proof.Machine.execRead addr7 sub8 s
  | .write addr7 sub8 => Sys2Proof.Machine.execWrite addr7 sub8 s
  | .wrbyte byte8 => Sys2Proof.Machine.execWrbyte byte8 s
  | .rdbyte ack => Sys2Proof.Machine.execRdbyte ack s
  | .start => Sys2Proof.Machine.execStart s
  | .rstart => Sys2Proof.Machine.execRstart s
  | .stop => Sys2Proof.Machine.execStop s
  | .recover => Sys2Proof.Machine.execRecover s

end Sys2Proof.Machine
end

