-- ==== Sys2Proof/Machine/Submit.lean ====
section
/-! DEFINITION. The submission of a command word (spec/45_host_interface.md R292), what an event does while no command runs, and the body of the step. -/

namespace Sys2Proof.Machine

/-- The submission of the word just stored in CMD, while BUSY = 0 (R292): an illegal word is rejected (R116),
any other is the command it encodes. -/
def submit (w : Word) (s : State) : Host.Outcome State Fault Refusal :=
  match decode w with
  | .error _ => .next (reject s)
  | .ok i => exec i s

/-- A Host write while BUSY = 0: a word stored in CMD is submitted in the same step (R292). -/
def idleWrite (off : BitVec 9) (w : Word) (s : State) : Host.Outcome State Fault Refusal :=
  match hostReg off with
  | .cmd => submit w (hostWrite off w s)
  | .res | .estat | .count | .unmapped | .bufWord _ => .next (hostWrite off w s)

/-- The window offset of ESTAT (R80). -/
def estatOffset : BitVec 9 := 0x008

/-- An event while no command runs. The Engine takes no step (R6); a WAIT ends, and its last read of ESTAT goes
to the Host (R126; log 14). -/
def idleEvent (e : Event) (s : State) : Host.Outcome State Fault Refusal :=
  match e with
  | .engine => .next s
  | .env e => .next (envStep e s)
  | .hostRead off => .next (hostRead off s)
  | .hostWrite off w => idleWrite off w s
  | .hostWait => .next (hostRead estatOffset s)
  | .hostNarrow => .refused .hostWidth
  | .reset d => .next (resetBlock d s)
  | .pause => .next s

/-- The running command goes on, if there is one. -/
def goOn (s : State) : Host.Outcome State Fault Refusal := if s.busy then runCommand s else .next s

/-- The body of the step (log 1). An idle block with nothing scheduled performs no action (R347). -/
def stepBody (s : State) : Host.Outcome State Fault Refusal :=
  match s.inputs with
  | [] => goOn s
  | .pause :: rest => goOn (s.withInputs rest)
  | .reset d :: rest => .next (resetBlock d (s.withInputs rest))
  | .hostNarrow :: _ => .refused .hostWidth
  | e :: rest => if s.busy then runCommand s else idleEvent e (s.withInputs rest)

/-- s about to fetch the command word w: idle, with the Host's write of w to CMD as its next event. -/
def offerWord (w : Word) (s : State) : State :=
  { s with busy := false, fsm := [], inputs := .hostWrite 0x000 w :: s.inputs }

/-- The word an opcode-table row's bits stand for, offered to the next step. -/
def offerTableWord (nbits w : Nat) (s : State) : State := offerWord (BitVec.ofNat 32 (w % 2 ^ nbits)) s

end Sys2Proof.Machine
end

