-- ==== Sys2Proof/Machine/Step.lean ====
section
/-! DEFINITION. The step, with its three outcomes. The block fetches no instructions (spec/10_state.md R31, spec/20_memory.md R98): a command comes from the Host's write to CMD (log 16). -/

namespace Sys2Proof.Machine

/-- One step: the next event of the schedule, and with an accepted command its run to `Complete` or to a
boundary event (log 1). -/
def step (s : State) : Host.Outcome State Fault Refusal := Sys2Proof.Machine.stepBody s

/-- s with a command word stored where the next step takes its command from: the Host's write to CMD (log 16). -/
def State.withFetchWord (s : State) (nbits w : Nat) : State := Sys2Proof.Machine.offerTableWord nbits w s

end Sys2Proof.Machine
end

