-- ==== Sys2Proof/Machine/HostProgram.lean ====
section
/-! DEFINITION. The Host's side: the command syntax and the branch-free pseudo-instructions as fragments of the schedule (spec/30_encoding.md R125, R126). A Host program's branches run on the Host and are no part of the block (R31). -/

namespace Sys2Proof.Machine

/-- A command in the assembler syntax, operands in decimal (R125). -/
def Instr.asm (i : Instr) : String :=
  match i with
  | .init => "INIT"
  | .modstart => "MODSTART"
  | .poll a => "POLL " ++ toString a.toNat
  | .read a sub => "READ " ++ toString a.toNat ++ ", " ++ toString sub.toNat
  | .write a sub => "WRITE " ++ toString a.toNat ++ ", " ++ toString sub.toNat
  | .wrbyte v => "WRBYTE " ++ toString v.toNat
  | .rdbyte ack => if ack then "RDBYTE ACK" else "RDBYTE NAK"
  | .start => "START"
  | .rstart => "RSTART"
  | .stop => "STOP"
  | .recover => "RECOVER"

/-- `DO <cmd>`: the command's word to CMD, then WAIT (R126). -/
def hostDo (i : Instr) : List Event := [.hostWrite 0x000 (encode i), .hostWait]

/-- `XREAD a, sub, n` (R126). -/
def hostXread (a : BitVec 7) (sub : Byte) (n : Word) : List Event := .hostWrite 0x00C n :: hostDo (.read a sub)

/-- `XWRITE a, sub, n` (R126). -/
def hostXwrite (a : BitVec 7) (sub : Byte) (n : Word) : List Event := .hostWrite 0x00C n :: hostDo (.write a sub)

/-- The window offset of word k of the BUF window, k ≤ 63 (R80). DESIGN CHOICE (log 20): R80 leaves what lies beyond
offset 0x1FF OPEN; the model takes the offset modulo the window's 512 bytes, so a k ≥ 64 names another word of the window. -/
def bufOffset (k : Nat) : BitVec 9 := BitVec.ofNat 9 (0x100 + 4 * k)

/-- `FILL k, w` (R126), k ≤ 63; for a greater k see `bufOffset` (log 20). -/
def hostFill (k : Nat) (w : Word) : List Event := [.hostWrite (bufOffset k) w]

/-- `CLRERR` (R126). -/
def hostClrErr : List Event := [.hostWrite 0x008 0x00000004]

/-- `RESULT -> r` (R126): the word read is the newest of `State.hostLog`. -/
def hostResult : List Event := [.hostRead 0x004]

end Sys2Proof.Machine
end

