-- ==== Sys2Proof/Safety.lean ====
section
/-! DEFINITION. The terms claims use: bus activity (spec/10_state.md R49), the ordinary schedules, and the invariant of the machine: where the Engine can stand, and what holds there. -/

namespace Sys2Proof.Machine

/-! ## Outcomes, schedules, history -/

/-- The parameters are positive integers (R10). -/
abbrev paramsPositive (p : Params) : Prop := 0 < p.nCtl ∧ 0 < p.nXfer ∧ 0 < p.nRec

/-- A schedule of Host accesses, Environment steps and Engine turns alone: no reset, no access of another width,
no pause. Over such a schedule a command runs to its `Complete` in one step. -/
abbrev ordinary (evs : List Event) : Prop := ∀ e ∈ evs, e.isBoundary = false

/-- Bus activity (R49). -/
def Action.isBusActivity (a : Action) : Bool :=
  match a with
  | .writeCon f _ => decide (f ∈ [ConField.sen, .rsen, .pen, .rcen, .acken, .on])
  | .writeTrn _ | .lineDrive _ _ => true
  | .readCon _ | .readStat _ | .readRcv _ | .writeBrg _ | .lineSense _ _ | .delay _ | .diag _ | .dirtyWrite _
  | .dirtyRead _ | .memRead _ _ | .memWrite _ _ | .complete _ _ _ => false

/-- The result is an error: neither a success value nor NONE (R320). -/
def Result.isError (r : Result) : Bool :=
  match r with
  | .none | .ok | .ack | .byte _ => false
  | .nak | .busCollision | .clockStuck | .transmitBufferFull | .receiveOverflow | .receiveTimeout | .sclLow | .sdaLow
  | .hardware | .badAddr | .busDirty | .commFail | .illegalCommand => true

/-- The results each command can end with (R321, column "returned by"), by OP. -/
def resultOf (op : BitVec 4) (r : Result) : Bool :=
  match op.toNat with
  | 0x1 | 0x2 => decide (r = .ok)
  | 0x3 => decide (r ∈ [Result.ok, .badAddr, .commFail, .hardware])
  | 0x4 | 0x5 => decide (r ∈ [Result.ok, .badAddr, .busDirty, .commFail])
  | 0x6 => decide (r ∈ [Result.ack, .nak, .busCollision, .clockStuck, .transmitBufferFull])
  | 0x7 =>
    match r with
    | .byte _ | .receiveOverflow | .receiveTimeout | .clockStuck => true
    | _ => false
  | 0x8 | 0x9 | 0xA => decide (r ∈ [Result.ok, .busCollision, .clockStuck])
  | 0xB => decide (r ∈ [Result.ok, .sclLow, .sdaLow])
  | _ => false

/-- The most Engine actions a command performs before its `Complete` (R341, R285); n is the byte count of READ
and WRITE. -/
def actionBound (p : Params) (n : Nat) (i : Instr) : Nat :=
  match i with
  | .init => 3
  | .modstart => 4
  | .start | .rstart | .stop => requestBound p
  | .wrbyte _ => wrbyteBound p
  | .rdbyte _ => rdbyteBound p
  | .recover => recoverBound p
  | .poll _ => 1 + recoverBound p + requestBound p + wrbyteBound p + requestBound p + 1
  | .read _ _ => 1 + 2 * requestBound p + 3 * wrbyteBound p + n * (rdbyteBound p + 1) + requestBound p + 1
  | .write _ _ => 1 + requestBound p + 2 * wrbyteBound p + n * (1 + wrbyteBound p) + requestBound p + 1

/-! ## Where the Engine can stand (R32, R351) -/

/-- The labels of the operation whose first label is given; PF belongs to every primitive, UNWIND to every
transfer. -/
def Label.body (first : Label) : List Label :=
  match first with
  | .i1 => [.i1, .i2, .i3]
  | .m1 => [.m1, .m2, .m3, .m4]
  | .e1 => [.e1, .e2]
  | .q1 => [.q1, .q2, .q3]
  | .v1 => [.v1, .v2, .v3, .v4, .v5, .v6a, .v6b, .v6c, .v6d, .v6e, .v7, .v8, .v9, .v10, .v11, .v12, .v13, .v14, .v15, .v16, .vf]
  | .s1 => [.s1, .s2, .s3, .s4, .s5, .sc, .pf]
  | .g1 => [.g1, .g2, .g3, .g4, .g5, .gc, .pf]
  | .t1 => [.t1, .t2, .t3, .t4, .t5, .tc, .pf]
  | .w1 => [.w1, .w2, .w3, .w4, .w5, .wc, .pf]
  | .b1 => [.b1, .b2, .b3, .b4, .b5, .b6, .b7, .b8, .pf]
  | .p1 => [.p1, .p2, .p3, .p4, .p5, .p6, .px, .u1, .u2]
  | .d1 => [.d1, .d2, .d3, .d4, .d5, .d6, .d7a, .d7b, .d8, .d9, .dx, .u1, .u2]
  | .x1 => [.x1, .x2, .x3, .x4, .x5a, .x5b, .x6, .x7, .xx, .u1, .u2]
  | _ => []

/-- The first label of the operation an OP starts (R113, R292). -/
def entryOf (op : BitVec 4) : Option Label :=
  match op.toNat with
  | 0x1 => some .i1
  | 0x2 => some .m1
  | 0x3 => some .p1
  | 0x4 => some .d1
  | 0x5 => some .x1
  | 0x6 => some .w1
  | 0x7 => some .b1
  | 0x8 => some .s1
  | 0x9 => some .g1
  | 0xA => some .t1
  | 0xB => some .v1
  | _ => none

/-- Label m can stand above label l: it is a label of the sub-operation l calls. -/
def Label.calls (l m : Label) : Bool :=
  match l.callee with
  | some first => decide (m ∈ first.body)
  | none => false

/-- Label l can stand at the bottom: it is a label of the running command, or `Complete`'s. -/
def bottomOk (op : BitVec 4) (l : Label) : Bool :=
  match entryOf op with
  | some first => decide (l ∈ first.body) || decide (l = .fin)
  | none => false

/-- A label stack: at the bottom a label of the running command, and above each label one of the sub-operation
it calls. -/
def stackOk (op : BitVec 4) (stack : List Label) : Bool :=
  match stack with
  | [] => true
  | [l] => bottomOk op l
  | m :: l :: rest => l.calls m && stackOk op (l :: rest)

/-- The deepest label is an action, not a call. -/
def topOk (stack : List Label) : Bool :=
  match stack with
  | [] => true
  | l :: _ => l.callee.isNone

/-- The position is one R32 gives. -/
abbrev State.PositionOk (s : State) : Prop := stackOk s.latch.op s.fsm = true ∧ topOk s.fsm = true

/-- BUSY = 1 exactly while FSM is not IDLE (R32, R35). -/
abbrev State.BusyOk (s : State) : Prop := s.busy = !s.fsm.isEmpty

/-- The deepest label, if a command runs. -/
def State.top (s : State) : Label := s.fsm.headD .fin

/-- The running command's own label, if a command runs. -/
def State.bottom (s : State) : Label := s.fsm.getLastD .fin

/-! ## What holds at each position -/

/-- The poll counter is below its ceiling while a poll goes on (R228, R340). -/
def pollOk (p : Params) (k : Nat) (l : Label) : Bool :=
  match l with
  | .s4 | .g4 | .t4 | .b6 => decide (k < p.nCtl)
  | .w4 | .b4 => decide (k < p.nXfer)
  | _ => true

/-- The recovery loop index is below N_REC inside the loop (R203). -/
def toggleOk (p : Params) (j : Nat) (l : Label) : Bool :=
  match l with
  | .v6a | .v6b | .v6c | .v6d | .v6e => decide (j < p.nRec)
  | _ => true

/-- Inside RECOVER the controller is off, so no line is sensed with CON.ON = 1 (R201, I3). -/
def recoverOff (on : Bool) (l : Label) : Bool :=
  match l with
  | .v2 | .v3 | .v4 | .v5 | .v6a | .v6b | .v6c | .v6d | .v6e | .v7 | .v8 | .v9 | .v10 | .v11 | .v12 | .v13 | .v14 | .v15
  | .vf => !on
  | _ => true

/-- The block holds SCL low only between V6b and V6d, SDA only between V9 and V11 (R201, R203, R207). -/
def linesOk (n : Lines) (l : Label) : Bool :=
  match l with
  | .v6c | .v6d => !n.sclOut && n.sdaOut
  | .v10 | .v11 => n.sclOut && !n.sdaOut
  | _ => n.sclOut && n.sdaOut

/-- The error held at PF is one of the primitive's own (R247); `first` is the primitive's first label. -/
def primError (first : Label) (e : Result) : Bool :=
  match first with
  | .s1 | .g1 | .t1 => decide (e ∈ [Result.busCollision, .clockStuck])
  | .w1 => decide (e ∈ [Result.nak, .busCollision, .clockStuck, .transmitBufferFull])
  | .b1 => decide (e ∈ [Result.receiveOverflow, .receiveTimeout, .clockStuck])
  | _ => false

/-- The first label of the operation whose label stands on top. -/
def State.running (s : State) : Label :=
  match s.fsm with
  | _ :: l :: _ => l.callee.getD .fin
  | _ => (entryOf s.latch.op).getD .fin

/-- The error held by a primitive or RECOVER at its failure exit (R207, R221); `first` is the first label of the
operation that runs. -/
def errorOk (first : Label) (e : Result) (l : Label) : Bool :=
  match l with
  | .pf => primError first e
  | .vf => decide (e ∈ [Result.sclLow, .sdaLow])
  | _ => true

/-- What holds at the deepest label l of the operation with first label `first`. -/
structure State.TopFacts (s : State) (l first : Label) : Prop where
  poll : pollOk s.params s.work.k l = true
  toggle : toggleOk s.params s.work.j l = true
  off : recoverOff s.con.on l = true
  lines : linesOk s.line l = true
  error : errorOk first s.work.e l = true

/-- The results a command holds at its own label (R262, R267, R277, R321). -/
def State.exitOk (s : State) (l : Label) : Bool :=
  match l with
  | .px => decide (s.work.xe ∈ [Result.hardware, .badAddr, .commFail])
  | .dx | .xx => decide (s.work.xe ∈ [Result.busDirty, .commFail])
  | .u1 | .u2 => decide (s.work.xe = .commFail) || (decide (s.work.xe = .badAddr) && decide (s.latch.op ≠ 0x3#4))
  | .p5 => decide (s.work.w = .ack) || primError .w1 s.work.w
  | .fin => resultOf s.latch.op s.work.fin
  | _ => true

/-- The tracker after a command with this OP and result (R322): true where it must be dirty, false where it must
be clean, none where the command leaves it as it was. -/
def trackerAfter (op : BitVec 4) (r : Result) : Option Bool :=
  if r.isError then some true
  else if op = 0x1#4 then some true
  else if op = 0x3#4 ∨ op = 0x4#4 ∨ op = 0x5#4 ∨ op = 0xB#4 then some false
  else none

/-- The tracker at a command's own label (R184, R186, R187, R283). -/
def State.trackerOk (s : State) (l : Label) : Bool :=
  match l with
  | .p3 | .p4 | .p6 | .d2 | .d3 | .d4 | .d5 | .d6 | .d7a | .d7b | .d8 | .d9 | .x2 | .x3 | .x4 | .x5a | .x5b | .x6 | .x7 => !s.dirty
  | .p5 => decide (s.dirty = decide (s.work.w ≠ .ack))
  | .fin => decide (s.dirty = (trackerAfter s.latch.op s.work.fin).getD s.dirty)
  | _ => true

/-- The byte counts of READ and WRITE (R266, R276, R297), at a transfer's own label. -/
def State.countsOk (s : State) (l : Label) : Bool :=
  match l with
  | .d1 | .d2 | .d3 | .d4 | .d5 | .d6 | .x1 | .x2 | .x3 | .x4 => decide (s.work.nx = 0)
  | .d7a | .d7b | .x5a | .x5b => decide (s.work.nx = s.work.i) && decide (s.work.i < s.lcount)
  | .d8 | .d9 | .x6 | .x7 => decide (s.work.nx = s.lcount)
  | .dx | .xx => decide (s.work.nx = if s.work.xe = .busDirty then 0 else s.lcount)
  | .u1 | .u2 => decide (s.latch.op = 0x3#4) || (decide (s.work.nx ≤ s.lcount) && (decide (s.work.xe ≠ .badAddr) || decide (s.work.nx = 0)))
  | .fin =>
    if s.latch.op = 0x4#4 ∨ s.latch.op = 0x5#4 then
      decide (s.work.nx ≤ s.lcount) && (decide (s.work.fin ≠ .ok) || decide (s.work.nx = s.lcount)) &&
        ((decide (s.work.fin ≠ .badAddr) && decide (s.work.fin ≠ .busDirty)) || decide (s.work.nx = 0))
    else true
  | _ => true

/-- The operands a command has passed to the primitive it runs (R114, R260, R265, R275), at its own label. -/
def State.operandsOk (s : State) (l : Label) : Bool :=
  match l with
  | .p4 | .d3 | .x3 => decide (s.work.v = addrByte s.latch.addr7 .write)
  | .d4 | .x4 => decide (s.work.v = s.latch.data8)
  | .d6 => decide (s.work.v = addrByte s.latch.addr7 .read)
  | .x5b => decide (s.work.v = Memory.read s.buf s.work.i)
  | .d7a => decide (s.work.ack = decide (s.work.i + 1 < s.lcount))
  | .w1 | .w2 | .w3 | .w4 | .w5 | .wc => decide (s.work.v = s.latch.data8)
  | .b1 | .b2 | .b3 | .b4 | .b5 | .b6 | .b7 | .b8 => decide (s.work.ack = s.latch.ack)
  | _ => true

/-- What holds at the running command's own label l. -/
structure State.OwnFacts (s : State) (l : Label) : Prop where
  exit : s.exitOk l = true
  tracker : s.trackerOk l = true
  counts : s.countsOk l = true
  operands : s.operandsOk l = true

/-- A running READ or WRITE has a count within BUF (R84, R117). -/
abbrev State.CapOk (s : State) : Prop :=
  s.busy = true → s.latch.op = 0x4#4 ∨ s.latch.op = 0x5#4 → s.lcount ≤ Config.bufCap

/-- The invariant of the machine. -/
structure State.Inv (s : State) : Prop where
  params : paramsPositive s.params
  busy : s.BusyOk
  position : s.PositionOk
  memory : Memory.wf s.buf = true
  interruptEnable : s.con.ie = false
  cap : s.CapOk
  top : s.TopFacts s.top s.running
  own : s.fsm ≠ [] → s.OwnFacts s.bottom

/-- The block waits for a command: what a submission needs (R361). -/
abbrev State.Idle (s : State) : Prop := s.busy = false

/-! ## How a command ends (R296, R298) -/

/-- The command begun in s ended in t with result r and the byte count nx, after `actions` Engine actions and one
`Complete`. -/
abbrev Ended (s t : State) (r : Result) (nx actions : Nat) : Prop :=
  t.busy = false ∧ t.fsm = [] ∧ t.res = { code := r.code, data := r.data, nxfer := BitVec.ofNat 16 nx } ∧
    ∃ acts : List Action, t.hist = .complete r.code r.data (BitVec.ofNat 16 nx) :: (acts ++ s.hist) ∧ acts.length = actions

/-- CMD, COUNT and every byte of BUF are the same. -/
abbrev SameHostSide (s t : State) : Prop :=
  t.cmd = s.cmd ∧ t.count = s.count ∧ ∀ a, Memory.read t.buf a = Memory.read s.buf a

/-- The command begun in s ended in t with result r and the byte count nx. -/
abbrev Finished (s t : State) (r : Result) (nx : Nat) : Prop := ∃ actions, Ended s t r nx actions

/-- What the Engine did between s and t: the new entries of H, the newest first. -/
def State.since (s t : State) : List Action := t.hist.take (t.hist.length - s.hist.length)

/-- The values written to TRN, oldest first. -/
def trnWrites (acts : List Action) : List Byte :=
  match acts with
  | [] => []
  | .writeTrn v :: rest => trnWrites rest ++ [v]
  | _ :: rest => trnWrites rest

/-- The values written to CON.ACKDT, oldest first. -/
def ackdtWrites (acts : List Action) : List Bool :=
  match acts with
  | [] => []
  | .writeCon .ackdt v :: rest => ackdtWrites rest ++ [v]
  | _ :: rest => ackdtWrites rest

/-- The cell of a register file after a WRITE offered the bytes to TRN: the target's address, the pointer, the
data from the pointer on, modulo 256 (R281). -/
def registerFile (writes : List Byte) (cell : Byte) : Byte :=
  match writes with
  | _ :: p :: data => data.getD (cell - p).toNat 0
  | _ => 0

/-- The pulses of SCL low: the toggles of RECOVER (R203, R208). -/
def toggles (acts : List Action) : Nat := acts.countP (fun a => decide (a = .lineDrive .scl false))

/-- The Stops asked for: the writes of 1 to CON.PEN (R230, R270). -/
def stopsAsked (acts : List Action) : Nat := acts.countP (fun a => decide (a = .writeCon .pen true))

/-- Bytes 0 to n - 1 of BUF. -/
def bufBytes (m : Memory) (n : Nat) : List Byte := (List.range n).map (Memory.read m)

/-! ## Schedules (R160; spec/95_test_vectors.md) -/

/-- The actions of IDLE_CHECK (R154, R248). -/
def idleActions (s : State) : Nat := if notIdle s.con s.stat then 3 else 2

/-- The Environment clears one request bit. -/
def clears (f : ConField) : EnvStep :=
  match f with
  | .sen => { clrSen := true }
  | .rsen => { clrRsen := true }
  | .pen => { clrPen := true }
  | .rcen => { clrRcen := true }
  | .acken => { clrAcken := true }
  | .ackdt | .slew | .ie | .on => {}

/-- The three commands that request a bus condition, with the request bit of each (R222, R226, R230). -/
def requests : List (Instr × ConField) := [(.start, .sen), (.rstart, .rsen), (.stop, .pen)]

/-- The Environment clears every request bit. -/
def clearAll : EnvStep := { clrSen := true, clrRsen := true, clrPen := true, clrRcen := true, clrAcken := true }

/-- The Environment takes the step e before each of n Engine actions. -/
def cooperate (e : EnvStep) (n : Nat) : List Event := (List.replicate n [.env e, .engine]).flatten

/-- READ up to its final Stop, with a controller that completes every request at its first poll and a target that
sends the bytes (R269): the bytes stand in RCV one after the other, each for the ten actions of its RDBYTE and its
`MemWrite`. -/
def receives (bytes : List Byte) : List Event :=
  cooperate clearAll 31 ++ bytes.flatMap (fun b => cooperate { clearAll with rbf := some true, rcv := some b } 10)

/-- `receives`, and a final Stop that completes. -/
def sends (bytes : List Byte) : List Event := receives bytes ++ cooperate clearAll 8

/-- The first Engine action of the WRBYTE that READ sends as byte j: the write address, the sub-address, and after
the RSTART the read address (R265); the actions before it, on a clean bus with no diagnostic. -/
def actionsBeforeReadByte (j : Nat) : Nat := if j < 2 then 7 + 6 * j else 25

/-- The same for WRITE: the address, the sub-address, and then each data byte after its `MemRead` (R275). -/
def actionsBeforeWriteByte (j : Nat) : Nat := 7 + 6 * j + (j - 1)

/-- One request fails, every other completes at its first poll: it collides, or it never completes (R222 to R230). -/
def failingRequest (f : ConField) (collides : Bool) : EnvStep :=
  { clrSen := true
    clrRsen := decide (f ≠ .rsen) || collides
    clrPen := decide (f ≠ .pen) || collides
    clrRcen := true
    clrAcken := true
    bcl := if collides then some true else none }

/-- A START whose request never completes unless `starts`, or the address byte after it, fails otherwise than by a
NAK, by the status bits (R222, R235). -/
def addressFails (st : Stat) (starts : Bool) : Bool := st.bcl || !starts || st.tbf || st.trstat || st.iwcol

/-- What makes a WRBYTE fail otherwise than by a NAK (R235, R238): a byte still queued, a transmission that never
ends, a write collision, a bus collision. -/
def byteFailures : List EnvStep :=
  [{ clearAll with tbf := some true }, { clearAll with trstat := some true }, { clearAll with iwcol := some true },
    { clearAll with bcl := some true }]

/-- The STAT of a controller that has nothing to report: nothing queued or in progress, no collision, no
overflow. -/
abbrev Stat.calm (st : Stat) : Prop :=
  st.tbf = false ∧ st.trstat = false ∧ st.bcl = false ∧ st.iwcol = false ∧ st.i2cov = false

/-- The Environment takes no step in the schedule. -/
abbrev envQuiet (evs : List Event) : Prop := ∀ e ∈ evs, ∀ x, e ≠ .env x

/-- The step of one agent alone: of a running command, one `tick`; of an idle block, one step. -/
def oneEvent (e : Event) (s : State) : Host.Outcome State Fault Refusal :=
  if s.busy then tick { s with inputs := [e] } else step { s with inputs := [e] }

/-- The values R50 fixes. -/
structure ResetValues (t : State) : Prop where
  cmd : t.cmd = 0
  res : t.res.word = 0
  busy : t.busy = false
  dirty : t.dirty = true
  hostErr : t.hostErr = false
  count : t.count = 0
  fsm : t.fsm = []
  latch : t.latch = { op := 0, ack := false, data8 := 0, addr7 := 0, count := 0 }
  work : t.work.k = 0 ∧ t.work.j = 0 ∧ t.work.i = 0 ∧ t.work.nx = 0 ∧ t.work.c.word = 0 ∧ t.work.s.word = 0 ∧ t.work.b = 0 ∧
    t.work.r.code = 0 ∧ t.work.w.code = 0
  con : t.con.word = 0
  brg : t.brg = 0
  lines : t.line.sclOut = true ∧ t.line.sdaOut = true
  hist : t.hist = []

/-- A Host access, of R291 to R294. -/
def Event.isHostAccess (e : Event) : Bool :=
  match e with
  | .hostRead _ | .hostWrite _ _ => true
  | .engine | .env _ | .hostWait | .hostNarrow | .reset _ | .pause => false

end Sys2Proof.Machine
end

