-- ==== Sys2Proof/Certificates/Slice0/Obligations.lean ====
section
/-! DEFINITION. The statements about the machine, from the spec's numbered rules. The terms they use (`Ended`, `SameHostSide`, the schedules) are in Sys2Proof/Safety.lean. Where a schedule is written out, an entry `.engine` is one Engine action, and after the last entry the Engine goes on alone (log 2). -/

section
open Sys2Proof Sys2Proof.Machine

/-! ## Encoding -/

/-- Every command, with every operand, is read back from its word (R112, R113). -/
def Obligations.DecodeEncode : Prop := ∀ i : Instr, decode (encode i) = .ok i

/-- R113's map: a word that matches a row under the mask 0xFF8000EF is that row's command, with the operands in the
row's fields, whatever its other fields hold; the reserved operations are refused. -/
def Obligations.DecodeOpcodeTable : Prop :=
  ∀ w : Word,
    (w &&& 0xFF8000EF#32 = 0x1#32 → decode w = .ok .init) ∧
    (w &&& 0xFF8000EF#32 = 0x2#32 → decode w = .ok .modstart) ∧
    (w &&& 0xFF8000EF#32 = 0x3#32 → decode w = .ok (.poll (w.extractLsb' 16 7))) ∧
    (w &&& 0xFF8000EF#32 = 0x4#32 → decode w = .ok (.read (w.extractLsb' 16 7) (w.extractLsb' 8 8))) ∧
    (w &&& 0xFF8000EF#32 = 0x5#32 → decode w = .ok (.write (w.extractLsb' 16 7) (w.extractLsb' 8 8))) ∧
    (w &&& 0xFF8000EF#32 = 0x6#32 → decode w = .ok (.wrbyte (w.extractLsb' 8 8))) ∧
    (w &&& 0xFF8000EF#32 = 0x7#32 → decode w = .ok (.rdbyte (w.getLsbD 4))) ∧
    (w &&& 0xFF8000EF#32 = 0x8#32 → decode w = .ok .start) ∧
    (w &&& 0xFF8000EF#32 = 0x9#32 → decode w = .ok .rstart) ∧
    (w &&& 0xFF8000EF#32 = 0xA#32 → decode w = .ok .stop) ∧
    (w &&& 0xFF8000EF#32 = 0xB#32 → decode w = .ok .recover) ∧
    (w &&& 0xFF8000EF#32 = 0x0#32 → decode w = .error .opZero) ∧
    (w &&& 0xFF8000EF#32 = 0xC#32 ∨ w &&& 0xFF8000EF#32 = 0xD#32 ∨ w &&& 0xFF8000EF#32 = 0xE#32 ∨
      w &&& 0xFF8000EF#32 = 0xF#32 → decode w = .error .opUnassigned)

/-- The decoder refuses exactly the words R116 calls illegal. -/
def Obligations.DecodeRefusesIllegalWords : Prop :=
  ∀ w : Word, (∃ e, decode w = .error e) ↔
    (w.extractLsb' 0 4 = 0x0#4 ∨ w.extractLsb' 0 4 = 0xC#4 ∨ w.extractLsb' 0 4 = 0xD#4 ∨ w.extractLsb' 0 4 = 0xE#4 ∨
      w.extractLsb' 0 4 = 0xF#4 ∨ w.extractLsb' 5 3 ≠ 0#3 ∨ w.extractLsb' 23 9 ≠ 0#9)

/-- What the decoder reads off a word is the word's fields that the command uses, and no more: encoded again, they
stand where they stood, and the fields the command ignores are 0 (R112, R113). -/
def Obligations.EncodeKeepsUsedFields : Prop :=
  ∀ (w : Word) (i : Instr), decode w = .ok i →
    encode i = match i with
      | .poll _ => w &&& 0x007F000F#32
      | .read _ _ | .write _ _ => w &&& 0x007FFF0F#32
      | .wrbyte _ => w &&& 0x0000FF0F#32
      | .rdbyte _ => w &&& 0x0000001F#32
      | .init | .modstart | .start | .rstart | .stop | .recover => w &&& 0x0000000F#32

/-- The words of R127, both ways. -/
def Obligations.KnownWords : Prop :=
  (encode .init = 0x00000001#32 ∧ decode 0x00000001#32 = .ok .init) ∧
  (encode .modstart = 0x00000002#32 ∧ decode 0x00000002#32 = .ok .modstart) ∧
  (encode (.poll 0x3C#7) = 0x003C0003#32 ∧ decode 0x003C0003#32 = .ok (.poll 0x3C#7)) ∧
  (encode (.read 0x3C#7 0x10#8) = 0x003C1004#32 ∧ decode 0x003C1004#32 = .ok (.read 0x3C#7 0x10#8)) ∧
  (encode (.write 0x3C#7 0x00#8) = 0x003C0005#32 ∧ decode 0x003C0005#32 = .ok (.write 0x3C#7 0x00#8)) ∧
  (encode (.wrbyte 0x78#8) = 0x00007806#32 ∧ decode 0x00007806#32 = .ok (.wrbyte 0x78#8)) ∧
  (encode (.rdbyte true) = 0x00000017#32 ∧ decode 0x00000017#32 = .ok (.rdbyte true)) ∧
  (encode (.rdbyte false) = 0x00000007#32 ∧ decode 0x00000007#32 = .ok (.rdbyte false)) ∧
  (encode .start = 0x00000008#32 ∧ decode 0x00000008#32 = .ok .start) ∧
  (encode .rstart = 0x00000009#32 ∧ decode 0x00000009#32 = .ok .rstart) ∧
  (encode .stop = 0x0000000A#32 ∧ decode 0x0000000A#32 = .ok .stop) ∧
  (encode .recover = 0x0000000B#32 ∧ decode 0x0000000B#32 = .ok .recover) ∧
  (encode (.poll 0x7F#7) = 0x007F0003#32 ∧ decode 0x007F0003#32 = .ok (.poll 0x7F#7))

/-! ## The step and the Host -/

/-- A step that finds the Host's write of a word to CMD at the head of the schedule, while BUSY = 0, is exec of the
command the word encodes, with the word in CMD (R292). -/
def Obligations.StepRunsDecodedCommand : Prop :=
  (∀ (s : State) (off : BitVec 9) (w : Word) (i : Instr) (rest : List Event),
    s.busy = false → off.toNat / 4 = 0 → decode w = .ok i →
    step { s with inputs := .hostWrite off w :: rest } = exec i { s with inputs := rest, cmd := w }) ∧
  (∀ (s : State) (nbits w : Nat) (i : Instr), nbits ≤ 32 → decodeTableWord nbits w = some i →
    step (s.withFetchWord nbits w) =
      exec i { s with busy := false, fsm := [], cmd := BitVec.ofNat 32 (w % 2 ^ nbits) })

/-- R116, R117, R299: a word R116 calls illegal, and a READ or WRITE word while COUNT > 256, are rejected in the Host's own
step: CMD and RES are written and nothing else, so BUSY stays 0 and no Engine action is performed. The count is checked
before the tracker: the tracker may be dirty. -/
def Obligations.Rejection : Prop :=
  ∀ (s : State) (off : BitVec 9) (w : Word) (rest : List Event), s.busy = false → off.toNat / 4 = 0 →
    ((w.extractLsb' 0 4 = 0x0#4 ∨ w.extractLsb' 0 4 = 0xC#4 ∨ w.extractLsb' 0 4 = 0xD#4 ∨ w.extractLsb' 0 4 = 0xE#4 ∨
        w.extractLsb' 0 4 = 0xF#4 ∨ w.extractLsb' 5 3 ≠ 0#3 ∨ w.extractLsb' 23 9 ≠ 0#9) ∨
      ((w.extractLsb' 0 4 = 0x4#4 ∨ w.extractLsb' 0 4 = 0x5#4) ∧ 256 < s.count.toNat)) →
    step { s with inputs := .hostWrite off w :: rest } =
      .next { s with inputs := rest, cmd := w, res := { code := 16, data := 0, nxfer := 0 } }

/-- R292: any other word is accepted in one step, seen by a pause before the first Engine action: the operands are latched,
RES is cleared, BUSY and FSM are set, and no other state changes, but for three of the Engine's working registers, which the
model prepares (logs 10, 11). -/
def Obligations.Acceptance : Prop :=
  ∀ (s : State) (off : BitVec 9) (w : Word) (rest : List Event), s.busy = false → off.toNat / 4 = 0 →
    ¬ ((w.extractLsb' 0 4 = 0x0#4 ∨ w.extractLsb' 0 4 = 0xC#4 ∨ w.extractLsb' 0 4 = 0xD#4 ∨ w.extractLsb' 0 4 = 0xE#4 ∨
        w.extractLsb' 0 4 = 0xF#4 ∨ w.extractLsb' 5 3 ≠ 0#3 ∨ w.extractLsb' 23 9 ≠ 0#9) ∨
      ((w.extractLsb' 0 4 = 0x4#4 ∨ w.extractLsb' 0 4 = 0x5#4) ∧ 256 < s.count.toNat)) →
    ∃ first : Label, entryOf (w.extractLsb' 0 4) = some first ∧
      step { s with inputs := .hostWrite off w :: .pause :: rest } =
        .next { s with
          inputs := .pause :: rest
          cmd := w
          latch := Latch.mk (w.extractLsb' 0 4) (w.getLsbD 4) (w.extractLsb' 8 8) (w.extractLsb' 16 7) s.count
          res := { code := 0, data := 0, nxfer := 0 }
          busy := true
          fsm := first.opened
          work := { s.work with nx := 0, v := w.extractLsb' 8 8, ack := w.getLsbD 4 } }

/-- R293: while BUSY = 1 a Host write to CMD, COUNT or the BUF window stores nothing, starts nothing and sets
HOSTERR. -/
def Obligations.BusyHostWrites : Prop :=
  ∀ (s : State) (off : BitVec 9) (w : Word), s.busy = true →
    (off.toNat / 4 = 0 ∨ off.toNat / 4 = 3 ∨ 64 ≤ off.toNat / 4) →
    oneEvent (.hostWrite off w) s = .next { s with inputs := [], hostErr := true }

/-- R294: the other Host writes, at any time, and those of COUNT and BUF while BUSY = 0. -/
def Obligations.OtherHostWrites : Prop :=
  ∀ (s : State) (off : BitVec 9) (w : Word),
    (off.toNat / 4 = 1 → oneEvent (.hostWrite off w) s = .next { s with inputs := [] }) ∧
    (off.toNat / 4 = 2 → oneEvent (.hostWrite off w) s =
      .next { s with inputs := [], hostErr := if w.getLsbD 2 then false else s.hostErr }) ∧
    (off.toNat / 4 = 3 → s.busy = false →
      oneEvent (.hostWrite off w) s = .next { s with inputs := [], count := w.extractLsb' 0 16 }) ∧
    (64 ≤ off.toNat / 4 → s.busy = false → Memory.wf s.buf = true → ∃ m, oneEvent (.hostWrite off w) s = .next { s with inputs := [], buf := m } ∧
      ∀ a, Memory.read m a =
        if a = 4 * (off.toNat / 4 - 64) then w.extractLsb' 0 8
        else if a = 4 * (off.toNat / 4 - 64) + 1 then w.extractLsb' 8 8
        else if a = 4 * (off.toNat / 4 - 64) + 2 then w.extractLsb' 16 8
        else if a = 4 * (off.toNat / 4 - 64) + 3 then w.extractLsb' 24 8
        else Memory.read s.buf a) ∧
    (4 ≤ off.toNat / 4 → off.toNat / 4 < 64 → oneEvent (.hostWrite off w) s = .next { s with inputs := [] })

/-- R291: the word a HostRead returns at each offset, at any time; it changes no state but the Host's own log. -/
def Obligations.HostReads : Prop :=
  ∀ (s : State) (off : BitVec 9), ∃ word : Word,
    oneEvent (.hostRead off) s = .next { s with inputs := [], hostLog := word :: s.hostLog } ∧
    (off.toNat / 4 = 0 → word = s.cmd) ∧
    (off.toNat / 4 = 1 → word = s.res.nxfer ++ s.res.data ++ 0#3 ++ s.res.code) ∧
    (off.toNat / 4 = 2 → word = 0#28 ++ BitVec.ofBool s.con.on ++ BitVec.ofBool s.hostErr ++ BitVec.ofBool s.dirty ++
      BitVec.ofBool s.busy) ∧
    (off.toNat / 4 = 3 → word = 0#16 ++ s.count) ∧
    (4 ≤ off.toNat / 4 → off.toNat / 4 < 64 → word = 0) ∧
    (64 ≤ off.toNat / 4 → word =
      Memory.read s.buf (4 * (off.toNat / 4 - 64) + 3) ++ Memory.read s.buf (4 * (off.toNat / 4 - 64) + 2) ++
        Memory.read s.buf (4 * (off.toNat / 4 - 64) + 1) ++ Memory.read s.buf (4 * (off.toNat / 4 - 64)))

/-- R81: a Host access of another width is refused, at any time. -/
def Obligations.NarrowAccessRefused : Prop :=
  ∀ (s : State) (rest : List Event), step { s with inputs := .hostNarrow :: rest } = .refused .hostWidth

/-- R50, R360: what reset leaves, in the state a run begins with and after a reset event in any state, a running
command among them; the values R50 leaves unspecified are whatever was drawn. -/
def Obligations.ResetLeaves : Prop :=
  ResetValues State.reset ∧
  ∀ (s : State) (d : ResetDraw) (rest : List Event),
    ∃ t, step { s with inputs := .reset d :: rest } = .next t ∧ ResetValues t ∧ t.stat = d.stat ∧ t.rcv = d.rcv ∧ t.trn = d.trn ∧
      t.line.extSclLow = d.extSclLow ∧ t.line.extSdaLow = d.extSdaLow ∧ t.buf = Memory.ofCells d.buf ∧ t.inputs = rest

/-! ## The invariant -/

/-- The invariant holds right after reset. -/
def Obligations.ResetMeetsInvariant : Prop := State.reset.Inv

/-- The invariant: every step keeps it. -/
def Obligations.StepKeepsInvariant : Prop := ∀ s t : State, s.Inv → step s = .next t → t.Inv

/-- No state that meets the invariant stops the machine; the one refusal is a Host access of another width (R330,
R81). -/
def Obligations.StepNeverFaults : Prop :=
  ∀ s : State, s.Inv → (∀ f, step s ≠ .fault f) ∧
    ∀ r, step s = .refused r → r = .hostWidth ∧ s.inputs.head? = some .hostNarrow

/-- R49: the history only grows; a reset alone empties it. -/
def Obligations.HistoryOnlyGrows : Prop :=
  ∀ s t : State, step s = .next t →
    (∃ acts : List Action, t.hist = acts ++ s.hist) ∨ ∃ d, s.inputs.head? = some (.reset d)

/-! ## Every command -/

/-- R341, R285: whatever the Environment and the Host do, an accepted command performs at most its bound of Engine
actions and then its one `Complete`; the bounds at the default parameters are those of R341. -/
def Obligations.CommandCompletes : Prop :=
  (∀ (s : State) (i : Instr), s.Inv → s.busy = false → ordinary s.inputs →
    (opField (encode i) = 0x4#4 ∨ opField (encode i) = 0x5#4 → s.count.toNat ≤ 256) →
    ∃ (t : State) (acts : List Action) (code : BitVec 5) (data : Byte) (nx : BitVec 16), exec i s = .next t ∧
      t.busy = false ∧ t.fsm = [] ∧ t.res = { code := code, data := data, nxfer := nx } ∧
      t.hist = .complete code data nx :: (acts ++ s.hist) ∧ acts.length ≤ actionBound s.params s.count.toNat i ∧
      ∀ a ∈ acts, ∀ c d n, a ≠ .complete c d n) ∧
  (∀ n a b, actionBound {} n .init = 3 ∧ actionBound {} n .modstart = 4 ∧ actionBound {} n .start = 59 ∧
    actionBound {} n .rstart = 59 ∧ actionBound {} n .stop = 59 ∧ actionBound {} n (.wrbyte b) = 509 ∧
    actionBound {} n (.rdbyte true) = 558 ∧ actionBound {} n (.rdbyte false) = 558 ∧ actionBound {} n .recover = 65 ∧
    actionBound {} n (.poll a) = 694)

/-- R320 to R322: an accepted command ends with exactly one result of its own set, and the tracker is what R322 says
after that result. -/
def Obligations.OneResult : Prop :=
  ∀ (s : State) (i : Instr), s.Inv → s.busy = false → ordinary s.inputs →
    (opField (encode i) = 0x4#4 ∨ opField (encode i) = 0x5#4 → s.count.toNat ≤ 256) →
    ∃ (t : State) (r : Result), exec i s = .next t ∧ resultOf (opField (encode i)) r = true ∧ t.res.code = r.code ∧
      t.res.data = r.data ∧ t.dirty = (trackerAfter (opField (encode i)) r).getD s.dirty

/-- R297, R266, R267, R276: NXFER counts the bytes completed; a READ stores at no address from NXFER on, and no other
command stores at all. -/
def Obligations.ByteCount : Prop :=
  ∀ (s : State) (i : Instr), s.Inv → s.busy = false → ordinary s.inputs →
    (opField (encode i) = 0x4#4 ∨ opField (encode i) = 0x5#4 → s.count.toNat ≤ 256) →
    ∃ t : State, exec i s = .next t ∧
      (¬ (opField (encode i) = 0x4#4 ∨ opField (encode i) = 0x5#4) → t.res.nxfer = 0) ∧
      (opField (encode i) = 0x4#4 ∨ opField (encode i) = 0x5#4 → t.res.nxfer.toNat ≤ s.count.toNat ∧
        (t.res.code = Result.ok.code → t.res.nxfer = s.count) ∧
        (t.res.code = Result.badAddr.code ∨ t.res.code = Result.busDirty.code → t.res.nxfer = 0)) ∧
      ∀ a, (opField (encode i) = 0x4#4 → t.res.nxfer.toNat ≤ a) → Memory.read t.buf a = Memory.read s.buf a

/-- R188: a READ or WRITE accepted while DIRTY = 1 is three Engine actions, none of them bus activity, and finishes
BusDirty. -/
def Obligations.DirtyBusRefused : Prop :=
  ∀ (s : State) (i : Instr), s.busy = false → ordinary s.inputs → s.dirty = true → s.count.toNat ≤ 256 →
    opField (encode i) = 0x4#4 ∨ opField (encode i) = 0x5#4 →
    ∃ t, exec i s = .next t ∧ t.busy = false ∧ t.fsm = [] ∧ t.dirty = true ∧
      t.res = { code := Result.busDirty.code, data := 0, nxfer := 0 } ∧
      t.hist = [.complete Result.busDirty.code 0 0, .dirtyWrite true, .dirtyRead true] ++ s.hist ∧
      ∀ a ∈ s.since t, a.isBusActivity = false

/-- R184, R186: DIRTY changes only at the writers R184 lists. An Engine action sets it at INIT's, a primitive's, RECOVER's
or a transfer's failing exit, and clears it only where RECOVER finishes Ok; a Host access and an Environment step
never change it. -/
def Obligations.TrackerWriters : Prop :=
  (∀ s t : State, s.Inv → act s = .next t → t.dirty ≠ s.dirty →
    (t.dirty = true ∧ s.fsm.head? ∈ [some Label.i3, some .pf, some .vf, some .px, some .dx, some .xx, some .u2]) ∨
      (t.dirty = false ∧ s.fsm.head? = some .v16)) ∧
  (∀ (e : EnvStep) (s : State), (envStep e s).dirty = s.dirty) ∧
  (∀ (off : BitVec 9) (w : Word) (s : State), (hostWrite off w s).dirty = s.dirty ∧ (hostRead off s).dirty = s.dirty)

/-- The pause is no step of any agent: a command paused and gone on with is the command run in one step. The model's own
notion (log 1). -/
def Obligations.PauseIsInvisible : Prop :=
  ∀ (s t : State) (i : Instr) (before after : List Event), s.Inv → s.busy = false → ordinary before → ordinary after →
    exec i { s with inputs := before ++ .pause :: after } = .next t → t.busy = true →
    step t = exec i { s with inputs := before ++ after }

/-- R293, R295: no Host access disturbs a running command. Without the Host's accesses the command ends in the same
state, but for HOSTERR and the Host's own log; a waiting Host (R126) is let in, and stays in both schedules. -/
def Obligations.HostCannotDisturb : Prop :=
  ∀ (s t : State) (i : Instr) (evs : List Event), s.Inv → s.busy = false → ordinary evs →
    exec i { s with inputs := evs } = .next t →
    exec i { s with inputs := evs.filter (fun e => !e.isHostAccess) } =
      .next { t with
        hostErr := s.hostErr
        hostLog := s.hostLog
        inputs := t.inputs.filter (fun e => !e.isHostAccess) }

/-! ## The Environment, the controller and the lines -/

/-- R160: the Environment may step between any two Engine actions and while no command runs; its step can bring about any
values of what it owns, can clear request bits, and touches nothing else. -/
def Obligations.EnvironmentLiberties : Prop :=
  (∀ (e : EnvStep) (s : State), oneEvent (.env e) s = .next (envStep e { s with inputs := [] })) ∧
  (∀ (e : EnvStep) (s : State), ∃ (c : Con) (st : Stat) (b : Byte) (scl sda : Bool),
    envStep e s = { s with con := c, stat := st, rcv := b, line := { s.line with extSclLow := scl, extSdaLow := sda } } ∧
    c.on = s.con.on ∧ c.ackdt = s.con.ackdt ∧ c.slew = s.con.slew ∧ c.ie = s.con.ie ∧
    (c.sen = true → s.con.sen = true) ∧ (c.rsen = true → s.con.rsen = true) ∧ (c.pen = true → s.con.pen = true) ∧
    (c.rcen = true → s.con.rcen = true) ∧ (c.acken = true → s.con.acken = true)) ∧
  (∀ (s : State) (keepSen keepRsen keepPen keepRcen keepAcken : Bool) (st : Stat) (b : Byte) (scl sda : Bool),
    ∃ e : EnvStep, envStep e s = { s with
      con := { s.con with
        sen := s.con.sen && keepSen
        rsen := s.con.rsen && keepRsen
        pen := s.con.pen && keepPen
        rcen := s.con.rcen && keepRcen
        acken := s.con.acken && keepAcken }
      stat := st
      rcv := b
      line := { s.line with extSclLow := scl, extSdaLow := sda } })

/-- Each Engine action is one entry of H, and has the effect of that entry and no other: on the controller registers
(R140 to R147), the lines (R148), the tracker (R181 to R183), BUF (R84), RES and BUSY (R296). What a read recorded is what
stood there. -/
def Obligations.ActionEffects : Prop :=
  ∀ s t : State, act s = .next t → ∃ a : Action, t.hist = a :: s.hist ∧
    t.con = (match a with | .writeCon f v => s.con.set f v | _ => s.con) ∧
    t.stat = (match a with
      | .readRcv _ => { s.stat with rbf := false }
      | .writeCon .on true => if s.con.on then s.stat else { s.stat with bcl := false, iwcol := false }
      | _ => s.stat) ∧
    t.trn = (match a with | .writeTrn v => v | _ => s.trn) ∧
    t.brg = (match a with | .writeBrg v => v | _ => s.brg) ∧
    t.line = (match a with
      | .lineDrive .scl v => { s.line with sclOut := v }
      | .lineDrive .sda v => { s.line with sdaOut := v }
      | _ => s.line) ∧
    t.dirty = (match a with | .dirtyWrite v => v | _ => s.dirty) ∧
    t.buf = (match a with | .memWrite i b => Memory.write s.buf i b | _ => s.buf) ∧
    t.res = (match a with | .complete c d n => { code := c, data := d, nxfer := n } | _ => s.res) ∧
    t.busy = (match a with | .complete _ _ _ => false | _ => s.busy) ∧
    t.rcv = s.rcv ∧ t.cmd = s.cmd ∧ t.count = s.count ∧ t.hostErr = s.hostErr ∧ t.latch = s.latch ∧ t.params = s.params ∧
    (match a with
      | .readCon c => c = s.con
      | .readStat st => st = s.stat
      | .readRcv b => b = s.rcv
      | .dirtyRead d => d = s.dirty
      | .memRead i b => b = Memory.read s.buf i
      | .lineSense l x => s.con.on = false → x = s.level l
      | _ => True)

/-- R40, R143, R144: the Engine never writes 0 to a request bit and never 1 to IE; TRN is written only with WRBYTE's
operand, and CON.ACKDT only with the complement of RDBYTE's. -/
def Obligations.EngineWrites : Prop :=
  ∀ s t : State, act s = .next t →
    (∀ f v, t.hist = .writeCon f v :: s.hist →
      (f ∈ [ConField.sen, .rsen, .pen, .rcen, .acken] → v = true) ∧ (f = .ie → v = false) ∧ (f = .ackdt → v = !s.work.ack)) ∧
    (∀ v, t.hist = .writeTrn v :: s.hist → v = s.work.v)

/-- R145, R152: a write of CON.ON changes ON and ESTAT.CTL_ON; only a change from 0 to 1 clears BCL and IWCOL, and no
other status bit. -/
def Obligations.EnableWrite : Prop :=
  ∀ (s : State) (v : Bool), (ctlWriteCon .on v s).con = { s.con with on := v } ∧ ((ctlWriteCon .on v s).estat).getLsbD 3 = v ∧
    (ctlWriteCon .on v s).stat =
      (if s.con.on = false ∧ v = true then { s.stat with bcl := false, iwcol := false } else s.stat)

/-- R142: reading RCV returns its byte and clears RBF in the same action, whatever RBF is, and changes nothing else but the
history; R141: reading STAT clears nothing. -/
def Obligations.ReceiveRead : Prop :=
  ∀ s : State,
    ctlReadRcv s = { s with
      work := { s.work with b := s.rcv }
      stat := { s.stat with rbf := false }
      hist := .readRcv s.rcv :: s.hist } ∧
    ctlReadStat s = { s with work := { s.work with s := s.stat }, hist := .readStat s.stat :: s.hist }

/-- R47, R148, R149: with CON.ON = 0 a sensed line is the wired AND of the block's drive and the outside pull; a drive is
stored whatever CON.ON is. -/
def Obligations.LineLevels : Prop :=
  ∀ s : State,
    (s.con.on = false → (lineSense .scl s).work.x = (s.line.sclOut && !s.line.extSclLow) ∧
      (lineSense .sda s).work.y = (s.line.sdaOut && !s.line.extSdaLow)) ∧
    (∀ v, (lineDrive .scl v s).line = { s.line with sclOut := v } ∧ (lineDrive .sda v s).line = { s.line with sdaOut := v })

/-- R34, R35, R40, R42, R43: the places of the bits, and the reserved bits 0; LINE's two sensed bits are the levels of R47
while CON.ON = 0. -/
def Obligations.RegisterWords : Prop :=
  ∀ (s : State) (n : Nat),
    s.con.word.getLsbD n = (match n with
      | 0 => s.con.sen | 1 => s.con.rsen | 2 => s.con.pen | 3 => s.con.rcen | 4 => s.con.acken | 5 => s.con.ackdt
      | 6 => s.con.slew | 7 => s.con.ie | 15 => s.con.on | _ => false) ∧
    s.stat.word.getLsbD n = (match n with
      | 0 => s.stat.tbf | 1 => s.stat.rbf | 2 => s.stat.i2cov | 3 => s.stat.iwcol | 4 => s.stat.bcl | 5 => s.stat.trstat
      | 6 => s.stat.ackstat | _ => false) ∧
    s.estat.getLsbD n = (match n with
      | 0 => s.busy | 1 => s.dirty | 2 => s.hostErr | 3 => s.con.on | _ => false) ∧
    (n ≠ 2 → n ≠ 3 → s.lineWord.getLsbD n = (match n with
      | 0 => s.line.sclOut | 1 => s.line.sdaOut | _ => false)) ∧
    (s.con.on = false → s.lineWord.getLsbD 2 = (s.line.sclOut && !s.line.extSclLow) ∧
      s.lineWord.getLsbD 3 = (s.line.sdaOut && !s.line.extSdaLow)) ∧
    (s.res.word.extractLsb' 0 5 = s.res.code ∧ s.res.word.extractLsb' 5 3 = 0#3 ∧ s.res.word.extractLsb' 8 8 = s.res.data ∧
      s.res.word.extractLsb' 16 16 = s.res.nxfer)

/-! ## INIT and MODSTART -/

/-- R300, with the frame: INIT under any ordinary schedule. -/
def Obligations.InitResult : Prop :=
  encode .init = 0x00000001#32 ∧ ∀ s : State, s.busy = false → ordinary s.inputs →
    ∃ t, exec .init s = .next t ∧ t.busy = false ∧ t.fsm = [] ∧ t.res = { code := Result.ok.code, data := 0, nxfer := 0 } ∧
      t.hist = [.complete Result.ok.code 0 0, .dirtyWrite true, .lineDrive .sda true, .lineDrive .scl true] ++ s.hist ∧
      t.dirty = true ∧ t.line.sclOut = true ∧ t.line.sdaOut = true ∧ SameHostSide s t ∧ t.brg = s.brg ∧ t.trn = s.trn ∧
      t.con.on = s.con.on ∧ t.con.ackdt = s.con.ackdt ∧ t.con.slew = s.con.slew ∧ t.con.ie = s.con.ie ∧
      (envQuiet s.inputs → t.con = s.con ∧ t.stat = s.stat ∧ t.rcv = s.rcv ∧ t.line.extSclLow = s.line.extSclLow ∧
        t.line.extSdaLow = s.line.extSdaLow)

/-- R302, with the frame: MODSTART under any ordinary schedule. -/
def Obligations.ModstartResult : Prop :=
  encode .modstart = 0x00000002#32 ∧ ∀ s : State, s.busy = false → ordinary s.inputs →
    ∃ t, exec .modstart s = .next t ∧ t.busy = false ∧ t.fsm = [] ∧
      t.res = { code := Result.ok.code, data := 0, nxfer := 0 } ∧
      t.hist = [.complete Result.ok.code 0 0, .writeCon .on true, .writeCon .ie false, .writeCon .slew Config.slewInit,
        .writeBrg Config.brgInit] ++ s.hist ∧
      t.brg = Config.brgInit ∧ t.con.slew = Config.slewInit ∧ t.con.ie = false ∧ t.con.on = true ∧ t.dirty = s.dirty ∧
      SameHostSide s t ∧ t.trn = s.trn ∧ t.con.ackdt = s.con.ackdt ∧ t.line.sclOut = s.line.sclOut ∧
      t.line.sdaOut = s.line.sdaOut ∧
      (envQuiet s.inputs → t.con = { s.con with slew := Config.slewInit, ie := false, on := true } ∧
        t.stat = (if s.con.on then s.stat else { s.stat with bcl := false, iwcol := false }) ∧ t.rcv = s.rcv ∧
        t.line = s.line)

/-! ## START, RSTART and STOP -/

/-- R222, R226, R230, R248: the request bit reads 0 at poll m, no collision: Ok, with the frame. -/
def Obligations.RequestCompletes : Prop :=
  ∀ p ∈ requests, ∀ (s : State) (m : Nat), s.busy = false → s.stat.bcl = false → 1 ≤ m → m ≤ s.params.nCtl →
    ∃ t, exec p.1 { s with inputs := List.replicate (idleActions s + 2 + (m - 1)) .engine ++ [.env (clears p.2)] } = .next t ∧
      Ended s t .ok 0 (idleActions s + 3 + m) ∧ t.dirty = s.dirty ∧ t.con = s.con.set p.2 false ∧ t.stat = s.stat ∧
      SameHostSide s t ∧ t.trn = s.trn ∧ t.rcv = s.rcv ∧ t.brg = s.brg ∧ t.line = s.line

/-- R225 (b), R228, R248: the request bit never clears, no collision: ClockStuck after exactly N_CTL reads, the request
bit left 1, no enable cycle. -/
def Obligations.RequestTimesOut : Prop :=
  ∀ p ∈ requests, ∀ s : State, s.busy = false → s.inputs = [] → s.stat.bcl = false → 0 < s.params.nCtl →
    ∃ t, exec p.1 s = .next t ∧ Ended s t .clockStuck 0 (idleActions s + 3 + s.params.nCtl) ∧ t.dirty = true ∧
      t.con = s.con.set p.2 true ∧ t.stat = s.stat ∧ SameHostSide s t ∧ t.trn = s.trn ∧ t.rcv = s.rcv ∧ t.brg = s.brg ∧
      t.line = s.line

/-- R223, R224, R248: a collision at the first check: BusCollision, no polling, the controller enabled and its collision
flags clear. -/
def Obligations.RequestCollidesFirst : Prop :=
  ∀ p ∈ requests, ∀ s : State, s.busy = false → s.inputs = [] → s.stat.bcl = true →
    ∃ t, exec p.1 s = .next t ∧ Ended s t .busCollision 0 (idleActions s + 5) ∧ t.dirty = true ∧
      t.con = (s.con.set p.2 true).set .on true ∧ t.stat = { s.stat with bcl := false, iwcol := false } ∧ SameHostSide s t ∧
      t.trn = s.trn ∧ t.rcv = s.rcv ∧ t.brg = s.brg ∧ t.line = s.line

/-- R223, R224, R248: a collision that comes with the completion at poll m: the second check finds it. -/
def Obligations.RequestCollidesSecond : Prop :=
  ∀ p ∈ requests, ∀ (s : State) (m : Nat), s.busy = false → s.stat.bcl = false → 1 ≤ m → m ≤ s.params.nCtl →
    ∃ t, exec p.1 { s with
        inputs := List.replicate (idleActions s + 2 + (m - 1)) .engine ++ [.env { clears p.2 with bcl := some true }] } = .next t ∧
      Ended s t .busCollision 0 (idleActions s + 6 + m) ∧ t.dirty = true ∧ t.con = (s.con.set p.2 false).set .on true ∧
      t.stat = { s.stat with bcl := false, iwcol := false } ∧ SameHostSide s t ∧ t.trn = s.trn ∧ t.rcv = s.rcv ∧
      t.brg = s.brg ∧ t.line = s.line

/-! ## WRBYTE and RDBYTE -/

/-- R235 to R239, R248: WRBYTE while the Environment takes no step: TransmitBufferFull, then ClockStuck, then BusCollision,
then NAK, then Ack, by the status bits, with what each leaves. -/
def Obligations.WriteByteResult : Prop :=
  ∀ (s : State) (v : Byte), s.busy = false → s.inputs = [] → 0 < s.params.nXfer →
    ∃ t, exec (.wrbyte v) s = .next t ∧ SameHostSide s t ∧ t.rcv = s.rcv ∧ t.brg = s.brg ∧ t.line = s.line ∧
      (s.stat.tbf = true → Ended s t .transmitBufferFull 0 (idleActions s + 2) ∧ t.trn = s.trn ∧ t.dirty = true ∧
        t.con = s.con ∧ t.stat = s.stat) ∧
      (s.stat.tbf = false → t.trn = v ∧
        (s.stat.trstat = true → Ended s t .clockStuck 0 (idleActions s + 3 + s.params.nXfer) ∧ t.dirty = true ∧
          t.con = s.con ∧ t.stat = s.stat) ∧
        (s.stat.trstat = false →
          (s.stat.bcl = true ∨ s.stat.iwcol = true → Ended s t .busCollision 0 (idleActions s + 7) ∧ t.dirty = true ∧
            t.con = s.con.set .on true ∧ t.stat = { s.stat with bcl := false, iwcol := false }) ∧
          (s.stat.bcl = false ∧ s.stat.iwcol = false → t.con = s.con ∧ t.stat = s.stat ∧
            (s.stat.ackstat = true → Ended s t .nak 0 (idleActions s + 5) ∧ t.dirty = true) ∧
            (s.stat.ackstat = false → Ended s t .ack 0 (idleActions s + 4) ∧ t.dirty = s.dirty))))

/-- R240 to R244, R248: a byte arrives at poll k1 and the acknowledge is sent at poll k2: Byte, or ReceiveOverflow with RCV
not read. -/
def Obligations.ReadByteReceives : Prop :=
  ∀ (s : State) (ack : Bool) (k1 k2 : Nat) (b : Byte), s.busy = false → s.stat.rbf = false →
    1 ≤ k1 → k1 ≤ s.params.nXfer → 1 ≤ k2 → k2 ≤ s.params.nCtl →
    ∃ t, exec (.rdbyte ack) { s with
        inputs := List.replicate (idleActions s + 2 + (k1 - 1)) .engine ++ [.env { rbf := some true, rcv := some b }] ++
          List.replicate (2 + (k2 - 1)) .engine ++ [.env (clears .acken)] } = .next t ∧
      t.con = { s.con with rcen := true, acken := false, ackdt := !ack } ∧ t.rcv = b ∧ SameHostSide s t ∧ t.trn = s.trn ∧
      t.brg = s.brg ∧ t.line = s.line ∧
      (s.stat.i2cov = false → Ended s t (.byte b) 0 (idleActions s + 5 + k1 + k2) ∧ t.dirty = s.dirty ∧ t.stat = s.stat) ∧
      (s.stat.i2cov = true → Ended s t .receiveOverflow 0 (idleActions s + 5 + k1 + k2) ∧ t.dirty = true ∧
        t.stat = { s.stat with rbf := true })

/-- R242, R248: RDBYTE while the Environment takes no step: without a byte, ReceiveTimeout after exactly N_XFER reads; with
one already there, the acknowledge never ends, and it is ClockStuck after exactly N_CTL reads. -/
def Obligations.ReadByteTimesOut : Prop :=
  ∀ (s : State) (ack : Bool), s.busy = false → s.inputs = [] → 0 < s.params.nXfer → 0 < s.params.nCtl →
    ∃ t, exec (.rdbyte ack) s = .next t ∧ t.dirty = true ∧ t.stat = s.stat ∧ t.rcv = s.rcv ∧ SameHostSide s t ∧
      t.trn = s.trn ∧ t.brg = s.brg ∧ t.line = s.line ∧
      (s.stat.rbf = false → Ended s t .receiveTimeout 0 (idleActions s + 3 + s.params.nXfer) ∧
        t.con = { s.con with rcen := true, ackdt := !ack }) ∧
      (s.stat.rbf = true → Ended s t .clockStuck 0 (idleActions s + 5 + s.params.nCtl) ∧
        t.con = { s.con with rcen := true, acken := true, ackdt := !ack })

/-- What the five primitives leave alone, whatever the Environment and the Host do: BUF, CMD, COUNT, BRG, SLEW, IE, the
lines; ACKDT but for RDBYTE, TRN but for WRBYTE; CON.ON is 1 or as it was; and, if the Environment takes no step, the other
request bits, RCV, the outside pulls, and every status bit but the collision flags and RDBYTE's RBF. -/
def Obligations.PrimitiveFrame : Prop :=
  ∀ (s t : State) (i : Instr), s.Inv → s.busy = false → ordinary s.inputs →
    opField (encode i) ∈ [0x6#4, 0x7#4, 0x8#4, 0x9#4, 0xA#4] → exec i s = .next t →
    SameHostSide s t ∧ t.brg = s.brg ∧ t.con.slew = s.con.slew ∧ t.con.ie = s.con.ie ∧ t.line.sclOut = s.line.sclOut ∧
    t.line.sdaOut = s.line.sdaOut ∧ t.draws = s.draws ∧ (t.con.on = true ∨ t.con.on = s.con.on) ∧
    (opField (encode i) ≠ 0x7#4 → t.con.ackdt = s.con.ackdt) ∧ (opField (encode i) ≠ 0x6#4 → t.trn = s.trn) ∧
    (envQuiet s.inputs →
      (opField (encode i) ≠ 0x8#4 → t.con.sen = s.con.sen) ∧ (opField (encode i) ≠ 0x9#4 → t.con.rsen = s.con.rsen) ∧
      (opField (encode i) ≠ 0xA#4 → t.con.pen = s.con.pen) ∧
      (opField (encode i) ≠ 0x7#4 → t.con.rcen = s.con.rcen ∧ t.con.acken = s.con.acken ∧ t.stat.rbf = s.stat.rbf) ∧
      t.rcv = s.rcv ∧ t.line = s.line ∧ t.stat.tbf = s.stat.tbf ∧ t.stat.i2cov = s.stat.i2cov ∧
      t.stat.trstat = s.stat.trstat ∧ t.stat.ackstat = s.stat.ackstat)

/-! ## RECOVER -/

/-- R200 to R211: RECOVER while the Environment takes no step, by the outside pulls: a held SCL fails at the clock check; a
held SDA is toggled N_REC times; with both free it pulses, enables and cleans. -/
def Obligations.RecoverResult : Prop :=
  ∀ s : State, s.busy = false → s.inputs = [] →
    ∃ t, exec .recover s = .next t ∧ SameHostSide s t ∧ t.trn = s.trn ∧ t.rcv = s.rcv ∧ t.brg = s.brg ∧
      t.line = { s.line with sclOut := true, sdaOut := true } ∧
      (s.line.extSclLow = true → Ended s t .sclLow 0 6 ∧ toggles (s.since t) = 0 ∧ t.dirty = true ∧
        t.con = s.con.set .on false ∧ t.stat = s.stat) ∧
      (s.line.extSclLow = false ∧ s.line.extSdaLow = true → Ended s t .sdaLow 0 (5 * s.params.nRec + 8) ∧
        toggles (s.since t) = s.params.nRec ∧ t.dirty = true ∧ t.con = s.con.set .on false ∧ t.stat = s.stat) ∧
      (s.line.extSclLow = false ∧ s.line.extSdaLow = false → Ended s t .ok 0 (s.params.nRec + 15) ∧
        toggles (s.since t) = 0 ∧ t.dirty = false ∧ t.con = s.con.set .on true ∧
        t.stat = { s.stat with bcl := false, iwcol := false })

/-- R206, R207, R210 (d): how RECOVER ends, whatever the Environment and the Host do: Ok with the controller on and the bus
clean, or SCL_low or SDA_low with the controller off and the bus dirty; both drives released; TRN, BRG, BUF and the Engine's
control bits left alone. -/
def Obligations.RecoverExit : Prop :=
  ∀ s : State, s.Inv → s.busy = false → ordinary s.inputs →
    ∃ t, exec .recover s = .next t ∧ t.line.sclOut = true ∧ t.line.sdaOut = true ∧ SameHostSide s t ∧ t.trn = s.trn ∧
      t.brg = s.brg ∧ t.con.ackdt = s.con.ackdt ∧ t.con.slew = s.con.slew ∧ t.con.ie = s.con.ie ∧ t.draws = s.draws ∧
      ((t.res.code = Result.ok.code ∧ t.con.on = true ∧ t.dirty = false) ∨
        ((t.res.code = Result.sclLow.code ∨ t.res.code = Result.sdaLow.code) ∧ t.con.on = false ∧ t.dirty = true)) ∧
      (envQuiet s.inputs → t.con.sen = s.con.sen ∧ t.con.rsen = s.con.rsen ∧ t.con.pen = s.con.pen ∧
        t.con.rcen = s.con.rcen ∧ t.con.acken = s.con.acken)

/-- R208: the stuck-data law. SDA is held low until p toggles are done and then released, SCL is never held: Ok if
p ≤ N_REC, SDA_low if p > N_REC, and min(p, N_REC) toggles in both cases. -/
def Obligations.StuckDataLaw : Prop :=
  ∀ (s : State) (p : Nat), s.busy = false → s.line.extSclLow = false → s.line.extSdaLow = true →
    ∃ t, exec .recover { s with
        inputs := List.replicate (if p = 0 then 0 else 5 * p + 4) .engine ++ [.env { extSdaLow := some false }] } = .next t ∧
      t.busy = false ∧
      (p ≤ s.params.nRec → t.res.code = Result.ok.code) ∧ (s.params.nRec < p → t.res.code = Result.sdaLow.code) ∧
      toggles (s.since t) = min p s.params.nRec

/-! ## POLL, READ and WRITE -/

/-- R260 to R264: POLL with a controller that completes every request at its first poll: a target that acknowledges gives
Ok and a clean bus, one that does not gives BadAddr, for every address; a dirty bus is recovered first. -/
def Obligations.PollResult : Prop :=
  ∀ (s : State) (a : BitVec 7) (n : Nat), s.busy = false → s.stat.calm → paramsPositive s.params →
    (s.dirty = true → s.line.extSclLow = false ∧ s.line.extSdaLow = false) → s.params.nRec + 38 ≤ n →
    ∃ t, exec (.poll a) { s with inputs := cooperate clearAll n } = .next t ∧ SameHostSide s t ∧
      trnWrites (s.since t) = [addrByte a .write] ∧ t.brg = s.brg ∧ t.rcv = s.rcv ∧
      (s.stat.ackstat = false → t.dirty = false ∧ Ended s t .ok 0 (if s.dirty then s.params.nRec + 35 else 20)) ∧
      (s.stat.ackstat = true → t.dirty = true ∧ Ended s t .badAddr 0 (if s.dirty then s.params.nRec + 36 else 21))

/-- R262, R185: POLL on a dirty bus whose lines stay held: the recovery fails, whichever line it is, and POLL ends with
Hardware, the controller off, the bus dirty, and no byte and no request offered to the controller. -/
def Obligations.PollHardware : Prop :=
  ∀ (s : State) (a : BitVec 7), s.busy = false → s.inputs = [] → s.dirty = true →
    (s.line.extSclLow = true ∨ s.line.extSdaLow = true) →
    ∃ t, exec (.poll a) s = .next t ∧ SameHostSide s t ∧ t.dirty = true ∧ t.con = s.con.set .on false ∧ t.stat = s.stat ∧
      t.trn = s.trn ∧ t.rcv = s.rcv ∧ t.brg = s.brg ∧ t.line = { s.line with sclOut := true, sdaOut := true } ∧
      (s.line.extSclLow = true → Ended s t .hardware 0 8) ∧
      (s.line.extSclLow = false → Ended s t .hardware 0 (5 * s.params.nRec + 10))

/-- R265, R266, R268, R269: READ with a controller that completes every request at its first poll and a target that
acknowledges and sends the bytes: BUF[i] is byte i and the rest of BUF is as it was, every byte but the last is answered
with ACK, and the address, the sub-address and the read address go out in that order. -/
def Obligations.ReadStoresBytes : Prop :=
  ∀ (s : State) (a : BitVec 7) (sub : Byte) (bytes : List Byte), s.busy = false → s.dirty = false → s.stat.calm →
    s.stat.ackstat = false → paramsPositive s.params → Memory.wf s.buf = true → bytes.length = s.count.toNat →
    bytes.length ≤ 256 →
    ∃ t, exec (.read a sub) { s with inputs := sends bytes } = .next t ∧
      Ended s t .ok bytes.length (38 + 10 * bytes.length) ∧ t.dirty = false ∧ t.cmd = s.cmd ∧ t.count = s.count ∧
      bufBytes t.buf bytes.length = bytes ∧ (∀ x, bytes.length ≤ x → Memory.read t.buf x = Memory.read s.buf x) ∧
      trnWrites (s.since t) = [addrByte a .write, sub, addrByte a .read] ∧
      ackdtWrites (s.since t) = (List.range bytes.length).map (fun i => decide (i + 1 = bytes.length)) ∧ t.brg = s.brg

/-- R275, R276, R278, R279: WRITE with a controller that completes every request at its first poll and a target that
acknowledges: the address, the sub-address and BUF[0] to BUF[n - 1] go out in that order. -/
def Obligations.WriteSendsBytes : Prop :=
  ∀ (s : State) (a : BitVec 7) (sub : Byte) (n : Nat), s.busy = false → s.dirty = false → s.stat.calm →
    s.stat.ackstat = false → paramsPositive s.params → s.count.toNat ≤ 256 → 27 + 7 * s.count.toNat ≤ n →
    ∃ t, exec (.write a sub) { s with inputs := cooperate clearAll n } = .next t ∧
      Ended s t .ok s.count.toNat (26 + 7 * s.count.toNat) ∧ t.dirty = false ∧ SameHostSide s t ∧
      trnWrites (s.since t) = addrByte a .write :: sub :: bufBytes s.buf s.count.toNat ∧ t.brg = s.brg ∧ t.rcv = s.rcv

/-- R277, R278 (b), R326: WRITE whose byte j is not acknowledged, the address byte being byte 0 and the sub-address byte 1:
the address gives BadAddr, any other CommFail with the count of data bytes done; the rest is not sent, and the bus is dirty.
The result is the same whether the cleanup's Stop completes or times out. -/
def Obligations.WriteStopsAtNak : Prop :=
  ∀ (s : State) (a : BitVec 7) (sub : Byte) (j n : Nat) (stops : Bool), s.busy = false → s.dirty = false → s.stat.calm →
    s.stat.ackstat = false → paramsPositive s.params → s.count.toNat ≤ 256 → j ≤ s.count.toNat + 1 →
    15 + s.params.nCtl ≤ n →
    ∃ t, exec (.write a sub) { s with
        inputs := cooperate clearAll (actionsBeforeWriteByte j) ++
          cooperate { clearAll with clrPen := stops, ackstat := some true } n } = .next t ∧
      Ended s t (if j = 0 then .badAddr else .commFail) (j - 2)
        (21 + 6 * j + (j - 1) + if stops then 0 else s.params.nCtl - 1) ∧
      t.dirty = true ∧ SameHostSide s t ∧
      trnWrites (s.since t) = (addrByte a .write :: sub :: bufBytes s.buf s.count.toNat).take (j + 1) ∧ t.brg = s.brg

/-- R267, R242, R297: READ whose target sends fewer bytes than COUNT asks for: the RDBYTE that gets none times out, and READ
ends with CommFail and the count of bytes it stored; those bytes stand in BUF, the rest of BUF is as it was, and the bus
is dirty. -/
def Obligations.ReadStopsAtTimeout : Prop :=
  ∀ (s : State) (a : BitVec 7) (sub : Byte) (bytes : List Byte) (n : Nat), s.busy = false → s.dirty = false → s.stat.calm →
    s.stat.ackstat = false → paramsPositive s.params → Memory.wf s.buf = true → s.count.toNat ≤ 256 →
    bytes.length < s.count.toNat → 12 + s.params.nXfer ≤ n →
    ∃ t, exec (.read a sub) { s with
        inputs := receives bytes ++ cooperate { clearAll with rbf := some false } n } = .next t ∧
      Ended s t .commFail bytes.length (43 + 10 * bytes.length + s.params.nXfer) ∧ t.dirty = true ∧ t.cmd = s.cmd ∧
      t.count = s.count ∧ bufBytes t.buf bytes.length = bytes ∧
      (∀ x, bytes.length ≤ x → Memory.read t.buf x = Memory.read s.buf x)

/-- R242, R243, R267: READ whose RDBYTE gets a byte and fails all the same, by an overflow or by an acknowledge that never
ends: CommFail with the count of the bytes stored before it; the failing byte and all after it are not stored. -/
def Obligations.ReadStopsAtByte : Prop :=
  ∀ e ∈ [{ clearAll with rbf := some true, i2cov := some true }, { clearAll with rbf := some true, clrAcken := false }],
  ∀ (s : State) (a : BitVec 7) (sub : Byte) (bytes : List Byte) (n : Nat), s.busy = false → s.dirty = false → s.stat.calm →
    s.stat.ackstat = false → paramsPositive s.params → Memory.wf s.buf = true → s.count.toNat ≤ 256 →
    bytes.length < s.count.toNat → 30 + s.params.nCtl ≤ n →
    ∃ t, exec (.read a sub) { s with inputs := receives bytes ++ cooperate e n } = .next t ∧
      Finished s t .commFail bytes.length ∧ t.dirty = true ∧ stopsAsked (s.since t) = 1 ∧ t.cmd = s.cmd ∧ t.count = s.count ∧
      bufBytes t.buf bytes.length = bytes ∧ ∀ x, bytes.length ≤ x → Memory.read t.buf x = Memory.read s.buf x

/-- R267, R326: READ whose byte j is not acknowledged, the write address being byte 0, the sub-address byte 1 and the read
address byte 2: only byte 0 gives BadAddr, the others CommFail; nothing is received, and the bus is dirty. The result is the
same whether the cleanup's Stop completes or times out. -/
def Obligations.ReadStopsAtNak : Prop :=
  ∀ (s : State) (a : BitVec 7) (sub : Byte) (j n : Nat) (stops : Bool), s.busy = false → s.dirty = false → s.stat.calm →
    s.stat.ackstat = false → paramsPositive s.params → s.count.toNat ≤ 256 → j ≤ 2 → 15 + s.params.nCtl ≤ n →
    ∃ t, exec (.read a sub) { s with
        inputs := cooperate clearAll (actionsBeforeReadByte j) ++
          cooperate { clearAll with clrPen := stops, ackstat := some true } n } = .next t ∧
      Ended s t (if j = 0 then .badAddr else .commFail) 0
        (actionsBeforeReadByte j + 14 + if stops then 0 else s.params.nCtl - 1) ∧
      t.dirty = true ∧ SameHostSide s t ∧ stopsAsked (s.since t) = 1 ∧
      trnWrites (s.since t) = [addrByte a .write, sub, addrByte a .read].take (j + 1) ∧ t.brg = s.brg

/-- R267: READ whose RSTART collides or never completes: CommFail, the read address not sent, nothing received, one Stop
attempted, the bus dirty. -/
def Obligations.ReadStopsAtRstart : Prop :=
  ∀ (s : State) (a : BitVec 7) (sub : Byte) (n : Nat) (collides : Bool), s.busy = false → s.dirty = false → s.stat.calm →
    s.stat.ackstat = false → paramsPositive s.params → s.count.toNat ≤ 256 → 20 + s.params.nCtl ≤ n →
    ∃ t, exec (.read a sub) { s with inputs := cooperate clearAll 19 ++ cooperate (failingRequest .rsen collides) n } = .next t ∧
      Ended s t .commFail 0 (if collides then 34 else 32 + s.params.nCtl) ∧ t.dirty = true ∧ SameHostSide s t ∧
      stopsAsked (s.since t) = 1 ∧ trnWrites (s.since t) = [addrByte a .write, sub] ∧ t.brg = s.brg

/-- R267, R277, R235: READ and WRITE whose byte j fails otherwise than by a NAK, by a byte still queued, a transmission that
never ends, a write collision or a bus collision: CommFail, whichever byte it is; NXFER counts the data bytes done before it,
the bytes up to it and no others are offered to TRN (not byte j itself where a byte is still queued), one Stop is attempted,
and the bus is dirty. -/
def Obligations.TransferStopsAtByte : Prop :=
  ∀ e ∈ byteFailures, ∀ (s : State) (a : BitVec 7) (sub : Byte) (j n : Nat), s.busy = false → s.dirty = false →
    s.stat.calm → s.stat.ackstat = false → paramsPositive s.params → s.count.toNat ≤ 256 → 30 + s.params.nXfer ≤ n →
    (j ≤ 2 → ∃ t, exec (.read a sub) { s with
          inputs := cooperate clearAll (actionsBeforeReadByte j) ++ cooperate e n } = .next t ∧
        Finished s t .commFail 0 ∧ t.dirty = true ∧ SameHostSide s t ∧ stopsAsked (s.since t) = 1 ∧
        trnWrites (s.since t) =
          [addrByte a .write, sub, addrByte a .read].take (if e.tbf = some true then j else j + 1)) ∧
    (j ≤ s.count.toNat + 1 → ∃ t, exec (.write a sub) { s with
          inputs := cooperate clearAll (actionsBeforeWriteByte j) ++ cooperate e n } = .next t ∧
        Finished s t .commFail (j - 2) ∧ t.dirty = true ∧ SameHostSide s t ∧ stopsAsked (s.since t) = 1 ∧
        trnWrites (s.since t) =
          (addrByte a .write :: sub :: bufBytes s.buf s.count.toNat).take (if e.tbf = some true then j else j + 1))

/-- R262, R267, R277: POLL, READ and WRITE on a clean bus whose START or address byte fails: a START that collides or never
completes, and an address byte that fails otherwise than by a NAK, give CommFail; a NAK gives BadAddr. One Stop is attempted,
whether it completes or times out, and the bus is dirty. -/
def Obligations.AddressPhaseFails : Prop :=
  ∀ (s : State) (a : BitVec 7) (sub : Byte) (n : Nat) (starts stops : Bool), s.busy = false → s.dirty = false →
    paramsPositive s.params → s.count.toNat ≤ 256 → 40 + 2 * s.params.nCtl + s.params.nXfer ≤ n →
    addressFails s.stat starts = true ∨ s.stat.ackstat = true →
    ∀ i ∈ [Instr.poll a, .read a sub, .write a sub],
      ∃ t, exec i { s with inputs := cooperate { clearAll with clrSen := starts, clrPen := stops } n } = .next t ∧
        Finished s t (if addressFails s.stat starts then .commFail else .badAddr) 0 ∧ t.dirty = true ∧ SameHostSide s t ∧
        stopsAsked (s.since t) = 1 ∧
        trnWrites (s.since t) = if s.stat.bcl || !starts || s.stat.tbf then [] else [addrByte a .write]

/-- R262, R267, R277, R326: POLL, READ and WRITE whose every byte is acknowledged and whose final Stop collides or never
completes: CommFail, not Ok, with NXFER the whole count; no second Stop is attempted, and the bus is dirty. -/
def Obligations.FinalStopFails : Prop :=
  ∀ (s : State) (a : BitVec 7) (sub : Byte) (bytes : List Byte) (n : Nat) (collides : Bool), s.busy = false →
    s.dirty = false → s.stat.calm → s.stat.ackstat = false → paramsPositive s.params → Memory.wf s.buf = true →
    bytes.length = s.count.toNat → bytes.length ≤ 256 → 20 + s.params.nCtl ≤ n →
    (∃ t, exec (.poll a) { s with inputs := cooperate clearAll 13 ++ cooperate (failingRequest .pen collides) n } = .next t ∧
      Finished s t .commFail 0 ∧ t.dirty = true ∧ SameHostSide s t ∧ stopsAsked (s.since t) = 1 ∧
      trnWrites (s.since t) = [addrByte a .write]) ∧
    (∃ t, exec (.read a sub) { s with inputs := receives bytes ++ cooperate (failingRequest .pen collides) n } = .next t ∧
      Finished s t .commFail bytes.length ∧ t.dirty = true ∧ t.cmd = s.cmd ∧ t.count = s.count ∧
      stopsAsked (s.since t) = 1 ∧ bufBytes t.buf bytes.length = bytes ∧
      ∀ x, bytes.length ≤ x → Memory.read t.buf x = Memory.read s.buf x) ∧
    (∃ t, exec (.write a sub) { s with
        inputs := cooperate clearAll (19 + 7 * s.count.toNat) ++ cooperate (failingRequest .pen collides) n } = .next t ∧
      Finished s t .commFail s.count.toNat ∧ t.dirty = true ∧ SameHostSide s t ∧ stopsAsked (s.since t) = 1 ∧
      trnWrites (s.since t) = addrByte a .write :: sub :: bufBytes s.buf s.count.toNat)

/-- R281: the round trip. A WRITE, and then, BUF overwritten meanwhile, a READ of the cells the WRITE stored in the
register file: the bytes come back, for every pointer and every count. -/
def Obligations.RoundTrip : Prop :=
  ∀ (s : State) (a : BitVec 7) (sub : Byte) (m : Memory), s.busy = false → s.dirty = false → s.stat.calm →
    s.stat.ackstat = false → paramsPositive s.params → s.count.toNat ≤ 256 → Memory.wf m = true →
    ∃ t u, exec (.write a sub) { s with inputs := cooperate clearAll (27 + 7 * s.count.toNat) } = .next t ∧
      exec (.read a sub) { t with
        buf := m
        inputs := sends ((List.range s.count.toNat).map
          (fun k => registerFile (trnWrites (s.since t)) (sub + BitVec.ofNat 8 k))) } = .next u ∧
      t.res.code = Result.ok.code ∧ u.res.code = Result.ok.code ∧
      bufBytes u.buf s.count.toNat = bufBytes s.buf s.count.toNat

/-- What the transfers leave alone, whatever the Environment and the Host do: CMD, COUNT, BRG, SLEW, IE, the lines; BUF and
ACKDT but for READ, and READ stores below COUNT only; and, if the Environment takes no step, RCV, the outside pulls, and,
but for READ, RSEN, RCEN, ACKEN and RBF. -/
def Obligations.TransferFrame : Prop :=
  ∀ (s t : State) (i : Instr), s.Inv → s.busy = false → ordinary s.inputs →
    opField (encode i) ∈ [0x3#4, 0x4#4, 0x5#4] → exec i s = .next t →
    t.cmd = s.cmd ∧ t.count = s.count ∧ t.brg = s.brg ∧ t.con.slew = s.con.slew ∧ t.con.ie = s.con.ie ∧
    t.line.sclOut = s.line.sclOut ∧ t.line.sdaOut = s.line.sdaOut ∧ t.draws = s.draws ∧
    (∀ a, (opField (encode i) = 0x4#4 → s.count.toNat ≤ a) → Memory.read t.buf a = Memory.read s.buf a) ∧
    (opField (encode i) ≠ 0x4#4 → t.con.ackdt = s.con.ackdt) ∧
    (envQuiet s.inputs → t.rcv = s.rcv ∧ t.line = s.line ∧ t.stat.tbf = s.stat.tbf ∧ t.stat.i2cov = s.stat.i2cov ∧
      t.stat.trstat = s.stat.trstat ∧ t.stat.ackstat = s.stat.ackstat ∧
      (opField (encode i) ≠ 0x4#4 → t.con.rsen = s.con.rsen ∧ t.con.rcen = s.con.rcen ∧ t.con.acken = s.con.acken ∧
        t.stat.rbf = s.stat.rbf))

end
end

