-- ==== Sys2Proof/Laws/Memory.lean ====
section
/-! SUPPORT. The laws of BUF's memory: a read after a write, that every operation keeps the canonical form, that equal reads are equal memories, and the little-endian words of the Host's window (spec/20_memory.md R82, R84). -/

namespace Sys2Proof.Machine

@[simp] theorem Memory.read_nil (a : Nat) : Memory.read [] a = Memory.unlisted a := rfl

theorem Memory.read_cons (b : Nat) (v : Byte) (m : Memory) (a : Nat) :
    Memory.read ((b, v) :: m) a = if b = a then v else Memory.read m a := rfl

theorem Memory.wfFrom_cons {low a : Nat} {v : Byte} {m : Memory} :
    Memory.wfFrom low ((a, v) :: m) = true ↔
      low ≤ a ∧ a < Config.bufCap ∧ v ≠ Memory.unlisted a ∧ Memory.wfFrom (a + 1) m = true := by
  simp [Memory.wfFrom, Memory.inRange, and_assoc]

theorem Memory.wfFrom_mono {low low' : Nat} {m : Memory} (hle : low' ≤ low) (h : Memory.wfFrom low m = true) :
    Memory.wfFrom low' m = true := by
  cases m with
  | nil => rfl
  | cons c m =>
    obtain ⟨h1, h2⟩ := Memory.wfFrom_cons.1 h
    exact Memory.wfFrom_cons.2 ⟨by omega, h2⟩

/-- Below its first address a canonical memory lists nothing. -/
theorem Memory.read_below {low a : Nat} {m : Memory} (h : Memory.wfFrom low m = true) (ha : a < low) :
    Memory.read m a = Memory.unlisted a := by
  induction m generalizing low with
  | nil => rfl
  | cons c m ih =>
    obtain ⟨h1, -, -, h4⟩ := Memory.wfFrom_cons.1 h
    rw [Memory.read_cons, if_neg (by omega), ih h4 (by omega)]

theorem Memory.read_put {a : Nat} {v : Byte} {m : Memory} (h : Memory.wfFrom (a + 1) m = true) (b : Nat) :
    Memory.read (Memory.put a v m) b = if a = b then v else Memory.read m b := by
  unfold Memory.put
  by_cases hv : v = Memory.unlisted a
  · rw [if_pos hv]
    by_cases hab : a = b
    · subst hab; simp [hv, Memory.read_below h (Nat.lt_succ_self a)]
    · simp [hab]
  · rw [if_neg hv, Memory.read_cons]

theorem Memory.put_wf {low a : Nat} {v : Byte} {m : Memory} (hle : low ≤ a) (hr : a < Config.bufCap)
    (h : Memory.wfFrom (a + 1) m = true) : Memory.wfFrom low (Memory.put a v m) = true := by
  unfold Memory.put
  split
  · exact Memory.wfFrom_mono (by omega) h
  · exact Memory.wfFrom_cons.2 ⟨hle, hr, ‹_›, h⟩

/-- A read after a write: the written byte at the address, every other byte as before. -/
theorem Memory.read_write {low : Nat} {m : Memory} (h : Memory.wfFrom low m = true) (a b : Nat) (v : Byte) :
    Memory.read (Memory.write m a v) b = if a = b then v else Memory.read m b := by
  induction m generalizing low with
  | nil => exact Memory.read_put rfl b
  | cons c m ih =>
    obtain ⟨d, u⟩ := c
    obtain ⟨h1, h2, h3, h4⟩ := Memory.wfFrom_cons.1 h
    unfold Memory.write
    split
    · exact Memory.read_put (Memory.wfFrom_cons.2 ⟨by omega, h2, h3, h4⟩) b
    · split
      · subst a
        rw [Memory.read_put h4 b, Memory.read_cons]
        split <;> simp_all
      · rw [Memory.read_cons, Memory.read_cons, ih h4]
        by_cases hd : d = b
        · subst hd
          simp [show ¬ a = d from ‹_›]
        · simp [hd]

/-- A write keeps the canonical form. -/
theorem Memory.write_wfFrom {low : Nat} {m : Memory} (h : Memory.wfFrom low m = true) {a : Nat} (hle : low ≤ a)
    (hr : a < Config.bufCap) (v : Byte) : Memory.wfFrom low (Memory.write m a v) = true := by
  induction m generalizing low with
  | nil => exact Memory.put_wf hle hr rfl
  | cons c m ih =>
    obtain ⟨d, u⟩ := c
    obtain ⟨h1, h2, h3, h4⟩ := Memory.wfFrom_cons.1 h
    unfold Memory.write
    split
    · exact Memory.put_wf hle hr (Memory.wfFrom_cons.2 ⟨by omega, h2, h3, h4⟩)
    · split
      · subst a; exact Memory.put_wf hle hr h4
      · exact Memory.wfFrom_cons.2 ⟨h1, h2, h3, ih h4 (by omega)⟩

theorem Memory.write_wf {m : Memory} (h : Memory.wf m = true) {a : Nat} (hr : a < Config.bufCap) (v : Byte) :
    Memory.wf (Memory.write m a v) = true := Memory.write_wfFrom h (Nat.zero_le a) hr v

theorem Memory.read_write_same {m : Memory} (h : Memory.wf m = true) (a : Nat) (v : Byte) :
    Memory.read (Memory.write m a v) a = v := by rw [Memory.read_write h, if_pos rfl]

theorem Memory.read_write_other {m : Memory} (h : Memory.wf m = true) {a b : Nat} (hab : a ≠ b) (v : Byte) :
    Memory.read (Memory.write m a v) b = Memory.read m b := by rw [Memory.read_write h, if_neg hab]

/-- Two canonical memories that read alike are the same list. -/
theorem Memory.ext_of_read {low : Nat} {m m' : Memory} (h : Memory.wfFrom low m = true) (h' : Memory.wfFrom low m' = true)
    (hr : ∀ a, Memory.read m a = Memory.read m' a) : m = m' := by
  induction m generalizing low m' with
  | nil =>
    cases m' with
    | nil => rfl
    | cons c m' =>
      obtain ⟨d, u⟩ := c
      obtain ⟨-, -, h3, -⟩ := Memory.wfFrom_cons.1 h'
      exact absurd (by simpa [Memory.read_cons] using (hr d).symm) h3
  | cons c m ih =>
    obtain ⟨d, u⟩ := c
    obtain ⟨h1, h2, h3, h4⟩ := Memory.wfFrom_cons.1 h
    cases m' with
    | nil => exact absurd (by simpa [Memory.read_cons] using hr d) h3
    | cons c' m' =>
      obtain ⟨d', u'⟩ := c'
      obtain ⟨h1', h2', h3', h4'⟩ := Memory.wfFrom_cons.1 h'
      have hd : d = d' := by
        rcases Nat.lt_trichotomy d d' with hlt | heq | hgt
        · have := hr d
          rw [Memory.read_cons, if_pos rfl, Memory.read_cons, if_neg (by omega), Memory.read_below h4' (by omega)] at this
          exact absurd this h3
        · exact heq
        · have := hr d'
          rw [Memory.read_cons, if_neg (by omega), Memory.read_below h4 (by omega), Memory.read_cons, if_pos rfl] at this
          exact absurd this.symm h3'
      subst hd
      have hu : u = u' := by simpa [Memory.read_cons] using hr d
      subst hu
      congr 1
      refine ih h4 h4' fun a => ?_
      by_cases ha : a ≤ d
      · rw [Memory.read_below h4 (by omega), Memory.read_below h4' (by omega)]
      · simpa [Memory.read_cons, show ¬ d = a by omega] using hr a

theorem Memory.ofCells_wf (cells : List Host.Cell) : Memory.wf (Memory.ofCells cells) = true := by
  induction cells with
  | nil => rfl
  | cons c cells ih =>
    obtain ⟨a, v⟩ := c
    unfold Memory.ofCells
    split
    · next hr => exact Memory.write_wf ih (by simpa [Memory.inRange] using hr) v
    · exact ih

/-- Setting a word of the window keeps the canonical form. -/
theorem setBufWord_wf {m : Memory} (h : Memory.wf m = true) {k : Nat} (hk : k < 64) (w : Word) :
    Memory.wf (setBufWord m k w) = true := by
  have hc : Config.bufCap = 256 := rfl
  unfold setBufWord
  exact Memory.write_wf (Memory.write_wf (Memory.write_wf (Memory.write_wf h (by omega) _) (by omega) _) (by omega) _) (by omega) _

/-- Each byte after setting a word of the window: the word's four bytes, little-endian, and every other byte as
before (R82). -/
theorem read_setBufWord {m : Memory} (h : Memory.wf m = true) {k : Nat} (hk : k < 64) (w : Word) (a : Nat) :
    Memory.read (setBufWord m k w) a =
      if a = 4 * k then w.extractLsb' 0 8
      else if a = 4 * k + 1 then w.extractLsb' 8 8
      else if a = 4 * k + 2 then w.extractLsb' 16 8
      else if a = 4 * k + 3 then w.extractLsb' 24 8
      else Memory.read m a := by
  have hc : Config.bufCap = 256 := rfl
  have w1 := Memory.write_wf h (a := 4 * k) (by omega) (w.extractLsb' 0 8)
  have w2 := Memory.write_wf w1 (a := 4 * k + 1) (by omega) (w.extractLsb' 8 8)
  have w3 := Memory.write_wf w2 (a := 4 * k + 2) (by omega) (w.extractLsb' 16 8)
  unfold setBufWord
  rw [Memory.read_write w3, Memory.read_write w2, Memory.read_write w1, Memory.read_write h]
  split_ifs <;> first | rfl | omega

/-- A word offset of the BUF window names a word 0..63. -/
theorem hostReg_bufWord_lt {off : BitVec 9} {k : Nat} (h : hostReg off = .bufWord k) : k < 64 := by
  have hlt : off.toNat < 512 := off.isLt
  unfold hostReg at h
  split at h <;> try cases h
  split at h <;> cases h
  omega

/-- A Host write keeps BUF's canonical form. -/
theorem hostWrite_wf {s : State} (h : Memory.wf s.buf = true) (off : BitVec 9) (w : Word) :
    Memory.wf (hostWrite off w s).buf = true := by
  unfold hostWrite
  cases hreg : hostReg off with
  | bufWord k =>
    by_cases hb : s.busy
    · simpa [hb, hostDropped] using h
    · simpa [hb] using setBufWord_wf h (hostReg_bufWord_lt hreg) w
  | cmd => by_cases hb : s.busy <;> simpa [hb, hostDropped] using h
  | res => exact h
  | estat => dsimp only; split <;> exact h
  | count => by_cases hb : s.busy <;> simpa [hb, hostDropped] using h
  | unmapped => exact h

end Sys2Proof.Machine
end

