-- ==== Sys2Proof/Laws/State.lean ====
section
/-! SUPPORT. What each update of the state leaves in each field: one lemma per field per update, so that no later proof unfolds a record update. -/

namespace Sys2Proof.Machine

/-! ### record -/

@[simp] theorem record_cmd (a : Action) (s : State) : (State.record a s).cmd = s.cmd := rfl
@[simp] theorem record_res (a : Action) (s : State) : (State.record a s).res = s.res := rfl
@[simp] theorem record_busy (a : Action) (s : State) : (State.record a s).busy = s.busy := rfl
@[simp] theorem record_dirty (a : Action) (s : State) : (State.record a s).dirty = s.dirty := rfl
@[simp] theorem record_hostErr (a : Action) (s : State) : (State.record a s).hostErr = s.hostErr := rfl
@[simp] theorem record_count (a : Action) (s : State) : (State.record a s).count = s.count := rfl
@[simp] theorem record_buf (a : Action) (s : State) : (State.record a s).buf = s.buf := rfl
@[simp] theorem record_fsm (a : Action) (s : State) : (State.record a s).fsm = s.fsm := rfl
@[simp] theorem record_latch (a : Action) (s : State) : (State.record a s).latch = s.latch := rfl
@[simp] theorem record_work (a : Action) (s : State) : (State.record a s).work = s.work := rfl
@[simp] theorem record_con (a : Action) (s : State) : (State.record a s).con = s.con := rfl
@[simp] theorem record_stat (a : Action) (s : State) : (State.record a s).stat = s.stat := rfl
@[simp] theorem record_trn (a : Action) (s : State) : (State.record a s).trn = s.trn := rfl
@[simp] theorem record_rcv (a : Action) (s : State) : (State.record a s).rcv = s.rcv := rfl
@[simp] theorem record_brg (a : Action) (s : State) : (State.record a s).brg = s.brg := rfl
@[simp] theorem record_line (a : Action) (s : State) : (State.record a s).line = s.line := rfl
@[simp] theorem record_hist (a : Action) (s : State) : (State.record a s).hist = a :: s.hist := rfl
@[simp] theorem record_params (a : Action) (s : State) : (State.record a s).params = s.params := rfl
@[simp] theorem record_inputs (a : Action) (s : State) : (State.record a s).inputs = s.inputs := rfl
@[simp] theorem record_hostLog (a : Action) (s : State) : (State.record a s).hostLog = s.hostLog := rfl
@[simp] theorem record_draws (a : Action) (s : State) : (State.record a s).draws = s.draws := rfl

/-! ### ctlReadCon -/

@[simp] theorem ctlReadCon_cmd (s : State) : (ctlReadCon s).cmd = s.cmd := rfl
@[simp] theorem ctlReadCon_res (s : State) : (ctlReadCon s).res = s.res := rfl
@[simp] theorem ctlReadCon_busy (s : State) : (ctlReadCon s).busy = s.busy := rfl
@[simp] theorem ctlReadCon_dirty (s : State) : (ctlReadCon s).dirty = s.dirty := rfl
@[simp] theorem ctlReadCon_hostErr (s : State) : (ctlReadCon s).hostErr = s.hostErr := rfl
@[simp] theorem ctlReadCon_count (s : State) : (ctlReadCon s).count = s.count := rfl
@[simp] theorem ctlReadCon_buf (s : State) : (ctlReadCon s).buf = s.buf := rfl
@[simp] theorem ctlReadCon_fsm (s : State) : (ctlReadCon s).fsm = s.fsm := rfl
@[simp] theorem ctlReadCon_latch (s : State) : (ctlReadCon s).latch = s.latch := rfl
@[simp] theorem ctlReadCon_work (s : State) : (ctlReadCon s).work = { s.work with c := s.con } := rfl
@[simp] theorem ctlReadCon_con (s : State) : (ctlReadCon s).con = s.con := rfl
@[simp] theorem ctlReadCon_stat (s : State) : (ctlReadCon s).stat = s.stat := rfl
@[simp] theorem ctlReadCon_trn (s : State) : (ctlReadCon s).trn = s.trn := rfl
@[simp] theorem ctlReadCon_rcv (s : State) : (ctlReadCon s).rcv = s.rcv := rfl
@[simp] theorem ctlReadCon_brg (s : State) : (ctlReadCon s).brg = s.brg := rfl
@[simp] theorem ctlReadCon_line (s : State) : (ctlReadCon s).line = s.line := rfl
@[simp] theorem ctlReadCon_hist (s : State) : (ctlReadCon s).hist = .readCon s.con :: s.hist := rfl
@[simp] theorem ctlReadCon_params (s : State) : (ctlReadCon s).params = s.params := rfl
@[simp] theorem ctlReadCon_inputs (s : State) : (ctlReadCon s).inputs = s.inputs := rfl
@[simp] theorem ctlReadCon_hostLog (s : State) : (ctlReadCon s).hostLog = s.hostLog := rfl
@[simp] theorem ctlReadCon_draws (s : State) : (ctlReadCon s).draws = s.draws := rfl

/-! ### ctlReadStat -/

@[simp] theorem ctlReadStat_cmd (s : State) : (ctlReadStat s).cmd = s.cmd := rfl
@[simp] theorem ctlReadStat_res (s : State) : (ctlReadStat s).res = s.res := rfl
@[simp] theorem ctlReadStat_busy (s : State) : (ctlReadStat s).busy = s.busy := rfl
@[simp] theorem ctlReadStat_dirty (s : State) : (ctlReadStat s).dirty = s.dirty := rfl
@[simp] theorem ctlReadStat_hostErr (s : State) : (ctlReadStat s).hostErr = s.hostErr := rfl
@[simp] theorem ctlReadStat_count (s : State) : (ctlReadStat s).count = s.count := rfl
@[simp] theorem ctlReadStat_buf (s : State) : (ctlReadStat s).buf = s.buf := rfl
@[simp] theorem ctlReadStat_fsm (s : State) : (ctlReadStat s).fsm = s.fsm := rfl
@[simp] theorem ctlReadStat_latch (s : State) : (ctlReadStat s).latch = s.latch := rfl
@[simp] theorem ctlReadStat_work (s : State) : (ctlReadStat s).work = { s.work with s := s.stat } := rfl
@[simp] theorem ctlReadStat_con (s : State) : (ctlReadStat s).con = s.con := rfl
@[simp] theorem ctlReadStat_stat (s : State) : (ctlReadStat s).stat = s.stat := rfl
@[simp] theorem ctlReadStat_trn (s : State) : (ctlReadStat s).trn = s.trn := rfl
@[simp] theorem ctlReadStat_rcv (s : State) : (ctlReadStat s).rcv = s.rcv := rfl
@[simp] theorem ctlReadStat_brg (s : State) : (ctlReadStat s).brg = s.brg := rfl
@[simp] theorem ctlReadStat_line (s : State) : (ctlReadStat s).line = s.line := rfl
@[simp] theorem ctlReadStat_hist (s : State) : (ctlReadStat s).hist = .readStat s.stat :: s.hist := rfl
@[simp] theorem ctlReadStat_params (s : State) : (ctlReadStat s).params = s.params := rfl
@[simp] theorem ctlReadStat_inputs (s : State) : (ctlReadStat s).inputs = s.inputs := rfl
@[simp] theorem ctlReadStat_hostLog (s : State) : (ctlReadStat s).hostLog = s.hostLog := rfl
@[simp] theorem ctlReadStat_draws (s : State) : (ctlReadStat s).draws = s.draws := rfl

/-! ### ctlReadRcv -/

@[simp] theorem ctlReadRcv_cmd (s : State) : (ctlReadRcv s).cmd = s.cmd := rfl
@[simp] theorem ctlReadRcv_res (s : State) : (ctlReadRcv s).res = s.res := rfl
@[simp] theorem ctlReadRcv_busy (s : State) : (ctlReadRcv s).busy = s.busy := rfl
@[simp] theorem ctlReadRcv_dirty (s : State) : (ctlReadRcv s).dirty = s.dirty := rfl
@[simp] theorem ctlReadRcv_hostErr (s : State) : (ctlReadRcv s).hostErr = s.hostErr := rfl
@[simp] theorem ctlReadRcv_count (s : State) : (ctlReadRcv s).count = s.count := rfl
@[simp] theorem ctlReadRcv_buf (s : State) : (ctlReadRcv s).buf = s.buf := rfl
@[simp] theorem ctlReadRcv_fsm (s : State) : (ctlReadRcv s).fsm = s.fsm := rfl
@[simp] theorem ctlReadRcv_latch (s : State) : (ctlReadRcv s).latch = s.latch := rfl
@[simp] theorem ctlReadRcv_work (s : State) : (ctlReadRcv s).work = { s.work with b := s.rcv } := rfl
@[simp] theorem ctlReadRcv_con (s : State) : (ctlReadRcv s).con = s.con := rfl
@[simp] theorem ctlReadRcv_stat (s : State) : (ctlReadRcv s).stat = { s.stat with rbf := false } := rfl
@[simp] theorem ctlReadRcv_trn (s : State) : (ctlReadRcv s).trn = s.trn := rfl
@[simp] theorem ctlReadRcv_rcv (s : State) : (ctlReadRcv s).rcv = s.rcv := rfl
@[simp] theorem ctlReadRcv_brg (s : State) : (ctlReadRcv s).brg = s.brg := rfl
@[simp] theorem ctlReadRcv_line (s : State) : (ctlReadRcv s).line = s.line := rfl
@[simp] theorem ctlReadRcv_hist (s : State) : (ctlReadRcv s).hist = .readRcv s.rcv :: s.hist := rfl
@[simp] theorem ctlReadRcv_params (s : State) : (ctlReadRcv s).params = s.params := rfl
@[simp] theorem ctlReadRcv_inputs (s : State) : (ctlReadRcv s).inputs = s.inputs := rfl
@[simp] theorem ctlReadRcv_hostLog (s : State) : (ctlReadRcv s).hostLog = s.hostLog := rfl
@[simp] theorem ctlReadRcv_draws (s : State) : (ctlReadRcv s).draws = s.draws := rfl

/-! ### ctlWriteCon -/

@[simp] theorem ctlWriteCon_cmd (f : ConField) (v : Bool) (s : State) : (ctlWriteCon f v s).cmd = s.cmd := rfl
@[simp] theorem ctlWriteCon_res (f : ConField) (v : Bool) (s : State) : (ctlWriteCon f v s).res = s.res := rfl
@[simp] theorem ctlWriteCon_busy (f : ConField) (v : Bool) (s : State) : (ctlWriteCon f v s).busy = s.busy := rfl
@[simp] theorem ctlWriteCon_dirty (f : ConField) (v : Bool) (s : State) : (ctlWriteCon f v s).dirty = s.dirty := rfl
@[simp] theorem ctlWriteCon_hostErr (f : ConField) (v : Bool) (s : State) : (ctlWriteCon f v s).hostErr = s.hostErr := rfl
@[simp] theorem ctlWriteCon_count (f : ConField) (v : Bool) (s : State) : (ctlWriteCon f v s).count = s.count := rfl
@[simp] theorem ctlWriteCon_buf (f : ConField) (v : Bool) (s : State) : (ctlWriteCon f v s).buf = s.buf := rfl
@[simp] theorem ctlWriteCon_fsm (f : ConField) (v : Bool) (s : State) : (ctlWriteCon f v s).fsm = s.fsm := rfl
@[simp] theorem ctlWriteCon_latch (f : ConField) (v : Bool) (s : State) : (ctlWriteCon f v s).latch = s.latch := rfl
@[simp] theorem ctlWriteCon_work (f : ConField) (v : Bool) (s : State) : (ctlWriteCon f v s).work = s.work := rfl
@[simp] theorem ctlWriteCon_con (f : ConField) (v : Bool) (s : State) : (ctlWriteCon f v s).con = s.con.set f v := rfl
@[simp] theorem ctlWriteCon_stat (f : ConField) (v : Bool) (s : State) : (ctlWriteCon f v s).stat = s.stat.afterEnable (decide (f = .on) && v && !s.con.on) := rfl
@[simp] theorem ctlWriteCon_trn (f : ConField) (v : Bool) (s : State) : (ctlWriteCon f v s).trn = s.trn := rfl
@[simp] theorem ctlWriteCon_rcv (f : ConField) (v : Bool) (s : State) : (ctlWriteCon f v s).rcv = s.rcv := rfl
@[simp] theorem ctlWriteCon_brg (f : ConField) (v : Bool) (s : State) : (ctlWriteCon f v s).brg = s.brg := rfl
@[simp] theorem ctlWriteCon_line (f : ConField) (v : Bool) (s : State) : (ctlWriteCon f v s).line = s.line := rfl
@[simp] theorem ctlWriteCon_hist (f : ConField) (v : Bool) (s : State) : (ctlWriteCon f v s).hist = .writeCon f v :: s.hist := rfl
@[simp] theorem ctlWriteCon_params (f : ConField) (v : Bool) (s : State) : (ctlWriteCon f v s).params = s.params := rfl
@[simp] theorem ctlWriteCon_inputs (f : ConField) (v : Bool) (s : State) : (ctlWriteCon f v s).inputs = s.inputs := rfl
@[simp] theorem ctlWriteCon_hostLog (f : ConField) (v : Bool) (s : State) : (ctlWriteCon f v s).hostLog = s.hostLog := rfl
@[simp] theorem ctlWriteCon_draws (f : ConField) (v : Bool) (s : State) : (ctlWriteCon f v s).draws = s.draws := rfl

/-! ### ctlWriteTrn -/

@[simp] theorem ctlWriteTrn_cmd (v : Byte) (s : State) : (ctlWriteTrn v s).cmd = s.cmd := rfl
@[simp] theorem ctlWriteTrn_res (v : Byte) (s : State) : (ctlWriteTrn v s).res = s.res := rfl
@[simp] theorem ctlWriteTrn_busy (v : Byte) (s : State) : (ctlWriteTrn v s).busy = s.busy := rfl
@[simp] theorem ctlWriteTrn_dirty (v : Byte) (s : State) : (ctlWriteTrn v s).dirty = s.dirty := rfl
@[simp] theorem ctlWriteTrn_hostErr (v : Byte) (s : State) : (ctlWriteTrn v s).hostErr = s.hostErr := rfl
@[simp] theorem ctlWriteTrn_count (v : Byte) (s : State) : (ctlWriteTrn v s).count = s.count := rfl
@[simp] theorem ctlWriteTrn_buf (v : Byte) (s : State) : (ctlWriteTrn v s).buf = s.buf := rfl
@[simp] theorem ctlWriteTrn_fsm (v : Byte) (s : State) : (ctlWriteTrn v s).fsm = s.fsm := rfl
@[simp] theorem ctlWriteTrn_latch (v : Byte) (s : State) : (ctlWriteTrn v s).latch = s.latch := rfl
@[simp] theorem ctlWriteTrn_work (v : Byte) (s : State) : (ctlWriteTrn v s).work = s.work := rfl
@[simp] theorem ctlWriteTrn_con (v : Byte) (s : State) : (ctlWriteTrn v s).con = s.con := rfl
@[simp] theorem ctlWriteTrn_stat (v : Byte) (s : State) : (ctlWriteTrn v s).stat = s.stat := rfl
@[simp] theorem ctlWriteTrn_trn (v : Byte) (s : State) : (ctlWriteTrn v s).trn = v := rfl
@[simp] theorem ctlWriteTrn_rcv (v : Byte) (s : State) : (ctlWriteTrn v s).rcv = s.rcv := rfl
@[simp] theorem ctlWriteTrn_brg (v : Byte) (s : State) : (ctlWriteTrn v s).brg = s.brg := rfl
@[simp] theorem ctlWriteTrn_line (v : Byte) (s : State) : (ctlWriteTrn v s).line = s.line := rfl
@[simp] theorem ctlWriteTrn_hist (v : Byte) (s : State) : (ctlWriteTrn v s).hist = .writeTrn v :: s.hist := rfl
@[simp] theorem ctlWriteTrn_params (v : Byte) (s : State) : (ctlWriteTrn v s).params = s.params := rfl
@[simp] theorem ctlWriteTrn_inputs (v : Byte) (s : State) : (ctlWriteTrn v s).inputs = s.inputs := rfl
@[simp] theorem ctlWriteTrn_hostLog (v : Byte) (s : State) : (ctlWriteTrn v s).hostLog = s.hostLog := rfl
@[simp] theorem ctlWriteTrn_draws (v : Byte) (s : State) : (ctlWriteTrn v s).draws = s.draws := rfl

/-! ### ctlWriteBrg -/

@[simp] theorem ctlWriteBrg_cmd (v : BitVec 16) (s : State) : (ctlWriteBrg v s).cmd = s.cmd := rfl
@[simp] theorem ctlWriteBrg_res (v : BitVec 16) (s : State) : (ctlWriteBrg v s).res = s.res := rfl
@[simp] theorem ctlWriteBrg_busy (v : BitVec 16) (s : State) : (ctlWriteBrg v s).busy = s.busy := rfl
@[simp] theorem ctlWriteBrg_dirty (v : BitVec 16) (s : State) : (ctlWriteBrg v s).dirty = s.dirty := rfl
@[simp] theorem ctlWriteBrg_hostErr (v : BitVec 16) (s : State) : (ctlWriteBrg v s).hostErr = s.hostErr := rfl
@[simp] theorem ctlWriteBrg_count (v : BitVec 16) (s : State) : (ctlWriteBrg v s).count = s.count := rfl
@[simp] theorem ctlWriteBrg_buf (v : BitVec 16) (s : State) : (ctlWriteBrg v s).buf = s.buf := rfl
@[simp] theorem ctlWriteBrg_fsm (v : BitVec 16) (s : State) : (ctlWriteBrg v s).fsm = s.fsm := rfl
@[simp] theorem ctlWriteBrg_latch (v : BitVec 16) (s : State) : (ctlWriteBrg v s).latch = s.latch := rfl
@[simp] theorem ctlWriteBrg_work (v : BitVec 16) (s : State) : (ctlWriteBrg v s).work = s.work := rfl
@[simp] theorem ctlWriteBrg_con (v : BitVec 16) (s : State) : (ctlWriteBrg v s).con = s.con := rfl
@[simp] theorem ctlWriteBrg_stat (v : BitVec 16) (s : State) : (ctlWriteBrg v s).stat = s.stat := rfl
@[simp] theorem ctlWriteBrg_trn (v : BitVec 16) (s : State) : (ctlWriteBrg v s).trn = s.trn := rfl
@[simp] theorem ctlWriteBrg_rcv (v : BitVec 16) (s : State) : (ctlWriteBrg v s).rcv = s.rcv := rfl
@[simp] theorem ctlWriteBrg_brg (v : BitVec 16) (s : State) : (ctlWriteBrg v s).brg = v := rfl
@[simp] theorem ctlWriteBrg_line (v : BitVec 16) (s : State) : (ctlWriteBrg v s).line = s.line := rfl
@[simp] theorem ctlWriteBrg_hist (v : BitVec 16) (s : State) : (ctlWriteBrg v s).hist = .writeBrg v :: s.hist := rfl
@[simp] theorem ctlWriteBrg_params (v : BitVec 16) (s : State) : (ctlWriteBrg v s).params = s.params := rfl
@[simp] theorem ctlWriteBrg_inputs (v : BitVec 16) (s : State) : (ctlWriteBrg v s).inputs = s.inputs := rfl
@[simp] theorem ctlWriteBrg_hostLog (v : BitVec 16) (s : State) : (ctlWriteBrg v s).hostLog = s.hostLog := rfl
@[simp] theorem ctlWriteBrg_draws (v : BitVec 16) (s : State) : (ctlWriteBrg v s).draws = s.draws := rfl

/-! ### lineDrive_scl -/

@[simp] theorem lineDrive_scl_cmd (v : Bool) (s : State) : (lineDrive .scl v s).cmd = s.cmd := rfl
@[simp] theorem lineDrive_scl_res (v : Bool) (s : State) : (lineDrive .scl v s).res = s.res := rfl
@[simp] theorem lineDrive_scl_busy (v : Bool) (s : State) : (lineDrive .scl v s).busy = s.busy := rfl
@[simp] theorem lineDrive_scl_dirty (v : Bool) (s : State) : (lineDrive .scl v s).dirty = s.dirty := rfl
@[simp] theorem lineDrive_scl_hostErr (v : Bool) (s : State) : (lineDrive .scl v s).hostErr = s.hostErr := rfl
@[simp] theorem lineDrive_scl_count (v : Bool) (s : State) : (lineDrive .scl v s).count = s.count := rfl
@[simp] theorem lineDrive_scl_buf (v : Bool) (s : State) : (lineDrive .scl v s).buf = s.buf := rfl
@[simp] theorem lineDrive_scl_fsm (v : Bool) (s : State) : (lineDrive .scl v s).fsm = s.fsm := rfl
@[simp] theorem lineDrive_scl_latch (v : Bool) (s : State) : (lineDrive .scl v s).latch = s.latch := rfl
@[simp] theorem lineDrive_scl_work (v : Bool) (s : State) : (lineDrive .scl v s).work = s.work := rfl
@[simp] theorem lineDrive_scl_con (v : Bool) (s : State) : (lineDrive .scl v s).con = s.con := rfl
@[simp] theorem lineDrive_scl_stat (v : Bool) (s : State) : (lineDrive .scl v s).stat = s.stat := rfl
@[simp] theorem lineDrive_scl_trn (v : Bool) (s : State) : (lineDrive .scl v s).trn = s.trn := rfl
@[simp] theorem lineDrive_scl_rcv (v : Bool) (s : State) : (lineDrive .scl v s).rcv = s.rcv := rfl
@[simp] theorem lineDrive_scl_brg (v : Bool) (s : State) : (lineDrive .scl v s).brg = s.brg := rfl
@[simp] theorem lineDrive_scl_line (v : Bool) (s : State) : (lineDrive .scl v s).line = { s.line with sclOut := v } := rfl
@[simp] theorem lineDrive_scl_hist (v : Bool) (s : State) : (lineDrive .scl v s).hist = .lineDrive .scl v :: s.hist := rfl
@[simp] theorem lineDrive_scl_params (v : Bool) (s : State) : (lineDrive .scl v s).params = s.params := rfl
@[simp] theorem lineDrive_scl_inputs (v : Bool) (s : State) : (lineDrive .scl v s).inputs = s.inputs := rfl
@[simp] theorem lineDrive_scl_hostLog (v : Bool) (s : State) : (lineDrive .scl v s).hostLog = s.hostLog := rfl
@[simp] theorem lineDrive_scl_draws (v : Bool) (s : State) : (lineDrive .scl v s).draws = s.draws := rfl

/-! ### lineDrive_sda -/

@[simp] theorem lineDrive_sda_cmd (v : Bool) (s : State) : (lineDrive .sda v s).cmd = s.cmd := rfl
@[simp] theorem lineDrive_sda_res (v : Bool) (s : State) : (lineDrive .sda v s).res = s.res := rfl
@[simp] theorem lineDrive_sda_busy (v : Bool) (s : State) : (lineDrive .sda v s).busy = s.busy := rfl
@[simp] theorem lineDrive_sda_dirty (v : Bool) (s : State) : (lineDrive .sda v s).dirty = s.dirty := rfl
@[simp] theorem lineDrive_sda_hostErr (v : Bool) (s : State) : (lineDrive .sda v s).hostErr = s.hostErr := rfl
@[simp] theorem lineDrive_sda_count (v : Bool) (s : State) : (lineDrive .sda v s).count = s.count := rfl
@[simp] theorem lineDrive_sda_buf (v : Bool) (s : State) : (lineDrive .sda v s).buf = s.buf := rfl
@[simp] theorem lineDrive_sda_fsm (v : Bool) (s : State) : (lineDrive .sda v s).fsm = s.fsm := rfl
@[simp] theorem lineDrive_sda_latch (v : Bool) (s : State) : (lineDrive .sda v s).latch = s.latch := rfl
@[simp] theorem lineDrive_sda_work (v : Bool) (s : State) : (lineDrive .sda v s).work = s.work := rfl
@[simp] theorem lineDrive_sda_con (v : Bool) (s : State) : (lineDrive .sda v s).con = s.con := rfl
@[simp] theorem lineDrive_sda_stat (v : Bool) (s : State) : (lineDrive .sda v s).stat = s.stat := rfl
@[simp] theorem lineDrive_sda_trn (v : Bool) (s : State) : (lineDrive .sda v s).trn = s.trn := rfl
@[simp] theorem lineDrive_sda_rcv (v : Bool) (s : State) : (lineDrive .sda v s).rcv = s.rcv := rfl
@[simp] theorem lineDrive_sda_brg (v : Bool) (s : State) : (lineDrive .sda v s).brg = s.brg := rfl
@[simp] theorem lineDrive_sda_line (v : Bool) (s : State) : (lineDrive .sda v s).line = { s.line with sdaOut := v } := rfl
@[simp] theorem lineDrive_sda_hist (v : Bool) (s : State) : (lineDrive .sda v s).hist = .lineDrive .sda v :: s.hist := rfl
@[simp] theorem lineDrive_sda_params (v : Bool) (s : State) : (lineDrive .sda v s).params = s.params := rfl
@[simp] theorem lineDrive_sda_inputs (v : Bool) (s : State) : (lineDrive .sda v s).inputs = s.inputs := rfl
@[simp] theorem lineDrive_sda_hostLog (v : Bool) (s : State) : (lineDrive .sda v s).hostLog = s.hostLog := rfl
@[simp] theorem lineDrive_sda_draws (v : Bool) (s : State) : (lineDrive .sda v s).draws = s.draws := rfl

/-! ### lineSense_scl -/

@[simp] theorem lineSense_scl_cmd (s : State) : (lineSense .scl s).cmd = s.cmd := rfl
@[simp] theorem lineSense_scl_res (s : State) : (lineSense .scl s).res = s.res := rfl
@[simp] theorem lineSense_scl_busy (s : State) : (lineSense .scl s).busy = s.busy := rfl
@[simp] theorem lineSense_scl_dirty (s : State) : (lineSense .scl s).dirty = s.dirty := rfl
@[simp] theorem lineSense_scl_hostErr (s : State) : (lineSense .scl s).hostErr = s.hostErr := rfl
@[simp] theorem lineSense_scl_count (s : State) : (lineSense .scl s).count = s.count := rfl
@[simp] theorem lineSense_scl_buf (s : State) : (lineSense .scl s).buf = s.buf := rfl
@[simp] theorem lineSense_scl_fsm (s : State) : (lineSense .scl s).fsm = s.fsm := rfl
@[simp] theorem lineSense_scl_latch (s : State) : (lineSense .scl s).latch = s.latch := rfl
@[simp] theorem lineSense_scl_work (s : State) : (lineSense .scl s).work = { s.work with x := s.sensed .scl } := rfl
@[simp] theorem lineSense_scl_con (s : State) : (lineSense .scl s).con = s.con := rfl
@[simp] theorem lineSense_scl_stat (s : State) : (lineSense .scl s).stat = s.stat := rfl
@[simp] theorem lineSense_scl_trn (s : State) : (lineSense .scl s).trn = s.trn := rfl
@[simp] theorem lineSense_scl_rcv (s : State) : (lineSense .scl s).rcv = s.rcv := rfl
@[simp] theorem lineSense_scl_brg (s : State) : (lineSense .scl s).brg = s.brg := rfl
@[simp] theorem lineSense_scl_line (s : State) : (lineSense .scl s).line = s.line := rfl
@[simp] theorem lineSense_scl_hist (s : State) : (lineSense .scl s).hist = .lineSense .scl (s.sensed .scl) :: s.hist := rfl
@[simp] theorem lineSense_scl_params (s : State) : (lineSense .scl s).params = s.params := rfl
@[simp] theorem lineSense_scl_inputs (s : State) : (lineSense .scl s).inputs = s.inputs := rfl
@[simp] theorem lineSense_scl_hostLog (s : State) : (lineSense .scl s).hostLog = s.hostLog := rfl
@[simp] theorem lineSense_scl_draws (s : State) : (lineSense .scl s).draws = if s.con.on then s.draws + 1 else s.draws := rfl

/-! ### lineSense_sda -/

@[simp] theorem lineSense_sda_cmd (s : State) : (lineSense .sda s).cmd = s.cmd := rfl
@[simp] theorem lineSense_sda_res (s : State) : (lineSense .sda s).res = s.res := rfl
@[simp] theorem lineSense_sda_busy (s : State) : (lineSense .sda s).busy = s.busy := rfl
@[simp] theorem lineSense_sda_dirty (s : State) : (lineSense .sda s).dirty = s.dirty := rfl
@[simp] theorem lineSense_sda_hostErr (s : State) : (lineSense .sda s).hostErr = s.hostErr := rfl
@[simp] theorem lineSense_sda_count (s : State) : (lineSense .sda s).count = s.count := rfl
@[simp] theorem lineSense_sda_buf (s : State) : (lineSense .sda s).buf = s.buf := rfl
@[simp] theorem lineSense_sda_fsm (s : State) : (lineSense .sda s).fsm = s.fsm := rfl
@[simp] theorem lineSense_sda_latch (s : State) : (lineSense .sda s).latch = s.latch := rfl
@[simp] theorem lineSense_sda_work (s : State) : (lineSense .sda s).work = { s.work with y := s.sensed .sda } := rfl
@[simp] theorem lineSense_sda_con (s : State) : (lineSense .sda s).con = s.con := rfl
@[simp] theorem lineSense_sda_stat (s : State) : (lineSense .sda s).stat = s.stat := rfl
@[simp] theorem lineSense_sda_trn (s : State) : (lineSense .sda s).trn = s.trn := rfl
@[simp] theorem lineSense_sda_rcv (s : State) : (lineSense .sda s).rcv = s.rcv := rfl
@[simp] theorem lineSense_sda_brg (s : State) : (lineSense .sda s).brg = s.brg := rfl
@[simp] theorem lineSense_sda_line (s : State) : (lineSense .sda s).line = s.line := rfl
@[simp] theorem lineSense_sda_hist (s : State) : (lineSense .sda s).hist = .lineSense .sda (s.sensed .sda) :: s.hist := rfl
@[simp] theorem lineSense_sda_params (s : State) : (lineSense .sda s).params = s.params := rfl
@[simp] theorem lineSense_sda_inputs (s : State) : (lineSense .sda s).inputs = s.inputs := rfl
@[simp] theorem lineSense_sda_hostLog (s : State) : (lineSense .sda s).hostLog = s.hostLog := rfl
@[simp] theorem lineSense_sda_draws (s : State) : (lineSense .sda s).draws = if s.con.on then s.draws + 1 else s.draws := rfl

/-! ### delay -/

@[simp] theorem delay_cmd (s : State) : (delay s).cmd = s.cmd := rfl
@[simp] theorem delay_res (s : State) : (delay s).res = s.res := rfl
@[simp] theorem delay_busy (s : State) : (delay s).busy = s.busy := rfl
@[simp] theorem delay_dirty (s : State) : (delay s).dirty = s.dirty := rfl
@[simp] theorem delay_hostErr (s : State) : (delay s).hostErr = s.hostErr := rfl
@[simp] theorem delay_count (s : State) : (delay s).count = s.count := rfl
@[simp] theorem delay_buf (s : State) : (delay s).buf = s.buf := rfl
@[simp] theorem delay_fsm (s : State) : (delay s).fsm = s.fsm := rfl
@[simp] theorem delay_latch (s : State) : (delay s).latch = s.latch := rfl
@[simp] theorem delay_work (s : State) : (delay s).work = s.work := rfl
@[simp] theorem delay_con (s : State) : (delay s).con = s.con := rfl
@[simp] theorem delay_stat (s : State) : (delay s).stat = s.stat := rfl
@[simp] theorem delay_trn (s : State) : (delay s).trn = s.trn := rfl
@[simp] theorem delay_rcv (s : State) : (delay s).rcv = s.rcv := rfl
@[simp] theorem delay_brg (s : State) : (delay s).brg = s.brg := rfl
@[simp] theorem delay_line (s : State) : (delay s).line = s.line := rfl
@[simp] theorem delay_hist (s : State) : (delay s).hist = .delay Config.tRec :: s.hist := rfl
@[simp] theorem delay_params (s : State) : (delay s).params = s.params := rfl
@[simp] theorem delay_inputs (s : State) : (delay s).inputs = s.inputs := rfl
@[simp] theorem delay_hostLog (s : State) : (delay s).hostLog = s.hostLog := rfl
@[simp] theorem delay_draws (s : State) : (delay s).draws = s.draws := rfl

/-! ### diag -/

@[simp] theorem diag_cmd (p : Prim) (s : State) : (diag p s).cmd = s.cmd := rfl
@[simp] theorem diag_res (p : Prim) (s : State) : (diag p s).res = s.res := rfl
@[simp] theorem diag_busy (p : Prim) (s : State) : (diag p s).busy = s.busy := rfl
@[simp] theorem diag_dirty (p : Prim) (s : State) : (diag p s).dirty = s.dirty := rfl
@[simp] theorem diag_hostErr (p : Prim) (s : State) : (diag p s).hostErr = s.hostErr := rfl
@[simp] theorem diag_count (p : Prim) (s : State) : (diag p s).count = s.count := rfl
@[simp] theorem diag_buf (p : Prim) (s : State) : (diag p s).buf = s.buf := rfl
@[simp] theorem diag_fsm (p : Prim) (s : State) : (diag p s).fsm = s.fsm := rfl
@[simp] theorem diag_latch (p : Prim) (s : State) : (diag p s).latch = s.latch := rfl
@[simp] theorem diag_work (p : Prim) (s : State) : (diag p s).work = s.work := rfl
@[simp] theorem diag_con (p : Prim) (s : State) : (diag p s).con = s.con := rfl
@[simp] theorem diag_stat (p : Prim) (s : State) : (diag p s).stat = s.stat := rfl
@[simp] theorem diag_trn (p : Prim) (s : State) : (diag p s).trn = s.trn := rfl
@[simp] theorem diag_rcv (p : Prim) (s : State) : (diag p s).rcv = s.rcv := rfl
@[simp] theorem diag_brg (p : Prim) (s : State) : (diag p s).brg = s.brg := rfl
@[simp] theorem diag_line (p : Prim) (s : State) : (diag p s).line = s.line := rfl
@[simp] theorem diag_hist (p : Prim) (s : State) : (diag p s).hist = .diag p :: s.hist := rfl
@[simp] theorem diag_params (p : Prim) (s : State) : (diag p s).params = s.params := rfl
@[simp] theorem diag_inputs (p : Prim) (s : State) : (diag p s).inputs = s.inputs := rfl
@[simp] theorem diag_hostLog (p : Prim) (s : State) : (diag p s).hostLog = s.hostLog := rfl
@[simp] theorem diag_draws (p : Prim) (s : State) : (diag p s).draws = s.draws := rfl

/-! ### dirtyWrite -/

@[simp] theorem dirtyWrite_cmd (v : Bool) (s : State) : (dirtyWrite v s).cmd = s.cmd := rfl
@[simp] theorem dirtyWrite_res (v : Bool) (s : State) : (dirtyWrite v s).res = s.res := rfl
@[simp] theorem dirtyWrite_busy (v : Bool) (s : State) : (dirtyWrite v s).busy = s.busy := rfl
@[simp] theorem dirtyWrite_dirty (v : Bool) (s : State) : (dirtyWrite v s).dirty = v := rfl
@[simp] theorem dirtyWrite_hostErr (v : Bool) (s : State) : (dirtyWrite v s).hostErr = s.hostErr := rfl
@[simp] theorem dirtyWrite_count (v : Bool) (s : State) : (dirtyWrite v s).count = s.count := rfl
@[simp] theorem dirtyWrite_buf (v : Bool) (s : State) : (dirtyWrite v s).buf = s.buf := rfl
@[simp] theorem dirtyWrite_fsm (v : Bool) (s : State) : (dirtyWrite v s).fsm = s.fsm := rfl
@[simp] theorem dirtyWrite_latch (v : Bool) (s : State) : (dirtyWrite v s).latch = s.latch := rfl
@[simp] theorem dirtyWrite_work (v : Bool) (s : State) : (dirtyWrite v s).work = s.work := rfl
@[simp] theorem dirtyWrite_con (v : Bool) (s : State) : (dirtyWrite v s).con = s.con := rfl
@[simp] theorem dirtyWrite_stat (v : Bool) (s : State) : (dirtyWrite v s).stat = s.stat := rfl
@[simp] theorem dirtyWrite_trn (v : Bool) (s : State) : (dirtyWrite v s).trn = s.trn := rfl
@[simp] theorem dirtyWrite_rcv (v : Bool) (s : State) : (dirtyWrite v s).rcv = s.rcv := rfl
@[simp] theorem dirtyWrite_brg (v : Bool) (s : State) : (dirtyWrite v s).brg = s.brg := rfl
@[simp] theorem dirtyWrite_line (v : Bool) (s : State) : (dirtyWrite v s).line = s.line := rfl
@[simp] theorem dirtyWrite_hist (v : Bool) (s : State) : (dirtyWrite v s).hist = .dirtyWrite v :: s.hist := rfl
@[simp] theorem dirtyWrite_params (v : Bool) (s : State) : (dirtyWrite v s).params = s.params := rfl
@[simp] theorem dirtyWrite_inputs (v : Bool) (s : State) : (dirtyWrite v s).inputs = s.inputs := rfl
@[simp] theorem dirtyWrite_hostLog (v : Bool) (s : State) : (dirtyWrite v s).hostLog = s.hostLog := rfl
@[simp] theorem dirtyWrite_draws (v : Bool) (s : State) : (dirtyWrite v s).draws = s.draws := rfl

/-! ### dirtyRead -/

@[simp] theorem dirtyRead_cmd (s : State) : (dirtyRead s).cmd = s.cmd := rfl
@[simp] theorem dirtyRead_res (s : State) : (dirtyRead s).res = s.res := rfl
@[simp] theorem dirtyRead_busy (s : State) : (dirtyRead s).busy = s.busy := rfl
@[simp] theorem dirtyRead_dirty (s : State) : (dirtyRead s).dirty = s.dirty := rfl
@[simp] theorem dirtyRead_hostErr (s : State) : (dirtyRead s).hostErr = s.hostErr := rfl
@[simp] theorem dirtyRead_count (s : State) : (dirtyRead s).count = s.count := rfl
@[simp] theorem dirtyRead_buf (s : State) : (dirtyRead s).buf = s.buf := rfl
@[simp] theorem dirtyRead_fsm (s : State) : (dirtyRead s).fsm = s.fsm := rfl
@[simp] theorem dirtyRead_latch (s : State) : (dirtyRead s).latch = s.latch := rfl
@[simp] theorem dirtyRead_work (s : State) : (dirtyRead s).work = { s.work with d := s.dirty } := rfl
@[simp] theorem dirtyRead_con (s : State) : (dirtyRead s).con = s.con := rfl
@[simp] theorem dirtyRead_stat (s : State) : (dirtyRead s).stat = s.stat := rfl
@[simp] theorem dirtyRead_trn (s : State) : (dirtyRead s).trn = s.trn := rfl
@[simp] theorem dirtyRead_rcv (s : State) : (dirtyRead s).rcv = s.rcv := rfl
@[simp] theorem dirtyRead_brg (s : State) : (dirtyRead s).brg = s.brg := rfl
@[simp] theorem dirtyRead_line (s : State) : (dirtyRead s).line = s.line := rfl
@[simp] theorem dirtyRead_hist (s : State) : (dirtyRead s).hist = .dirtyRead s.dirty :: s.hist := rfl
@[simp] theorem dirtyRead_params (s : State) : (dirtyRead s).params = s.params := rfl
@[simp] theorem dirtyRead_inputs (s : State) : (dirtyRead s).inputs = s.inputs := rfl
@[simp] theorem dirtyRead_hostLog (s : State) : (dirtyRead s).hostLog = s.hostLog := rfl
@[simp] theorem dirtyRead_draws (s : State) : (dirtyRead s).draws = s.draws := rfl

/-! ### complete -/

@[simp] theorem complete_cmd (c : BitVec 5) (d : Byte) (n : BitVec 16) (s : State) : (complete c d n s).cmd = s.cmd := rfl
@[simp] theorem complete_res (c : BitVec 5) (d : Byte) (n : BitVec 16) (s : State) : (complete c d n s).res = { code := c, data := d, nxfer := n } := rfl
@[simp] theorem complete_busy (c : BitVec 5) (d : Byte) (n : BitVec 16) (s : State) : (complete c d n s).busy = false := rfl
@[simp] theorem complete_dirty (c : BitVec 5) (d : Byte) (n : BitVec 16) (s : State) : (complete c d n s).dirty = s.dirty := rfl
@[simp] theorem complete_hostErr (c : BitVec 5) (d : Byte) (n : BitVec 16) (s : State) : (complete c d n s).hostErr = s.hostErr := rfl
@[simp] theorem complete_count (c : BitVec 5) (d : Byte) (n : BitVec 16) (s : State) : (complete c d n s).count = s.count := rfl
@[simp] theorem complete_buf (c : BitVec 5) (d : Byte) (n : BitVec 16) (s : State) : (complete c d n s).buf = s.buf := rfl
@[simp] theorem complete_fsm (c : BitVec 5) (d : Byte) (n : BitVec 16) (s : State) : (complete c d n s).fsm = [] := rfl
@[simp] theorem complete_latch (c : BitVec 5) (d : Byte) (n : BitVec 16) (s : State) : (complete c d n s).latch = s.latch := rfl
@[simp] theorem complete_work (c : BitVec 5) (d : Byte) (n : BitVec 16) (s : State) : (complete c d n s).work = s.work := rfl
@[simp] theorem complete_con (c : BitVec 5) (d : Byte) (n : BitVec 16) (s : State) : (complete c d n s).con = s.con := rfl
@[simp] theorem complete_stat (c : BitVec 5) (d : Byte) (n : BitVec 16) (s : State) : (complete c d n s).stat = s.stat := rfl
@[simp] theorem complete_trn (c : BitVec 5) (d : Byte) (n : BitVec 16) (s : State) : (complete c d n s).trn = s.trn := rfl
@[simp] theorem complete_rcv (c : BitVec 5) (d : Byte) (n : BitVec 16) (s : State) : (complete c d n s).rcv = s.rcv := rfl
@[simp] theorem complete_brg (c : BitVec 5) (d : Byte) (n : BitVec 16) (s : State) : (complete c d n s).brg = s.brg := rfl
@[simp] theorem complete_line (c : BitVec 5) (d : Byte) (n : BitVec 16) (s : State) : (complete c d n s).line = s.line := rfl
@[simp] theorem complete_hist (c : BitVec 5) (d : Byte) (n : BitVec 16) (s : State) : (complete c d n s).hist = .complete c d n :: s.hist := rfl
@[simp] theorem complete_params (c : BitVec 5) (d : Byte) (n : BitVec 16) (s : State) : (complete c d n s).params = s.params := rfl
@[simp] theorem complete_inputs (c : BitVec 5) (d : Byte) (n : BitVec 16) (s : State) : (complete c d n s).inputs = s.inputs := rfl
@[simp] theorem complete_hostLog (c : BitVec 5) (d : Byte) (n : BitVec 16) (s : State) : (complete c d n s).hostLog = s.hostLog := rfl
@[simp] theorem complete_draws (c : BitVec 5) (d : Byte) (n : BitVec 16) (s : State) : (complete c d n s).draws = s.draws := rfl

/-! ### goto -/

@[simp] theorem goto_cmd (l : Label) (s : State) : (s.goto l).cmd = s.cmd := rfl
@[simp] theorem goto_res (l : Label) (s : State) : (s.goto l).res = s.res := rfl
@[simp] theorem goto_busy (l : Label) (s : State) : (s.goto l).busy = s.busy := rfl
@[simp] theorem goto_dirty (l : Label) (s : State) : (s.goto l).dirty = s.dirty := rfl
@[simp] theorem goto_hostErr (l : Label) (s : State) : (s.goto l).hostErr = s.hostErr := rfl
@[simp] theorem goto_count (l : Label) (s : State) : (s.goto l).count = s.count := rfl
@[simp] theorem goto_buf (l : Label) (s : State) : (s.goto l).buf = s.buf := rfl
@[simp] theorem goto_fsm (l : Label) (s : State) : (s.goto l).fsm = l.opened ++ s.fsm.tail := rfl
@[simp] theorem goto_latch (l : Label) (s : State) : (s.goto l).latch = s.latch := rfl
@[simp] theorem goto_work (l : Label) (s : State) : (s.goto l).work = s.work := rfl
@[simp] theorem goto_con (l : Label) (s : State) : (s.goto l).con = s.con := rfl
@[simp] theorem goto_stat (l : Label) (s : State) : (s.goto l).stat = s.stat := rfl
@[simp] theorem goto_trn (l : Label) (s : State) : (s.goto l).trn = s.trn := rfl
@[simp] theorem goto_rcv (l : Label) (s : State) : (s.goto l).rcv = s.rcv := rfl
@[simp] theorem goto_brg (l : Label) (s : State) : (s.goto l).brg = s.brg := rfl
@[simp] theorem goto_line (l : Label) (s : State) : (s.goto l).line = s.line := rfl
@[simp] theorem goto_hist (l : Label) (s : State) : (s.goto l).hist = s.hist := rfl
@[simp] theorem goto_params (l : Label) (s : State) : (s.goto l).params = s.params := rfl
@[simp] theorem goto_inputs (l : Label) (s : State) : (s.goto l).inputs = s.inputs := rfl
@[simp] theorem goto_hostLog (l : Label) (s : State) : (s.goto l).hostLog = s.hostLog := rfl
@[simp] theorem goto_draws (l : Label) (s : State) : (s.goto l).draws = s.draws := rfl

/-! ### toPf -/

@[simp] theorem toPf_cmd (e : Result) (s : State) : (s.toPf e).cmd = s.cmd := rfl
@[simp] theorem toPf_res (e : Result) (s : State) : (s.toPf e).res = s.res := rfl
@[simp] theorem toPf_busy (e : Result) (s : State) : (s.toPf e).busy = s.busy := rfl
@[simp] theorem toPf_dirty (e : Result) (s : State) : (s.toPf e).dirty = s.dirty := rfl
@[simp] theorem toPf_hostErr (e : Result) (s : State) : (s.toPf e).hostErr = s.hostErr := rfl
@[simp] theorem toPf_count (e : Result) (s : State) : (s.toPf e).count = s.count := rfl
@[simp] theorem toPf_buf (e : Result) (s : State) : (s.toPf e).buf = s.buf := rfl
@[simp] theorem toPf_fsm (e : Result) (s : State) : (s.toPf e).fsm = Label.pf :: s.fsm.tail := rfl
@[simp] theorem toPf_latch (e : Result) (s : State) : (s.toPf e).latch = s.latch := rfl
@[simp] theorem toPf_work (e : Result) (s : State) : (s.toPf e).work = { s.work with e := e } := rfl
@[simp] theorem toPf_con (e : Result) (s : State) : (s.toPf e).con = s.con := rfl
@[simp] theorem toPf_stat (e : Result) (s : State) : (s.toPf e).stat = s.stat := rfl
@[simp] theorem toPf_trn (e : Result) (s : State) : (s.toPf e).trn = s.trn := rfl
@[simp] theorem toPf_rcv (e : Result) (s : State) : (s.toPf e).rcv = s.rcv := rfl
@[simp] theorem toPf_brg (e : Result) (s : State) : (s.toPf e).brg = s.brg := rfl
@[simp] theorem toPf_line (e : Result) (s : State) : (s.toPf e).line = s.line := rfl
@[simp] theorem toPf_hist (e : Result) (s : State) : (s.toPf e).hist = s.hist := rfl
@[simp] theorem toPf_params (e : Result) (s : State) : (s.toPf e).params = s.params := rfl
@[simp] theorem toPf_inputs (e : Result) (s : State) : (s.toPf e).inputs = s.inputs := rfl
@[simp] theorem toPf_hostLog (e : Result) (s : State) : (s.toPf e).hostLog = s.hostLog := rfl
@[simp] theorem toPf_draws (e : Result) (s : State) : (s.toPf e).draws = s.draws := rfl

/-! ### toVf -/

@[simp] theorem toVf_cmd (e : Result) (s : State) : (s.toVf e).cmd = s.cmd := rfl
@[simp] theorem toVf_res (e : Result) (s : State) : (s.toVf e).res = s.res := rfl
@[simp] theorem toVf_busy (e : Result) (s : State) : (s.toVf e).busy = s.busy := rfl
@[simp] theorem toVf_dirty (e : Result) (s : State) : (s.toVf e).dirty = s.dirty := rfl
@[simp] theorem toVf_hostErr (e : Result) (s : State) : (s.toVf e).hostErr = s.hostErr := rfl
@[simp] theorem toVf_count (e : Result) (s : State) : (s.toVf e).count = s.count := rfl
@[simp] theorem toVf_buf (e : Result) (s : State) : (s.toVf e).buf = s.buf := rfl
@[simp] theorem toVf_fsm (e : Result) (s : State) : (s.toVf e).fsm = Label.vf :: s.fsm.tail := rfl
@[simp] theorem toVf_latch (e : Result) (s : State) : (s.toVf e).latch = s.latch := rfl
@[simp] theorem toVf_work (e : Result) (s : State) : (s.toVf e).work = { s.work with e := e } := rfl
@[simp] theorem toVf_con (e : Result) (s : State) : (s.toVf e).con = s.con := rfl
@[simp] theorem toVf_stat (e : Result) (s : State) : (s.toVf e).stat = s.stat := rfl
@[simp] theorem toVf_trn (e : Result) (s : State) : (s.toVf e).trn = s.trn := rfl
@[simp] theorem toVf_rcv (e : Result) (s : State) : (s.toVf e).rcv = s.rcv := rfl
@[simp] theorem toVf_brg (e : Result) (s : State) : (s.toVf e).brg = s.brg := rfl
@[simp] theorem toVf_line (e : Result) (s : State) : (s.toVf e).line = s.line := rfl
@[simp] theorem toVf_hist (e : Result) (s : State) : (s.toVf e).hist = s.hist := rfl
@[simp] theorem toVf_params (e : Result) (s : State) : (s.toVf e).params = s.params := rfl
@[simp] theorem toVf_inputs (e : Result) (s : State) : (s.toVf e).inputs = s.inputs := rfl
@[simp] theorem toVf_hostLog (e : Result) (s : State) : (s.toVf e).hostLog = s.hostLog := rfl
@[simp] theorem toVf_draws (e : Result) (s : State) : (s.toVf e).draws = s.draws := rfl

/-! ### toExit -/

@[simp] theorem toExit_cmd (l : Label) (e : Result) (s : State) : (s.toExit l e).cmd = s.cmd := rfl
@[simp] theorem toExit_res (l : Label) (e : Result) (s : State) : (s.toExit l e).res = s.res := rfl
@[simp] theorem toExit_busy (l : Label) (e : Result) (s : State) : (s.toExit l e).busy = s.busy := rfl
@[simp] theorem toExit_dirty (l : Label) (e : Result) (s : State) : (s.toExit l e).dirty = s.dirty := rfl
@[simp] theorem toExit_hostErr (l : Label) (e : Result) (s : State) : (s.toExit l e).hostErr = s.hostErr := rfl
@[simp] theorem toExit_count (l : Label) (e : Result) (s : State) : (s.toExit l e).count = s.count := rfl
@[simp] theorem toExit_buf (l : Label) (e : Result) (s : State) : (s.toExit l e).buf = s.buf := rfl
@[simp] theorem toExit_fsm (l : Label) (e : Result) (s : State) : (s.toExit l e).fsm = l.opened ++ s.fsm.tail := rfl
@[simp] theorem toExit_latch (l : Label) (e : Result) (s : State) : (s.toExit l e).latch = s.latch := rfl
@[simp] theorem toExit_work (l : Label) (e : Result) (s : State) : (s.toExit l e).work = { s.work with xe := e } := rfl
@[simp] theorem toExit_con (l : Label) (e : Result) (s : State) : (s.toExit l e).con = s.con := rfl
@[simp] theorem toExit_stat (l : Label) (e : Result) (s : State) : (s.toExit l e).stat = s.stat := rfl
@[simp] theorem toExit_trn (l : Label) (e : Result) (s : State) : (s.toExit l e).trn = s.trn := rfl
@[simp] theorem toExit_rcv (l : Label) (e : Result) (s : State) : (s.toExit l e).rcv = s.rcv := rfl
@[simp] theorem toExit_brg (l : Label) (e : Result) (s : State) : (s.toExit l e).brg = s.brg := rfl
@[simp] theorem toExit_line (l : Label) (e : Result) (s : State) : (s.toExit l e).line = s.line := rfl
@[simp] theorem toExit_hist (l : Label) (e : Result) (s : State) : (s.toExit l e).hist = s.hist := rfl
@[simp] theorem toExit_params (l : Label) (e : Result) (s : State) : (s.toExit l e).params = s.params := rfl
@[simp] theorem toExit_inputs (l : Label) (e : Result) (s : State) : (s.toExit l e).inputs = s.inputs := rfl
@[simp] theorem toExit_hostLog (l : Label) (e : Result) (s : State) : (s.toExit l e).hostLog = s.hostLog := rfl
@[simp] theorem toExit_draws (l : Label) (e : Result) (s : State) : (s.toExit l e).draws = s.draws := rfl

/-! ### withV -/

@[simp] theorem withV_cmd (v : Byte) (s : State) : (s.withV v).cmd = s.cmd := rfl
@[simp] theorem withV_res (v : Byte) (s : State) : (s.withV v).res = s.res := rfl
@[simp] theorem withV_busy (v : Byte) (s : State) : (s.withV v).busy = s.busy := rfl
@[simp] theorem withV_dirty (v : Byte) (s : State) : (s.withV v).dirty = s.dirty := rfl
@[simp] theorem withV_hostErr (v : Byte) (s : State) : (s.withV v).hostErr = s.hostErr := rfl
@[simp] theorem withV_count (v : Byte) (s : State) : (s.withV v).count = s.count := rfl
@[simp] theorem withV_buf (v : Byte) (s : State) : (s.withV v).buf = s.buf := rfl
@[simp] theorem withV_fsm (v : Byte) (s : State) : (s.withV v).fsm = s.fsm := rfl
@[simp] theorem withV_latch (v : Byte) (s : State) : (s.withV v).latch = s.latch := rfl
@[simp] theorem withV_work (v : Byte) (s : State) : (s.withV v).work = { s.work with v := v } := rfl
@[simp] theorem withV_con (v : Byte) (s : State) : (s.withV v).con = s.con := rfl
@[simp] theorem withV_stat (v : Byte) (s : State) : (s.withV v).stat = s.stat := rfl
@[simp] theorem withV_trn (v : Byte) (s : State) : (s.withV v).trn = s.trn := rfl
@[simp] theorem withV_rcv (v : Byte) (s : State) : (s.withV v).rcv = s.rcv := rfl
@[simp] theorem withV_brg (v : Byte) (s : State) : (s.withV v).brg = s.brg := rfl
@[simp] theorem withV_line (v : Byte) (s : State) : (s.withV v).line = s.line := rfl
@[simp] theorem withV_hist (v : Byte) (s : State) : (s.withV v).hist = s.hist := rfl
@[simp] theorem withV_params (v : Byte) (s : State) : (s.withV v).params = s.params := rfl
@[simp] theorem withV_inputs (v : Byte) (s : State) : (s.withV v).inputs = s.inputs := rfl
@[simp] theorem withV_hostLog (v : Byte) (s : State) : (s.withV v).hostLog = s.hostLog := rfl
@[simp] theorem withV_draws (v : Byte) (s : State) : (s.withV v).draws = s.draws := rfl

/-! ### withAck -/

@[simp] theorem withAck_cmd (v : Bool) (s : State) : (s.withAck v).cmd = s.cmd := rfl
@[simp] theorem withAck_res (v : Bool) (s : State) : (s.withAck v).res = s.res := rfl
@[simp] theorem withAck_busy (v : Bool) (s : State) : (s.withAck v).busy = s.busy := rfl
@[simp] theorem withAck_dirty (v : Bool) (s : State) : (s.withAck v).dirty = s.dirty := rfl
@[simp] theorem withAck_hostErr (v : Bool) (s : State) : (s.withAck v).hostErr = s.hostErr := rfl
@[simp] theorem withAck_count (v : Bool) (s : State) : (s.withAck v).count = s.count := rfl
@[simp] theorem withAck_buf (v : Bool) (s : State) : (s.withAck v).buf = s.buf := rfl
@[simp] theorem withAck_fsm (v : Bool) (s : State) : (s.withAck v).fsm = s.fsm := rfl
@[simp] theorem withAck_latch (v : Bool) (s : State) : (s.withAck v).latch = s.latch := rfl
@[simp] theorem withAck_work (v : Bool) (s : State) : (s.withAck v).work = { s.work with ack := v } := rfl
@[simp] theorem withAck_con (v : Bool) (s : State) : (s.withAck v).con = s.con := rfl
@[simp] theorem withAck_stat (v : Bool) (s : State) : (s.withAck v).stat = s.stat := rfl
@[simp] theorem withAck_trn (v : Bool) (s : State) : (s.withAck v).trn = s.trn := rfl
@[simp] theorem withAck_rcv (v : Bool) (s : State) : (s.withAck v).rcv = s.rcv := rfl
@[simp] theorem withAck_brg (v : Bool) (s : State) : (s.withAck v).brg = s.brg := rfl
@[simp] theorem withAck_line (v : Bool) (s : State) : (s.withAck v).line = s.line := rfl
@[simp] theorem withAck_hist (v : Bool) (s : State) : (s.withAck v).hist = s.hist := rfl
@[simp] theorem withAck_params (v : Bool) (s : State) : (s.withAck v).params = s.params := rfl
@[simp] theorem withAck_inputs (v : Bool) (s : State) : (s.withAck v).inputs = s.inputs := rfl
@[simp] theorem withAck_hostLog (v : Bool) (s : State) : (s.withAck v).hostLog = s.hostLog := rfl
@[simp] theorem withAck_draws (v : Bool) (s : State) : (s.withAck v).draws = s.draws := rfl

/-! ### startLoop -/

@[simp] theorem startLoop_cmd (s : State) : (s.startLoop).cmd = s.cmd := rfl
@[simp] theorem startLoop_res (s : State) : (s.startLoop).res = s.res := rfl
@[simp] theorem startLoop_busy (s : State) : (s.startLoop).busy = s.busy := rfl
@[simp] theorem startLoop_dirty (s : State) : (s.startLoop).dirty = s.dirty := rfl
@[simp] theorem startLoop_hostErr (s : State) : (s.startLoop).hostErr = s.hostErr := rfl
@[simp] theorem startLoop_count (s : State) : (s.startLoop).count = s.count := rfl
@[simp] theorem startLoop_buf (s : State) : (s.startLoop).buf = s.buf := rfl
@[simp] theorem startLoop_fsm (s : State) : (s.startLoop).fsm = s.fsm := rfl
@[simp] theorem startLoop_latch (s : State) : (s.startLoop).latch = s.latch := rfl
@[simp] theorem startLoop_work (s : State) : (s.startLoop).work = { s.work with i := 0, nx := 0 } := rfl
@[simp] theorem startLoop_con (s : State) : (s.startLoop).con = s.con := rfl
@[simp] theorem startLoop_stat (s : State) : (s.startLoop).stat = s.stat := rfl
@[simp] theorem startLoop_trn (s : State) : (s.startLoop).trn = s.trn := rfl
@[simp] theorem startLoop_rcv (s : State) : (s.startLoop).rcv = s.rcv := rfl
@[simp] theorem startLoop_brg (s : State) : (s.startLoop).brg = s.brg := rfl
@[simp] theorem startLoop_line (s : State) : (s.startLoop).line = s.line := rfl
@[simp] theorem startLoop_hist (s : State) : (s.startLoop).hist = s.hist := rfl
@[simp] theorem startLoop_params (s : State) : (s.startLoop).params = s.params := rfl
@[simp] theorem startLoop_inputs (s : State) : (s.startLoop).inputs = s.inputs := rfl
@[simp] theorem startLoop_hostLog (s : State) : (s.startLoop).hostLog = s.hostLog := rfl
@[simp] theorem startLoop_draws (s : State) : (s.startLoop).draws = s.draws := rfl

/-! ### nextByte -/

@[simp] theorem nextByte_cmd (s : State) : (s.nextByte).cmd = s.cmd := rfl
@[simp] theorem nextByte_res (s : State) : (s.nextByte).res = s.res := rfl
@[simp] theorem nextByte_busy (s : State) : (s.nextByte).busy = s.busy := rfl
@[simp] theorem nextByte_dirty (s : State) : (s.nextByte).dirty = s.dirty := rfl
@[simp] theorem nextByte_hostErr (s : State) : (s.nextByte).hostErr = s.hostErr := rfl
@[simp] theorem nextByte_count (s : State) : (s.nextByte).count = s.count := rfl
@[simp] theorem nextByte_buf (s : State) : (s.nextByte).buf = s.buf := rfl
@[simp] theorem nextByte_fsm (s : State) : (s.nextByte).fsm = s.fsm := rfl
@[simp] theorem nextByte_latch (s : State) : (s.nextByte).latch = s.latch := rfl
@[simp] theorem nextByte_work (s : State) : (s.nextByte).work = { s.work with i := s.work.i + 1, nx := s.work.i + 1 } := rfl
@[simp] theorem nextByte_con (s : State) : (s.nextByte).con = s.con := rfl
@[simp] theorem nextByte_stat (s : State) : (s.nextByte).stat = s.stat := rfl
@[simp] theorem nextByte_trn (s : State) : (s.nextByte).trn = s.trn := rfl
@[simp] theorem nextByte_rcv (s : State) : (s.nextByte).rcv = s.rcv := rfl
@[simp] theorem nextByte_brg (s : State) : (s.nextByte).brg = s.brg := rfl
@[simp] theorem nextByte_line (s : State) : (s.nextByte).line = s.line := rfl
@[simp] theorem nextByte_hist (s : State) : (s.nextByte).hist = s.hist := rfl
@[simp] theorem nextByte_params (s : State) : (s.nextByte).params = s.params := rfl
@[simp] theorem nextByte_inputs (s : State) : (s.nextByte).inputs = s.inputs := rfl
@[simp] theorem nextByte_hostLog (s : State) : (s.nextByte).hostLog = s.hostLog := rfl
@[simp] theorem nextByte_draws (s : State) : (s.nextByte).draws = s.draws := rfl

/-! ### startPoll -/

@[simp] theorem startPoll_cmd (s : State) : (s.startPoll).cmd = s.cmd := rfl
@[simp] theorem startPoll_res (s : State) : (s.startPoll).res = s.res := rfl
@[simp] theorem startPoll_busy (s : State) : (s.startPoll).busy = s.busy := rfl
@[simp] theorem startPoll_dirty (s : State) : (s.startPoll).dirty = s.dirty := rfl
@[simp] theorem startPoll_hostErr (s : State) : (s.startPoll).hostErr = s.hostErr := rfl
@[simp] theorem startPoll_count (s : State) : (s.startPoll).count = s.count := rfl
@[simp] theorem startPoll_buf (s : State) : (s.startPoll).buf = s.buf := rfl
@[simp] theorem startPoll_fsm (s : State) : (s.startPoll).fsm = s.fsm := rfl
@[simp] theorem startPoll_latch (s : State) : (s.startPoll).latch = s.latch := rfl
@[simp] theorem startPoll_work (s : State) : (s.startPoll).work = { s.work with k := 0 } := rfl
@[simp] theorem startPoll_con (s : State) : (s.startPoll).con = s.con := rfl
@[simp] theorem startPoll_stat (s : State) : (s.startPoll).stat = s.stat := rfl
@[simp] theorem startPoll_trn (s : State) : (s.startPoll).trn = s.trn := rfl
@[simp] theorem startPoll_rcv (s : State) : (s.startPoll).rcv = s.rcv := rfl
@[simp] theorem startPoll_brg (s : State) : (s.startPoll).brg = s.brg := rfl
@[simp] theorem startPoll_line (s : State) : (s.startPoll).line = s.line := rfl
@[simp] theorem startPoll_hist (s : State) : (s.startPoll).hist = s.hist := rfl
@[simp] theorem startPoll_params (s : State) : (s.startPoll).params = s.params := rfl
@[simp] theorem startPoll_inputs (s : State) : (s.startPoll).inputs = s.inputs := rfl
@[simp] theorem startPoll_hostLog (s : State) : (s.startPoll).hostLog = s.hostLog := rfl
@[simp] theorem startPoll_draws (s : State) : (s.startPoll).draws = s.draws := rfl

/-! ### countPoll -/

@[simp] theorem countPoll_cmd (s : State) : (s.countPoll).cmd = s.cmd := rfl
@[simp] theorem countPoll_res (s : State) : (s.countPoll).res = s.res := rfl
@[simp] theorem countPoll_busy (s : State) : (s.countPoll).busy = s.busy := rfl
@[simp] theorem countPoll_dirty (s : State) : (s.countPoll).dirty = s.dirty := rfl
@[simp] theorem countPoll_hostErr (s : State) : (s.countPoll).hostErr = s.hostErr := rfl
@[simp] theorem countPoll_count (s : State) : (s.countPoll).count = s.count := rfl
@[simp] theorem countPoll_buf (s : State) : (s.countPoll).buf = s.buf := rfl
@[simp] theorem countPoll_fsm (s : State) : (s.countPoll).fsm = s.fsm := rfl
@[simp] theorem countPoll_latch (s : State) : (s.countPoll).latch = s.latch := rfl
@[simp] theorem countPoll_work (s : State) : (s.countPoll).work = { s.work with k := s.work.k + 1 } := rfl
@[simp] theorem countPoll_con (s : State) : (s.countPoll).con = s.con := rfl
@[simp] theorem countPoll_stat (s : State) : (s.countPoll).stat = s.stat := rfl
@[simp] theorem countPoll_trn (s : State) : (s.countPoll).trn = s.trn := rfl
@[simp] theorem countPoll_rcv (s : State) : (s.countPoll).rcv = s.rcv := rfl
@[simp] theorem countPoll_brg (s : State) : (s.countPoll).brg = s.brg := rfl
@[simp] theorem countPoll_line (s : State) : (s.countPoll).line = s.line := rfl
@[simp] theorem countPoll_hist (s : State) : (s.countPoll).hist = s.hist := rfl
@[simp] theorem countPoll_params (s : State) : (s.countPoll).params = s.params := rfl
@[simp] theorem countPoll_inputs (s : State) : (s.countPoll).inputs = s.inputs := rfl
@[simp] theorem countPoll_hostLog (s : State) : (s.countPoll).hostLog = s.hostLog := rfl
@[simp] theorem countPoll_draws (s : State) : (s.countPoll).draws = s.draws := rfl

/-! ### startToggles -/

@[simp] theorem startToggles_cmd (s : State) : (s.startToggles).cmd = s.cmd := rfl
@[simp] theorem startToggles_res (s : State) : (s.startToggles).res = s.res := rfl
@[simp] theorem startToggles_busy (s : State) : (s.startToggles).busy = s.busy := rfl
@[simp] theorem startToggles_dirty (s : State) : (s.startToggles).dirty = s.dirty := rfl
@[simp] theorem startToggles_hostErr (s : State) : (s.startToggles).hostErr = s.hostErr := rfl
@[simp] theorem startToggles_count (s : State) : (s.startToggles).count = s.count := rfl
@[simp] theorem startToggles_buf (s : State) : (s.startToggles).buf = s.buf := rfl
@[simp] theorem startToggles_fsm (s : State) : (s.startToggles).fsm = s.fsm := rfl
@[simp] theorem startToggles_latch (s : State) : (s.startToggles).latch = s.latch := rfl
@[simp] theorem startToggles_work (s : State) : (s.startToggles).work = { s.work with j := 0 } := rfl
@[simp] theorem startToggles_con (s : State) : (s.startToggles).con = s.con := rfl
@[simp] theorem startToggles_stat (s : State) : (s.startToggles).stat = s.stat := rfl
@[simp] theorem startToggles_trn (s : State) : (s.startToggles).trn = s.trn := rfl
@[simp] theorem startToggles_rcv (s : State) : (s.startToggles).rcv = s.rcv := rfl
@[simp] theorem startToggles_brg (s : State) : (s.startToggles).brg = s.brg := rfl
@[simp] theorem startToggles_line (s : State) : (s.startToggles).line = s.line := rfl
@[simp] theorem startToggles_hist (s : State) : (s.startToggles).hist = s.hist := rfl
@[simp] theorem startToggles_params (s : State) : (s.startToggles).params = s.params := rfl
@[simp] theorem startToggles_inputs (s : State) : (s.startToggles).inputs = s.inputs := rfl
@[simp] theorem startToggles_hostLog (s : State) : (s.startToggles).hostLog = s.hostLog := rfl
@[simp] theorem startToggles_draws (s : State) : (s.startToggles).draws = s.draws := rfl

/-! ### nextToggle -/

@[simp] theorem nextToggle_cmd (s : State) : (s.nextToggle).cmd = s.cmd := rfl
@[simp] theorem nextToggle_res (s : State) : (s.nextToggle).res = s.res := rfl
@[simp] theorem nextToggle_busy (s : State) : (s.nextToggle).busy = s.busy := rfl
@[simp] theorem nextToggle_dirty (s : State) : (s.nextToggle).dirty = s.dirty := rfl
@[simp] theorem nextToggle_hostErr (s : State) : (s.nextToggle).hostErr = s.hostErr := rfl
@[simp] theorem nextToggle_count (s : State) : (s.nextToggle).count = s.count := rfl
@[simp] theorem nextToggle_buf (s : State) : (s.nextToggle).buf = s.buf := rfl
@[simp] theorem nextToggle_fsm (s : State) : (s.nextToggle).fsm = s.fsm := rfl
@[simp] theorem nextToggle_latch (s : State) : (s.nextToggle).latch = s.latch := rfl
@[simp] theorem nextToggle_work (s : State) : (s.nextToggle).work = { s.work with j := s.work.j + 1 } := rfl
@[simp] theorem nextToggle_con (s : State) : (s.nextToggle).con = s.con := rfl
@[simp] theorem nextToggle_stat (s : State) : (s.nextToggle).stat = s.stat := rfl
@[simp] theorem nextToggle_trn (s : State) : (s.nextToggle).trn = s.trn := rfl
@[simp] theorem nextToggle_rcv (s : State) : (s.nextToggle).rcv = s.rcv := rfl
@[simp] theorem nextToggle_brg (s : State) : (s.nextToggle).brg = s.brg := rfl
@[simp] theorem nextToggle_line (s : State) : (s.nextToggle).line = s.line := rfl
@[simp] theorem nextToggle_hist (s : State) : (s.nextToggle).hist = s.hist := rfl
@[simp] theorem nextToggle_params (s : State) : (s.nextToggle).params = s.params := rfl
@[simp] theorem nextToggle_inputs (s : State) : (s.nextToggle).inputs = s.inputs := rfl
@[simp] theorem nextToggle_hostLog (s : State) : (s.nextToggle).hostLog = s.hostLog := rfl
@[simp] theorem nextToggle_draws (s : State) : (s.nextToggle).draws = s.draws := rfl

/-! ### keepR -/

@[simp] theorem keepR_cmd (r : Result) (s : State) : (s.keepR r).cmd = s.cmd := rfl
@[simp] theorem keepR_res (r : Result) (s : State) : (s.keepR r).res = s.res := rfl
@[simp] theorem keepR_busy (r : Result) (s : State) : (s.keepR r).busy = s.busy := rfl
@[simp] theorem keepR_dirty (r : Result) (s : State) : (s.keepR r).dirty = s.dirty := rfl
@[simp] theorem keepR_hostErr (r : Result) (s : State) : (s.keepR r).hostErr = s.hostErr := rfl
@[simp] theorem keepR_count (r : Result) (s : State) : (s.keepR r).count = s.count := rfl
@[simp] theorem keepR_buf (r : Result) (s : State) : (s.keepR r).buf = s.buf := rfl
@[simp] theorem keepR_fsm (r : Result) (s : State) : (s.keepR r).fsm = s.fsm := rfl
@[simp] theorem keepR_latch (r : Result) (s : State) : (s.keepR r).latch = s.latch := rfl
@[simp] theorem keepR_work (r : Result) (s : State) : (s.keepR r).work = { s.work with r := r } := rfl
@[simp] theorem keepR_con (r : Result) (s : State) : (s.keepR r).con = s.con := rfl
@[simp] theorem keepR_stat (r : Result) (s : State) : (s.keepR r).stat = s.stat := rfl
@[simp] theorem keepR_trn (r : Result) (s : State) : (s.keepR r).trn = s.trn := rfl
@[simp] theorem keepR_rcv (r : Result) (s : State) : (s.keepR r).rcv = s.rcv := rfl
@[simp] theorem keepR_brg (r : Result) (s : State) : (s.keepR r).brg = s.brg := rfl
@[simp] theorem keepR_line (r : Result) (s : State) : (s.keepR r).line = s.line := rfl
@[simp] theorem keepR_hist (r : Result) (s : State) : (s.keepR r).hist = s.hist := rfl
@[simp] theorem keepR_params (r : Result) (s : State) : (s.keepR r).params = s.params := rfl
@[simp] theorem keepR_inputs (r : Result) (s : State) : (s.keepR r).inputs = s.inputs := rfl
@[simp] theorem keepR_hostLog (r : Result) (s : State) : (s.keepR r).hostLog = s.hostLog := rfl
@[simp] theorem keepR_draws (r : Result) (s : State) : (s.keepR r).draws = s.draws := rfl

/-! ### keepW -/

@[simp] theorem keepW_cmd (r : Result) (s : State) : (s.keepW r).cmd = s.cmd := rfl
@[simp] theorem keepW_res (r : Result) (s : State) : (s.keepW r).res = s.res := rfl
@[simp] theorem keepW_busy (r : Result) (s : State) : (s.keepW r).busy = s.busy := rfl
@[simp] theorem keepW_dirty (r : Result) (s : State) : (s.keepW r).dirty = s.dirty := rfl
@[simp] theorem keepW_hostErr (r : Result) (s : State) : (s.keepW r).hostErr = s.hostErr := rfl
@[simp] theorem keepW_count (r : Result) (s : State) : (s.keepW r).count = s.count := rfl
@[simp] theorem keepW_buf (r : Result) (s : State) : (s.keepW r).buf = s.buf := rfl
@[simp] theorem keepW_fsm (r : Result) (s : State) : (s.keepW r).fsm = s.fsm := rfl
@[simp] theorem keepW_latch (r : Result) (s : State) : (s.keepW r).latch = s.latch := rfl
@[simp] theorem keepW_work (r : Result) (s : State) : (s.keepW r).work = { s.work with w := r } := rfl
@[simp] theorem keepW_con (r : Result) (s : State) : (s.keepW r).con = s.con := rfl
@[simp] theorem keepW_stat (r : Result) (s : State) : (s.keepW r).stat = s.stat := rfl
@[simp] theorem keepW_trn (r : Result) (s : State) : (s.keepW r).trn = s.trn := rfl
@[simp] theorem keepW_rcv (r : Result) (s : State) : (s.keepW r).rcv = s.rcv := rfl
@[simp] theorem keepW_brg (r : Result) (s : State) : (s.keepW r).brg = s.brg := rfl
@[simp] theorem keepW_line (r : Result) (s : State) : (s.keepW r).line = s.line := rfl
@[simp] theorem keepW_hist (r : Result) (s : State) : (s.keepW r).hist = s.hist := rfl
@[simp] theorem keepW_params (r : Result) (s : State) : (s.keepW r).params = s.params := rfl
@[simp] theorem keepW_inputs (r : Result) (s : State) : (s.keepW r).inputs = s.inputs := rfl
@[simp] theorem keepW_hostLog (r : Result) (s : State) : (s.keepW r).hostLog = s.hostLog := rfl
@[simp] theorem keepW_draws (r : Result) (s : State) : (s.keepW r).draws = s.draws := rfl

/-! ### keepT -/

@[simp] theorem keepT_cmd (r : Result) (s : State) : (s.keepT r).cmd = s.cmd := rfl
@[simp] theorem keepT_res (r : Result) (s : State) : (s.keepT r).res = s.res := rfl
@[simp] theorem keepT_busy (r : Result) (s : State) : (s.keepT r).busy = s.busy := rfl
@[simp] theorem keepT_dirty (r : Result) (s : State) : (s.keepT r).dirty = s.dirty := rfl
@[simp] theorem keepT_hostErr (r : Result) (s : State) : (s.keepT r).hostErr = s.hostErr := rfl
@[simp] theorem keepT_count (r : Result) (s : State) : (s.keepT r).count = s.count := rfl
@[simp] theorem keepT_buf (r : Result) (s : State) : (s.keepT r).buf = s.buf := rfl
@[simp] theorem keepT_fsm (r : Result) (s : State) : (s.keepT r).fsm = s.fsm := rfl
@[simp] theorem keepT_latch (r : Result) (s : State) : (s.keepT r).latch = s.latch := rfl
@[simp] theorem keepT_work (r : Result) (s : State) : (s.keepT r).work = { s.work with t := r } := rfl
@[simp] theorem keepT_con (r : Result) (s : State) : (s.keepT r).con = s.con := rfl
@[simp] theorem keepT_stat (r : Result) (s : State) : (s.keepT r).stat = s.stat := rfl
@[simp] theorem keepT_trn (r : Result) (s : State) : (s.keepT r).trn = s.trn := rfl
@[simp] theorem keepT_rcv (r : Result) (s : State) : (s.keepT r).rcv = s.rcv := rfl
@[simp] theorem keepT_brg (r : Result) (s : State) : (s.keepT r).brg = s.brg := rfl
@[simp] theorem keepT_line (r : Result) (s : State) : (s.keepT r).line = s.line := rfl
@[simp] theorem keepT_hist (r : Result) (s : State) : (s.keepT r).hist = s.hist := rfl
@[simp] theorem keepT_params (r : Result) (s : State) : (s.keepT r).params = s.params := rfl
@[simp] theorem keepT_inputs (r : Result) (s : State) : (s.keepT r).inputs = s.inputs := rfl
@[simp] theorem keepT_hostLog (r : Result) (s : State) : (s.keepT r).hostLog = s.hostLog := rfl
@[simp] theorem keepT_draws (r : Result) (s : State) : (s.keepT r).draws = s.draws := rfl

/-! ### withInputs -/

@[simp] theorem withInputs_cmd (evs : List Event) (s : State) : (s.withInputs evs).cmd = s.cmd := rfl
@[simp] theorem withInputs_res (evs : List Event) (s : State) : (s.withInputs evs).res = s.res := rfl
@[simp] theorem withInputs_busy (evs : List Event) (s : State) : (s.withInputs evs).busy = s.busy := rfl
@[simp] theorem withInputs_dirty (evs : List Event) (s : State) : (s.withInputs evs).dirty = s.dirty := rfl
@[simp] theorem withInputs_hostErr (evs : List Event) (s : State) : (s.withInputs evs).hostErr = s.hostErr := rfl
@[simp] theorem withInputs_count (evs : List Event) (s : State) : (s.withInputs evs).count = s.count := rfl
@[simp] theorem withInputs_buf (evs : List Event) (s : State) : (s.withInputs evs).buf = s.buf := rfl
@[simp] theorem withInputs_fsm (evs : List Event) (s : State) : (s.withInputs evs).fsm = s.fsm := rfl
@[simp] theorem withInputs_latch (evs : List Event) (s : State) : (s.withInputs evs).latch = s.latch := rfl
@[simp] theorem withInputs_work (evs : List Event) (s : State) : (s.withInputs evs).work = s.work := rfl
@[simp] theorem withInputs_con (evs : List Event) (s : State) : (s.withInputs evs).con = s.con := rfl
@[simp] theorem withInputs_stat (evs : List Event) (s : State) : (s.withInputs evs).stat = s.stat := rfl
@[simp] theorem withInputs_trn (evs : List Event) (s : State) : (s.withInputs evs).trn = s.trn := rfl
@[simp] theorem withInputs_rcv (evs : List Event) (s : State) : (s.withInputs evs).rcv = s.rcv := rfl
@[simp] theorem withInputs_brg (evs : List Event) (s : State) : (s.withInputs evs).brg = s.brg := rfl
@[simp] theorem withInputs_line (evs : List Event) (s : State) : (s.withInputs evs).line = s.line := rfl
@[simp] theorem withInputs_hist (evs : List Event) (s : State) : (s.withInputs evs).hist = s.hist := rfl
@[simp] theorem withInputs_params (evs : List Event) (s : State) : (s.withInputs evs).params = s.params := rfl
@[simp] theorem withInputs_inputs (evs : List Event) (s : State) : (s.withInputs evs).inputs = evs := rfl
@[simp] theorem withInputs_hostLog (evs : List Event) (s : State) : (s.withInputs evs).hostLog = s.hostLog := rfl
@[simp] theorem withInputs_draws (evs : List Event) (s : State) : (s.withInputs evs).draws = s.draws := rfl

/-! ### envStep -/

@[simp] theorem envStep_cmd (e : EnvStep) (s : State) : (envStep e s).cmd = s.cmd := rfl
@[simp] theorem envStep_res (e : EnvStep) (s : State) : (envStep e s).res = s.res := rfl
@[simp] theorem envStep_busy (e : EnvStep) (s : State) : (envStep e s).busy = s.busy := rfl
@[simp] theorem envStep_dirty (e : EnvStep) (s : State) : (envStep e s).dirty = s.dirty := rfl
@[simp] theorem envStep_hostErr (e : EnvStep) (s : State) : (envStep e s).hostErr = s.hostErr := rfl
@[simp] theorem envStep_count (e : EnvStep) (s : State) : (envStep e s).count = s.count := rfl
@[simp] theorem envStep_buf (e : EnvStep) (s : State) : (envStep e s).buf = s.buf := rfl
@[simp] theorem envStep_fsm (e : EnvStep) (s : State) : (envStep e s).fsm = s.fsm := rfl
@[simp] theorem envStep_latch (e : EnvStep) (s : State) : (envStep e s).latch = s.latch := rfl
@[simp] theorem envStep_work (e : EnvStep) (s : State) : (envStep e s).work = s.work := rfl
@[simp] theorem envStep_con (e : EnvStep) (s : State) : (envStep e s).con = s.con.afterEnv e := rfl
@[simp] theorem envStep_stat (e : EnvStep) (s : State) : (envStep e s).stat = s.stat.afterEnv e := rfl
@[simp] theorem envStep_trn (e : EnvStep) (s : State) : (envStep e s).trn = s.trn := rfl
@[simp] theorem envStep_rcv (e : EnvStep) (s : State) : (envStep e s).rcv = e.rcv.getD s.rcv := rfl
@[simp] theorem envStep_brg (e : EnvStep) (s : State) : (envStep e s).brg = s.brg := rfl
@[simp] theorem envStep_line (e : EnvStep) (s : State) : (envStep e s).line = { s.line with extSclLow := e.extSclLow.getD s.line.extSclLow, extSdaLow := e.extSdaLow.getD s.line.extSdaLow } := rfl
@[simp] theorem envStep_hist (e : EnvStep) (s : State) : (envStep e s).hist = s.hist := rfl
@[simp] theorem envStep_params (e : EnvStep) (s : State) : (envStep e s).params = s.params := rfl
@[simp] theorem envStep_inputs (e : EnvStep) (s : State) : (envStep e s).inputs = s.inputs := rfl
@[simp] theorem envStep_hostLog (e : EnvStep) (s : State) : (envStep e s).hostLog = s.hostLog := rfl
@[simp] theorem envStep_draws (e : EnvStep) (s : State) : (envStep e s).draws = s.draws := rfl

/-! ### hostRead -/

@[simp] theorem hostRead_cmd (off : BitVec 9) (s : State) : (hostRead off s).cmd = s.cmd := rfl
@[simp] theorem hostRead_res (off : BitVec 9) (s : State) : (hostRead off s).res = s.res := rfl
@[simp] theorem hostRead_busy (off : BitVec 9) (s : State) : (hostRead off s).busy = s.busy := rfl
@[simp] theorem hostRead_dirty (off : BitVec 9) (s : State) : (hostRead off s).dirty = s.dirty := rfl
@[simp] theorem hostRead_hostErr (off : BitVec 9) (s : State) : (hostRead off s).hostErr = s.hostErr := rfl
@[simp] theorem hostRead_count (off : BitVec 9) (s : State) : (hostRead off s).count = s.count := rfl
@[simp] theorem hostRead_buf (off : BitVec 9) (s : State) : (hostRead off s).buf = s.buf := rfl
@[simp] theorem hostRead_fsm (off : BitVec 9) (s : State) : (hostRead off s).fsm = s.fsm := rfl
@[simp] theorem hostRead_latch (off : BitVec 9) (s : State) : (hostRead off s).latch = s.latch := rfl
@[simp] theorem hostRead_work (off : BitVec 9) (s : State) : (hostRead off s).work = s.work := rfl
@[simp] theorem hostRead_con (off : BitVec 9) (s : State) : (hostRead off s).con = s.con := rfl
@[simp] theorem hostRead_stat (off : BitVec 9) (s : State) : (hostRead off s).stat = s.stat := rfl
@[simp] theorem hostRead_trn (off : BitVec 9) (s : State) : (hostRead off s).trn = s.trn := rfl
@[simp] theorem hostRead_rcv (off : BitVec 9) (s : State) : (hostRead off s).rcv = s.rcv := rfl
@[simp] theorem hostRead_brg (off : BitVec 9) (s : State) : (hostRead off s).brg = s.brg := rfl
@[simp] theorem hostRead_line (off : BitVec 9) (s : State) : (hostRead off s).line = s.line := rfl
@[simp] theorem hostRead_hist (off : BitVec 9) (s : State) : (hostRead off s).hist = s.hist := rfl
@[simp] theorem hostRead_params (off : BitVec 9) (s : State) : (hostRead off s).params = s.params := rfl
@[simp] theorem hostRead_inputs (off : BitVec 9) (s : State) : (hostRead off s).inputs = s.inputs := rfl
@[simp] theorem hostRead_hostLog (off : BitVec 9) (s : State) : (hostRead off s).hostLog = hostReadValue off s :: s.hostLog := rfl
@[simp] theorem hostRead_draws (off : BitVec 9) (s : State) : (hostRead off s).draws = s.draws := rfl

/-! ### hostDropped -/

@[simp] theorem hostDropped_cmd (s : State) : (hostDropped s).cmd = s.cmd := rfl
@[simp] theorem hostDropped_res (s : State) : (hostDropped s).res = s.res := rfl
@[simp] theorem hostDropped_busy (s : State) : (hostDropped s).busy = s.busy := rfl
@[simp] theorem hostDropped_dirty (s : State) : (hostDropped s).dirty = s.dirty := rfl
@[simp] theorem hostDropped_hostErr (s : State) : (hostDropped s).hostErr = true := rfl
@[simp] theorem hostDropped_count (s : State) : (hostDropped s).count = s.count := rfl
@[simp] theorem hostDropped_buf (s : State) : (hostDropped s).buf = s.buf := rfl
@[simp] theorem hostDropped_fsm (s : State) : (hostDropped s).fsm = s.fsm := rfl
@[simp] theorem hostDropped_latch (s : State) : (hostDropped s).latch = s.latch := rfl
@[simp] theorem hostDropped_work (s : State) : (hostDropped s).work = s.work := rfl
@[simp] theorem hostDropped_con (s : State) : (hostDropped s).con = s.con := rfl
@[simp] theorem hostDropped_stat (s : State) : (hostDropped s).stat = s.stat := rfl
@[simp] theorem hostDropped_trn (s : State) : (hostDropped s).trn = s.trn := rfl
@[simp] theorem hostDropped_rcv (s : State) : (hostDropped s).rcv = s.rcv := rfl
@[simp] theorem hostDropped_brg (s : State) : (hostDropped s).brg = s.brg := rfl
@[simp] theorem hostDropped_line (s : State) : (hostDropped s).line = s.line := rfl
@[simp] theorem hostDropped_hist (s : State) : (hostDropped s).hist = s.hist := rfl
@[simp] theorem hostDropped_params (s : State) : (hostDropped s).params = s.params := rfl
@[simp] theorem hostDropped_inputs (s : State) : (hostDropped s).inputs = s.inputs := rfl
@[simp] theorem hostDropped_hostLog (s : State) : (hostDropped s).hostLog = s.hostLog := rfl
@[simp] theorem hostDropped_draws (s : State) : (hostDropped s).draws = s.draws := rfl

/-! ### reject -/

@[simp] theorem reject_cmd (s : State) : (reject s).cmd = s.cmd := rfl
@[simp] theorem reject_res (s : State) : (reject s).res = { code := 16, data := 0, nxfer := 0 } := rfl
@[simp] theorem reject_busy (s : State) : (reject s).busy = s.busy := rfl
@[simp] theorem reject_dirty (s : State) : (reject s).dirty = s.dirty := rfl
@[simp] theorem reject_hostErr (s : State) : (reject s).hostErr = s.hostErr := rfl
@[simp] theorem reject_count (s : State) : (reject s).count = s.count := rfl
@[simp] theorem reject_buf (s : State) : (reject s).buf = s.buf := rfl
@[simp] theorem reject_fsm (s : State) : (reject s).fsm = s.fsm := rfl
@[simp] theorem reject_latch (s : State) : (reject s).latch = s.latch := rfl
@[simp] theorem reject_work (s : State) : (reject s).work = s.work := rfl
@[simp] theorem reject_con (s : State) : (reject s).con = s.con := rfl
@[simp] theorem reject_stat (s : State) : (reject s).stat = s.stat := rfl
@[simp] theorem reject_trn (s : State) : (reject s).trn = s.trn := rfl
@[simp] theorem reject_rcv (s : State) : (reject s).rcv = s.rcv := rfl
@[simp] theorem reject_brg (s : State) : (reject s).brg = s.brg := rfl
@[simp] theorem reject_line (s : State) : (reject s).line = s.line := rfl
@[simp] theorem reject_hist (s : State) : (reject s).hist = s.hist := rfl
@[simp] theorem reject_params (s : State) : (reject s).params = s.params := rfl
@[simp] theorem reject_inputs (s : State) : (reject s).inputs = s.inputs := rfl
@[simp] theorem reject_hostLog (s : State) : (reject s).hostLog = s.hostLog := rfl
@[simp] theorem reject_draws (s : State) : (reject s).draws = s.draws := rfl

/-! ### accept -/

@[simp] theorem accept_cmd (u : Submission) (s : State) : (accept u s).cmd = s.cmd := rfl
@[simp] theorem accept_res (u : Submission) (s : State) : (accept u s).res = {} := rfl
@[simp] theorem accept_busy (u : Submission) (s : State) : (accept u s).busy = true := rfl
@[simp] theorem accept_dirty (u : Submission) (s : State) : (accept u s).dirty = s.dirty := rfl
@[simp] theorem accept_hostErr (u : Submission) (s : State) : (accept u s).hostErr = s.hostErr := rfl
@[simp] theorem accept_count (u : Submission) (s : State) : (accept u s).count = s.count := rfl
@[simp] theorem accept_buf (u : Submission) (s : State) : (accept u s).buf = s.buf := rfl
@[simp] theorem accept_fsm (u : Submission) (s : State) : (accept u s).fsm = u.entry.opened := rfl
@[simp] theorem accept_latch (u : Submission) (s : State) : (accept u s).latch = u.latched s := rfl
@[simp] theorem accept_work (u : Submission) (s : State) : (accept u s).work = { s.work with nx := 0, v := (u.latched s).data8, ack := (u.latched s).ack } := rfl
@[simp] theorem accept_con (u : Submission) (s : State) : (accept u s).con = s.con := rfl
@[simp] theorem accept_stat (u : Submission) (s : State) : (accept u s).stat = s.stat := rfl
@[simp] theorem accept_trn (u : Submission) (s : State) : (accept u s).trn = s.trn := rfl
@[simp] theorem accept_rcv (u : Submission) (s : State) : (accept u s).rcv = s.rcv := rfl
@[simp] theorem accept_brg (u : Submission) (s : State) : (accept u s).brg = s.brg := rfl
@[simp] theorem accept_line (u : Submission) (s : State) : (accept u s).line = s.line := rfl
@[simp] theorem accept_hist (u : Submission) (s : State) : (accept u s).hist = s.hist := rfl
@[simp] theorem accept_params (u : Submission) (s : State) : (accept u s).params = s.params := rfl
@[simp] theorem accept_inputs (u : Submission) (s : State) : (accept u s).inputs = s.inputs := rfl
@[simp] theorem accept_hostLog (u : Submission) (s : State) : (accept u s).hostLog = s.hostLog := rfl
@[simp] theorem accept_draws (u : Submission) (s : State) : (accept u s).draws = s.draws := rfl

end Sys2Proof.Machine
end

