-- ==== Sys2Proof/Laws/Position.lean ====
section
/-! SUPPORT. The positions of the FSM: which labels can stand where, and that a line's callees stand on top of it (spec/10_state.md R32, spec/60_exceptions.md R351). -/

namespace Sys2Proof.Machine

/-- The first labels of the operations. -/
def Label.firsts : List Label := [.i1, .m1, .e1, .q1, .v1, .s1, .g1, .t1, .w1, .b1, .p1, .d1, .x1]

theorem Label.first_of_body {f l : Label} (h : l ∈ f.body) : f ∈ Label.firsts := by
  cases f <;> first | decide | simp [Label.body] at h

/-- Label m is a label of every operation l is one of: m can stand wherever l stands. -/
def Label.replacedBy (l m : Label) : Bool := Label.firsts.all fun f => decide (l ∈ f.body → m ∈ f.body)

theorem Label.replacedBy_body {l m f : Label} (hr : l.replacedBy m = true) (h : l ∈ f.body) : m ∈ f.body := by
  have := List.all_eq_true.1 hr f (Label.first_of_body h)
  exact of_decide_eq_true this h

theorem Label.callee_mem_body {l m : Label} (h : l.callee = some m) : m ∈ m.body := by
  cases l <;> simp [Label.callee] at h <;> subst h <;> decide

/-- A label of the same operation can take a label's place. -/
theorem stackOk_replace {op : BitVec 4} {l m : Label} {rest : List Label} (hr : l.replacedBy m = true) (hl : l ≠ .fin)
    (h : stackOk op (l :: rest) = true) : stackOk op (m :: rest) = true := by
  cases rest with
  | nil =>
    simp only [stackOk, bottomOk] at h ⊢
    split at h
    · simp only [Bool.or_eq_true, decide_eq_true_eq, hl, or_false] at h ⊢
      exact .inl (Label.replacedBy_body hr h)
    · cases h
  | cons c rest =>
    simp only [stackOk, Bool.and_eq_true, Label.calls] at h ⊢
    obtain ⟨h1, h2⟩ := h
    refine ⟨?_, h2⟩
    split at h1
    · exact decide_eq_true (Label.replacedBy_body hr (of_decide_eq_true h1))
    · cases h1

/-- Above a label stands its callee, down to an action. -/
theorem stackOk_opened {op : BitVec 4} {m : Label} {rest : List Label} (h : stackOk op (m :: rest) = true) :
    stackOk op (m.opened ++ rest) = true ∧ topOk (m.opened ++ rest) = true := by
  unfold Label.opened
  split
  · next hc => exact ⟨h, by simp [topOk, hc]⟩
  · next n hc =>
    have h1 := Label.callee_mem_body hc
    split
    · next hn => exact ⟨by simp [stackOk, h, Label.calls, hc, h1], by simp [topOk, hn]⟩
    · next k hk =>
      have h2 := Label.callee_mem_body hk
      refine ⟨by simp [stackOk, h, Label.calls, hc, hk, h1, h2], ?_⟩
      cases m <;> simp [Label.callee] at hc <;> subst hc <;> simp [Label.callee] at hk <;> subst hk <;> rfl

theorem stackOk_tail {op : BitVec 4} {l c : Label} {rest : List Label} (h : stackOk op (l :: c :: rest) = true) :
    stackOk op (c :: rest) = true := by
  simp only [stackOk, Bool.and_eq_true] at h; exact h.2

/-- The label below calls the operation of the label above. -/
theorem stackOk_callee {op : BitVec 4} {l c : Label} {rest : List Label} (h : stackOk op (l :: c :: rest) = true) :
    ∃ first, c.callee = some first ∧ l ∈ first.body := by
  simp only [stackOk, Bool.and_eq_true, Label.calls] at h
  have h1 := h.1
  split at h1
  · next first hc => exact ⟨first, hc, of_decide_eq_true h1⟩
  · cases h1

/-- The labels that stand at the bottom of the stack alone: those of no sub-operation. -/
def Label.ownOnly (l : Label) : Bool := Label.firsts.all fun c => match c with
  | .i1 | .m1 | .p1 | .d1 | .x1 => true
  | f => decide (l ∉ f.body)

theorem Label.callee_mem_subs {c first : Label} (h : c.callee = some first) :
    first ∈ [Label.v1, .s1, .g1, .t1, .w1, .b1, .q1, .e1] := by
  cases c <;> simp [Label.callee] at h <;> subst h <;> decide

/-- Below such a label stands nothing. -/
theorem stackOk_ownOnly {op : BitVec 4} {l : Label} {rest : List Label} (hl : l.ownOnly = true)
    (h : stackOk op (l :: rest) = true) : rest = [] := by
  cases rest with
  | nil => rfl
  | cons c rest =>
    obtain ⟨first, hc, hm⟩ := stackOk_callee h
    have hs := Label.callee_mem_subs hc
    simp only [List.mem_cons, List.not_mem_nil, or_false] at hs
    rcases hs with rfl | rfl | rfl | rfl | rfl | rfl | rfl | rfl <;>
      exact absurd hm (by revert hl; cases l <;> decide)

/-- A stack holds at most three labels (R351). -/
theorem stackOk_length {op : BitVec 4} {stack : List Label} (h : stackOk op stack = true) : stack.length ≤ 3 := by
  match stack, h with
  | [], _ => simp
  | [_], _ => simp
  | [_, _], _ => simp
  | [_, _, _], _ => simp
  | n :: m :: l :: x :: rest, h =>
    exfalso
    obtain ⟨f1, h1, g1⟩ := stackOk_callee h
    obtain ⟨f2, h2, g2⟩ := stackOk_callee (stackOk_tail h)
    obtain ⟨f3, h3, g3⟩ := stackOk_callee (stackOk_tail (stackOk_tail h))
    have s3 := Label.callee_mem_subs h3
    simp only [List.mem_cons, List.not_mem_nil, or_false] at s3
    have key : ∀ l m : Label, ∀ f2 f1 : Label, l ∈ f3.body → l.callee = some f2 → m ∈ f2.body → m.callee ≠ some f1 := by
      intro l m f2 f1 hl hc hm hk
      rcases s3 with rfl | rfl | rfl | rfl | rfl | rfl | rfl | rfl <;>
        (cases l <;> simp [Label.body, Label.callee] at hl hc) <;> subst hc <;>
        (cases m <;> simp [Label.body, Label.callee] at hm hk)
    exact key l m f2 f1 g3 h2 g2 h1

end Sys2Proof.Machine
end

