-- ==== Sys2Proof/Laws/Invariant.lean ====
section
/-! SUPPORT. Every Engine action, Host access and Environment step keeps the invariant (`State.Inv`). Each action is one of two kinds, `goto` and `finish`: `goto_keeps` and `finish_keeps` say once what each kind needs. -/

namespace Sys2Proof.Machine

/-! ## What the facts at a command's own label read -/

/-- u agrees with s in everything `State.OwnFacts` reads but the tracker. -/
structure SameData (s u : State) : Prop where
  latch : u.latch = s.latch
  buf : u.buf = s.buf
  i : u.work.i = s.work.i
  nx : u.work.nx = s.work.nx
  w : u.work.w = s.work.w
  xe : u.work.xe = s.work.xe
  fin : u.work.fin = s.work.fin
  v : u.work.v = s.work.v
  ack : u.work.ack = s.work.ack

theorem SameData.lcount {s u : State} (h : SameData s u) : u.lcount = s.lcount := by simp only [State.lcount, h.latch]

theorem SameData.exit {s u : State} (h : SameData s u) (l : Label) : u.exitOk l = s.exitOk l := by
  simp only [State.exitOk, h.latch, h.xe, h.w, h.fin]

theorem SameData.counts {s u : State} (h : SameData s u) (l : Label) : u.countsOk l = s.countsOk l := by
  simp only [State.countsOk, h.latch, h.xe, h.nx, h.i, h.fin, h.lcount]

theorem SameData.operands {s u : State} (h : SameData s u) (l : Label) : u.operandsOk l = s.operandsOk l := by
  simp only [State.operandsOk, h.latch, h.v, h.ack, h.i, h.buf, h.lcount]

theorem SameData.tracker {s u : State} (h : SameData s u) (hd : u.dirty = s.dirty) (l : Label) :
    u.trackerOk l = s.trackerOk l := by
  simp only [State.trackerOk, h.latch, h.w, h.fin, hd]

theorem SameData.own {s u : State} {l : Label} (h : SameData s u) (hd : u.dirty = s.dirty) (hs : s.OwnFacts l) :
    u.OwnFacts l :=
  ⟨by rw [h.exit]; exact hs.exit, by rw [h.tracker hd]; exact hs.tracker, by rw [h.counts]; exact hs.counts,
    by rw [h.operands]; exact hs.operands⟩

/-! ## A running state, seen from the label on top -/

/-- u runs, with label l on top of `rest`, and everything the invariant says that does not depend on l. -/
structure At (u : State) (l : Label) (rest : List Label) : Prop where
  params : paramsPositive u.params
  fsm : u.fsm = l :: rest
  busy : u.busy = true
  stack : stackOk u.latch.op (l :: rest) = true
  memory : Memory.wf u.buf = true
  interruptEnable : u.con.ie = false
  cap : u.CapOk
  below : rest ≠ [] → u.OwnFacts (rest.getLastD .fin)

theorem State.Inv.at {s : State} {l : Label} {rest : List Label} (h : s.Inv) (hf : s.fsm = l :: rest) : At s l rest where
  params := h.params
  fsm := hf
  busy := by rw [h.busy, hf]; rfl
  stack := by have := h.position.1; rwa [hf] at this
  memory := h.memory
  interruptEnable := h.interruptEnable
  cap := h.cap
  below := fun hr => by
    have := h.own (by rw [hf]; simp)
    cases rest with
    | nil => exact absurd rfl hr
    | cons c rest => simpa [State.bottom, hf] using this

theorem State.Inv.topAt {s : State} {l : Label} {rest : List Label} (h : s.Inv) (hf : s.fsm = l :: rest) :
    s.TopFacts l s.running := by
  have := h.top
  rwa [State.top, hf] at this

theorem State.Inv.ownAt {s : State} {l : Label} (h : s.Inv) (hf : s.fsm = [l]) : s.OwnFacts l := by
  simpa [State.bottom, hf] using h.own (by rw [hf]; simp)

/-- An update of nothing the invariant reads leaves the machine where it is. -/
theorem At.same {s u : State} {l : Label} {rest : List Label} (h : At s l rest) (hd : SameData s u)
    (hdirty : u.dirty = s.dirty) (hf : u.fsm = s.fsm) (hb : u.busy = s.busy) (hi : u.con.ie = s.con.ie)
    (hp : u.params = s.params) : At u l rest where
  params := hp ▸ h.params
  fsm := hf.trans h.fsm
  busy := hb.trans h.busy
  stack := by rw [hd.latch]; exact h.stack
  memory := by rw [hd.buf]; exact h.memory
  interruptEnable := hi.trans h.interruptEnable
  cap := fun hb' ho => by
    rw [hd.lcount]; rw [hd.latch] at ho
    exact h.cap (hb ▸ hb') ho
  below := fun hr => hd.own hdirty (h.below hr)

/-! ## goto -/

/-- The deepest label of a line. -/
def Label.deepest (m : Label) : Label := m.opened.headD .fin

/-- The facts at the label on top after `goto m`: trivial where m is a call. -/
theorem topFacts_call {u : State} {m first : Label} (hc : m.callee ≠ none) (hl : linesOk u.line .fin = true) :
    u.TopFacts m.deepest first := by
  cases m <;> first | exact absurd rfl hc | exact ⟨rfl, rfl, rfl, hl, rfl⟩

theorem goto_stack (m : Label) {u : State} {l : Label} {rest : List Label} (hf : u.fsm = l :: rest) :
    (u.goto m).fsm = m.opened ++ rest := by simp [hf]

theorem opened_top (m : Label) (rest : List Label) : (m.opened ++ rest).headD .fin = m.deepest := by
  unfold Label.deepest Label.opened
  split
  · rfl
  · split <;> rfl

theorem opened_bottom (m : Label) (rest : List Label) :
    (m.opened ++ rest).getLastD .fin = if rest = [] then m else rest.getLastD .fin := by
  unfold Label.opened
  cases rest with
  | nil => split <;> [rfl; (split <;> rfl)]
  | cons c rest => split <;> [simp; (split <;> simp)]

/-- `goto m` keeps the invariant where m can stand in the place of the label on top. -/
theorem goto_keeps {u : State} {l m : Label} {rest : List Label} (h : At u l rest) (hr : l.replacedBy m = true)
    (hl : l ≠ .fin) (htop : u.TopFacts m.deepest u.running ∨ (m.callee ≠ none ∧ linesOk u.line .fin = true))
    (hown : rest = [] → u.OwnFacts m) : (u.goto m).Inv := by
  have hfsm := goto_stack m h.fsm
  have hs := stackOk_opened (stackOk_replace hr hl h.stack)
  have hne : m.opened ++ rest ≠ [] := by
    unfold Label.opened
    split
    · simp
    · split <;> simp
  have hd : SameData u (u.goto m) := by constructor <;> rfl
  refine ⟨h.params, ?_, ?_, h.memory, h.interruptEnable, h.cap, ?_, ?_⟩
  · show u.busy = _
    rw [h.busy, hfsm]
    cases hx : m.opened ++ rest with
    | nil => exact absurd hx hne
    | cons a b => rfl
  · show stackOk u.latch.op (u.goto m).fsm = true ∧ topOk (u.goto m).fsm = true
    rw [hfsm]; exact hs
  · rw [State.top, hfsm, opened_top]
    rcases htop with htop | ⟨hc, hlines⟩
    · by_cases hc : m.callee = none
      · have ho : m.opened = [m] := by simp [Label.opened, hc]
        have hrun : (u.goto m).running = u.running := by
          unfold State.running
          rw [hfsm, h.fsm, ho]
          cases rest <;> rfl
        rw [hrun]
        exact ⟨htop.poll, htop.toggle, htop.off, htop.lines, htop.error⟩
      · have hlines : linesOk u.line .fin = true := by
          have := htop.lines
          cases m <;> first | exact absurd rfl hc | exact this
        exact topFacts_call hc hlines
    · exact topFacts_call hc hlines
  · intro _
    rw [State.bottom, hfsm, opened_bottom]
    split
    · next hrest => exact hd.own rfl (hown hrest)
    · next hrest => exact hd.own rfl (h.below hrest)

/-! ## finish -/

/-- The success values of the sub-operations (R247, R200, R152, R154). -/
def succeeded (first : Label) (r : Result) : Bool :=
  match first with
  | .w1 => decide (r = .ack)
  | .b1 => match r with
    | .byte _ => true
    | _ => false
  | _ => decide (r = .ok)

/-- The errors of the sub-operations. -/
def failed (first : Label) (r : Result) : Bool :=
  match first with
  | .v1 => decide (r ∈ [Result.sclLow, .sdaLow])
  | _ => primError first r

/-- What a sub-operation leaves when it finishes with r: a success value leaves the tracker as its caller's own
label had it (RECOVER leaves it clean); an error leaves it dirty. -/
structure Returns (u : State) (caller first : Label) (rest : List Label) (r : Result) : Prop where
  exit : rest = [] → u.exitOk caller = true
  counts : rest = [] → u.countsOk caller = true
  operands : rest = [] → u.operandsOk caller = true
  result : (succeeded first r = true ∧ (if first = .v1 then u.dirty = false else rest = [] → u.trackerOk caller = true)) ∨
    (failed first r = true ∧ u.dirty = true)

/-- The position of a caller, in the state u its sub-operation leaves. -/
theorem At.pop {s u : State} {l c : Label} {rest : List Label} (h : At s l (c :: rest)) (hd : SameData s u)
    (hdirty : rest = [] ∨ u.dirty = s.dirty) (hb : u.busy = s.busy) (hi : u.con.ie = s.con.ie)
    (hp : u.params = s.params) : At { u with fsm := c :: rest } c rest where
  params := by
    show paramsPositive u.params
    rw [hp]; exact h.params
  fsm := rfl
  busy := hb.trans h.busy
  stack := by
    show stackOk u.latch.op _ = true
    rw [hd.latch]; exact stackOk_tail h.stack
  memory := by
    show Memory.wf u.buf = true
    rw [hd.buf]; exact h.memory
  interruptEnable := hi.trans h.interruptEnable
  cap := fun hb' ho => by
    have hl : State.lcount { u with fsm := c :: rest } = s.lcount := hd.lcount
    rw [hl]
    exact h.cap (hb ▸ hb') (by simpa [hd.latch] using ho)
  below := fun hr => by
    have hd' : SameData s { u with fsm := c :: rest } := by cases hd; constructor <;> assumption
    have := h.below (by simp)
    cases rest with
    | nil => exact absurd rfl hr
    | cons d rest =>
      rcases hdirty with hdirty | hdirty
      · cases hdirty
      · exact hd'.own hdirty (by simpa using this)

/-! ## Labels whose facts are the lines alone -/

/-- The labels whose only fact is that the block holds no line low. -/
def Label.plain (m : Label) : Bool :=
  match m with
  | .s4 | .g4 | .t4 | .b6 | .w4 | .b4 | .v2 | .v3 | .v4 | .v5 | .v6a | .v6b | .v6c | .v6d | .v6e | .v7 | .v8 | .v9 | .v10
  | .v11 | .v12 | .v13 | .v14 | .v15 | .vf | .pf => false
  | _ => true

theorem topFacts_plain {u : State} {m first : Label} (hm : m.plain = true) (hl : linesOk u.line .fin = true) :
    u.TopFacts m first := by
  cases m <;> first | exact absurd hm (by decide) | exact ⟨rfl, rfl, rfl, hl, rfl⟩

/-- The label on top belongs to the operation that runs. -/
theorem At.running {u : State} {l : Label} {rest : List Label} (h : At u l rest) (hl : l ≠ .fin) :
    l ∈ u.running.body := by
  unfold State.running
  rw [h.fsm]
  cases rest with
  | nil =>
    have hs := h.stack
    simp only [stackOk, bottomOk] at hs
    split at hs
    · next first hf =>
      simp only [hf, Option.getD_some]
      simpa [hl] using hs
    · cases hs
  | cons c rest =>
    obtain ⟨first, hc, hm⟩ := stackOk_callee h.stack
    simpa [hc] using hm

/-- `goto m` to a plain label or a call. -/
theorem goto_plain {u : State} {l m : Label} {rest : List Label} (h : At u l rest) (hr : l.replacedBy m = true)
    (hl : l ≠ .fin) (hm : m.plain = true) (hlines : linesOk u.line .fin = true) (hown : rest = [] → u.OwnFacts m) :
    (u.goto m).Inv := by
  by_cases hc : m.callee = none
  · have : m.deepest = m := by simp [Label.deepest, Label.opened, hc]
    exact goto_keeps h hr hl (.inl (by rw [this]; exact topFacts_plain hm hlines)) hown
  · exact goto_keeps h hr hl (.inr ⟨hc, hlines⟩) hown

/-- `goto PF with e` in a primitive whose error e is. -/
theorem toPf_keeps {u : State} {l : Label} {rest : List Label} (h : At u l rest) (hr : l.replacedBy .pf = true)
    (hl : l ≠ .fin) (hlines : linesOk u.line .fin = true) {e : Result} (he : primError u.running e = true) :
    (u.toPf e).Inv := by
  have hd : SameData u { u with work := { u.work with e := e } } := by constructor <;> rfl
  refine goto_keeps (l := l) (rest := rest) (h.same hd rfl rfl rfl rfl rfl) hr hl (.inl ?_) ?_
  · exact ⟨rfl, rfl, rfl, hlines, he⟩
  · intro hrest
    subst hrest
    exact ⟨rfl, rfl, rfl, rfl⟩

/-! ## Where a caller goes on -/

theorem Label.body_pf {l first : Label} (h : l ∈ first.body) (hp : l.replacedBy .pf = true) :
    first ∈ [Label.s1, .g1, .t1, .w1, .b1] := by
  have h1 := Label.replacedBy_body hp h
  cases first <;> first | decide | (revert h1; decide)

/-- A caller of CYCLE_ENABLE goes to PF with BusCollision. -/
theorem collision_keeps {u : State} {c : Label} {rest : List Label} (h : At u c rest)
    (hc : c = .sc ∨ c = .gc ∨ c = .tc ∨ c = .wc) (hlines : linesOk u.line .fin = true) : (u.toPf .busCollision).Inv := by
  have hne : c ≠ .fin := by rcases hc with rfl | rfl | rfl | rfl <;> decide
  have hrun := h.running hne
  refine toPf_keeps h (by rcases hc with rfl | rfl | rfl | rfl <;> decide) hne hlines ?_
  rcases hc with rfl | rfl | rfl | rfl <;>
    (generalize u.running = f at hrun; cases f <;> first | rfl | (revert hrun; decide))

/-- A transfer's own label after a sub-operation, with the facts of the label it goes to. -/
theorem own_goto {u v : State} {c m : Label} {rest : List Label} (h : At u c rest) (hown : c.ownOnly = true)
    (hfsm : v.fsm = u.fsm) (hbusy : v.busy = u.busy) (hlatch : v.latch = u.latch) (hbuf : v.buf = u.buf)
    (hie : v.con.ie = u.con.ie) (hp : v.params = u.params) (hlines : linesOk v.line .fin = true) (hr : c.replacedBy m = true) (hc : c ≠ .fin)
    (hm : m.plain = true) (hfacts : v.OwnFacts m) : (v.goto m).Inv := by
  have hrest := stackOk_ownOnly hown h.stack
  subst hrest
  have hv : At v c [] :=
    { params := hp ▸ h.params
      fsm := hfsm.trans h.fsm
      busy := hbusy.trans h.busy
      stack := by rw [hlatch]; exact h.stack
      memory := by rw [hbuf]; exact h.memory
      interruptEnable := hie.trans h.interruptEnable
      cap := by
        have := h.cap
        simpa only [State.CapOk, State.lcount, hbusy, hlatch] using this
      below := fun hr => absurd rfl hr }
  exact goto_plain hv hr hc hm hlines (fun _ => hfacts)

/-- A transfer's own label stands at the bottom. -/
theorem At.own_bottom {u : State} {l : Label} {rest : List Label} (h : At u l rest) (hown : l.ownOnly = true) :
    bottomOk u.latch.op l = true := by
  have hrest := stackOk_ownOnly hown h.stack
  subst hrest
  exact h.stack

/-- The OPs whose command has the label as its own. -/
def Label.ops (l : Label) : List (BitVec 4) :=
  ([0x1#4, 0x2#4, 0x3#4, 0x4#4, 0x5#4, 0x6#4, 0x7#4, 0x8#4, 0x9#4, 0xA#4, 0xB#4] : List (BitVec 4)).filter (bottomOk · l)

/-- The running command, read off its own label. -/
theorem bottomOk_op {op : BitVec 4} {l : Label} (h : bottomOk op l = true) : op ∈ l.ops := by
  have key : ∀ op : BitVec 4, entryOf op = none ∨
      op ∈ ([0x1#4, 0x2#4, 0x3#4, 0x4#4, 0x5#4, 0x6#4, 0x7#4, 0x8#4, 0x9#4, 0xA#4, 0xB#4] : List (BitVec 4)) := by decide
  rcases key op with hn | hm
  · simp [bottomOk, hn] at h
  · exact List.mem_filter.2 ⟨hm, h⟩

/-! ## Where a transfer goes on (R260, R265, R270, R275) -/

theorem resume_p2_keeps {u t : State} {rest : List Label} {r : Result} (h : At u .p2 rest)
    (hret : Returns u .p2 .v1 rest r) (hlines : linesOk u.line .fin = true) (ht : resume .p2 r u = .next t) : t.Inv := by
  obtain rfl := stackOk_ownOnly (by decide) h.stack
  have hop : u.latch.op = 0x3#4 := List.mem_singleton.1 (show _ ∈ [0x3#4] from bottomOk_op h.stack)
  obtain ⟨hx, hn, ho, hres⟩ := hret
  replace hx := hx rfl
  replace hn := hn rfl
  replace ho := ho rfl
  cases ht
  simp only [State.toExit]
  rcases hres with ⟨hres, hd⟩ | ⟨hres, hd⟩ <;> (repeat' split) <;>
    refine own_goto h rfl rfl rfl rfl rfl rfl rfl hlines rfl (by decide) rfl ⟨?_, ?_, ?_, ?_⟩ <;>
    simp_all [State.exitOk, State.trackerOk, State.countsOk, State.operandsOk, succeeded, failed, primError, State.keepR]

theorem resume_p3_keeps {u t : State} {rest : List Label} {r : Result} (h : At u .p3 rest)
    (hret : Returns u .p3 .s1 rest r) (hlines : linesOk u.line .fin = true) (ht : resume .p3 r u = .next t) : t.Inv := by
  obtain rfl := stackOk_ownOnly (by decide) h.stack
  have hop : u.latch.op = 0x3#4 := List.mem_singleton.1 (show _ ∈ [0x3#4] from bottomOk_op h.stack)
  obtain ⟨hx, hn, ho, hres⟩ := hret
  replace hx := hx rfl
  replace hn := hn rfl
  replace ho := ho rfl
  cases ht
  simp only [State.toExit, State.unwind]
  rcases hres with ⟨hres, hd⟩ | ⟨hres, hd⟩ <;> (repeat' split) <;>
    refine own_goto h rfl rfl rfl rfl rfl rfl rfl hlines rfl (by decide) rfl ⟨?_, ?_, ?_, ?_⟩ <;>
    simp_all [State.exitOk, State.trackerOk, State.countsOk, State.operandsOk, succeeded, failed, primError, State.keepR, State.withAddrWrite, State.withV]

theorem resume_p4_keeps {u t : State} {rest : List Label} {r : Result} (h : At u .p4 rest)
    (hret : Returns u .p4 .w1 rest r) (hlines : linesOk u.line .fin = true) (ht : resume .p4 r u = .next t) : t.Inv := by
  obtain rfl := stackOk_ownOnly (by decide) h.stack
  have hop : u.latch.op = 0x3#4 := List.mem_singleton.1 (show _ ∈ [0x3#4] from bottomOk_op h.stack)
  obtain ⟨hx, hn, ho, hres⟩ := hret
  replace hx := hx rfl
  replace hn := hn rfl
  replace ho := ho rfl
  cases ht
  rcases hres with ⟨hres, hd⟩ | ⟨hres, hd⟩ <;> (repeat' split) <;>
    refine own_goto h rfl rfl rfl rfl rfl rfl rfl hlines rfl (by decide) rfl ⟨?_, ?_, ?_, ?_⟩ <;>
    simp_all [State.exitOk, State.trackerOk, State.countsOk, State.operandsOk, succeeded, failed, primError, State.keepW]
  rcases hres with rfl | rfl | rfl | rfl <;> decide

theorem resume_p5_keeps {u t : State} {rest : List Label} {r : Result} (h : At u .p5 rest)
    (hret : Returns u .p5 .t1 rest r) (hlines : linesOk u.line .fin = true) (ht : resume .p5 r u = .next t) : t.Inv := by
  obtain rfl := stackOk_ownOnly (by decide) h.stack
  have hop : u.latch.op = 0x3#4 := List.mem_singleton.1 (show _ ∈ [0x3#4] from bottomOk_op h.stack)
  obtain ⟨hx, hn, ho, hres⟩ := hret
  replace hx := hx rfl
  replace hn := hn rfl
  replace ho := ho rfl
  cases ht
  simp only [State.toExit, State.pollClassify]
  rcases hres with ⟨hres, hd⟩ | ⟨hres, hd⟩ <;> (repeat' split) <;>
    refine own_goto h rfl rfl rfl rfl rfl rfl rfl hlines rfl (by decide) rfl ⟨?_, ?_, ?_, ?_⟩ <;>
    simp_all [State.exitOk, State.trackerOk, State.countsOk, State.operandsOk, succeeded, failed, primError, State.keepT]

theorem resume_d2_keeps {u t : State} {rest : List Label} {r : Result} (h : At u .d2 rest)
    (hret : Returns u .d2 .s1 rest r) (hlines : linesOk u.line .fin = true) (ht : resume .d2 r u = .next t) : t.Inv := by
  obtain rfl := stackOk_ownOnly (by decide) h.stack
  have hop : u.latch.op = 0x4#4 := List.mem_singleton.1 (show _ ∈ [0x4#4] from bottomOk_op h.stack)
  obtain ⟨hx, hn, ho, hres⟩ := hret
  replace hx := hx rfl
  replace hn := hn rfl
  replace ho := ho rfl
  cases ht
  simp only [State.toExit, State.unwind]
  rcases hres with ⟨hres, hd⟩ | ⟨hres, hd⟩ <;> (repeat' split) <;>
    refine own_goto h rfl rfl rfl rfl rfl rfl rfl hlines rfl (by decide) rfl ⟨?_, ?_, ?_, ?_⟩ <;>
    simp_all [State.exitOk, State.trackerOk, State.countsOk, State.operandsOk, succeeded, failed, primError, State.keepR, State.withAddrWrite, State.withV]

theorem resume_x2_keeps {u t : State} {rest : List Label} {r : Result} (h : At u .x2 rest)
    (hret : Returns u .x2 .s1 rest r) (hlines : linesOk u.line .fin = true) (ht : resume .x2 r u = .next t) : t.Inv := by
  obtain rfl := stackOk_ownOnly (by decide) h.stack
  have hop : u.latch.op = 0x5#4 := List.mem_singleton.1 (show _ ∈ [0x5#4] from bottomOk_op h.stack)
  obtain ⟨hx, hn, ho, hres⟩ := hret
  replace hx := hx rfl
  replace hn := hn rfl
  replace ho := ho rfl
  cases ht
  simp only [State.toExit, State.unwind]
  rcases hres with ⟨hres, hd⟩ | ⟨hres, hd⟩ <;> (repeat' split) <;>
    refine own_goto h rfl rfl rfl rfl rfl rfl rfl hlines rfl (by decide) rfl ⟨?_, ?_, ?_, ?_⟩ <;>
    simp_all [State.exitOk, State.trackerOk, State.countsOk, State.operandsOk, succeeded, failed, primError, State.keepR, State.withAddrWrite, State.withV]

theorem resume_d3_keeps {u t : State} {rest : List Label} {r : Result} (h : At u .d3 rest)
    (hret : Returns u .d3 .w1 rest r) (hlines : linesOk u.line .fin = true) (ht : resume .d3 r u = .next t) : t.Inv := by
  obtain rfl := stackOk_ownOnly (by decide) h.stack
  have hop : u.latch.op = 0x4#4 := List.mem_singleton.1 (show _ ∈ [0x4#4] from bottomOk_op h.stack)
  obtain ⟨hx, hn, ho, hres⟩ := hret
  replace hx := hx rfl
  replace hn := hn rfl
  replace ho := ho rfl
  cases ht
  simp only [State.toExit, State.unwind, State.afterAddr]
  rcases hres with ⟨hres, hd⟩ | ⟨hres, hd⟩ <;> (repeat' split) <;>
    refine own_goto h rfl rfl rfl rfl rfl rfl rfl hlines rfl (by decide) rfl ⟨?_, ?_, ?_, ?_⟩ <;>
    simp_all [State.exitOk, State.trackerOk, State.countsOk, State.operandsOk, succeeded, failed, primError, State.keepW, State.withSub, State.withV]

theorem resume_x3_keeps {u t : State} {rest : List Label} {r : Result} (h : At u .x3 rest)
    (hret : Returns u .x3 .w1 rest r) (hlines : linesOk u.line .fin = true) (ht : resume .x3 r u = .next t) : t.Inv := by
  obtain rfl := stackOk_ownOnly (by decide) h.stack
  have hop : u.latch.op = 0x5#4 := List.mem_singleton.1 (show _ ∈ [0x5#4] from bottomOk_op h.stack)
  obtain ⟨hx, hn, ho, hres⟩ := hret
  replace hx := hx rfl
  replace hn := hn rfl
  replace ho := ho rfl
  cases ht
  simp only [State.toExit, State.unwind, State.afterAddr]
  rcases hres with ⟨hres, hd⟩ | ⟨hres, hd⟩ <;> (repeat' split) <;>
    refine own_goto h rfl rfl rfl rfl rfl rfl rfl hlines rfl (by decide) rfl ⟨?_, ?_, ?_, ?_⟩ <;>
    simp_all [State.exitOk, State.trackerOk, State.countsOk, State.operandsOk, succeeded, failed, primError, State.keepW, State.withSub, State.withV]

theorem resume_d4_keeps {u t : State} {rest : List Label} {r : Result} (h : At u .d4 rest)
    (hret : Returns u .d4 .w1 rest r) (hlines : linesOk u.line .fin = true) (ht : resume .d4 r u = .next t) : t.Inv := by
  obtain rfl := stackOk_ownOnly (by decide) h.stack
  have hop : u.latch.op = 0x4#4 := List.mem_singleton.1 (show _ ∈ [0x4#4] from bottomOk_op h.stack)
  obtain ⟨hx, hn, ho, hres⟩ := hret
  replace hx := hx rfl
  replace hn := hn rfl
  replace ho := ho rfl
  cases ht
  simp only [State.toExit, State.unwind]
  rcases hres with ⟨hres, hd⟩ | ⟨hres, hd⟩ <;> (repeat' split) <;>
    refine own_goto h rfl rfl rfl rfl rfl rfl rfl hlines rfl (by decide) rfl ⟨?_, ?_, ?_, ?_⟩ <;>
    simp_all [State.exitOk, State.trackerOk, State.countsOk, State.operandsOk, succeeded, failed, primError, State.keepW]

theorem resume_d5_keeps {u t : State} {rest : List Label} {r : Result} (h : At u .d5 rest)
    (hret : Returns u .d5 .g1 rest r) (hlines : linesOk u.line .fin = true) (ht : resume .d5 r u = .next t) : t.Inv := by
  obtain rfl := stackOk_ownOnly (by decide) h.stack
  have hop : u.latch.op = 0x4#4 := List.mem_singleton.1 (show _ ∈ [0x4#4] from bottomOk_op h.stack)
  obtain ⟨hx, hn, ho, hres⟩ := hret
  replace hx := hx rfl
  replace hn := hn rfl
  replace ho := ho rfl
  cases ht
  simp only [State.toExit, State.unwind]
  rcases hres with ⟨hres, hd⟩ | ⟨hres, hd⟩ <;> (repeat' split) <;>
    refine own_goto h rfl rfl rfl rfl rfl rfl rfl hlines rfl (by decide) rfl ⟨?_, ?_, ?_, ?_⟩ <;>
    simp_all [State.exitOk, State.trackerOk, State.countsOk, State.operandsOk, succeeded, failed, primError, State.keepR, State.withAddrRead, State.withV]

theorem resume_d6_keeps {u t : State} {rest : List Label} {r : Result} (h : At u .d6 rest)
    (hret : Returns u .d6 .w1 rest r) (hlines : linesOk u.line .fin = true) (ht : resume .d6 r u = .next t) : t.Inv := by
  obtain rfl := stackOk_ownOnly (by decide) h.stack
  have hop : u.latch.op = 0x4#4 := List.mem_singleton.1 (show _ ∈ [0x4#4] from bottomOk_op h.stack)
  obtain ⟨hx, hn, ho, hres⟩ := hret
  replace hx := hx rfl
  replace hn := hn rfl
  replace ho := ho rfl
  cases ht
  simp only [State.toExit, State.unwind, State.readLoop]
  rcases hres with ⟨hres, hd⟩ | ⟨hres, hd⟩ <;> (repeat' split) <;>
    refine own_goto h rfl rfl rfl rfl rfl rfl rfl hlines rfl (by decide) rfl ⟨?_, ?_, ?_, ?_⟩ <;>
    simp_all [State.exitOk, State.trackerOk, State.countsOk, State.operandsOk, succeeded, failed, primError, State.keepW, State.startLoop, State.withAckUnlessLast, State.withAck, State.lcount]

theorem resume_x4_keeps {u t : State} {rest : List Label} {r : Result} (h : At u .x4 rest)
    (hret : Returns u .x4 .w1 rest r) (hlines : linesOk u.line .fin = true) (ht : resume .x4 r u = .next t) : t.Inv := by
  obtain rfl := stackOk_ownOnly (by decide) h.stack
  have hop : u.latch.op = 0x5#4 := List.mem_singleton.1 (show _ ∈ [0x5#4] from bottomOk_op h.stack)
  obtain ⟨hx, hn, ho, hres⟩ := hret
  replace hx := hx rfl
  replace hn := hn rfl
  replace ho := ho rfl
  cases ht
  simp only [State.toExit, State.unwind, State.writeLoop]
  rcases hres with ⟨hres, hd⟩ | ⟨hres, hd⟩ <;> (repeat' split) <;>
    refine own_goto h rfl rfl rfl rfl rfl rfl rfl hlines rfl (by decide) rfl ⟨?_, ?_, ?_, ?_⟩ <;>
    simp_all [State.exitOk, State.trackerOk, State.countsOk, State.operandsOk, succeeded, failed, primError, State.keepW, State.startLoop, State.lcount]

theorem resume_x5b_keeps {u t : State} {rest : List Label} {r : Result} (h : At u .x5b rest)
    (hret : Returns u .x5b .w1 rest r) (hlines : linesOk u.line .fin = true) (ht : resume .x5b r u = .next t) : t.Inv := by
  obtain rfl := stackOk_ownOnly (by decide) h.stack
  have hop : u.latch.op = 0x5#4 := List.mem_singleton.1 (show _ ∈ [0x5#4] from bottomOk_op h.stack)
  obtain ⟨hx, hn, ho, hres⟩ := hret
  replace hx := hx rfl
  replace hn := hn rfl
  replace ho := ho rfl
  cases ht
  simp only [State.toExit, State.unwind, State.writeLoop]
  rcases hres with ⟨hres, hd⟩ | ⟨hres, hd⟩ <;> (repeat' split) <;>
    refine own_goto h rfl rfl rfl rfl rfl rfl rfl hlines rfl (by decide) rfl ⟨?_, ?_, ?_, ?_⟩ <;>
    simp_all [State.exitOk, State.trackerOk, State.countsOk, State.operandsOk, succeeded, failed, primError, State.keepW, State.nextByte, State.lcount] <;>
    (have hlt := of_decide_eq_true hn.2; omega)

theorem resume_d8_keeps {u t : State} {rest : List Label} {r : Result} (h : At u .d8 rest)
    (hret : Returns u .d8 .t1 rest r) (hlines : linesOk u.line .fin = true) (ht : resume .d8 r u = .next t) : t.Inv := by
  obtain rfl := stackOk_ownOnly (by decide) h.stack
  have hop : u.latch.op = 0x4#4 := List.mem_singleton.1 (show _ ∈ [0x4#4] from bottomOk_op h.stack)
  obtain ⟨hx, hn, ho, hres⟩ := hret
  replace hx := hx rfl
  replace hn := hn rfl
  replace ho := ho rfl
  cases ht
  simp only [State.toExit]
  rcases hres with ⟨hres, hd⟩ | ⟨hres, hd⟩ <;> (repeat' split) <;>
    refine own_goto h rfl rfl rfl rfl rfl rfl rfl hlines rfl (by decide) rfl ⟨?_, ?_, ?_, ?_⟩ <;>
    simp_all [State.exitOk, State.trackerOk, State.countsOk, State.operandsOk, succeeded, failed, primError, State.keepT] <;>
    rfl

theorem resume_x6_keeps {u t : State} {rest : List Label} {r : Result} (h : At u .x6 rest)
    (hret : Returns u .x6 .t1 rest r) (hlines : linesOk u.line .fin = true) (ht : resume .x6 r u = .next t) : t.Inv := by
  obtain rfl := stackOk_ownOnly (by decide) h.stack
  have hop : u.latch.op = 0x5#4 := List.mem_singleton.1 (show _ ∈ [0x5#4] from bottomOk_op h.stack)
  obtain ⟨hx, hn, ho, hres⟩ := hret
  replace hx := hx rfl
  replace hn := hn rfl
  replace ho := ho rfl
  cases ht
  simp only [State.toExit]
  rcases hres with ⟨hres, hd⟩ | ⟨hres, hd⟩ <;> (repeat' split) <;>
    refine own_goto h rfl rfl rfl rfl rfl rfl rfl hlines rfl (by decide) rfl ⟨?_, ?_, ?_, ?_⟩ <;>
    simp_all [State.exitOk, State.trackerOk, State.countsOk, State.operandsOk, succeeded, failed, primError, State.keepT] <;>
    rfl

theorem resume_u1_keeps {u t : State} {rest : List Label} {r : Result} (h : At u .u1 rest)
    (hret : Returns u .u1 .t1 rest r) (hlines : linesOk u.line .fin = true) (ht : resume .u1 r u = .next t) : t.Inv := by
  obtain rfl := stackOk_ownOnly (by decide) h.stack
  obtain ⟨hx, hn, ho, hres⟩ := hret
  replace hx := hx rfl
  replace hn := hn rfl
  replace ho := ho rfl
  cases ht
  rcases hres with ⟨hres, hd⟩ | ⟨hres, hd⟩ <;> (repeat' split) <;>
    refine own_goto h rfl rfl rfl rfl rfl rfl rfl hlines rfl (by decide) rfl ⟨?_, ?_, ?_, ?_⟩ <;>
    simp_all [State.exitOk, State.trackerOk, State.countsOk, State.operandsOk, succeeded, failed, primError, State.keepT] <;>
    exact hn

theorem resume_d7a_keeps {u t : State} {rest : List Label} {r : Result} (h : At u .d7a rest)
    (hret : Returns u .d7a .b1 rest r) (hlines : linesOk u.line .fin = true) (ht : resume .d7a r u = .next t) : t.Inv := by
  obtain rfl := stackOk_ownOnly (by decide) h.stack
  have hop : u.latch.op = 0x4#4 := List.mem_singleton.1 (show _ ∈ [0x4#4] from bottomOk_op h.stack)
  obtain ⟨hx, hn, ho, hres⟩ := hret
  replace hx := hx rfl
  replace hn := hn rfl
  replace ho := ho rfl
  have hu : (State.unwind .commFail (u.keepR r)).Inv := by
    simp only [State.toExit, State.unwind]
    refine own_goto h rfl rfl rfl rfl rfl rfl rfl hlines rfl (by decide) rfl ⟨?_, ?_, ?_, ?_⟩ <;>
      simp_all [State.exitOk, State.trackerOk, State.countsOk, State.operandsOk, State.keepR]
    exact Nat.le_of_lt hn.2
  cases r <;> first
    | (cases ht; exact hu)
    | (cases ht
       refine own_goto h rfl rfl rfl rfl rfl rfl rfl hlines rfl (by decide) rfl ⟨?_, ?_, ?_, ?_⟩ <;>
         simp_all [State.exitOk, State.trackerOk, State.countsOk, State.operandsOk, failed, primError, State.keepR]
       exact hn.2)

/-- Where a caller goes on keeps the invariant. -/
theorem resume_keeps {u t : State} {c first : Label} {rest : List Label} {r : Result} (h : At u c rest)
    (hcallee : c.callee = some first) (hret : Returns u c first rest r) (hlines : linesOk u.line .fin = true)
    (ht : resume c r u = .next t) : t.Inv := by
  have ho := hret.operands
  cases c <;> simp only [Label.callee, Option.some.injEq, reduceCtorEq] at hcallee <;> subst hcallee
  case s1 => cases ht; exact goto_plain h (by decide) (by decide) rfl hlines (fun _ => ⟨rfl, rfl, rfl, rfl⟩)
  case g1 => cases ht; exact goto_plain h (by decide) (by decide) rfl hlines (fun _ => ⟨rfl, rfl, rfl, rfl⟩)
  case t1 => cases ht; exact goto_plain h (by decide) (by decide) rfl hlines (fun _ => ⟨rfl, rfl, rfl, rfl⟩)
  case w1 => cases ht; exact goto_plain h (by decide) (by decide) rfl hlines (fun hr => ⟨rfl, rfl, rfl, ho hr⟩)
  case b1 => cases ht; exact goto_plain h (by decide) (by decide) rfl hlines (fun hr => ⟨rfl, rfl, rfl, ho hr⟩)
  case sc => cases ht; exact collision_keeps h (by simp) hlines
  case gc => cases ht; exact collision_keeps h (by simp) hlines
  case tc => cases ht; exact collision_keeps h (by simp) hlines
  case wc => cases ht; exact collision_keeps h (by simp) hlines
  case p2 => exact resume_p2_keeps h hret hlines ht
  case p3 => exact resume_p3_keeps h hret hlines ht
  case p4 => exact resume_p4_keeps h hret hlines ht
  case p5 => exact resume_p5_keeps h hret hlines ht
  case d2 => exact resume_d2_keeps h hret hlines ht
  case d3 => exact resume_d3_keeps h hret hlines ht
  case d4 => exact resume_d4_keeps h hret hlines ht
  case d5 => exact resume_d5_keeps h hret hlines ht
  case d6 => exact resume_d6_keeps h hret hlines ht
  case d7a => exact resume_d7a_keeps h hret hlines ht
  case d8 => exact resume_d8_keeps h hret hlines ht
  case x2 => exact resume_x2_keeps h hret hlines ht
  case x3 => exact resume_x3_keeps h hret hlines ht
  case x4 => exact resume_x4_keeps h hret hlines ht
  case x5b => exact resume_x5b_keeps h hret hlines ht
  case x6 => exact resume_x6_keeps h hret hlines ht
  case u1 => exact resume_u1_keeps h hret hlines ht

end Sys2Proof.Machine
end

