-- ==== Sys2Proof/Laws/Actions.lean ====
section
/-! SUPPORT. Every Engine action keeps the invariant (`act_keeps`). -/

namespace Sys2Proof.Machine

theorem lcount_dirtyWrite (v : Bool) (s : State) : (dirtyWrite v s).lcount = s.lcount := rfl

/-! ## finish -/

/-- The running command's `Complete` comes next, with result r. -/
theorem fin_facts {u : State} {r : Result} (hr : resultOf u.latch.op r = true)
    (hd : u.dirty = (trackerAfter u.latch.op r).getD u.dirty)
    (hn : u.latch.op = 0x4#4 ∨ u.latch.op = 0x5#4 → u.work.nx ≤ u.lcount ∧ (r = .ok → u.work.nx = u.lcount) ∧
      (r = .badAddr ∨ r = .busDirty → u.work.nx = 0)) :
    State.OwnFacts { u with work := { u.work with fin := r } } .fin := by
  refine ⟨hr, decide_eq_true hd, ?_, rfl⟩
  show (if u.latch.op = 0x4#4 ∨ u.latch.op = 0x5#4 then
      decide (u.work.nx ≤ u.lcount) && (decide (r ≠ .ok) || decide (u.work.nx = u.lcount)) &&
        ((decide (r ≠ .badAddr) && decide (r ≠ .busDirty)) || decide (u.work.nx = 0))
    else true) = true
  split
  · next ho =>
    obtain ⟨h1, h2, h3⟩ := hn ho
    simp only [Bool.and_eq_true, Bool.or_eq_true, decide_eq_true_eq]
    refine ⟨⟨h1, ?_⟩, ?_⟩
    · by_cases hr : r = .ok
      · exact .inr (h2 hr)
      · exact .inl hr
    · by_cases hr : r = .badAddr ∨ r = .busDirty
      · exact .inr (h3 hr)
      · exact .inl (not_or.1 hr)
  · rfl

/-- A primitive's own errors are results of its command. -/
theorem primError_result {op : BitVec 4} {e : Result} (h : primError ((entryOf op).getD .fin) e = true) :
    resultOf op e = true ∧ e.isError = true ∧ op ≠ 0x4#4 ∧ op ≠ 0x5#4 := by
  have key : ∀ op : BitVec 4, ∀ e ∈ [Result.nak, .busCollision, .clockStuck, .transmitBufferFull, .receiveOverflow,
      .receiveTimeout], primError ((entryOf op).getD .fin) e = true →
      resultOf op e = true ∧ e.isError = true ∧ op ≠ 0x4#4 ∧ op ≠ 0x5#4 := by decide
  refine key op e ?_ h
  unfold primError at h
  cases e <;> first | decide | (revert h; split <;> simp)

/-- `finish r` keeps the invariant: alone, the facts of `Complete` hold; above a caller, r is one of the
sub-operation's results and the tracker fits it. -/
theorem finish_keeps {s u t : State} {l : Label} {rest : List Label} {r : Result} (h : At s l rest) (hl : l ≠ .fin)
    (hd : SameData s u) (hf : u.fsm = s.fsm) (hb : u.busy = s.busy) (hi : u.con.ie = s.con.ie) (hp : u.params = s.params)
    (hlines : linesOk u.line .fin = true) 
    (hdirty : u.dirty = s.dirty ∨ l ∉ Label.body .e1 ∧ l ∉ Label.body .q1)
    (halone : rest = [] → State.OwnFacts { u with work := { u.work with fin := r } } .fin)
    (habove : ∀ first ∈ [Label.v1, .s1, .g1, .t1, .w1, .b1, .q1, .e1], l ∈ first.body → s.running = first →
      (succeeded first r = true ∧ (if first = .v1 then u.dirty = false else u.dirty = s.dirty)) ∨
        (failed first r = true ∧ u.dirty = true))
    (ht : u.finish r = .next t) : t.Inv := by
  cases rest with
  | nil =>
    have hs : u.finish r = .next { u with fsm := [.fin], work := { u.work with fin := r } } := by
      unfold State.finish; rw [hf, h.fsm]
    rw [hs] at ht
    cases ht
    have ho := halone rfl
    refine ⟨hp ▸ h.params, hb.trans h.busy, ⟨?_, rfl⟩, ?_, hi.trans h.interruptEnable, ?_, ⟨rfl, rfl, rfl, hlines, rfl⟩, fun _ => ⟨ho.exit, ho.tracker, ho.counts, ho.operands⟩⟩
    · have hs := h.stack
      rw [← hd.latch] at hs
      simp only [stackOk, bottomOk] at hs ⊢
      split at hs
      · next f hf => simp [hf]
      · cases hs
    · show Memory.wf u.buf = true
      rw [hd.buf]; exact h.memory
    · have hc := h.cap
      simpa only [State.CapOk, State.lcount, hb, hd.latch] using hc
  | cons c rest =>
    obtain ⟨first, hc, hm⟩ := stackOk_callee h.stack
    have hs : u.finish r = resume c r { u with fsm := c :: rest } := by
      unfold State.finish; rw [hf, h.fsm]
    rw [hs] at ht
    have hrest : rest = [] ∨ u.dirty = s.dirty := by
      rcases hdirty with hd | ⟨he, hq⟩
      · exact .inr hd
      · refine .inl (stackOk_ownOnly (l := c) ?_ (stackOk_tail h.stack))
        have hne : first ≠ .e1 ∧ first ≠ .q1 := ⟨fun h => he (h ▸ hm), fun h => hq (h ▸ hm)⟩
        revert hne
        cases c <;> simp only [Label.callee, Option.some.injEq, reduceCtorEq] at hc <;> subst hc <;> decide
    have hb' := h.below (by simp)
    have own : ∀ p : rest = [], s.OwnFacts c := fun p => by subst p; exact hb'
    have hd' : SameData s { u with fsm := c :: rest } := by cases hd; constructor <;> assumption
    refine resume_keeps (h.pop hd hrest hb hi hp) hc ⟨?_, ?_, ?_, ?_⟩ hlines ht
    · exact fun p => by rw [hd'.exit]; exact (own p).exit
    · exact fun p => by rw [hd'.counts]; exact (own p).counts
    · exact fun p => by rw [hd'.operands]; exact (own p).operands
    · rcases habove first (Label.callee_mem_subs hc) hm (by simp [State.running, h.fsm, hc]) with ⟨h1, h2⟩ | h1
      · refine .inl ⟨h1, ?_⟩
        split at h2
        · next hv => rw [if_pos hv]; exact h2
        · next hv => rw [if_neg hv]; exact fun p => by rw [hd'.tracker h2]; exact (own p).tracker
      · exact .inr h1

/-! ## INIT and MODSTART -/

theorem act_i1_keeps {s t : State} {rest : List Label} (h : s.Inv) (hf : s.fsm = .i1 :: rest) (ht : actAt .i1 s = .next t) :
    t.Inv := by
  have hA := h.at hf
  have hT := h.topAt hf
  cases ht
  exact goto_plain (hA.same ⟨rfl, rfl, rfl, rfl, rfl, rfl, rfl, rfl, rfl⟩ rfl rfl rfl rfl rfl) (by decide) (by decide) rfl (by have := hT.lines; simp_all [linesOk]) (fun _ => ⟨rfl, rfl, rfl, rfl⟩)

theorem act_i2_keeps {s t : State} {rest : List Label} (h : s.Inv) (hf : s.fsm = .i2 :: rest) (ht : actAt .i2 s = .next t) :
    t.Inv := by
  have hA := h.at hf
  have hT := h.topAt hf
  cases ht
  exact goto_plain (hA.same ⟨rfl, rfl, rfl, rfl, rfl, rfl, rfl, rfl, rfl⟩ rfl rfl rfl rfl rfl) (by decide) (by decide) rfl (by have := hT.lines; simp_all [linesOk]) (fun _ => ⟨rfl, rfl, rfl, rfl⟩)

theorem act_i3_keeps {s t : State} {rest : List Label} (h : s.Inv) (hf : s.fsm = .i3 :: rest) (ht : actAt .i3 s = .next t) :
    t.Inv := by
  have hA := h.at hf
  have hT := h.topAt hf
  refine finish_keeps (u := dirtyWrite true s) (r := .ok) hA (by decide) ⟨rfl, rfl, rfl, rfl, rfl, rfl, rfl, rfl, rfl⟩ rfl rfl rfl rfl hT.lines (.inr (by decide))
    (fun p => by
      subst p
      have hop : s.latch.op = 0x1#4 := List.mem_singleton.1 (show _ ∈ [0x1#4] from bottomOk_op hA.stack)
      refine fin_facts (show resultOf s.latch.op _ = true by rw [hop]; rfl) ?_ ?_ <;> simp [hop, trackerAfter, Result.isError]) (fun first hs hm hrun => ?_) ht
  simp only [List.mem_cons, List.not_mem_nil, or_false] at hs
  rcases hs with rfl | rfl | rfl | rfl | rfl | rfl | rfl | rfl <;> first | exact absurd hm (by decide) | exact .inl ⟨rfl, rfl⟩

theorem act_m1_keeps {s t : State} {rest : List Label} (h : s.Inv) (hf : s.fsm = .m1 :: rest) (ht : actAt .m1 s = .next t) :
    t.Inv := by
  have hA := h.at hf
  have hT := h.topAt hf
  cases ht
  exact goto_plain (hA.same ⟨rfl, rfl, rfl, rfl, rfl, rfl, rfl, rfl, rfl⟩ rfl rfl rfl rfl rfl) (by decide) (by decide) rfl hT.lines (fun _ => ⟨rfl, rfl, rfl, rfl⟩)

theorem act_m2_keeps {s t : State} {rest : List Label} (h : s.Inv) (hf : s.fsm = .m2 :: rest) (ht : actAt .m2 s = .next t) :
    t.Inv := by
  have hA := h.at hf
  have hT := h.topAt hf
  cases ht
  exact goto_plain (hA.same ⟨rfl, rfl, rfl, rfl, rfl, rfl, rfl, rfl, rfl⟩ rfl rfl rfl rfl rfl) (by decide) (by decide) rfl hT.lines (fun _ => ⟨rfl, rfl, rfl, rfl⟩)

theorem act_m3_keeps {s t : State} {rest : List Label} (h : s.Inv) (hf : s.fsm = .m3 :: rest) (ht : actAt .m3 s = .next t) :
    t.Inv := by
  have hA := h.at hf
  have hT := h.topAt hf
  cases ht
  exact goto_plain (hA.same ⟨rfl, rfl, rfl, rfl, rfl, rfl, rfl, rfl, rfl⟩ rfl rfl rfl h.interruptEnable.symm rfl) (by decide) (by decide) rfl hT.lines (fun _ => ⟨rfl, rfl, rfl, rfl⟩)

theorem act_m4_keeps {s t : State} {rest : List Label} (h : s.Inv) (hf : s.fsm = .m4 :: rest) (ht : actAt .m4 s = .next t) :
    t.Inv := by
  have hA := h.at hf
  have hT := h.topAt hf
  refine finish_keeps (u := ctlWriteCon .on true s) (r := .ok) hA (by decide) ⟨rfl, rfl, rfl, rfl, rfl, rfl, rfl, rfl, rfl⟩ rfl rfl rfl rfl hT.lines (.inl rfl)
    (fun p => by
      subst p
      have hop : s.latch.op = 0x2#4 := List.mem_singleton.1 (show _ ∈ [0x2#4] from bottomOk_op hA.stack)
      refine fin_facts (show resultOf s.latch.op _ = true by rw [hop]; rfl) ?_ ?_ <;> simp [hop, trackerAfter, Result.isError]) (fun first hs hm hrun => ?_) ht
  simp only [List.mem_cons, List.not_mem_nil, or_false] at hs
  rcases hs with rfl | rfl | rfl | rfl | rfl | rfl | rfl | rfl <;> first | exact absurd hm (by decide) | exact .inl ⟨rfl, rfl⟩

/-! ## CYCLE_ENABLE and IDLE_CHECK -/

theorem act_e1_keeps {s t : State} {rest : List Label} (h : s.Inv) (hf : s.fsm = .e1 :: rest) (ht : actAt .e1 s = .next t) :
    t.Inv := by
  have hA := h.at hf
  have hT := h.topAt hf
  cases ht
  exact goto_plain (hA.same ⟨rfl, rfl, rfl, rfl, rfl, rfl, rfl, rfl, rfl⟩ rfl rfl rfl rfl rfl) (by decide) (by decide) rfl hT.lines (fun _ => ⟨rfl, rfl, rfl, rfl⟩)

theorem act_e2_keeps {s t : State} {rest : List Label} (h : s.Inv) (hf : s.fsm = .e2 :: rest) (ht : actAt .e2 s = .next t) :
    t.Inv := by
  have hA := h.at hf
  have hT := h.topAt hf
  refine finish_keeps (u := ctlWriteCon .on true s) (r := .ok) hA (by decide) ⟨rfl, rfl, rfl, rfl, rfl, rfl, rfl, rfl, rfl⟩ rfl rfl rfl rfl hT.lines (.inl rfl)
    (fun p => by
      subst p
      exact absurd (show s.latch.op ∈ ([] : List (BitVec 4)) from bottomOk_op hA.stack) List.not_mem_nil) (fun first hs hm hrun => ?_) ht
  simp only [List.mem_cons, List.not_mem_nil, or_false] at hs
  rcases hs with rfl | rfl | rfl | rfl | rfl | rfl | rfl | rfl <;> first | exact absurd hm (by decide) | exact .inl ⟨rfl, rfl⟩

theorem act_q1_keeps {s t : State} {rest : List Label} (h : s.Inv) (hf : s.fsm = .q1 :: rest) (ht : actAt .q1 s = .next t) :
    t.Inv := by
  have hA := h.at hf
  have hT := h.topAt hf
  cases ht
  exact goto_plain (hA.same ⟨rfl, rfl, rfl, rfl, rfl, rfl, rfl, rfl, rfl⟩ rfl rfl rfl rfl rfl) (by decide) (by decide) rfl hT.lines (fun _ => ⟨rfl, rfl, rfl, rfl⟩)

theorem act_q2_keeps {s t : State} {rest : List Label} (h : s.Inv) (hf : s.fsm = .q2 :: rest) (ht : actAt .q2 s = .next t) :
    t.Inv := by
  have hA := h.at hf
  have hT := h.topAt hf
  by_cases hi : notIdle (ctlReadStat s).work.c (ctlReadStat s).work.s = true
  · rw [show actAt .q2 s = .next ((ctlReadStat s).goto .q3) from if_pos hi] at ht
    cases ht
    exact goto_plain (hA.same ⟨rfl, rfl, rfl, rfl, rfl, rfl, rfl, rfl, rfl⟩ rfl rfl rfl rfl rfl) (by decide) (by decide) rfl hT.lines (fun _ => ⟨rfl, rfl, rfl, rfl⟩)
  · rw [show actAt .q2 s = (ctlReadStat s).finish .ok from if_neg hi] at ht
    refine finish_keeps (u := ctlReadStat s) (r := .ok) hA (by decide) ⟨rfl, rfl, rfl, rfl, rfl, rfl, rfl, rfl, rfl⟩ rfl rfl rfl rfl hT.lines (.inl rfl)
      (fun p => by
        subst p
        exact absurd (show s.latch.op ∈ ([] : List (BitVec 4)) from bottomOk_op hA.stack) List.not_mem_nil) (fun first hs hm hrun => ?_) ht
    simp only [List.mem_cons, List.not_mem_nil, or_false] at hs
    rcases hs with rfl | rfl | rfl | rfl | rfl | rfl | rfl | rfl <;> first | exact absurd hm (by decide) | exact .inl ⟨rfl, rfl⟩

theorem act_q3_keeps {s t : State} {rest : List Label} (h : s.Inv) (hf : s.fsm = .q3 :: rest) (ht : actAt .q3 s = .next t) :
    t.Inv := by
  have hA := h.at hf
  have hT := h.topAt hf
  have hd : ∃ p, actAt .q3 s = (diag p s).finish .ok ∨ actAt .q3 s = .fault .noPosition := by
    show ∃ p, actQ3 s = _ ∨ actQ3 s = _
    unfold actQ3
    split
    · split
      · next p _ => exact ⟨p, .inl rfl⟩
      · exact ⟨.start, .inr rfl⟩
    · exact ⟨.start, .inr rfl⟩
  obtain ⟨p, hd | hd⟩ := hd <;> rw [hd] at ht
  · refine finish_keeps (u := diag p s) (r := .ok) hA (by decide) ⟨rfl, rfl, rfl, rfl, rfl, rfl, rfl, rfl, rfl⟩ rfl rfl rfl rfl hT.lines (.inl rfl)
      (fun p => by
        subst p
        exact absurd (show s.latch.op ∈ ([] : List (BitVec 4)) from bottomOk_op hA.stack) List.not_mem_nil) (fun first hs hm hrun => ?_) ht
    simp only [List.mem_cons, List.not_mem_nil, or_false] at hs
    rcases hs with rfl | rfl | rfl | rfl | rfl | rfl | rfl | rfl <;> first | exact absurd hm (by decide) | exact .inl ⟨rfl, rfl⟩
  · cases ht

theorem act_pf_keeps {s t : State} {rest : List Label} (h : s.Inv) (hf : s.fsm = .pf :: rest) (ht : actAt .pf s = .next t) :
    t.Inv := by
  have hA := h.at hf
  have hT := h.topAt hf
  have he : primError s.running s.work.e = true := hT.error
  refine finish_keeps (u := dirtyWrite true s) (r := s.work.e) hA (by decide) ⟨rfl, rfl, rfl, rfl, rfl, rfl, rfl, rfl, rfl⟩ rfl rfl rfl rfl hT.lines (.inr (by decide))
    (fun p => ?_) (fun first hs hm hrun => .inr ⟨?_, rfl⟩) ht
  · subst p
    simp only [State.running, hf] at he
    obtain ⟨h1, h2, h3, h4⟩ := primError_result he
    exact fin_facts h1 (by simp [trackerAfter, h2]) (by simp [h3, h4])
  · rw [hrun] at he
    revert he hm
    simp only [List.mem_cons, List.not_mem_nil, or_false] at hs
    rcases hs with rfl | rfl | rfl | rfl | rfl | rfl | rfl | rfl <;> first | exact fun h _ => h | exact fun _ h => absurd h (by decide)

/-! ## RECOVER -/

/-- The toggle loop goes on, or ends (R203). -/
theorem recoverLoop_keeps {u : State} {l : Label} {rest : List Label} (h : At u l rest) (hr : l.replacedBy .v6a = true)
    (hr' : l.replacedBy .v7 = true) (hl : l ≠ .fin) (hoff : u.con.on = false) (hlines : linesOk u.line .fin = true) :
    u.recoverLoop.Inv := by
  have hoff' : (!u.con.on) = true := by rw [hoff]; rfl
  unfold State.recoverLoop
  split
  · next hj => exact goto_keeps h hr hl (.inl ⟨rfl, decide_eq_true hj, hoff', hlines, rfl⟩) (fun _ => ⟨rfl, rfl, rfl, rfl⟩)
  · exact goto_keeps h hr' hl (.inl ⟨rfl, rfl, hoff', hlines, rfl⟩) (fun _ => ⟨rfl, rfl, rfl, rfl⟩)

/-- RECOVER fails: the controller stays off (R207). -/
theorem toVf_keeps {u : State} {l : Label} {rest : List Label} (h : At u l rest) (hr : l.replacedBy .vf = true)
    (hl : l ≠ .fin) (hoff : u.con.on = false) (hlines : linesOk u.line .fin = true) {e : Result}
    (he : e = .sclLow ∨ e = .sdaLow) : (u.toVf e).Inv := by
  have hoff' : (!u.con.on) = true := by rw [hoff]; rfl
  have hd : SameData u { u with work := { u.work with e := e } } := by constructor <;> rfl
  refine goto_keeps (l := l) (rest := rest) (h.same hd rfl rfl rfl rfl rfl) hr hl (.inl ?_) (fun _ => ⟨rfl, rfl, rfl, rfl⟩)
  exact ⟨rfl, rfl, hoff', hlines, by rcases he with rfl | rfl <;> rfl⟩

theorem act_v1_keeps {s t : State} {rest : List Label} (h : s.Inv) (hf : s.fsm = .v1 :: rest) (ht : actAt .v1 s = .next t) :
    t.Inv := by
  have hA := h.at hf
  have hT := h.topAt hf
  have hp := h.params
  cases ht
  refine goto_keeps (hA.same ⟨rfl, rfl, rfl, rfl, rfl, rfl, rfl, rfl, rfl⟩ rfl rfl rfl rfl rfl) (by decide) (by decide) (.inl ?_) (fun _ => ⟨rfl, rfl, rfl, rfl⟩)
  obtain ⟨t1, t2, t3, t4, t5⟩ := hT
  constructor <;> simp_all [pollOk, toggleOk, recoverOff, linesOk, errorOk, paramsPositive, Label.deepest, Label.opened, Label.callee, Con.set]

theorem act_v2_keeps {s t : State} {rest : List Label} (h : s.Inv) (hf : s.fsm = .v2 :: rest) (ht : actAt .v2 s = .next t) :
    t.Inv := by
  have hA := h.at hf
  have hT := h.topAt hf
  have hp := h.params
  cases ht
  refine goto_keeps (hA.same ⟨rfl, rfl, rfl, rfl, rfl, rfl, rfl, rfl, rfl⟩ rfl rfl rfl rfl rfl) (by decide) (by decide) (.inl ?_) (fun _ => ⟨rfl, rfl, rfl, rfl⟩)
  obtain ⟨t1, t2, t3, t4, t5⟩ := hT
  constructor <;> simp_all [pollOk, toggleOk, recoverOff, linesOk, errorOk, paramsPositive, Label.deepest, Label.opened, Label.callee]

theorem act_v3_keeps {s t : State} {rest : List Label} (h : s.Inv) (hf : s.fsm = .v3 :: rest) (ht : actAt .v3 s = .next t) :
    t.Inv := by
  have hA := h.at hf
  have hT := h.topAt hf
  have hp := h.params
  cases ht
  refine goto_keeps (hA.same ⟨rfl, rfl, rfl, rfl, rfl, rfl, rfl, rfl, rfl⟩ rfl rfl rfl rfl rfl) (by decide) (by decide) (.inl ?_) (fun _ => ⟨rfl, rfl, rfl, rfl⟩)
  obtain ⟨t1, t2, t3, t4, t5⟩ := hT
  constructor <;> simp_all [pollOk, toggleOk, recoverOff, linesOk, errorOk, paramsPositive, Label.deepest, Label.opened, Label.callee]

theorem act_v4_keeps {s t : State} {rest : List Label} (h : s.Inv) (hf : s.fsm = .v4 :: rest) (ht : actAt .v4 s = .next t) :
    t.Inv := by
  have hA := h.at hf
  have hT := h.topAt hf
  have hp := h.params
  cases ht
  refine goto_keeps (hA.same ⟨rfl, rfl, rfl, rfl, rfl, rfl, rfl, rfl, rfl⟩ rfl rfl rfl rfl rfl) (by decide) (by decide) (.inl ?_) (fun _ => ⟨rfl, rfl, rfl, rfl⟩)
  obtain ⟨t1, t2, t3, t4, t5⟩ := hT
  constructor <;> simp_all [pollOk, toggleOk, recoverOff, linesOk, errorOk, paramsPositive, Label.deepest, Label.opened, Label.callee]

theorem act_v6b_keeps {s t : State} {rest : List Label} (h : s.Inv) (hf : s.fsm = .v6b :: rest) (ht : actAt .v6b s = .next t) :
    t.Inv := by
  have hA := h.at hf
  have hT := h.topAt hf
  have hp := h.params
  cases ht
  refine goto_keeps (hA.same ⟨rfl, rfl, rfl, rfl, rfl, rfl, rfl, rfl, rfl⟩ rfl rfl rfl rfl rfl) (by decide) (by decide) (.inl ?_) (fun _ => ⟨rfl, rfl, rfl, rfl⟩)
  obtain ⟨t1, t2, t3, t4, t5⟩ := hT
  constructor <;> simp_all [pollOk, toggleOk, recoverOff, linesOk, errorOk, paramsPositive, Label.deepest, Label.opened, Label.callee]

theorem act_v6c_keeps {s t : State} {rest : List Label} (h : s.Inv) (hf : s.fsm = .v6c :: rest) (ht : actAt .v6c s = .next t) :
    t.Inv := by
  have hA := h.at hf
  have hT := h.topAt hf
  have hp := h.params
  cases ht
  refine goto_keeps (hA.same ⟨rfl, rfl, rfl, rfl, rfl, rfl, rfl, rfl, rfl⟩ rfl rfl rfl rfl rfl) (by decide) (by decide) (.inl ?_) (fun _ => ⟨rfl, rfl, rfl, rfl⟩)
  obtain ⟨t1, t2, t3, t4, t5⟩ := hT
  constructor <;> simp_all [pollOk, toggleOk, recoverOff, linesOk, errorOk, paramsPositive, Label.deepest, Label.opened, Label.callee]

theorem act_v6d_keeps {s t : State} {rest : List Label} (h : s.Inv) (hf : s.fsm = .v6d :: rest) (ht : actAt .v6d s = .next t) :
    t.Inv := by
  have hA := h.at hf
  have hT := h.topAt hf
  have hp := h.params
  cases ht
  refine goto_keeps (hA.same ⟨rfl, rfl, rfl, rfl, rfl, rfl, rfl, rfl, rfl⟩ rfl rfl rfl rfl rfl) (by decide) (by decide) (.inl ?_) (fun _ => ⟨rfl, rfl, rfl, rfl⟩)
  obtain ⟨t1, t2, t3, t4, t5⟩ := hT
  constructor <;> simp_all [pollOk, toggleOk, recoverOff, linesOk, errorOk, paramsPositive, Label.deepest, Label.opened, Label.callee]

theorem act_v7_keeps {s t : State} {rest : List Label} (h : s.Inv) (hf : s.fsm = .v7 :: rest) (ht : actAt .v7 s = .next t) :
    t.Inv := by
  have hA := h.at hf
  have hT := h.topAt hf
  have hp := h.params
  cases ht
  refine goto_keeps (hA.same ⟨rfl, rfl, rfl, rfl, rfl, rfl, rfl, rfl, rfl⟩ rfl rfl rfl rfl rfl) (by decide) (by decide) (.inl ?_) (fun _ => ⟨rfl, rfl, rfl, rfl⟩)
  obtain ⟨t1, t2, t3, t4, t5⟩ := hT
  constructor <;> simp_all [pollOk, toggleOk, recoverOff, linesOk, errorOk, paramsPositive, Label.deepest, Label.opened, Label.callee]

theorem act_v9_keeps {s t : State} {rest : List Label} (h : s.Inv) (hf : s.fsm = .v9 :: rest) (ht : actAt .v9 s = .next t) :
    t.Inv := by
  have hA := h.at hf
  have hT := h.topAt hf
  have hp := h.params
  cases ht
  refine goto_keeps (hA.same ⟨rfl, rfl, rfl, rfl, rfl, rfl, rfl, rfl, rfl⟩ rfl rfl rfl rfl rfl) (by decide) (by decide) (.inl ?_) (fun _ => ⟨rfl, rfl, rfl, rfl⟩)
  obtain ⟨t1, t2, t3, t4, t5⟩ := hT
  constructor <;> simp_all [pollOk, toggleOk, recoverOff, linesOk, errorOk, paramsPositive, Label.deepest, Label.opened, Label.callee]

theorem act_v10_keeps {s t : State} {rest : List Label} (h : s.Inv) (hf : s.fsm = .v10 :: rest) (ht : actAt .v10 s = .next t) :
    t.Inv := by
  have hA := h.at hf
  have hT := h.topAt hf
  have hp := h.params
  cases ht
  refine goto_keeps (hA.same ⟨rfl, rfl, rfl, rfl, rfl, rfl, rfl, rfl, rfl⟩ rfl rfl rfl rfl rfl) (by decide) (by decide) (.inl ?_) (fun _ => ⟨rfl, rfl, rfl, rfl⟩)
  obtain ⟨t1, t2, t3, t4, t5⟩ := hT
  constructor <;> simp_all [pollOk, toggleOk, recoverOff, linesOk, errorOk, paramsPositive, Label.deepest, Label.opened, Label.callee]

theorem act_v11_keeps {s t : State} {rest : List Label} (h : s.Inv) (hf : s.fsm = .v11 :: rest) (ht : actAt .v11 s = .next t) :
    t.Inv := by
  have hA := h.at hf
  have hT := h.topAt hf
  have hp := h.params
  cases ht
  refine goto_keeps (hA.same ⟨rfl, rfl, rfl, rfl, rfl, rfl, rfl, rfl, rfl⟩ rfl rfl rfl rfl rfl) (by decide) (by decide) (.inl ?_) (fun _ => ⟨rfl, rfl, rfl, rfl⟩)
  obtain ⟨t1, t2, t3, t4, t5⟩ := hT
  constructor <;> simp_all [pollOk, toggleOk, recoverOff, linesOk, errorOk, paramsPositive, Label.deepest, Label.opened, Label.callee]

theorem act_v12_keeps {s t : State} {rest : List Label} (h : s.Inv) (hf : s.fsm = .v12 :: rest) (ht : actAt .v12 s = .next t) :
    t.Inv := by
  have hA := h.at hf
  have hT := h.topAt hf
  have hp := h.params
  cases ht
  refine goto_keeps (hA.same ⟨rfl, rfl, rfl, rfl, rfl, rfl, rfl, rfl, rfl⟩ rfl rfl rfl rfl rfl) (by decide) (by decide) (.inl ?_) (fun _ => ⟨rfl, rfl, rfl, rfl⟩)
  obtain ⟨t1, t2, t3, t4, t5⟩ := hT
  constructor <;> simp_all [pollOk, toggleOk, recoverOff, linesOk, errorOk, paramsPositive, Label.deepest, Label.opened, Label.callee]

theorem act_v13_keeps {s t : State} {rest : List Label} (h : s.Inv) (hf : s.fsm = .v13 :: rest) (ht : actAt .v13 s = .next t) :
    t.Inv := by
  have hA := h.at hf
  have hT := h.topAt hf
  have hp := h.params
  cases ht
  refine goto_keeps (hA.same ⟨rfl, rfl, rfl, rfl, rfl, rfl, rfl, rfl, rfl⟩ rfl rfl rfl rfl rfl) (by decide) (by decide) (.inl ?_) (fun _ => ⟨rfl, rfl, rfl, rfl⟩)
  obtain ⟨t1, t2, t3, t4, t5⟩ := hT
  constructor <;> simp_all [pollOk, toggleOk, recoverOff, linesOk, errorOk, paramsPositive, Label.deepest, Label.opened, Label.callee]

theorem act_v15_keeps {s t : State} {rest : List Label} (h : s.Inv) (hf : s.fsm = .v15 :: rest) (ht : actAt .v15 s = .next t) :
    t.Inv := by
  have hA := h.at hf
  have hT := h.topAt hf
  cases ht
  exact goto_plain (hA.same ⟨rfl, rfl, rfl, rfl, rfl, rfl, rfl, rfl, rfl⟩ rfl rfl rfl rfl rfl) (by decide) (by decide) rfl hT.lines (fun _ => ⟨rfl, rfl, rfl, rfl⟩)

theorem act_v5_keeps {s t : State} {rest : List Label} (h : s.Inv) (hf : s.fsm = .v5 :: rest) (ht : actAt .v5 s = .next t) :
    t.Inv := by
  have hA := h.at hf
  have hT := h.topAt hf
  have hoff : s.con.on = false := by simpa [recoverOff] using hT.off
  cases ht
  split
  · exact recoverLoop_keeps (u := (lineSense .scl s).startToggles) (hA.same ⟨rfl, rfl, rfl, rfl, rfl, rfl, rfl, rfl, rfl⟩ rfl rfl rfl rfl rfl) (by decide) (by decide) (by decide) hoff hT.lines
  · exact toVf_keeps (u := lineSense .scl s) (hA.same ⟨rfl, rfl, rfl, rfl, rfl, rfl, rfl, rfl, rfl⟩ rfl rfl rfl rfl rfl) (by decide) (by decide) hoff hT.lines (.inl rfl)

theorem act_v6a_keeps {s t : State} {rest : List Label} (h : s.Inv) (hf : s.fsm = .v6a :: rest) (ht : actAt .v6a s = .next t) :
    t.Inv := by
  have hA := h.at hf
  have hT := h.topAt hf
  have hoff : s.con.on = false := by simpa [recoverOff] using hT.off
  cases ht
  split
  · exact recoverLoop_keeps (u := (lineSense .sda s).nextToggle) (hA.same ⟨rfl, rfl, rfl, rfl, rfl, rfl, rfl, rfl, rfl⟩ rfl rfl rfl rfl rfl) (by decide) (by decide) (by decide) hoff hT.lines
  · refine goto_keeps (u := lineSense .sda s) (hA.same ⟨rfl, rfl, rfl, rfl, rfl, rfl, rfl, rfl, rfl⟩ rfl rfl rfl rfl rfl) (by decide) (by decide) (.inl ?_) (fun _ => ⟨rfl, rfl, rfl, rfl⟩)
    exact ⟨rfl, hT.toggle, hT.off, hT.lines, rfl⟩

theorem act_v6e_keeps {s t : State} {rest : List Label} (h : s.Inv) (hf : s.fsm = .v6e :: rest) (ht : actAt .v6e s = .next t) :
    t.Inv := by
  have hA := h.at hf
  have hT := h.topAt hf
  have hoff : s.con.on = false := by simpa [recoverOff] using hT.off
  cases ht
  exact recoverLoop_keeps (u := (delay s).nextToggle) (hA.same ⟨rfl, rfl, rfl, rfl, rfl, rfl, rfl, rfl, rfl⟩ rfl rfl rfl rfl rfl) (by decide) (by decide) (by decide) hoff hT.lines

theorem act_v8_keeps {s t : State} {rest : List Label} (h : s.Inv) (hf : s.fsm = .v8 :: rest) (ht : actAt .v8 s = .next t) :
    t.Inv := by
  have hA := h.at hf
  have hT := h.topAt hf
  have hoff : s.con.on = false := by simpa [recoverOff] using hT.off
  cases ht
  split
  · refine goto_keeps (u := lineSense .sda s) (hA.same ⟨rfl, rfl, rfl, rfl, rfl, rfl, rfl, rfl, rfl⟩ rfl rfl rfl rfl rfl) (by decide) (by decide) (.inl ?_) (fun _ => ⟨rfl, rfl, rfl, rfl⟩)
    exact ⟨rfl, rfl, hT.off, hT.lines, rfl⟩
  · exact toVf_keeps (u := lineSense .sda s) (hA.same ⟨rfl, rfl, rfl, rfl, rfl, rfl, rfl, rfl, rfl⟩ rfl rfl rfl rfl rfl) (by decide) (by decide) hoff hT.lines (.inr rfl)

theorem act_v14_keeps {s t : State} {rest : List Label} (h : s.Inv) (hf : s.fsm = .v14 :: rest) (ht : actAt .v14 s = .next t) :
    t.Inv := by
  have hA := h.at hf
  have hT := h.topAt hf
  have hoff : s.con.on = false := by simpa [recoverOff] using hT.off
  cases ht
  split
  · exact toVf_keeps (u := lineSense .sda s) (hA.same ⟨rfl, rfl, rfl, rfl, rfl, rfl, rfl, rfl, rfl⟩ rfl rfl rfl rfl rfl) (by decide) (by decide) hoff hT.lines (.inl rfl)
  · split
    · exact toVf_keeps (u := lineSense .sda s) (hA.same ⟨rfl, rfl, rfl, rfl, rfl, rfl, rfl, rfl, rfl⟩ rfl rfl rfl rfl rfl) (by decide) (by decide) hoff hT.lines (.inr rfl)
    · refine goto_keeps (u := lineSense .sda s) (hA.same ⟨rfl, rfl, rfl, rfl, rfl, rfl, rfl, rfl, rfl⟩ rfl rfl rfl rfl rfl) (by decide) (by decide) (.inl ?_) (fun _ => ⟨rfl, rfl, rfl, rfl⟩)
      exact ⟨rfl, rfl, hT.off, hT.lines, rfl⟩

theorem act_v16_keeps {s t : State} {rest : List Label} (h : s.Inv) (hf : s.fsm = .v16 :: rest) (ht : actAt .v16 s = .next t) :
    t.Inv := by
  have hA := h.at hf
  have hT := h.topAt hf
  refine finish_keeps (u := dirtyWrite false s) (r := .ok) hA (by decide) ⟨rfl, rfl, rfl, rfl, rfl, rfl, rfl, rfl, rfl⟩ rfl rfl rfl rfl hT.lines (.inr (by decide))
    (fun p => by
      subst p
      have hop : s.latch.op = 0xB#4 := List.mem_singleton.1 (show _ ∈ [0xB#4] from bottomOk_op hA.stack)
      refine fin_facts (show resultOf s.latch.op _ = true by rw [hop]; rfl) ?_ ?_ <;> simp [hop, trackerAfter, Result.isError]) (fun first hs hm hrun => ?_) ht
  simp only [List.mem_cons, List.not_mem_nil, or_false] at hs
  rcases hs with rfl | rfl | rfl | rfl | rfl | rfl | rfl | rfl <;> first | exact absurd hm (by decide) | exact .inl ⟨rfl, rfl⟩

theorem act_vf_keeps {s t : State} {rest : List Label} (h : s.Inv) (hf : s.fsm = .vf :: rest) (ht : actAt .vf s = .next t) :
    t.Inv := by
  have hA := h.at hf
  have hT := h.topAt hf
  have he : s.work.e = .sclLow ∨ s.work.e = .sdaLow := by simpa [errorOk] using hT.error
  refine finish_keeps (u := dirtyWrite true s) (r := s.work.e) hA (by decide) ⟨rfl, rfl, rfl, rfl, rfl, rfl, rfl, rfl, rfl⟩ rfl rfl rfl rfl hT.lines (.inr (by decide))
    (fun p => ?_) (fun first hs hm _ => .inr ⟨?_, rfl⟩) ht
  · subst p
    have hop : s.latch.op = 0xB#4 := List.mem_singleton.1 (show _ ∈ [0xB#4] from bottomOk_op hA.stack)
    refine fin_facts ?_ ?_ ?_ <;> rcases he with he | he <;> simp [hop, he, trackerAfter, Result.isError, resultOf]
  · simp only [List.mem_cons, List.not_mem_nil, or_false] at hs
    rcases hs with rfl | rfl | rfl | rfl | rfl | rfl | rfl | rfl <;>
      first | exact absurd hm (by decide) | (rcases he with he | he <;> rw [he] <;> rfl)

/-! ## The primitives -/

/-- The operation that runs, read off a label that belongs to one operation alone. -/
theorem At.running_eq {u : State} {l f : Label} {rest : List Label} (h : At u l rest) (hl : l ≠ .fin)
    (hu : ∀ g ∈ Label.firsts, l ∈ g.body → g = f) : u.running = f :=
  hu _ (Label.first_of_body (h.running hl)) (h.running hl)

/-- One read of a bounded poll keeps the invariant (R228). -/
theorem pollUntil_keeps {s : State} {l m : Label} {rest : List Label} {read : State → State} {done : State → Bool} {n : Nat}
    {e : Result} (h : At (read s).countPoll l rest) (hl : l ∈ [Label.s4, .g4, .t4, .b6, .w4, .b4])
    (hlines : linesOk (read s).countPoll.line .fin = true) (hm : l.replacedBy m = true) (hp : m.plain = true)
    (he : primError (read s).countPoll.running e = true)
    (hk : (read s).countPoll.work.k ≠ n → pollOk (read s).countPoll.params (read s).countPoll.work.k l = true)
    (hown : rest = [] → (read s).countPoll.OwnFacts l ∧ (read s).countPoll.OwnFacts m) :
    (pollUntil read done n (State.goto m) (State.toPf e) s).Inv := by
  generalize hu : (read s).countPoll = u at *
  have hl' : l ≠ .fin ∧ l.replacedBy .pf = true ∧ topOk (l :: rest) = true ∧ l ∈ [Label.s4, .g4, .t4, .b6, .w4, .b4] := by
    simp only [List.mem_cons, List.not_mem_nil, or_false] at hl
    rcases hl with rfl | rfl | rfl | rfl | rfl | rfl <;> exact ⟨by decide, by decide, rfl, by decide⟩
  obtain ⟨h1, h2, h3, h4⟩ := hl'
  unfold pollUntil
  rw [hu]
  dsimp only
  split
  · exact goto_plain h hm h1 hp hlines (fun hr => (hown hr).2)
  · split
    · exact toPf_keeps h h2 h1 hlines he
    · next hne =>
      refine ⟨h.params, by rw [State.BusyOk, h.busy, h.fsm]; rfl, ⟨by rw [h.fsm]; exact h.stack, by rw [h.fsm]; exact h3⟩,
        h.memory, h.interruptEnable, h.cap, ?_, ?_⟩
      · rw [State.top, h.fsm]
        refine ⟨hk hne, ?_, ?_, ?_, ?_⟩ <;> simp only [List.mem_cons, List.not_mem_nil, or_false] at h4 <;>
          rcases h4 with rfl | rfl | rfl | rfl | rfl | rfl <;> first | rfl | exact hlines
      · intro _
        rw [State.bottom, h.fsm]
        cases rest with
        | nil => exact (hown rfl).1
        | cons c rest => simpa using h.below (by simp)

theorem act_s2_keeps {s t : State} {rest : List Label} (h : s.Inv) (hf : s.fsm = .s2 :: rest) (ht : actAt .s2 s = .next t) :
    t.Inv := by
  have hA := h.at hf
  have hT := h.topAt hf
  cases ht
  exact goto_plain (hA.same ⟨rfl, rfl, rfl, rfl, rfl, rfl, rfl, rfl, rfl⟩ rfl rfl rfl rfl rfl) (by decide) (by decide) rfl hT.lines (fun _ => ⟨rfl, rfl, rfl, rfl⟩)

theorem act_s3_keeps {s t : State} {rest : List Label} (h : s.Inv) (hf : s.fsm = .s3 :: rest) (ht : actAt .s3 s = .next t) :
    t.Inv := by
  have hA := h.at hf
  have hT := h.topAt hf
  have hp := h.params
  cases ht
  unfold firstCheck
  split
  · exact goto_plain (u := ctlReadStat s) (hA.same ⟨rfl, rfl, rfl, rfl, rfl, rfl, rfl, rfl, rfl⟩ rfl rfl rfl rfl rfl) (by decide) (by decide) rfl hT.lines (fun _ => ⟨rfl, rfl, rfl, rfl⟩)
  · refine goto_keeps (u := (ctlReadStat s).startPoll) (hA.same ⟨rfl, rfl, rfl, rfl, rfl, rfl, rfl, rfl, rfl⟩ rfl rfl rfl rfl rfl) (by decide) (by decide) (.inl ?_) (fun _ => ⟨rfl, rfl, rfl, rfl⟩)
    exact ⟨decide_eq_true hp.1, rfl, rfl, hT.lines, rfl⟩

theorem act_s4_keeps {s t : State} {rest : List Label} (h : s.Inv) (hf : s.fsm = .s4 :: rest) (ht : actAt .s4 s = .next t) :
    t.Inv := by
  have hA := h.at hf
  have hT := h.topAt hf
  have hk : s.work.k < s.params.nCtl := by simpa [pollOk] using hT.poll
  cases ht
  refine pollUntil_keeps (hA.same ⟨rfl, rfl, rfl, rfl, rfl, rfl, rfl, rfl, rfl⟩ rfl rfl rfl rfl rfl) (by decide) hT.lines (by decide) rfl (by rw [(At.running_eq (u := (ctlReadCon s).countPoll) (hA.same ⟨rfl, rfl, rfl, rfl, rfl, rfl, rfl, rfl, rfl⟩ rfl rfl rfl rfl rfl) (by decide) (by decide) : State.running ((ctlReadCon s).countPoll) = .s1)]; rfl) ?_
    (fun _ => ⟨⟨rfl, rfl, rfl, rfl⟩, ⟨rfl, rfl, rfl, rfl⟩⟩)
  intro hne
  simp only [countPoll_work, ctlReadCon_work, countPoll_params, ctlReadCon_params] at hne ⊢
  exact decide_eq_true (by omega)

theorem act_s5_keeps {s t : State} {rest : List Label} (h : s.Inv) (hf : s.fsm = .s5 :: rest) (ht : actAt .s5 s = .next t) :
    t.Inv := by
  have hA := h.at hf
  have hT := h.topAt hf
  by_cases hc : (ctlReadStat s).work.s.busCollided = true
  · rw [show actAt .s5 s = .next ((ctlReadStat s).goto .sc) from if_pos hc] at ht
    cases ht
    exact goto_plain (u := ctlReadStat s) (hA.same ⟨rfl, rfl, rfl, rfl, rfl, rfl, rfl, rfl, rfl⟩ rfl rfl rfl rfl rfl) (by decide) (by decide) rfl hT.lines (fun _ => ⟨rfl, rfl, rfl, rfl⟩)
  · rw [show actAt .s5 s = (ctlReadStat s).finish .ok from if_neg hc] at ht
    refine finish_keeps (u := ctlReadStat s) (r := .ok) hA (by decide) ⟨rfl, rfl, rfl, rfl, rfl, rfl, rfl, rfl, rfl⟩ rfl rfl rfl rfl hT.lines (.inl rfl)
      (fun p => by
        subst p
        have hop : s.latch.op = 0x8#4 := List.mem_singleton.1 (show _ ∈ [0x8#4] from bottomOk_op hA.stack)
        refine fin_facts (show resultOf s.latch.op _ = true by rw [hop]; rfl) ?_ ?_ <;> simp [hop, trackerAfter, Result.isError]) (fun first hs hm hrun => ?_) ht
    simp only [List.mem_cons, List.not_mem_nil, or_false] at hs
    rcases hs with rfl | rfl | rfl | rfl | rfl | rfl | rfl | rfl <;> first | exact absurd hm (by decide) | exact .inl ⟨rfl, rfl⟩

theorem act_g2_keeps {s t : State} {rest : List Label} (h : s.Inv) (hf : s.fsm = .g2 :: rest) (ht : actAt .g2 s = .next t) :
    t.Inv := by
  have hA := h.at hf
  have hT := h.topAt hf
  cases ht
  exact goto_plain (hA.same ⟨rfl, rfl, rfl, rfl, rfl, rfl, rfl, rfl, rfl⟩ rfl rfl rfl rfl rfl) (by decide) (by decide) rfl hT.lines (fun _ => ⟨rfl, rfl, rfl, rfl⟩)

theorem act_g3_keeps {s t : State} {rest : List Label} (h : s.Inv) (hf : s.fsm = .g3 :: rest) (ht : actAt .g3 s = .next t) :
    t.Inv := by
  have hA := h.at hf
  have hT := h.topAt hf
  have hp := h.params
  cases ht
  unfold firstCheck
  split
  · exact goto_plain (u := ctlReadStat s) (hA.same ⟨rfl, rfl, rfl, rfl, rfl, rfl, rfl, rfl, rfl⟩ rfl rfl rfl rfl rfl) (by decide) (by decide) rfl hT.lines (fun _ => ⟨rfl, rfl, rfl, rfl⟩)
  · refine goto_keeps (u := (ctlReadStat s).startPoll) (hA.same ⟨rfl, rfl, rfl, rfl, rfl, rfl, rfl, rfl, rfl⟩ rfl rfl rfl rfl rfl) (by decide) (by decide) (.inl ?_) (fun _ => ⟨rfl, rfl, rfl, rfl⟩)
    exact ⟨decide_eq_true hp.1, rfl, rfl, hT.lines, rfl⟩

theorem act_g4_keeps {s t : State} {rest : List Label} (h : s.Inv) (hf : s.fsm = .g4 :: rest) (ht : actAt .g4 s = .next t) :
    t.Inv := by
  have hA := h.at hf
  have hT := h.topAt hf
  have hk : s.work.k < s.params.nCtl := by simpa [pollOk] using hT.poll
  cases ht
  refine pollUntil_keeps (hA.same ⟨rfl, rfl, rfl, rfl, rfl, rfl, rfl, rfl, rfl⟩ rfl rfl rfl rfl rfl) (by decide) hT.lines (by decide) rfl (by rw [(At.running_eq (u := (ctlReadCon s).countPoll) (hA.same ⟨rfl, rfl, rfl, rfl, rfl, rfl, rfl, rfl, rfl⟩ rfl rfl rfl rfl rfl) (by decide) (by decide) : State.running ((ctlReadCon s).countPoll) = .g1)]; rfl) ?_
    (fun _ => ⟨⟨rfl, rfl, rfl, rfl⟩, ⟨rfl, rfl, rfl, rfl⟩⟩)
  intro hne
  simp only [countPoll_work, ctlReadCon_work, countPoll_params, ctlReadCon_params] at hne ⊢
  exact decide_eq_true (by omega)

theorem act_g5_keeps {s t : State} {rest : List Label} (h : s.Inv) (hf : s.fsm = .g5 :: rest) (ht : actAt .g5 s = .next t) :
    t.Inv := by
  have hA := h.at hf
  have hT := h.topAt hf
  by_cases hc : (ctlReadStat s).work.s.busCollided = true
  · rw [show actAt .g5 s = .next ((ctlReadStat s).goto .gc) from if_pos hc] at ht
    cases ht
    exact goto_plain (u := ctlReadStat s) (hA.same ⟨rfl, rfl, rfl, rfl, rfl, rfl, rfl, rfl, rfl⟩ rfl rfl rfl rfl rfl) (by decide) (by decide) rfl hT.lines (fun _ => ⟨rfl, rfl, rfl, rfl⟩)
  · rw [show actAt .g5 s = (ctlReadStat s).finish .ok from if_neg hc] at ht
    refine finish_keeps (u := ctlReadStat s) (r := .ok) hA (by decide) ⟨rfl, rfl, rfl, rfl, rfl, rfl, rfl, rfl, rfl⟩ rfl rfl rfl rfl hT.lines (.inl rfl)
      (fun p => by
        subst p
        have hop : s.latch.op = 0x9#4 := List.mem_singleton.1 (show _ ∈ [0x9#4] from bottomOk_op hA.stack)
        refine fin_facts (show resultOf s.latch.op _ = true by rw [hop]; rfl) ?_ ?_ <;> simp [hop, trackerAfter, Result.isError]) (fun first hs hm hrun => ?_) ht
    simp only [List.mem_cons, List.not_mem_nil, or_false] at hs
    rcases hs with rfl | rfl | rfl | rfl | rfl | rfl | rfl | rfl <;> first | exact absurd hm (by decide) | exact .inl ⟨rfl, rfl⟩

theorem act_t2_keeps {s t : State} {rest : List Label} (h : s.Inv) (hf : s.fsm = .t2 :: rest) (ht : actAt .t2 s = .next t) :
    t.Inv := by
  have hA := h.at hf
  have hT := h.topAt hf
  cases ht
  exact goto_plain (hA.same ⟨rfl, rfl, rfl, rfl, rfl, rfl, rfl, rfl, rfl⟩ rfl rfl rfl rfl rfl) (by decide) (by decide) rfl hT.lines (fun _ => ⟨rfl, rfl, rfl, rfl⟩)

theorem act_t3_keeps {s t : State} {rest : List Label} (h : s.Inv) (hf : s.fsm = .t3 :: rest) (ht : actAt .t3 s = .next t) :
    t.Inv := by
  have hA := h.at hf
  have hT := h.topAt hf
  have hp := h.params
  cases ht
  unfold firstCheck
  split
  · exact goto_plain (u := ctlReadStat s) (hA.same ⟨rfl, rfl, rfl, rfl, rfl, rfl, rfl, rfl, rfl⟩ rfl rfl rfl rfl rfl) (by decide) (by decide) rfl hT.lines (fun _ => ⟨rfl, rfl, rfl, rfl⟩)
  · refine goto_keeps (u := (ctlReadStat s).startPoll) (hA.same ⟨rfl, rfl, rfl, rfl, rfl, rfl, rfl, rfl, rfl⟩ rfl rfl rfl rfl rfl) (by decide) (by decide) (.inl ?_) (fun _ => ⟨rfl, rfl, rfl, rfl⟩)
    exact ⟨decide_eq_true hp.1, rfl, rfl, hT.lines, rfl⟩

theorem act_t4_keeps {s t : State} {rest : List Label} (h : s.Inv) (hf : s.fsm = .t4 :: rest) (ht : actAt .t4 s = .next t) :
    t.Inv := by
  have hA := h.at hf
  have hT := h.topAt hf
  have hk : s.work.k < s.params.nCtl := by simpa [pollOk] using hT.poll
  cases ht
  refine pollUntil_keeps (hA.same ⟨rfl, rfl, rfl, rfl, rfl, rfl, rfl, rfl, rfl⟩ rfl rfl rfl rfl rfl) (by decide) hT.lines (by decide) rfl (by rw [(At.running_eq (u := (ctlReadCon s).countPoll) (hA.same ⟨rfl, rfl, rfl, rfl, rfl, rfl, rfl, rfl, rfl⟩ rfl rfl rfl rfl rfl) (by decide) (by decide) : State.running ((ctlReadCon s).countPoll) = .t1)]; rfl) ?_
    (fun _ => ⟨⟨rfl, rfl, rfl, rfl⟩, ⟨rfl, rfl, rfl, rfl⟩⟩)
  intro hne
  simp only [countPoll_work, ctlReadCon_work, countPoll_params, ctlReadCon_params] at hne ⊢
  exact decide_eq_true (by omega)

theorem act_t5_keeps {s t : State} {rest : List Label} (h : s.Inv) (hf : s.fsm = .t5 :: rest) (ht : actAt .t5 s = .next t) :
    t.Inv := by
  have hA := h.at hf
  have hT := h.topAt hf
  by_cases hc : (ctlReadStat s).work.s.busCollided = true
  · rw [show actAt .t5 s = .next ((ctlReadStat s).goto .tc) from if_pos hc] at ht
    cases ht
    exact goto_plain (u := ctlReadStat s) (hA.same ⟨rfl, rfl, rfl, rfl, rfl, rfl, rfl, rfl, rfl⟩ rfl rfl rfl rfl rfl) (by decide) (by decide) rfl hT.lines (fun _ => ⟨rfl, rfl, rfl, rfl⟩)
  · rw [show actAt .t5 s = (ctlReadStat s).finish .ok from if_neg hc] at ht
    refine finish_keeps (u := ctlReadStat s) (r := .ok) hA (by decide) ⟨rfl, rfl, rfl, rfl, rfl, rfl, rfl, rfl, rfl⟩ rfl rfl rfl rfl hT.lines (.inl rfl)
      (fun p => by
        subst p
        have hop : s.latch.op = 0xA#4 := List.mem_singleton.1 (show _ ∈ [0xA#4] from bottomOk_op hA.stack)
        refine fin_facts (show resultOf s.latch.op _ = true by rw [hop]; rfl) ?_ ?_ <;> simp [hop, trackerAfter, Result.isError]) (fun first hs hm hrun => ?_) ht
    simp only [List.mem_cons, List.not_mem_nil, or_false] at hs
    rcases hs with rfl | rfl | rfl | rfl | rfl | rfl | rfl | rfl <;> first | exact absurd hm (by decide) | exact .inl ⟨rfl, rfl⟩

theorem act_w2_keeps {s t : State} {rest : List Label} (h : s.Inv) (hf : s.fsm = .w2 :: rest) (ht : actAt .w2 s = .next t) :
    t.Inv := by
  have hA := h.at hf
  have hT := h.topAt hf
  have hO : rest = [] → s.operandsOk .w2 = true := fun hr => (h.ownAt (by rw [hf, hr])).operands
  cases ht
  split
  · exact toPf_keeps (u := ctlReadStat s) (hA.same ⟨rfl, rfl, rfl, rfl, rfl, rfl, rfl, rfl, rfl⟩ rfl rfl rfl rfl rfl) (by decide) (by decide) hT.lines (by rw [(At.running_eq (u := ctlReadStat s) (hA.same ⟨rfl, rfl, rfl, rfl, rfl, rfl, rfl, rfl, rfl⟩ rfl rfl rfl rfl rfl) (by decide) (by decide) : State.running (ctlReadStat s) = .w1)]; rfl)
  · exact goto_plain (u := ctlReadStat s) (hA.same ⟨rfl, rfl, rfl, rfl, rfl, rfl, rfl, rfl, rfl⟩ rfl rfl rfl rfl rfl) (by decide) (by decide) rfl hT.lines (fun hr => ⟨rfl, rfl, rfl, hO hr⟩)

theorem act_w3_keeps {s t : State} {rest : List Label} (h : s.Inv) (hf : s.fsm = .w3 :: rest) (ht : actAt .w3 s = .next t) :
    t.Inv := by
  have hA := h.at hf
  have hT := h.topAt hf
  have hO : rest = [] → s.operandsOk .w3 = true := fun hr => (h.ownAt (by rw [hf, hr])).operands
  have hp := h.params
  cases ht
  refine goto_keeps (u := (ctlWriteTrn s.work.v s).startPoll) (hA.same ⟨rfl, rfl, rfl, rfl, rfl, rfl, rfl, rfl, rfl⟩ rfl rfl rfl rfl rfl) (by decide) (by decide) (.inl ?_) (fun hr => ⟨rfl, rfl, rfl, hO hr⟩)
  exact ⟨decide_eq_true hp.2.1, rfl, rfl, hT.lines, rfl⟩

theorem act_w4_keeps {s t : State} {rest : List Label} (h : s.Inv) (hf : s.fsm = .w4 :: rest) (ht : actAt .w4 s = .next t) :
    t.Inv := by
  have hA := h.at hf
  have hT := h.topAt hf
  have hO : rest = [] → s.operandsOk .w4 = true := fun hr => (h.ownAt (by rw [hf, hr])).operands
  have hk : s.work.k < s.params.nXfer := by simpa [pollOk] using hT.poll
  cases ht
  refine pollUntil_keeps (hA.same ⟨rfl, rfl, rfl, rfl, rfl, rfl, rfl, rfl, rfl⟩ rfl rfl rfl rfl rfl) (by decide) hT.lines (by decide) rfl (by rw [(At.running_eq (u := (ctlReadStat s).countPoll) (hA.same ⟨rfl, rfl, rfl, rfl, rfl, rfl, rfl, rfl, rfl⟩ rfl rfl rfl rfl rfl) (by decide) (by decide) : State.running ((ctlReadStat s).countPoll) = .w1)]; rfl) ?_
    (fun hr => ⟨⟨rfl, rfl, rfl, hO hr⟩, ⟨rfl, rfl, rfl, hO hr⟩⟩)
  intro hne
  simp only [countPoll_work, ctlReadStat_work, countPoll_params, ctlReadStat_params] at hne ⊢
  exact decide_eq_true (by omega)

theorem act_w5_keeps {s t : State} {rest : List Label} (h : s.Inv) (hf : s.fsm = .w5 :: rest) (ht : actAt .w5 s = .next t) :
    t.Inv := by
  have hA := h.at hf
  have hT := h.topAt hf
  have hO : rest = [] → s.operandsOk .w5 = true := fun hr => (h.ownAt (by rw [hf, hr])).operands
  by_cases hc : (ctlReadStat s).work.s.writeCollided = true
  · rw [show actAt .w5 s = .next ((ctlReadStat s).goto .wc) from if_pos hc] at ht
    cases ht
    exact goto_plain (u := ctlReadStat s) (hA.same ⟨rfl, rfl, rfl, rfl, rfl, rfl, rfl, rfl, rfl⟩ rfl rfl rfl rfl rfl) (by decide) (by decide) rfl hT.lines (fun hr => ⟨rfl, rfl, rfl, hO hr⟩)
  · by_cases ha : (ctlReadStat s).work.s.ackstat = true
    · rw [show actAt .w5 s = .next ((ctlReadStat s).toPf .nak) from (if_neg hc).trans (if_pos ha)] at ht
      cases ht
      exact toPf_keeps (u := ctlReadStat s) (hA.same ⟨rfl, rfl, rfl, rfl, rfl, rfl, rfl, rfl, rfl⟩ rfl rfl rfl rfl rfl) (by decide) (by decide) hT.lines (by rw [(At.running_eq (u := ctlReadStat s) (hA.same ⟨rfl, rfl, rfl, rfl, rfl, rfl, rfl, rfl, rfl⟩ rfl rfl rfl rfl rfl) (by decide) (by decide) : State.running (ctlReadStat s) = .w1)]; rfl)
    · rw [show actAt .w5 s = (ctlReadStat s).finish .ack from (if_neg hc).trans (if_neg ha)] at ht
      refine finish_keeps (u := ctlReadStat s) (r := .ack) hA (by decide) ⟨rfl, rfl, rfl, rfl, rfl, rfl, rfl, rfl, rfl⟩ rfl rfl rfl rfl hT.lines (.inl rfl)
        (fun p => by
          subst p
          have hop : s.latch.op = 0x6#4 := List.mem_singleton.1 (show _ ∈ [0x6#4] from bottomOk_op hA.stack)
          refine fin_facts (show resultOf s.latch.op _ = true by rw [hop]; rfl) ?_ ?_ <;> simp [hop, trackerAfter, Result.isError]) (fun first hs hm hrun => ?_) ht
      simp only [List.mem_cons, List.not_mem_nil, or_false] at hs
      rcases hs with rfl | rfl | rfl | rfl | rfl | rfl | rfl | rfl <;> first | exact absurd hm (by decide) | exact .inl ⟨rfl, rfl⟩

theorem act_b2_keeps {s t : State} {rest : List Label} (h : s.Inv) (hf : s.fsm = .b2 :: rest) (ht : actAt .b2 s = .next t) :
    t.Inv := by
  have hA := h.at hf
  have hT := h.topAt hf
  have hO : rest = [] → s.operandsOk .b2 = true := fun hr => (h.ownAt (by rw [hf, hr])).operands
  cases ht
  exact goto_plain (hA.same ⟨rfl, rfl, rfl, rfl, rfl, rfl, rfl, rfl, rfl⟩ rfl rfl rfl rfl rfl) (by decide) (by decide) rfl hT.lines (fun hr => ⟨rfl, rfl, rfl, hO hr⟩)

theorem act_b3_keeps {s t : State} {rest : List Label} (h : s.Inv) (hf : s.fsm = .b3 :: rest) (ht : actAt .b3 s = .next t) :
    t.Inv := by
  have hA := h.at hf
  have hT := h.topAt hf
  have hO : rest = [] → s.operandsOk .b3 = true := fun hr => (h.ownAt (by rw [hf, hr])).operands
  have hp := h.params
  cases ht
  refine goto_keeps (u := (assertRequest .rcen s).startPoll) (hA.same ⟨rfl, rfl, rfl, rfl, rfl, rfl, rfl, rfl, rfl⟩ rfl rfl rfl rfl rfl) (by decide) (by decide) (.inl ?_) (fun hr => ⟨rfl, rfl, rfl, hO hr⟩)
  exact ⟨decide_eq_true hp.2.1, rfl, rfl, hT.lines, rfl⟩

theorem act_b4_keeps {s t : State} {rest : List Label} (h : s.Inv) (hf : s.fsm = .b4 :: rest) (ht : actAt .b4 s = .next t) :
    t.Inv := by
  have hA := h.at hf
  have hT := h.topAt hf
  have hO : rest = [] → s.operandsOk .b4 = true := fun hr => (h.ownAt (by rw [hf, hr])).operands
  have hk : s.work.k < s.params.nXfer := by simpa [pollOk] using hT.poll
  cases ht
  refine pollUntil_keeps (hA.same ⟨rfl, rfl, rfl, rfl, rfl, rfl, rfl, rfl, rfl⟩ rfl rfl rfl rfl rfl) (by decide) hT.lines (by decide) rfl (by rw [(At.running_eq (u := (ctlReadStat s).countPoll) (hA.same ⟨rfl, rfl, rfl, rfl, rfl, rfl, rfl, rfl, rfl⟩ rfl rfl rfl rfl rfl) (by decide) (by decide) : State.running ((ctlReadStat s).countPoll) = .b1)]; rfl) ?_
    (fun hr => ⟨⟨rfl, rfl, rfl, hO hr⟩, ⟨rfl, rfl, rfl, hO hr⟩⟩)
  intro hne
  simp only [countPoll_work, ctlReadStat_work, countPoll_params, ctlReadStat_params] at hne ⊢
  exact decide_eq_true (by omega)

theorem act_b5_keeps {s t : State} {rest : List Label} (h : s.Inv) (hf : s.fsm = .b5 :: rest) (ht : actAt .b5 s = .next t) :
    t.Inv := by
  have hA := h.at hf
  have hT := h.topAt hf
  have hO : rest = [] → s.operandsOk .b5 = true := fun hr => (h.ownAt (by rw [hf, hr])).operands
  have hp := h.params
  cases ht
  refine goto_keeps (u := (assertRequest .acken s).startPoll) (hA.same ⟨rfl, rfl, rfl, rfl, rfl, rfl, rfl, rfl, rfl⟩ rfl rfl rfl rfl rfl) (by decide) (by decide) (.inl ?_) (fun hr => ⟨rfl, rfl, rfl, hO hr⟩)
  exact ⟨decide_eq_true hp.1, rfl, rfl, hT.lines, rfl⟩

theorem act_b6_keeps {s t : State} {rest : List Label} (h : s.Inv) (hf : s.fsm = .b6 :: rest) (ht : actAt .b6 s = .next t) :
    t.Inv := by
  have hA := h.at hf
  have hT := h.topAt hf
  have hO : rest = [] → s.operandsOk .b6 = true := fun hr => (h.ownAt (by rw [hf, hr])).operands
  have hk : s.work.k < s.params.nCtl := by simpa [pollOk] using hT.poll
  cases ht
  refine pollUntil_keeps (hA.same ⟨rfl, rfl, rfl, rfl, rfl, rfl, rfl, rfl, rfl⟩ rfl rfl rfl rfl rfl) (by decide) hT.lines (by decide) rfl (by rw [(At.running_eq (u := (ctlReadCon s).countPoll) (hA.same ⟨rfl, rfl, rfl, rfl, rfl, rfl, rfl, rfl, rfl⟩ rfl rfl rfl rfl rfl) (by decide) (by decide) : State.running ((ctlReadCon s).countPoll) = .b1)]; rfl) ?_
    (fun hr => ⟨⟨rfl, rfl, rfl, hO hr⟩, ⟨rfl, rfl, rfl, hO hr⟩⟩)
  intro hne
  simp only [countPoll_work, ctlReadCon_work, countPoll_params, ctlReadCon_params] at hne ⊢
  exact decide_eq_true (by omega)

theorem act_b7_keeps {s t : State} {rest : List Label} (h : s.Inv) (hf : s.fsm = .b7 :: rest) (ht : actAt .b7 s = .next t) :
    t.Inv := by
  have hA := h.at hf
  have hT := h.topAt hf
  have hO : rest = [] → s.operandsOk .b7 = true := fun hr => (h.ownAt (by rw [hf, hr])).operands
  cases ht
  split
  · exact toPf_keeps (u := ctlReadStat s) (hA.same ⟨rfl, rfl, rfl, rfl, rfl, rfl, rfl, rfl, rfl⟩ rfl rfl rfl rfl rfl) (by decide) (by decide) hT.lines (by rw [(At.running_eq (u := ctlReadStat s) (hA.same ⟨rfl, rfl, rfl, rfl, rfl, rfl, rfl, rfl, rfl⟩ rfl rfl rfl rfl rfl) (by decide) (by decide) : State.running (ctlReadStat s) = .b1)]; rfl)
  · exact goto_plain (u := ctlReadStat s) (hA.same ⟨rfl, rfl, rfl, rfl, rfl, rfl, rfl, rfl, rfl⟩ rfl rfl rfl rfl rfl) (by decide) (by decide) rfl hT.lines (fun hr => ⟨rfl, rfl, rfl, hO hr⟩)

theorem act_b8_keeps {s t : State} {rest : List Label} (h : s.Inv) (hf : s.fsm = .b8 :: rest) (ht : actAt .b8 s = .next t) :
    t.Inv := by
  have hA := h.at hf
  have hT := h.topAt hf
  have hO : rest = [] → s.operandsOk .b8 = true := fun hr => (h.ownAt (by rw [hf, hr])).operands
  refine finish_keeps (u := ctlReadRcv s) (r := .byte (ctlReadRcv s).work.b) hA (by decide) ⟨rfl, rfl, rfl, rfl, rfl, rfl, rfl, rfl, rfl⟩ rfl rfl rfl rfl hT.lines (.inl rfl)
    (fun p => by
      subst p
      have hop : s.latch.op = 0x7#4 := List.mem_singleton.1 (show _ ∈ [0x7#4] from bottomOk_op hA.stack)
      refine fin_facts (show resultOf s.latch.op _ = true by rw [hop]; rfl) ?_ ?_ <;> simp [hop, trackerAfter, Result.isError]) (fun first hs hm hrun => ?_) ht
  simp only [List.mem_cons, List.not_mem_nil, or_false] at hs
  rcases hs with rfl | rfl | rfl | rfl | rfl | rfl | rfl | rfl <;> first | exact absurd hm (by decide) | exact .inl ⟨rfl, rfl⟩

/-! ## The transfers -/

theorem act_p1_keeps {s t : State} {rest : List Label} (h : s.Inv) (hf : s.fsm = .p1 :: rest) (ht : actAt .p1 s = .next t) :
    t.Inv := by
  have hA := h.at hf
  have hT := h.topAt hf
  obtain rfl := stackOk_ownOnly (by decide) hA.stack
  obtain ⟨o1, o2, o3, o4⟩ := h.ownAt hf
  have hop : s.latch.op = 0x3#4 := List.mem_singleton.1 (show _ ∈ [0x3#4] from bottomOk_op hA.stack)
  cases ht
  split
  · exact goto_plain (u := dirtyRead s) (hA.same ⟨rfl, rfl, rfl, rfl, rfl, rfl, rfl, rfl, rfl⟩ rfl rfl rfl rfl rfl) (by decide) (by decide) rfl hT.lines (fun _ => ⟨rfl, rfl, rfl, rfl⟩)
  · next hd =>
    have hd' : s.dirty = false := by simpa using hd
    exact goto_plain (u := dirtyRead s) (hA.same ⟨rfl, rfl, rfl, rfl, rfl, rfl, rfl, rfl, rfl⟩ rfl rfl rfl rfl rfl) (by decide) (by decide) rfl hT.lines
      (fun _ => ⟨rfl, by show (!s.dirty) = true; rw [hd']; rfl, rfl, rfl⟩)

theorem act_d1_keeps {s t : State} {rest : List Label} (h : s.Inv) (hf : s.fsm = .d1 :: rest) (ht : actAt .d1 s = .next t) :
    t.Inv := by
  have hA := h.at hf
  have hT := h.topAt hf
  obtain rfl := stackOk_ownOnly (by decide) hA.stack
  obtain ⟨o1, o2, o3, o4⟩ := h.ownAt hf
  have hop : s.latch.op = 0x4#4 := List.mem_singleton.1 (show _ ∈ [0x4#4] from bottomOk_op hA.stack)
  cases ht
  split
  · refine goto_plain (u := { dirtyRead s with work := { (dirtyRead s).work with xe := .busDirty } })
      ?_ (l := .d1) (rest := []) (by decide) (by decide) rfl hT.lines (fun _ => ⟨rfl, rfl, o3, rfl⟩)
    exact ⟨hA.params, hA.fsm, hA.busy, hA.stack, hA.memory, hA.interruptEnable, hA.cap, fun h => absurd rfl h⟩
  · next hd =>
    have hd' : s.dirty = false := by simpa using hd
    exact goto_plain (u := dirtyRead s) (hA.same ⟨rfl, rfl, rfl, rfl, rfl, rfl, rfl, rfl, rfl⟩ rfl rfl rfl rfl rfl) (by decide) (by decide) rfl hT.lines
      (fun _ => ⟨rfl, by show (!s.dirty) = true; rw [hd']; rfl, o3, rfl⟩)

theorem act_x1_keeps {s t : State} {rest : List Label} (h : s.Inv) (hf : s.fsm = .x1 :: rest) (ht : actAt .x1 s = .next t) :
    t.Inv := by
  have hA := h.at hf
  have hT := h.topAt hf
  obtain rfl := stackOk_ownOnly (by decide) hA.stack
  obtain ⟨o1, o2, o3, o4⟩ := h.ownAt hf
  have hop : s.latch.op = 0x5#4 := List.mem_singleton.1 (show _ ∈ [0x5#4] from bottomOk_op hA.stack)
  cases ht
  split
  · refine goto_plain (u := { dirtyRead s with work := { (dirtyRead s).work with xe := .busDirty } })
      ?_ (l := .x1) (rest := []) (by decide) (by decide) rfl hT.lines (fun _ => ⟨rfl, rfl, o3, rfl⟩)
    exact ⟨hA.params, hA.fsm, hA.busy, hA.stack, hA.memory, hA.interruptEnable, hA.cap, fun h => absurd rfl h⟩
  · next hd =>
    have hd' : s.dirty = false := by simpa using hd
    exact goto_plain (u := dirtyRead s) (hA.same ⟨rfl, rfl, rfl, rfl, rfl, rfl, rfl, rfl, rfl⟩ rfl rfl rfl rfl rfl) (by decide) (by decide) rfl hT.lines
      (fun _ => ⟨rfl, by show (!s.dirty) = true; rw [hd']; rfl, o3, rfl⟩)

theorem act_p6_keeps {s t : State} {rest : List Label} (h : s.Inv) (hf : s.fsm = .p6 :: rest) (ht : actAt .p6 s = .next t) :
    t.Inv := by
  have hA := h.at hf
  have hT := h.topAt hf
  obtain rfl := stackOk_ownOnly (by decide) hA.stack
  obtain ⟨o1, o2, o3, o4⟩ := h.ownAt hf
  have hop : s.latch.op = 0x3#4 := List.mem_singleton.1 (show _ ∈ [0x3#4] from bottomOk_op hA.stack)
  refine finish_keeps (u := dirtyWrite false s) (r := .ok) hA (by decide) ⟨rfl, rfl, rfl, rfl, rfl, rfl, rfl, rfl, rfl⟩ rfl rfl rfl rfl hT.lines (.inr (by decide))
    (fun _ => ?_) (fun first hs hm _ => ?_) ht
  · refine fin_facts ?_ ?_ ?_ <;> simp [hop, trackerAfter, resultOf, Result.isError]
  · simp only [List.mem_cons, List.not_mem_nil, or_false] at hs
    rcases hs with rfl | rfl | rfl | rfl | rfl | rfl | rfl | rfl <;> exact absurd hm (by decide)

theorem act_d9_keeps {s t : State} {rest : List Label} (h : s.Inv) (hf : s.fsm = .d9 :: rest) (ht : actAt .d9 s = .next t) :
    t.Inv := by
  have hA := h.at hf
  have hT := h.topAt hf
  obtain rfl := stackOk_ownOnly (by decide) hA.stack
  obtain ⟨o1, o2, o3, o4⟩ := h.ownAt hf
  have hop : s.latch.op = 0x4#4 := List.mem_singleton.1 (show _ ∈ [0x4#4] from bottomOk_op hA.stack)
  have hn : s.work.nx = s.lcount := of_decide_eq_true o3
  refine finish_keeps (u := dirtyWrite false s) (r := .ok) hA (by decide) ⟨rfl, rfl, rfl, rfl, rfl, rfl, rfl, rfl, rfl⟩ rfl rfl rfl rfl hT.lines (.inr (by decide))
    (fun _ => ?_) (fun first hs hm _ => ?_) ht
  · refine fin_facts ?_ ?_ ?_ <;> simp [hop, trackerAfter, resultOf, Result.isError]
    exact ⟨Nat.le_of_eq hn, hn⟩
  · simp only [List.mem_cons, List.not_mem_nil, or_false] at hs
    rcases hs with rfl | rfl | rfl | rfl | rfl | rfl | rfl | rfl <;> exact absurd hm (by decide)

theorem act_x7_keeps {s t : State} {rest : List Label} (h : s.Inv) (hf : s.fsm = .x7 :: rest) (ht : actAt .x7 s = .next t) :
    t.Inv := by
  have hA := h.at hf
  have hT := h.topAt hf
  obtain rfl := stackOk_ownOnly (by decide) hA.stack
  obtain ⟨o1, o2, o3, o4⟩ := h.ownAt hf
  have hop : s.latch.op = 0x5#4 := List.mem_singleton.1 (show _ ∈ [0x5#4] from bottomOk_op hA.stack)
  have hn : s.work.nx = s.lcount := of_decide_eq_true o3
  refine finish_keeps (u := dirtyWrite false s) (r := .ok) hA (by decide) ⟨rfl, rfl, rfl, rfl, rfl, rfl, rfl, rfl, rfl⟩ rfl rfl rfl rfl hT.lines (.inr (by decide))
    (fun _ => ?_) (fun first hs hm _ => ?_) ht
  · refine fin_facts ?_ ?_ ?_ <;> simp [hop, trackerAfter, resultOf, Result.isError]
    exact ⟨Nat.le_of_eq hn, hn⟩
  · simp only [List.mem_cons, List.not_mem_nil, or_false] at hs
    rcases hs with rfl | rfl | rfl | rfl | rfl | rfl | rfl | rfl <;> exact absurd hm (by decide)

theorem act_px_keeps {s t : State} {rest : List Label} (h : s.Inv) (hf : s.fsm = .px :: rest) (ht : actAt .px s = .next t) :
    t.Inv := by
  have hA := h.at hf
  have hT := h.topAt hf
  obtain rfl := stackOk_ownOnly (by decide) hA.stack
  obtain ⟨o1, o2, o3, o4⟩ := h.ownAt hf
  have hop : s.latch.op = 0x3#4 := List.mem_singleton.1 (show _ ∈ [0x3#4] from bottomOk_op hA.stack)
  have hx : s.work.xe = .hardware ∨ s.work.xe = .badAddr ∨ s.work.xe = .commFail := by simpa [State.exitOk] using o1
  refine finish_keeps (u := dirtyWrite true s) (r := s.work.xe) hA (by decide) ⟨rfl, rfl, rfl, rfl, rfl, rfl, rfl, rfl, rfl⟩ rfl rfl rfl rfl hT.lines (.inr (by decide))
    (fun _ => ?_) (fun first hs hm _ => ?_) ht
  · refine fin_facts ?_ ?_ ?_ <;> rcases hx with hx | hx | hx <;> simp [hop, hx, trackerAfter, resultOf, Result.isError]
  · simp only [List.mem_cons, List.not_mem_nil, or_false] at hs
    rcases hs with rfl | rfl | rfl | rfl | rfl | rfl | rfl | rfl <;> exact absurd hm (by decide)

theorem act_dx_keeps {s t : State} {rest : List Label} (h : s.Inv) (hf : s.fsm = .dx :: rest) (ht : actAt .dx s = .next t) :
    t.Inv := by
  have hA := h.at hf
  have hT := h.topAt hf
  obtain rfl := stackOk_ownOnly (by decide) hA.stack
  obtain ⟨o1, o2, o3, o4⟩ := h.ownAt hf
  have hop : s.latch.op = 0x4#4 := List.mem_singleton.1 (show _ ∈ [0x4#4] from bottomOk_op hA.stack)
  have hx : s.work.xe = .busDirty ∨ s.work.xe = .commFail := by simpa [State.exitOk] using o1
  have hn : s.work.nx = if s.work.xe = .busDirty then 0 else s.lcount := of_decide_eq_true o3
  refine finish_keeps (u := dirtyWrite true s) (r := s.work.xe) hA (by decide) ⟨rfl, rfl, rfl, rfl, rfl, rfl, rfl, rfl, rfl⟩ rfl rfl rfl rfl hT.lines (.inr (by decide))
    (fun _ => ?_) (fun first hs hm _ => ?_) ht
  · refine fin_facts ?_ ?_ ?_ <;> rcases hx with hx | hx <;> rw [hx] at hn <;>
      simp [hop, hx, hn, trackerAfter, resultOf, Result.isError, lcount_dirtyWrite]
  · simp only [List.mem_cons, List.not_mem_nil, or_false] at hs
    rcases hs with rfl | rfl | rfl | rfl | rfl | rfl | rfl | rfl <;> exact absurd hm (by decide)

theorem act_xx_keeps {s t : State} {rest : List Label} (h : s.Inv) (hf : s.fsm = .xx :: rest) (ht : actAt .xx s = .next t) :
    t.Inv := by
  have hA := h.at hf
  have hT := h.topAt hf
  obtain rfl := stackOk_ownOnly (by decide) hA.stack
  obtain ⟨o1, o2, o3, o4⟩ := h.ownAt hf
  have hop : s.latch.op = 0x5#4 := List.mem_singleton.1 (show _ ∈ [0x5#4] from bottomOk_op hA.stack)
  have hx : s.work.xe = .busDirty ∨ s.work.xe = .commFail := by simpa [State.exitOk] using o1
  have hn : s.work.nx = if s.work.xe = .busDirty then 0 else s.lcount := of_decide_eq_true o3
  refine finish_keeps (u := dirtyWrite true s) (r := s.work.xe) hA (by decide) ⟨rfl, rfl, rfl, rfl, rfl, rfl, rfl, rfl, rfl⟩ rfl rfl rfl rfl hT.lines (.inr (by decide))
    (fun _ => ?_) (fun first hs hm _ => ?_) ht
  · refine fin_facts ?_ ?_ ?_ <;> rcases hx with hx | hx <;> rw [hx] at hn <;>
      simp [hop, hx, hn, trackerAfter, resultOf, Result.isError, lcount_dirtyWrite]
  · simp only [List.mem_cons, List.not_mem_nil, or_false] at hs
    rcases hs with rfl | rfl | rfl | rfl | rfl | rfl | rfl | rfl <;> exact absurd hm (by decide)

theorem act_u2_keeps {s t : State} {rest : List Label} (h : s.Inv) (hf : s.fsm = .u2 :: rest) (ht : actAt .u2 s = .next t) :
    t.Inv := by
  have hA := h.at hf
  have hT := h.topAt hf
  obtain rfl := stackOk_ownOnly (by decide) hA.stack
  obtain ⟨o1, o2, o3, o4⟩ := h.ownAt hf
  have hop : s.latch.op = 0x3#4 ∨ s.latch.op = 0x4#4 ∨ s.latch.op = 0x5#4 := by
    simpa using (show s.latch.op ∈ [0x3#4, 0x4#4, 0x5#4] from bottomOk_op hA.stack)
  have hx : s.work.xe = .commFail ∨ (s.work.xe = .badAddr ∧ s.latch.op ≠ 0x3#4) := by simpa [State.exitOk] using o1
  have hn : s.latch.op = 0x3#4 ∨ (s.work.nx ≤ s.lcount ∧ (s.work.xe ≠ .badAddr ∨ s.work.nx = 0)) := by
    simpa [State.countsOk] using o3
  refine finish_keeps (u := dirtyWrite true s) (r := s.work.xe) hA (by decide) ⟨rfl, rfl, rfl, rfl, rfl, rfl, rfl, rfl, rfl⟩ rfl rfl rfl rfl hT.lines (.inr (by decide))
    (fun _ => ?_) (fun first hs hm _ => ?_) ht
  · refine fin_facts ?_ ?_ ?_ <;> rcases hx with hx | ⟨hx, ho⟩ <;> rcases hop with hop | hop | hop <;>
      simp_all [trackerAfter, resultOf, Result.isError, lcount_dirtyWrite]
  · simp only [List.mem_cons, List.not_mem_nil, or_false] at hs
    rcases hs with rfl | rfl | rfl | rfl | rfl | rfl | rfl | rfl <;> exact absurd hm (by decide)

theorem act_d7b_keeps {s t : State} {rest : List Label} (h : s.Inv) (hf : s.fsm = .d7b :: rest) (ht : actAt .d7b s = .next t) :
    t.Inv := by
  have hA := h.at hf
  have hT := h.topAt hf
  obtain rfl := stackOk_ownOnly (by decide) hA.stack
  obtain ⟨o1, o2, o3, o4⟩ := h.ownAt hf
  have hop : s.latch.op = 0x4#4 := List.mem_singleton.1 (show _ ∈ [0x4#4] from bottomOk_op hA.stack)
  have hb : s.work.nx = s.work.i ∧ s.work.i < s.lcount := by simpa [State.countsOk] using o3
  have hr : Memory.inRange s.work.i = true := decide_eq_true (Nat.lt_of_lt_of_le hb.2 (h.cap hA.busy (by simp [hop])))
  have hd : s.dirty = false := by simpa [State.trackerOk] using o2
  have hs : actAt .d7b s = .next (State.record (.memWrite s.work.i s.work.b)
      { s with buf := Memory.write s.buf s.work.i s.work.b }).nextByte.readLoop := by
    show andThen (memWrite s) _ = _
    rw [memWrite, if_pos hr]; rfl
  rw [hs] at ht
  have hA' : At (State.record (.memWrite s.work.i s.work.b) { s with buf := Memory.write s.buf s.work.i s.work.b }).nextByte .d7b [] :=
    ⟨hA.params, hA.fsm, hA.busy, hA.stack, Memory.write_wf hA.memory (of_decide_eq_true hr) _, hA.interruptEnable, hA.cap, fun h => absurd rfl h⟩
  cases ht
  unfold State.readLoop
  split
  · next hlt =>
    refine goto_plain (l := .d7b) (rest := []) ?_ (by decide) (by decide) rfl hT.lines (fun _ => ⟨rfl, ?_, ?_, ?_⟩)
    · exact ⟨hA'.params, hA'.fsm, hA'.busy, hA'.stack, hA'.memory, hA'.interruptEnable, hA'.cap, fun h => absurd rfl h⟩
    · show (!s.dirty) = true
      rw [hd]; rfl
    · have hlt' : s.work.i + 1 < s.lcount := hlt
      show (decide (s.work.i + 1 = s.work.i + 1) && decide (s.work.i + 1 < s.lcount)) = true
      simpa using hlt'
    · show decide (decide (s.work.i + 1 + 1 < s.lcount) = decide (s.work.i + 1 + 1 < s.lcount)) = true
      simp
  · next hge =>
    refine goto_plain hA' (by decide) (by decide) rfl hT.lines (fun _ => ⟨rfl, ?_, ?_, rfl⟩)
    · show (!s.dirty) = true
      rw [hd]; rfl
    · show decide (s.work.i + 1 = s.lcount) = true
      have hge' : ¬ s.work.i + 1 < s.lcount := hge
      exact decide_eq_true (by omega)

theorem act_x5a_keeps {s t : State} {rest : List Label} (h : s.Inv) (hf : s.fsm = .x5a :: rest) (ht : actAt .x5a s = .next t) :
    t.Inv := by
  have hA := h.at hf
  have hT := h.topAt hf
  obtain rfl := stackOk_ownOnly (by decide) hA.stack
  obtain ⟨o1, o2, o3, o4⟩ := h.ownAt hf
  have hop : s.latch.op = 0x5#4 := List.mem_singleton.1 (show _ ∈ [0x5#4] from bottomOk_op hA.stack)
  have hb : s.work.nx = s.work.i ∧ s.work.i < s.lcount := by simpa [State.countsOk] using o3
  have hr : Memory.inRange s.work.i = true := decide_eq_true (Nat.lt_of_lt_of_le hb.2 (h.cap hA.busy (by simp [hop])))
  have hd : s.dirty = false := by simpa [State.trackerOk] using o2
  have hs : actAt .x5a s = .next (State.goto .x5b (State.record (.memRead s.work.i (Memory.read s.buf s.work.i))
      { s with work := { s.work with v := Memory.read s.buf s.work.i } })) := by
    show andThen (memRead s) _ = _
    rw [memRead, if_pos hr]; rfl
  rw [hs] at ht
  cases ht
  refine goto_plain (l := .x5a) (rest := []) ?_ (by decide) (by decide) rfl hT.lines (fun _ => ⟨rfl, ?_, ?_, ?_⟩)
  · exact ⟨hA.params, hA.fsm, hA.busy, hA.stack, hA.memory, hA.interruptEnable, hA.cap, fun h => absurd rfl h⟩
  · show (!s.dirty) = true
    rw [hd]; rfl
  · exact o3
  · show decide (Memory.read s.buf s.work.i = Memory.read s.buf s.work.i) = true
    simp

/-! ## Complete -/

theorem act_fin_keeps {s t : State} {rest : List Label} (h : s.Inv) (hf : s.fsm = .fin :: rest) (ht : actAt .fin s = .next t) :
    t.Inv := by
  have hT := h.topAt hf
  cases ht
  exact ⟨h.params, rfl, ⟨rfl, rfl⟩, h.memory, h.interruptEnable, (fun hb => by cases hb), ⟨rfl, rfl, rfl, hT.lines, rfl⟩,
    fun h => absurd rfl h⟩

/-! ## Every action -/

/-- An Engine action keeps the invariant. -/
theorem act_keeps {s t : State} (h : s.Inv) (ht : act s = .next t) : t.Inv := by
  unfold act at ht
  cases hf : s.fsm with
  | nil => rw [hf] at ht; cases ht
  | cons l rest =>
    rw [hf] at ht
    replace ht : actAt l s = .next t := ht
    have htop := h.position.2
    rw [hf] at htop
    cases l
    case i1 => exact act_i1_keeps h hf ht
    case i2 => exact act_i2_keeps h hf ht
    case i3 => exact act_i3_keeps h hf ht
    case m1 => exact act_m1_keeps h hf ht
    case m2 => exact act_m2_keeps h hf ht
    case m3 => exact act_m3_keeps h hf ht
    case m4 => exact act_m4_keeps h hf ht
    case e1 => exact act_e1_keeps h hf ht
    case e2 => exact act_e2_keeps h hf ht
    case q1 => exact act_q1_keeps h hf ht
    case q2 => exact act_q2_keeps h hf ht
    case q3 => exact act_q3_keeps h hf ht
    case pf => exact act_pf_keeps h hf ht
    case v1 => exact act_v1_keeps h hf ht
    case v2 => exact act_v2_keeps h hf ht
    case v3 => exact act_v3_keeps h hf ht
    case v4 => exact act_v4_keeps h hf ht
    case v6b => exact act_v6b_keeps h hf ht
    case v6c => exact act_v6c_keeps h hf ht
    case v6d => exact act_v6d_keeps h hf ht
    case v7 => exact act_v7_keeps h hf ht
    case v9 => exact act_v9_keeps h hf ht
    case v10 => exact act_v10_keeps h hf ht
    case v11 => exact act_v11_keeps h hf ht
    case v12 => exact act_v12_keeps h hf ht
    case v13 => exact act_v13_keeps h hf ht
    case v15 => exact act_v15_keeps h hf ht
    case v5 => exact act_v5_keeps h hf ht
    case v6a => exact act_v6a_keeps h hf ht
    case v6e => exact act_v6e_keeps h hf ht
    case v8 => exact act_v8_keeps h hf ht
    case v14 => exact act_v14_keeps h hf ht
    case v16 => exact act_v16_keeps h hf ht
    case vf => exact act_vf_keeps h hf ht
    case s2 => exact act_s2_keeps h hf ht
    case s3 => exact act_s3_keeps h hf ht
    case s4 => exact act_s4_keeps h hf ht
    case s5 => exact act_s5_keeps h hf ht
    case g2 => exact act_g2_keeps h hf ht
    case g3 => exact act_g3_keeps h hf ht
    case g4 => exact act_g4_keeps h hf ht
    case g5 => exact act_g5_keeps h hf ht
    case t2 => exact act_t2_keeps h hf ht
    case t3 => exact act_t3_keeps h hf ht
    case t4 => exact act_t4_keeps h hf ht
    case t5 => exact act_t5_keeps h hf ht
    case w2 => exact act_w2_keeps h hf ht
    case w3 => exact act_w3_keeps h hf ht
    case w4 => exact act_w4_keeps h hf ht
    case w5 => exact act_w5_keeps h hf ht
    case b2 => exact act_b2_keeps h hf ht
    case b3 => exact act_b3_keeps h hf ht
    case b4 => exact act_b4_keeps h hf ht
    case b5 => exact act_b5_keeps h hf ht
    case b6 => exact act_b6_keeps h hf ht
    case b7 => exact act_b7_keeps h hf ht
    case b8 => exact act_b8_keeps h hf ht
    case p1 => exact act_p1_keeps h hf ht
    case d1 => exact act_d1_keeps h hf ht
    case x1 => exact act_x1_keeps h hf ht
    case p6 => exact act_p6_keeps h hf ht
    case d9 => exact act_d9_keeps h hf ht
    case x7 => exact act_x7_keeps h hf ht
    case px => exact act_px_keeps h hf ht
    case dx => exact act_dx_keeps h hf ht
    case xx => exact act_xx_keeps h hf ht
    case u2 => exact act_u2_keeps h hf ht
    case d7b => exact act_d7b_keeps h hf ht
    case x5a => exact act_x5a_keeps h hf ht
    case fin => exact act_fin_keeps h hf ht
    all_goals exact absurd (show topOk _ = true from htop) (by simp [topOk, Label.callee])

end Sys2Proof.Machine
end

