-- ==== Sys2Proof/Laws/Encoding.lean ====
section
/-! SUPPORT. The fields of an assembled command word (spec/30_encoding.md R112): each reads back as it was given, and the reserved fields read 0. -/

namespace Sys2Proof

@[simp] theorem opField_enc (op : BitVec 4) (ack : Bool) (data8 : Byte) (addr7 : BitVec 7) :
    opField (enc op ack data8 addr7) = op := by
  apply BitVec.eq_of_getLsbD_eq
  intro i hi
  interval_cases i <;> simp [opField, enc]

@[simp] theorem ackField_enc (op : BitVec 4) (ack : Bool) (data8 : Byte) (addr7 : BitVec 7) :
    ackField (enc op ack data8 addr7) = ack := by
  simp [ackField, enc]

@[simp] theorem rsv0Field_enc (op : BitVec 4) (ack : Bool) (data8 : Byte) (addr7 : BitVec 7) :
    rsv0Field (enc op ack data8 addr7) = 0#3 := by
  apply BitVec.eq_of_getLsbD_eq
  intro i hi
  interval_cases i <;> simp [rsv0Field, enc]

@[simp] theorem data8Field_enc (op : BitVec 4) (ack : Bool) (data8 : Byte) (addr7 : BitVec 7) :
    data8Field (enc op ack data8 addr7) = data8 := by
  apply BitVec.eq_of_getLsbD_eq
  intro i hi
  interval_cases i <;> simp [data8Field, enc]

@[simp] theorem addr7Field_enc (op : BitVec 4) (ack : Bool) (data8 : Byte) (addr7 : BitVec 7) :
    addr7Field (enc op ack data8 addr7) = addr7 := by
  apply BitVec.eq_of_getLsbD_eq
  intro i hi
  interval_cases i <;> simp [addr7Field, enc]

@[simp] theorem rsv1Field_enc (op : BitVec 4) (ack : Bool) (data8 : Byte) (addr7 : BitVec 7) :
    rsv1Field (enc op ack data8 addr7) = 0#9 := by
  apply BitVec.eq_of_getLsbD_eq
  intro i hi
  interval_cases i <;> simp [rsv1Field, enc]

/-- A word assembled with an operation the opcode map assigns is legal (R116). -/
theorem legal_enc (op : BitVec 4) (ack : Bool) (data8 : Byte) (addr7 : BitVec 7) (h0 : op ≠ 0#4) (h1 : op.toNat < 0xC) :
    CmdWord.legal (enc op ack data8 addr7) = true := by
  have ho : (enc op ack data8 addr7).extractLsb' 0 4 = op := opField_enc op ack data8 addr7
  have hr : (enc op ack data8 addr7).extractLsb' 5 3 = 0#3 := rsv0Field_enc op ack data8 addr7
  have hs : (enc op ack data8 addr7).extractLsb' 23 9 = 0#9 := rsv1Field_enc op ack data8 addr7
  simp [CmdWord.legal, CmdWord.opNonzero, CmdWord.opAssigned, CmdWord.rsv0Zero, CmdWord.rsv1Zero, ho, hr, hs, h0, h1]

end Sys2Proof
end

