-- ==== Sys2Proof/Laws/Run.lean ====
section
/-! SUPPORT. The steps of the other agents keep the invariant, and with the Engine's actions every run does; a property every agent's step keeps, a run keeps (`run_induction`). -/

namespace Sys2Proof.Machine

/-! ## The other agents (R160, R291, R293, R294, R360) -/

theorem withInputs_keeps (evs : List Event) {s : State} (h : s.Inv) : (s.withInputs evs).Inv :=
  ⟨h.params, h.busy, h.position, h.memory, h.interruptEnable, h.cap,
    ⟨h.top.poll, h.top.toggle, h.top.off, h.top.lines, h.top.error⟩,
    fun hne => ⟨(h.own hne).exit, (h.own hne).tracker, (h.own hne).counts, (h.own hne).operands⟩⟩

theorem hostRead_keeps (off : BitVec 9) {s : State} (h : s.Inv) : (hostRead off s).Inv :=
  ⟨h.params, h.busy, h.position, h.memory, h.interruptEnable, h.cap,
    ⟨h.top.poll, h.top.toggle, h.top.off, h.top.lines, h.top.error⟩,
    fun hne => ⟨(h.own hne).exit, (h.own hne).tracker, (h.own hne).counts, (h.own hne).operands⟩⟩

theorem envStep_keeps (e : EnvStep) {s : State} (h : s.Inv) : (envStep e s).Inv := by
  refine ⟨h.params, h.busy, h.position, h.memory, h.interruptEnable, h.cap,
    ⟨h.top.poll, h.top.toggle, h.top.off, ?_, h.top.error⟩,
    fun hne => ⟨(h.own hne).exit, (h.own hne).tracker, (h.own hne).counts, (h.own hne).operands⟩⟩
  have := h.top.lines
  exact this

theorem hostDropped_keeps {s : State} (h : s.Inv) : (hostDropped s).Inv :=
  ⟨h.params, h.busy, h.position, h.memory, h.interruptEnable, h.cap,
    ⟨h.top.poll, h.top.toggle, h.top.off, h.top.lines, h.top.error⟩,
    fun hne => ⟨(h.own hne).exit, (h.own hne).tracker, (h.own hne).counts, (h.own hne).operands⟩⟩

/-- What an idle state needs beside the label stack. -/
theorem State.Inv.idle {s u : State} (h : s.Inv) (hp : u.params = s.params) (hb : u.busy = false) (hf : u.fsm = [])
    (hm : Memory.wf u.buf = true) (hi : u.con.ie = s.con.ie) (hl : linesOk u.line .fin = true) : u.Inv := by
  refine ⟨hp ▸ h.params, by rw [State.BusyOk, hb, hf]; rfl, ⟨by rw [hf]; rfl, by rw [hf]; rfl⟩, hm, hi.trans h.interruptEnable,
    (fun h => by rw [hb] at h; cases h), ?_, fun h => absurd hf h⟩
  rw [State.top, hf]
  exact ⟨rfl, rfl, rfl, hl, rfl⟩

theorem State.Inv.fsm_idle {s : State} (h : s.Inv) (hb : s.busy = false) : s.fsm = [] := by
  have := h.busy
  rw [State.BusyOk, hb] at this
  cases hf : s.fsm with
  | nil => rfl
  | cons l rest => rw [hf] at this; cases this

theorem State.Inv.lines_idle {s : State} (h : s.Inv) (hb : s.busy = false) : linesOk s.line .fin = true := by
  have := h.top.lines
  rwa [State.top, h.fsm_idle hb] at this

theorem hostWrite_keeps (off : BitVec 9) (w : Word) {s : State} (h : s.Inv) : (hostWrite off w s).Inv := by
  cases hb : s.busy with
  | true =>
    have key : State.Inv { s with hostErr := false } :=
      ⟨h.params, h.busy, h.position, h.memory, h.interruptEnable, h.cap,
        ⟨h.top.poll, h.top.toggle, h.top.off, h.top.lines, h.top.error⟩,
        fun hne => ⟨(h.own hne).exit, (h.own hne).tracker, (h.own hne).counts, (h.own hne).operands⟩⟩
    simp only [hb] at key
    unfold hostWrite
    simp only [hb, if_true]
    split
    · exact hostDropped_keeps h
    · exact h
    · split
      · exact key
      · exact h
    · exact hostDropped_keeps h
    · exact h
    · exact hostDropped_keeps h
  | false =>
    have hfsm : (hostWrite off w s).fsm = [] ∧ (hostWrite off w s).busy = false ∧ (hostWrite off w s).params = s.params ∧
        (hostWrite off w s).con = s.con ∧ (hostWrite off w s).line = s.line := by
      unfold hostWrite
      rw [hb]
      split <;> (try split) <;> simp [h.fsm_idle hb, hb]
    obtain ⟨h1, h2, h3, h4, h5⟩ := hfsm
    exact h.idle h3 h2 h1 (hostWrite_wf h.memory off w) (by rw [h4]) (by rw [h5]; exact h.lines_idle hb)

theorem resetBlock_keeps (d : ResetDraw) {s : State} (hp : paramsPositive s.params) : (resetBlock d s).Inv :=
  ⟨hp, rfl, ⟨rfl, rfl⟩, Memory.ofCells_wf d.buf, rfl, (fun h => by cases h), ⟨rfl, rfl, rfl, rfl, rfl⟩, fun h => absurd rfl h⟩

/-! ## One agent's step, and runs -/

/-- One agent's step while a command runs keeps the invariant. -/
theorem tick_keeps {s t : State} (h : s.Inv) (ht : tick s = .next t) : t.Inv := by
  unfold tick at ht
  split at ht
  · exact act_keeps h ht
  · exact act_keeps (withInputs_keeps _ h) ht
  · cases ht; exact envStep_keeps _ (withInputs_keeps _ h)
  · cases ht; exact hostRead_keeps _ (withInputs_keeps _ h)
  · cases ht; exact hostWrite_keeps _ _ (withInputs_keeps _ h)
  · exact act_keeps h ht
  all_goals cases ht; exact h

/-- A property every agent's step keeps, a run keeps. -/
theorem run_induction {P : State → Prop} (hstep : ∀ s t : State, P s → s.busy = true → s.atBoundary = false → tick s = .next t → P t) :
    ∀ (n : Nat) (s t : State), P s → run n s = .next t → P t
  | 0, s, t, h, ht => by cases ht; exact h
  | n + 1, s, t, h, ht => by
    unfold run at ht
    split at ht
    · cases ht; exact h
    · next hc =>
      simp only [Bool.or_eq_true, Bool.not_eq_true', not_or, Bool.not_eq_false, Bool.not_eq_true] at hc
      cases hk : tick s with
      | next u => rw [hk] at ht; exact run_induction hstep n u t (hstep s u h hc.1 hc.2 hk) ht
      | fault r => rw [hk] at ht; cases ht
      | refused r => rw [hk] at ht; cases ht

theorem run_keeps {n : Nat} {s t : State} (h : s.Inv) (ht : run n s = .next t) : t.Inv :=
  run_induction (P := State.Inv) (fun _ _ h _ _ hk => tick_keeps h hk) n s t h ht

/-- The schedule that is ordinary stays so. -/
theorem run_idle (n : Nat) {s : State} (h : s.busy = false) : run n s = .next s := by
  cases n with
  | zero => rfl
  | succ n => simp [run, h]

/-- One more agent's step. -/
theorem run_succ (n : Nat) {s : State} (hb : s.busy = true) (ha : s.atBoundary = false) :
    run (n + 1) s = andThen (tick s) (run n) := by
  simp [run, hb, ha]

/-- An ordinary schedule has no boundary event at its head. -/
theorem atBoundary_ordinary {s : State} (h : ordinary s.inputs) : s.atBoundary = false := by
  unfold State.atBoundary
  cases hi : s.inputs with
  | nil => rfl
  | cons e rest => exact h e (by rw [hi]; simp)

/-! ## Acceptance -/

/-- A command accepted at its operation's first label (R292) starts within the invariant. -/
theorem accept_keeps {s : State} (u : Submission) (h : s.Inv) (hb : s.busy = false) (hu : entryOf u.op = some u.entry)
    (hc : u.op = 0x4#4 ∨ u.op = 0x5#4 → s.count.toNat ≤ Config.bufCap) : (accept u s).Inv := by
  have hlines := h.lines_idle hb
  obtain ⟨⟨⟨n, hn⟩⟩, ack, d8, a7, entry⟩ := u
  interval_cases n <;> cases hu <;>
  exact {
    params := h.params
    busy := rfl
    position := ⟨rfl, rfl⟩
    memory := h.memory
    interruptEnable := h.interruptEnable
    cap := fun _ ho => hc ho
    top := { poll := rfl, toggle := rfl, off := rfl, lines := hlines, error := rfl }
    own := fun _ => { exit := rfl, tracker := rfl, counts := rfl, operands := by first | rfl | exact decide_eq_true rfl } }

end Sys2Proof.Machine
end

