-- ==== Sys2Proof/Laws/Measure.lean ====
section
/-! SUPPORT. Every Engine action succeeds within the invariant and brings the command nearer to its `Complete` (`act_decreases`), so a run over an ordinary schedule ends with the command completed (R285, R341). -/

namespace Sys2Proof.Machine

/-- The most Engine actions from a position's label on, in its own operation: with the label's action, or, where the
label is a call, after the call returns. -/
def Label.weight (p : Params) (w : Work) (n : Nat) (l : Label) : Nat :=
  match l with
  | .i1 => 3 | .i2 => 2 | .i3 => 1
  | .m1 => 4 | .m2 => 3 | .m3 => 2 | .m4 => 1
  | .e1 => 2 | .e2 => 1
  | .q1 => 3 | .q2 => 2 | .q3 => 1
  | .v1 => 5 * p.nRec + 15 | .v2 => 5 * p.nRec + 14 | .v3 => 5 * p.nRec + 13 | .v4 => 5 * p.nRec + 12
  | .v5 => 5 * p.nRec + 11
  | .v6a => 5 * (p.nRec - w.j) + 10 | .v6b => 5 * (p.nRec - w.j) + 9 | .v6c => 5 * (p.nRec - w.j) + 8
  | .v6d => 5 * (p.nRec - w.j) + 7 | .v6e => 5 * (p.nRec - w.j) + 6
  | .v7 => 10 | .v8 => 9 | .v9 => 8 | .v10 => 7 | .v11 => 6 | .v12 => 5 | .v13 => 4 | .v14 => 3 | .v15 => 2 | .v16 => 1
  | .vf => 1
  | .s1 | .s2 | .g1 | .g2 | .t1 | .t2 => p.nCtl + 6
  | .s3 | .g3 | .t3 => p.nCtl + 5
  | .s4 | .g4 | .t4 => (p.nCtl - w.k) + 4
  | .s5 | .g5 | .t5 => 4
  | .sc | .gc | .tc | .wc => 1
  | .w1 | .w2 => p.nXfer + 6
  | .w3 => p.nXfer + 5
  | .w4 => (p.nXfer - w.k) + 4
  | .w5 => 4
  | .b1 | .b2 => p.nXfer + p.nCtl + 5
  | .b3 => p.nXfer + p.nCtl + 4
  | .b4 => (p.nXfer - w.k) + p.nCtl + 3
  | .b5 => p.nCtl + 3
  | .b6 => (p.nCtl - w.k) + 2
  | .b7 => 2
  | .b8 => 1
  | .pf => 1
  | .p1 => recoverBound p + 2 * requestBound p + wrbyteBound p + 2
  | .p2 => 2 * requestBound p + wrbyteBound p + 1
  | .p3 => requestBound p + wrbyteBound p + 1
  | .p4 => requestBound p + 1
  | .p5 | .p6 | .px => 1
  | .d1 => 3 * requestBound p + 3 * wrbyteBound p + n * (rdbyteBound p + 1) + 2
  | .d2 => 2 * requestBound p + 3 * wrbyteBound p + n * (rdbyteBound p + 1) + 1
  | .d3 => 2 * requestBound p + 2 * wrbyteBound p + n * (rdbyteBound p + 1) + 1
  | .d4 => 2 * requestBound p + wrbyteBound p + n * (rdbyteBound p + 1) + 1
  | .d5 => requestBound p + wrbyteBound p + n * (rdbyteBound p + 1) + 1
  | .d6 => requestBound p + n * (rdbyteBound p + 1) + 1
  | .d7a | .d7b => requestBound p + (n - (w.i + 1)) * (rdbyteBound p + 1) + 2
  | .d8 | .d9 | .dx => 1
  | .x1 => 2 * requestBound p + 2 * wrbyteBound p + n * (wrbyteBound p + 1) + 2
  | .x2 => requestBound p + 2 * wrbyteBound p + n * (wrbyteBound p + 1) + 1
  | .x3 => requestBound p + wrbyteBound p + n * (wrbyteBound p + 1) + 1
  | .x4 => requestBound p + n * (wrbyteBound p + 1) + 1
  | .x5a => requestBound p + (n - (w.i + 1)) * (wrbyteBound p + 1) + wrbyteBound p + 2
  | .x5b => requestBound p + (n - (w.i + 1)) * (wrbyteBound p + 1) + 1
  | .x6 | .x7 | .xx => 1
  | .u1 | .u2 => 1
  | .fin => 0

/-- The most Engine actions from a label stack on, its `Complete` apart. -/
def stackWeight (p : Params) (w : Work) (n : Nat) (stack : List Label) : Nat :=
  match stack with
  | [] => 0
  | l :: rest => l.weight p w n + stackWeight p w n rest

/-- The most Engine actions the running command still performs, its `Complete` among them. -/
def State.remaining (s : State) : Nat :=
  match s.fsm with
  | [] => 0
  | l :: rest => stackWeight s.params s.work s.lcount (l :: rest) + 1

theorem stackWeight_append (p : Params) (w : Work) (n : Nat) (xs ys : List Label) :
    stackWeight p w n (xs ++ ys) = stackWeight p w n xs + stackWeight p w n ys := by
  induction xs with
  | nil => simp [stackWeight]
  | cons l xs ih => simp [stackWeight, ih, Nat.add_assoc]

theorem remaining_goto (m : Label) (u : State) :
    (u.goto m).remaining = stackWeight u.params u.work u.lcount m.opened + stackWeight u.params u.work u.lcount u.fsm.tail + 1 := by
  have hne : ∃ a b, m.opened ++ u.fsm.tail = a :: b := by
    unfold Label.opened
    split
    · exact ⟨_, _, rfl⟩
    · split <;> exact ⟨_, _, rfl⟩
  obtain ⟨a, b, hab⟩ := hne
  unfold State.remaining
  rw [goto_fsm, hab]
  simp only
  rw [← hab, stackWeight_append]
  rfl

/-- The labels below are calls, whose weights read no counter but the transfers' index i. -/
theorem stackWeight_calls {op : BitVec 4} {l : Label} {rest : List Label} (h : stackOk op (l :: rest) = true)
    (p : Params) {w w' : Work} (hi : w'.i = w.i) (n : Nat) : stackWeight p w' n rest = stackWeight p w n rest := by
  induction rest generalizing l with
  | nil => rfl
  | cons c rest ih =>
    obtain ⟨first, hc, -⟩ := stackOk_callee h
    simp only [stackWeight]
    rw [ih (stackOk_tail h)]
    congr 1
    cases c <;> simp only [Label.callee, reduceCtorEq] at hc <;> simp only [Label.weight, hi]

/-! ## goto and finish -/

/-- `goto m` from u, whose working registers agree with w in i: the weight of m and of the labels below. -/
theorem remaining_goto_le {u : State} {l m : Label} {rest : List Label} {k : Nat} (hs : stackOk u.latch.op (l :: rest) = true)
    (hf : u.fsm = l :: rest) {w : Work} (hi : u.work.i = w.i)
    (hm : stackWeight u.params u.work u.lcount m.opened ≤ k) :
    (u.goto m).remaining ≤ k + stackWeight u.params w u.lcount rest + 1 := by
  rw [remaining_goto, hf, List.tail_cons, stackWeight_calls hs u.params hi]
  omega

/-- One iteration of a transfer's data loop, at index `index` of `count` bytes, pays for itself. -/
theorem loop_mul {count index : Nat} (cost : Nat) (h : index < count) :
    (count - index) * cost = (count - (index + 1)) * cost + cost := by
  obtain ⟨left, rfl⟩ : ∃ left, count = index + (left + 1) := ⟨count - index - 1, by omega⟩
  simp only [Nat.add_sub_cancel_left, Nat.add_sub_add_left, Nat.add_sub_cancel, Nat.add_mul, Nat.one_mul]

theorem remaining_unwind (e : Result) (u : State) :
    (u.unwind e).remaining = 1 + requestBound u.params + stackWeight u.params { u.work with xe := e } u.lcount u.fsm.tail + 1 := by
  unfold State.unwind State.toExit
  rw [remaining_goto]
  show stackWeight u.params { u.work with xe := e } u.lcount (Label.opened .u1) + stackWeight u.params { u.work with xe := e } u.lcount u.fsm.tail + 1 = _
  congr 2
  simp only [Label.opened, Label.callee, stackWeight, Label.weight, requestBound]
  omega

/-- READ's loop: the byte at the index i comes next, or the final Stop. -/
theorem remaining_readLoop (u : State) (ht : u.fsm.tail = []) :
    u.readLoop.remaining ≤ requestBound u.params + (u.lcount - u.work.i) * (rdbyteBound u.params + 1) + 2 := by
  unfold State.readLoop
  split
  · next hlt =>
    rw [remaining_goto, loop_mul _ hlt]
    simp only [State.withAckUnlessLast, withAck_fsm, withAck_params, ht, Label.opened, Label.callee, stackWeight, Label.weight, rdbyteBound]
    simp only [withAck_work, State.lcount, withAck_latch]
    omega
  · rw [remaining_goto, ht]
    simp only [Label.opened, Label.callee, stackWeight, Label.weight, requestBound]
    omega

/-- WRITE's loop: the byte at the index i comes next, or the final Stop. -/
theorem remaining_writeLoop (u : State) (ht : u.fsm.tail = []) :
    u.writeLoop.remaining ≤ requestBound u.params + (u.lcount - u.work.i) * (wrbyteBound u.params + 1) + 2 := by
  unfold State.writeLoop
  split
  · next hlt =>
    rw [remaining_goto, loop_mul _ hlt, ht]
    simp only [Label.opened, Label.callee, stackWeight, Label.weight]
    omega
  · rw [remaining_goto, ht]
    simp only [Label.opened, Label.callee, stackWeight, Label.weight, requestBound]
    omega

/-- Where a caller goes on is no farther from `Complete` than the caller's own weight says. -/
theorem resume_decreases {u : State} {c first : Label} {rest : List Label} (r : Result) (hf : u.fsm = c :: rest)
    (hs : stackOk u.latch.op (c :: rest) = true) (hc : c.callee = some first) :
    ∃ t, resume c r u = .next t ∧ t.remaining ≤ stackWeight u.params u.work u.lcount (c :: rest) + 1 := by
  have hq : c ∈ [Label.s1, .g1, .t1, .w1, .b1] ∨ c ∈ [Label.sc, .gc, .tc, .wc] ∨ c.ownOnly = true := by
    cases c <;> first | decide | cases hc
  rcases hq with hq | hq | hq
  · simp only [List.mem_cons, List.not_mem_nil, or_false] at hq
    rcases hq with rfl | rfl | rfl | rfl | rfl <;>
      exact ⟨_, rfl, remaining_goto_le hs hf rfl (by simp [Label.opened, Label.callee, stackWeight, Label.weight])⟩
  · simp only [List.mem_cons, List.not_mem_nil, or_false] at hq
    rcases hq with rfl | rfl | rfl | rfl <;>
      exact ⟨_, rfl, remaining_goto_le (u := { u with work := { u.work with e := .busCollision } }) hs hf rfl (by simp [Label.opened, Label.callee, stackWeight, Label.weight])⟩
  · obtain rfl := stackOk_ownOnly hq hs
    cases c <;> simp only [Label.callee, reduceCtorEq] at hc <;> first | (exact absurd hq (by decide)) | skip
    case d7a =>
      have hu : (State.unwind .commFail (u.keepR r)).remaining ≤ stackWeight u.params u.work u.lcount [Label.d7a] + 1 := by
        rw [remaining_unwind]
        simp only [keepR_params, keepR_fsm, hf, List.tail_cons, stackWeight, Label.weight]
        omega
      have hb : ∀ b, (State.goto .d7b { u.keepR r with work := { (u.keepR r).work with b := b } }).remaining ≤
          stackWeight u.params u.work u.lcount [Label.d7a] + 1 := by
        intro b
        rw [remaining_goto]
        show stackWeight u.params _ u.lcount (Label.opened .d7b) + stackWeight u.params _ u.lcount u.fsm.tail + 1 ≤ _
        rw [hf]
        simp [stackWeight, Label.opened, Label.callee, Label.weight]
      cases r <;> first | exact ⟨_, rfl, hu⟩ | exact ⟨_, rfl, hb _⟩
    case d6 =>
      have hl := remaining_readLoop ((u.keepW r).startLoop) (by simp [hf])
      have hu := remaining_unwind .commFail (u.keepW r)
      simp only [keepW_params, keepW_fsm, hf, List.tail_cons, stackWeight] at hu
      refine ⟨_, rfl, ?_⟩
      split
      · refine Nat.le_trans hl ?_
        simp [State.keepW, State.startLoop, State.lcount, stackWeight, Label.weight]
      · rw [hu]
        simp only [stackWeight, Label.weight]
        omega
    case x4 =>
      have hl := remaining_writeLoop ((u.keepW r).startLoop) (by simp [hf])
      have hu := remaining_unwind .commFail (u.keepW r)
      simp only [keepW_params, keepW_fsm, hf, List.tail_cons, stackWeight] at hu
      refine ⟨_, rfl, ?_⟩
      split
      · refine Nat.le_trans hl ?_
        simp [State.keepW, State.startLoop, State.lcount, stackWeight, Label.weight]
      · rw [hu]
        simp only [stackWeight, Label.weight]
        omega
    case x5b =>
      have hl := remaining_writeLoop ((u.keepW r).nextByte) (by simp [hf])
      have hu := remaining_unwind .commFail (u.keepW r)
      simp only [keepW_params, keepW_fsm, hf, List.tail_cons, stackWeight] at hu
      refine ⟨_, rfl, ?_⟩
      split
      · refine Nat.le_trans hl ?_
        simp [State.keepW, State.nextByte, State.lcount, stackWeight, Label.weight]
      · rw [hu]
        simp only [stackWeight, Label.weight]
        omega
    all_goals
      refine ⟨_, rfl, ?_⟩
      try simp only [State.pollClassify, State.afterAddr, State.toExit]
      (repeat' split) <;>
        simp [remaining_goto, remaining_unwind, hf, stackWeight, Label.opened, Label.callee, Label.weight, requestBound, wrbyteBound,
          rdbyteBound, State.keepR, State.keepW, State.keepT, State.withAddrWrite, State.withAddrRead, State.withSub, State.withV, State.lcount] <;>
        omega

/-- `finish` goes on, and leaves the weight of the labels below. -/
theorem finish_decreases {u : State} {l : Label} {rest : List Label} (r : Result) (hf : u.fsm = l :: rest)
    (hs : stackOk u.latch.op (l :: rest) = true) :
    ∃ t, u.finish r = .next t ∧ t.remaining ≤ stackWeight u.params u.work u.lcount rest + 1 := by
  cases rest with
  | nil => exact ⟨_, by unfold State.finish; rw [hf], Nat.le_refl _⟩
  | cons c rest =>
    obtain ⟨first, hc, -⟩ := stackOk_callee hs
    obtain ⟨t, ht, hr⟩ := resume_decreases (u := { u with fsm := c :: rest }) r rfl (stackOk_tail hs) hc
    exact ⟨t, by unfold State.finish; rw [hf]; exact ht, hr⟩

theorem At.remaining {s : State} {l : Label} {rest : List Label} (h : At s l rest) :
    s.remaining = l.weight s.params s.work s.lcount + stackWeight s.params s.work s.lcount rest + 1 := by
  unfold State.remaining
  rw [h.fsm]
  rfl

/-- A `goto` to a label of smaller weight brings the command nearer to its `Complete`. -/
theorem goto_nearer {s u : State} {l m : Label} {rest : List Label} (h : At s l rest) (hp : u.params = s.params)
    (hl : u.latch = s.latch) (hi : u.work.i = s.work.i) (hf : u.fsm = s.fsm)
    (hm : stackWeight s.params u.work s.lcount m.opened < l.weight s.params s.work s.lcount) :
    (u.goto m).remaining < s.remaining := by
  have hc : u.lcount = s.lcount := by simp only [State.lcount, hl]
  have hs := h.stack
  rw [← hl] at hs
  have := remaining_goto_le (m := m) hs (hf.trans h.fsm) hi (Nat.le_refl _)
  rw [hp, hc] at this
  rw [h.remaining]
  omega

/-- So does the end of an operation. -/
theorem finish_nearer {s u : State} {l : Label} {rest : List Label} (h : At s l rest) (r : Result) (hp : u.params = s.params)
    (hl : u.latch = s.latch) (hi : u.work.i = s.work.i) (hf : u.fsm = s.fsm)
    (hw : 0 < l.weight s.params s.work s.lcount) : ∃ t, u.finish r = .next t ∧ t.remaining < s.remaining := by
  have hc : u.lcount = s.lcount := by simp only [State.lcount, hl]
  have hs := h.stack
  rw [← hl] at hs
  obtain ⟨t, ht, hr⟩ := finish_decreases r (hf.trans h.fsm) hs
  refine ⟨t, ht, ?_⟩
  rw [hp, hc, stackWeight_calls h.stack s.params hi] at hr
  rw [h.remaining]
  omega

/-- One read of a bounded poll. -/
theorem pollUntil_nearer {s : State} {l m : Label} {rest : List Label} {read : State → State} {done : State → Bool} {n : Nat}
    {e : Result} (h : At s l rest) (hp : (read s).countPoll.params = s.params) (hl : (read s).countPoll.latch = s.latch)
    (hi : (read s).countPoll.work.i = s.work.i) (hf : (read s).countPoll.fsm = s.fsm)
    (hm : ∀ w : Work, w.k = 0 ∨ w.k = (read s).countPoll.work.k → stackWeight s.params w s.lcount m.opened < l.weight s.params s.work s.lcount)
    (hpf : 1 < l.weight s.params s.work s.lcount)
    (hk : l.weight s.params (read s).countPoll.work s.lcount < l.weight s.params s.work s.lcount) :
    (pollUntil read done n (State.goto m) (State.toPf e) s).remaining < s.remaining := by
  unfold pollUntil
  generalize hu : (read s).countPoll = u at *
  dsimp only
  split
  · exact goto_nearer h hp hl hi hf (hm _ (.inr rfl))
  · split
    · exact goto_nearer (u := { u with work := { u.work with e := e } }) h hp hl hi hf (by simpa [Label.opened, Label.callee, stackWeight, Label.weight] using hpf)
    · have hc : u.lcount = s.lcount := by simp only [State.lcount, hl]
      unfold State.remaining
      rw [hf, h.fsm]
      simp only [stackWeight, hp, hc, stackWeight_calls h.stack s.params hi]
      omega

/-- Every Engine action succeeds, and brings the command nearer to its `Complete`. -/
theorem act_decreases {s : State} (h : s.Inv) (hb : s.busy = true) : ∃ t, act s = .next t ∧ t.remaining < s.remaining := by
  have hbusy := h.busy
  have htop := h.position.2
  unfold act
  cases hf : s.fsm with
  | nil => rw [State.BusyOk, hb, hf] at hbusy; cases hbusy
  | cons l rest =>
    rw [hf] at htop
    have hA := h.at hf
    have hT := h.topAt hf
    dsimp only
    cases l
    case i1 => exact ⟨_, rfl, goto_nearer hA rfl rfl rfl rfl (by simp [Label.opened, Label.callee, stackWeight, Label.weight, requestBound, wrbyteBound, rdbyteBound, recoverBound]; try omega)⟩
    case i2 => exact ⟨_, rfl, goto_nearer hA rfl rfl rfl rfl (by simp [Label.opened, Label.callee, stackWeight, Label.weight, requestBound, wrbyteBound, rdbyteBound, recoverBound]; try omega)⟩
    case m1 => exact ⟨_, rfl, goto_nearer hA rfl rfl rfl rfl (by simp [Label.opened, Label.callee, stackWeight, Label.weight, requestBound, wrbyteBound, rdbyteBound, recoverBound]; try omega)⟩
    case m2 => exact ⟨_, rfl, goto_nearer hA rfl rfl rfl rfl (by simp [Label.opened, Label.callee, stackWeight, Label.weight, requestBound, wrbyteBound, rdbyteBound, recoverBound]; try omega)⟩
    case m3 => exact ⟨_, rfl, goto_nearer hA rfl rfl rfl rfl (by simp [Label.opened, Label.callee, stackWeight, Label.weight, requestBound, wrbyteBound, rdbyteBound, recoverBound]; try omega)⟩
    case e1 => exact ⟨_, rfl, goto_nearer hA rfl rfl rfl rfl (by simp [Label.opened, Label.callee, stackWeight, Label.weight, requestBound, wrbyteBound, rdbyteBound, recoverBound]; try omega)⟩
    case q1 => exact ⟨_, rfl, goto_nearer hA rfl rfl rfl rfl (by simp [Label.opened, Label.callee, stackWeight, Label.weight, requestBound, wrbyteBound, rdbyteBound, recoverBound]; try omega)⟩
    case v1 => exact ⟨_, rfl, goto_nearer hA rfl rfl rfl rfl (by simp [Label.opened, Label.callee, stackWeight, Label.weight, requestBound, wrbyteBound, rdbyteBound, recoverBound]; try omega)⟩
    case v2 => exact ⟨_, rfl, goto_nearer hA rfl rfl rfl rfl (by simp [Label.opened, Label.callee, stackWeight, Label.weight, requestBound, wrbyteBound, rdbyteBound, recoverBound]; try omega)⟩
    case v3 => exact ⟨_, rfl, goto_nearer hA rfl rfl rfl rfl (by simp [Label.opened, Label.callee, stackWeight, Label.weight, requestBound, wrbyteBound, rdbyteBound, recoverBound]; try omega)⟩
    case v4 => exact ⟨_, rfl, goto_nearer hA rfl rfl rfl rfl (by simp [Label.opened, Label.callee, stackWeight, Label.weight, requestBound, wrbyteBound, rdbyteBound, recoverBound]; try omega)⟩
    case v6b => exact ⟨_, rfl, goto_nearer hA rfl rfl rfl rfl (by simp [Label.opened, Label.callee, stackWeight, Label.weight, requestBound, wrbyteBound, rdbyteBound, recoverBound]; try omega)⟩
    case v6c => exact ⟨_, rfl, goto_nearer hA rfl rfl rfl rfl (by simp [Label.opened, Label.callee, stackWeight, Label.weight, requestBound, wrbyteBound, rdbyteBound, recoverBound]; try omega)⟩
    case v6d => exact ⟨_, rfl, goto_nearer hA rfl rfl rfl rfl (by simp [Label.opened, Label.callee, stackWeight, Label.weight, requestBound, wrbyteBound, rdbyteBound, recoverBound]; try omega)⟩
    case v7 => exact ⟨_, rfl, goto_nearer hA rfl rfl rfl rfl (by simp [Label.opened, Label.callee, stackWeight, Label.weight, requestBound, wrbyteBound, rdbyteBound, recoverBound]; try omega)⟩
    case v9 => exact ⟨_, rfl, goto_nearer hA rfl rfl rfl rfl (by simp [Label.opened, Label.callee, stackWeight, Label.weight, requestBound, wrbyteBound, rdbyteBound, recoverBound]; try omega)⟩
    case v10 => exact ⟨_, rfl, goto_nearer hA rfl rfl rfl rfl (by simp [Label.opened, Label.callee, stackWeight, Label.weight, requestBound, wrbyteBound, rdbyteBound, recoverBound]; try omega)⟩
    case v11 => exact ⟨_, rfl, goto_nearer hA rfl rfl rfl rfl (by simp [Label.opened, Label.callee, stackWeight, Label.weight, requestBound, wrbyteBound, rdbyteBound, recoverBound]; try omega)⟩
    case v12 => exact ⟨_, rfl, goto_nearer hA rfl rfl rfl rfl (by simp [Label.opened, Label.callee, stackWeight, Label.weight, requestBound, wrbyteBound, rdbyteBound, recoverBound]; try omega)⟩
    case v13 => exact ⟨_, rfl, goto_nearer hA rfl rfl rfl rfl (by simp [Label.opened, Label.callee, stackWeight, Label.weight, requestBound, wrbyteBound, rdbyteBound, recoverBound]; try omega)⟩
    case v15 => exact ⟨_, rfl, goto_nearer hA rfl rfl rfl rfl (by simp [Label.opened, Label.callee, stackWeight, Label.weight, requestBound, wrbyteBound, rdbyteBound, recoverBound]; try omega)⟩
    case s2 => exact ⟨_, rfl, goto_nearer hA rfl rfl rfl rfl (by simp [Label.opened, Label.callee, stackWeight, Label.weight, requestBound, wrbyteBound, rdbyteBound, recoverBound]; try omega)⟩
    case g2 => exact ⟨_, rfl, goto_nearer hA rfl rfl rfl rfl (by simp [Label.opened, Label.callee, stackWeight, Label.weight, requestBound, wrbyteBound, rdbyteBound, recoverBound]; try omega)⟩
    case t2 => exact ⟨_, rfl, goto_nearer hA rfl rfl rfl rfl (by simp [Label.opened, Label.callee, stackWeight, Label.weight, requestBound, wrbyteBound, rdbyteBound, recoverBound]; try omega)⟩
    case w3 => exact ⟨_, rfl, goto_nearer hA rfl rfl rfl rfl (by simp [Label.opened, Label.callee, stackWeight, Label.weight, requestBound, wrbyteBound, rdbyteBound, recoverBound]; try omega)⟩
    case b2 => exact ⟨_, rfl, goto_nearer hA rfl rfl rfl rfl (by simp [Label.opened, Label.callee, stackWeight, Label.weight, requestBound, wrbyteBound, rdbyteBound, recoverBound]; try omega)⟩
    case b3 => exact ⟨_, rfl, goto_nearer hA rfl rfl rfl rfl (by simp [Label.opened, Label.callee, stackWeight, Label.weight, requestBound, wrbyteBound, rdbyteBound, recoverBound]; try omega)⟩
    case b5 => exact ⟨_, rfl, goto_nearer hA rfl rfl rfl rfl (by simp [Label.opened, Label.callee, stackWeight, Label.weight, requestBound, wrbyteBound, rdbyteBound, recoverBound]; try omega)⟩
    case i3 => exact finish_nearer hA _ rfl rfl rfl rfl (by simp [Label.weight])
    case m4 => exact finish_nearer hA _ rfl rfl rfl rfl (by simp [Label.weight])
    case e2 => exact finish_nearer hA _ rfl rfl rfl rfl (by simp [Label.weight])
    case v16 => exact finish_nearer hA _ rfl rfl rfl rfl (by simp [Label.weight])
    case vf => exact finish_nearer hA _ rfl rfl rfl rfl (by simp [Label.weight])
    case pf => exact finish_nearer hA _ rfl rfl rfl rfl (by simp [Label.weight])
    case p6 => exact finish_nearer hA _ rfl rfl rfl rfl (by simp [Label.weight])
    case px => exact finish_nearer hA _ rfl rfl rfl rfl (by simp [Label.weight])
    case d9 => exact finish_nearer hA _ rfl rfl rfl rfl (by simp [Label.weight])
    case dx => exact finish_nearer hA _ rfl rfl rfl rfl (by simp [Label.weight])
    case x7 => exact finish_nearer hA _ rfl rfl rfl rfl (by simp [Label.weight])
    case xx => exact finish_nearer hA _ rfl rfl rfl rfl (by simp [Label.weight])
    case u2 => exact finish_nearer hA _ rfl rfl rfl rfl (by simp [Label.weight])
    case b8 => exact finish_nearer hA _ rfl rfl rfl rfl (by simp [Label.weight])
    case q2 =>
      show ∃ t, actQ2 s = .next t ∧ _
      unfold actQ2
      split
      · exact ⟨_, rfl, goto_nearer hA rfl rfl rfl rfl (by simp [Label.opened, Label.callee, stackWeight, Label.weight, requestBound, wrbyteBound, rdbyteBound, recoverBound])⟩
      · exact finish_nearer hA _ rfl rfl rfl rfl (by simp [Label.weight])
    case q3 =>
      have hs := hA.stack
      have hc : ∃ c rest' p, rest = c :: rest' ∧ c.prim = some p := by
        cases rest with
        | nil => exact absurd (show s.latch.op ∈ ([] : List (BitVec 4)) from bottomOk_op hs) List.not_mem_nil
        | cons c rest =>
          obtain ⟨first, h1, h2⟩ := stackOk_callee hs
          cases c <;> simp only [Label.callee, Option.some.injEq, reduceCtorEq] at h1 <;> subst h1 <;>
            first | exact ⟨_, _, _, rfl, rfl⟩ | exact absurd h2 (by decide)
      obtain ⟨c, rest', p, rfl, hp⟩ := hc
      have ha : actAt .q3 s = (diag p s).finish .ok := by
        show actQ3 s = _
        unfold actQ3
        rw [hf]
        simp only [hp]
      rw [ha]
      exact finish_nearer hA _ rfl rfl rfl rfl (by simp [Label.weight])
    case v5 =>
      refine ⟨_, rfl, ?_⟩
      split
      · unfold State.recoverLoop
        split
        · exact goto_nearer (u := (lineSense .scl s).startToggles) hA rfl rfl rfl rfl (by simp [Label.opened, Label.callee, stackWeight, Label.weight, requestBound, wrbyteBound, rdbyteBound, recoverBound]; try omega)
        · exact goto_nearer (u := (lineSense .scl s).startToggles) hA rfl rfl rfl rfl (by simp [Label.opened, Label.callee, stackWeight, Label.weight, requestBound, wrbyteBound, rdbyteBound, recoverBound]; try omega)
      · exact goto_nearer (u := { lineSense .scl s with work := { (lineSense .scl s).work with e := .sclLow } }) hA rfl rfl rfl rfl (by simp [Label.opened, Label.callee, stackWeight, Label.weight, requestBound, wrbyteBound, rdbyteBound, recoverBound]; try omega)
    case v6a =>
      have hj : s.work.j < s.params.nRec := by simpa [toggleOk] using hT.toggle
      refine ⟨_, rfl, ?_⟩
      split
      · unfold State.recoverLoop
        split
        · exact goto_nearer (u := (lineSense .sda s).nextToggle) hA rfl rfl rfl rfl (by simp [Label.opened, Label.callee, stackWeight, Label.weight, requestBound, wrbyteBound, rdbyteBound, recoverBound]; try omega)
        · exact goto_nearer (u := (lineSense .sda s).nextToggle) hA rfl rfl rfl rfl (by simp [Label.opened, Label.callee, stackWeight, Label.weight, requestBound, wrbyteBound, rdbyteBound, recoverBound]; try omega)
      · exact goto_nearer (u := lineSense .sda s) hA rfl rfl rfl rfl (by simp [Label.opened, Label.callee, stackWeight, Label.weight, requestBound, wrbyteBound, rdbyteBound, recoverBound]; try omega)
    case v6e =>
      have hj : s.work.j < s.params.nRec := by simpa [toggleOk] using hT.toggle
      refine ⟨_, rfl, ?_⟩
      unfold State.recoverLoop
      split
      · exact goto_nearer (u := (delay s).nextToggle) hA rfl rfl rfl rfl (by simp [Label.opened, Label.callee, stackWeight, Label.weight, requestBound, wrbyteBound, rdbyteBound, recoverBound]; try omega)
      · exact goto_nearer (u := (delay s).nextToggle) hA rfl rfl rfl rfl (by simp [Label.opened, Label.callee, stackWeight, Label.weight, requestBound, wrbyteBound, rdbyteBound, recoverBound]; try omega)
    case v8 =>
      refine ⟨_, rfl, ?_⟩
      split
      · exact goto_nearer (u := lineSense .sda s) hA rfl rfl rfl rfl (by simp [Label.opened, Label.callee, stackWeight, Label.weight, requestBound, wrbyteBound, rdbyteBound, recoverBound]; try omega)
      · exact goto_nearer (u := { lineSense .sda s with work := { (lineSense .sda s).work with e := .sdaLow } }) hA rfl rfl rfl rfl (by simp [Label.opened, Label.callee, stackWeight, Label.weight, requestBound, wrbyteBound, rdbyteBound, recoverBound]; try omega)
    case v14 =>
      refine ⟨_, rfl, ?_⟩
      split
      · exact goto_nearer (u := { lineSense .sda s with work := { (lineSense .sda s).work with e := .sclLow } }) hA rfl rfl rfl rfl (by simp [Label.opened, Label.callee, stackWeight, Label.weight, requestBound, wrbyteBound, rdbyteBound, recoverBound]; try omega)
      · split
        · exact goto_nearer (u := { lineSense .sda s with work := { (lineSense .sda s).work with e := .sdaLow } }) hA rfl rfl rfl rfl (by simp [Label.opened, Label.callee, stackWeight, Label.weight, requestBound, wrbyteBound, rdbyteBound, recoverBound]; try omega)
        · exact goto_nearer (u := lineSense .sda s) hA rfl rfl rfl rfl (by simp [Label.opened, Label.callee, stackWeight, Label.weight, requestBound, wrbyteBound, rdbyteBound, recoverBound]; try omega)
    case s3 =>
      refine ⟨_, rfl, ?_⟩
      unfold firstCheck
      split
      · exact goto_nearer (u := ctlReadStat s) hA rfl rfl rfl rfl (by simp [Label.opened, Label.callee, stackWeight, Label.weight, requestBound, wrbyteBound, rdbyteBound, recoverBound]; try omega)
      · exact goto_nearer (u := (ctlReadStat s).startPoll) hA rfl rfl rfl rfl (by simp [Label.opened, Label.callee, stackWeight, Label.weight, requestBound, wrbyteBound, rdbyteBound, recoverBound]; try omega)
    case s5 =>
      show ∃ t, secondCheck .sc s = .next t ∧ _
      unfold secondCheck
      split
      · exact ⟨_, rfl, goto_nearer hA rfl rfl rfl rfl (by simp [Label.opened, Label.callee, stackWeight, Label.weight, requestBound, wrbyteBound, rdbyteBound, recoverBound])⟩
      · exact finish_nearer hA _ rfl rfl rfl rfl (by simp [Label.weight])
    case g3 =>
      refine ⟨_, rfl, ?_⟩
      unfold firstCheck
      split
      · exact goto_nearer (u := ctlReadStat s) hA rfl rfl rfl rfl (by simp [Label.opened, Label.callee, stackWeight, Label.weight, requestBound, wrbyteBound, rdbyteBound, recoverBound]; try omega)
      · exact goto_nearer (u := (ctlReadStat s).startPoll) hA rfl rfl rfl rfl (by simp [Label.opened, Label.callee, stackWeight, Label.weight, requestBound, wrbyteBound, rdbyteBound, recoverBound]; try omega)
    case g5 =>
      show ∃ t, secondCheck .gc s = .next t ∧ _
      unfold secondCheck
      split
      · exact ⟨_, rfl, goto_nearer hA rfl rfl rfl rfl (by simp [Label.opened, Label.callee, stackWeight, Label.weight, requestBound, wrbyteBound, rdbyteBound, recoverBound])⟩
      · exact finish_nearer hA _ rfl rfl rfl rfl (by simp [Label.weight])
    case t3 =>
      refine ⟨_, rfl, ?_⟩
      unfold firstCheck
      split
      · exact goto_nearer (u := ctlReadStat s) hA rfl rfl rfl rfl (by simp [Label.opened, Label.callee, stackWeight, Label.weight, requestBound, wrbyteBound, rdbyteBound, recoverBound]; try omega)
      · exact goto_nearer (u := (ctlReadStat s).startPoll) hA rfl rfl rfl rfl (by simp [Label.opened, Label.callee, stackWeight, Label.weight, requestBound, wrbyteBound, rdbyteBound, recoverBound]; try omega)
    case t5 =>
      show ∃ t, secondCheck .tc s = .next t ∧ _
      unfold secondCheck
      split
      · exact ⟨_, rfl, goto_nearer hA rfl rfl rfl rfl (by simp [Label.opened, Label.callee, stackWeight, Label.weight, requestBound, wrbyteBound, rdbyteBound, recoverBound])⟩
      · exact finish_nearer hA _ rfl rfl rfl rfl (by simp [Label.weight])
    case s4 =>
      have hk : s.work.k < s.params.nCtl := by simpa [pollOk] using hT.poll
      refine ⟨_, rfl, pollUntil_nearer (read := ctlReadCon) hA rfl rfl rfl rfl (fun w hw => ?_) ?_ ?_⟩ <;>
        simp [Label.opened, Label.callee, stackWeight, Label.weight, requestBound, wrbyteBound, rdbyteBound, recoverBound] <;> omega
    case g4 =>
      have hk : s.work.k < s.params.nCtl := by simpa [pollOk] using hT.poll
      refine ⟨_, rfl, pollUntil_nearer (read := ctlReadCon) hA rfl rfl rfl rfl (fun w hw => ?_) ?_ ?_⟩ <;>
        simp [Label.opened, Label.callee, stackWeight, Label.weight, requestBound, wrbyteBound, rdbyteBound, recoverBound] <;> omega
    case t4 =>
      have hk : s.work.k < s.params.nCtl := by simpa [pollOk] using hT.poll
      refine ⟨_, rfl, pollUntil_nearer (read := ctlReadCon) hA rfl rfl rfl rfl (fun w hw => ?_) ?_ ?_⟩ <;>
        simp [Label.opened, Label.callee, stackWeight, Label.weight, requestBound, wrbyteBound, rdbyteBound, recoverBound] <;> omega
    case b6 =>
      have hk : s.work.k < s.params.nCtl := by simpa [pollOk] using hT.poll
      refine ⟨_, rfl, pollUntil_nearer (read := ctlReadCon) hA rfl rfl rfl rfl (fun w hw => ?_) ?_ ?_⟩ <;>
        simp [Label.opened, Label.callee, stackWeight, Label.weight, requestBound, wrbyteBound, rdbyteBound, recoverBound] <;> omega
    case w4 =>
      have hk : s.work.k < s.params.nXfer := by simpa [pollOk] using hT.poll
      refine ⟨_, rfl, pollUntil_nearer (read := ctlReadStat) hA rfl rfl rfl rfl (fun w hw => ?_) ?_ ?_⟩ <;>
        simp [Label.opened, Label.callee, stackWeight, Label.weight, requestBound, wrbyteBound, rdbyteBound, recoverBound] <;> omega
    case b4 =>
      have hk : s.work.k < s.params.nXfer := by simpa [pollOk] using hT.poll
      refine ⟨_, rfl, pollUntil_nearer (read := ctlReadStat) hA rfl rfl rfl rfl (fun w hw => ?_) ?_ ?_⟩ <;>
        simp [Label.opened, Label.callee, stackWeight, Label.weight, requestBound, wrbyteBound, rdbyteBound, recoverBound] <;> omega
    case w2 =>
      refine ⟨_, rfl, ?_⟩
      split
      · exact goto_nearer (u := { ctlReadStat s with work := { (ctlReadStat s).work with e := .transmitBufferFull } }) hA rfl rfl rfl rfl (by simp [Label.opened, Label.callee, stackWeight, Label.weight, requestBound, wrbyteBound, rdbyteBound, recoverBound]; try omega)
      · exact goto_nearer (u := ctlReadStat s) hA rfl rfl rfl rfl (by simp [Label.opened, Label.callee, stackWeight, Label.weight, requestBound, wrbyteBound, rdbyteBound, recoverBound]; try omega)
    case b7 =>
      refine ⟨_, rfl, ?_⟩
      split
      · exact goto_nearer (u := { ctlReadStat s with work := { (ctlReadStat s).work with e := .receiveOverflow } }) hA rfl rfl rfl rfl (by simp [Label.opened, Label.callee, stackWeight, Label.weight, requestBound, wrbyteBound, rdbyteBound, recoverBound]; try omega)
      · exact goto_nearer (u := ctlReadStat s) hA rfl rfl rfl rfl (by simp [Label.opened, Label.callee, stackWeight, Label.weight, requestBound, wrbyteBound, rdbyteBound, recoverBound]; try omega)
    case w5 =>
      show ∃ t, actW5 s = .next t ∧ _
      unfold actW5
      split
      · exact ⟨_, rfl, goto_nearer hA rfl rfl rfl rfl (by simp [Label.opened, Label.callee, stackWeight, Label.weight, requestBound, wrbyteBound, rdbyteBound, recoverBound])⟩
      · split
        · exact ⟨_, rfl, goto_nearer (u := { ctlReadStat s with work := { (ctlReadStat s).work with e := .nak } }) hA rfl rfl rfl rfl (by simp [Label.opened, Label.callee, stackWeight, Label.weight, requestBound, wrbyteBound, rdbyteBound, recoverBound])⟩
        · exact finish_nearer hA _ rfl rfl rfl rfl (by simp [Label.weight])
    case p1 =>
      refine ⟨_, rfl, ?_⟩
      split
      · exact goto_nearer (u := dirtyRead s) hA rfl rfl rfl rfl (by simp [Label.opened, Label.callee, stackWeight, Label.weight, requestBound, wrbyteBound, rdbyteBound, recoverBound]; try omega)
      · exact goto_nearer (u := dirtyRead s) hA rfl rfl rfl rfl (by simp [Label.opened, Label.callee, stackWeight, Label.weight, requestBound, wrbyteBound, rdbyteBound, recoverBound]; try omega)
    case d1 =>
      refine ⟨_, rfl, ?_⟩
      split
      · exact goto_nearer (u := { dirtyRead s with work := { (dirtyRead s).work with xe := .busDirty } }) hA rfl rfl rfl rfl (by simp [Label.opened, Label.callee, stackWeight, Label.weight, requestBound, wrbyteBound, rdbyteBound, recoverBound]; try omega)
      · exact goto_nearer (u := dirtyRead s) hA rfl rfl rfl rfl (by simp [Label.opened, Label.callee, stackWeight, Label.weight, requestBound, wrbyteBound, rdbyteBound, recoverBound]; try omega)
    case x1 =>
      refine ⟨_, rfl, ?_⟩
      split
      · exact goto_nearer (u := { dirtyRead s with work := { (dirtyRead s).work with xe := .busDirty } }) hA rfl rfl rfl rfl (by simp [Label.opened, Label.callee, stackWeight, Label.weight, requestBound, wrbyteBound, rdbyteBound, recoverBound]; try omega)
      · exact goto_nearer (u := dirtyRead s) hA rfl rfl rfl rfl (by simp [Label.opened, Label.callee, stackWeight, Label.weight, requestBound, wrbyteBound, rdbyteBound, recoverBound]; try omega)
    case d7b =>
      obtain rfl := stackOk_ownOnly (by decide) hA.stack
      have hop : s.latch.op = 0x4#4 := List.mem_singleton.1 (show _ ∈ [0x4#4] from bottomOk_op hA.stack)
      have hn : s.work.nx = s.work.i ∧ s.work.i < s.lcount := by simpa [State.countsOk] using (h.ownAt hf).counts
      have hr : Memory.inRange s.work.i = true := decide_eq_true (Nat.lt_of_lt_of_le hn.2 (h.cap hb (by simp [hop])))
      refine ⟨(State.record (.memWrite s.work.i s.work.b) { s with buf := Memory.write s.buf s.work.i s.work.b }).nextByte.readLoop,
        by show andThen (memWrite s) _ = _; rw [memWrite, if_pos hr]; rfl, ?_⟩
      refine Nat.lt_of_le_of_lt (remaining_readLoop _ (by simp [hf])) ?_
      rw [hA.remaining]
      simp only [stackWeight, Label.weight]
      show requestBound s.params + (s.lcount - (s.work.i + 1)) * (rdbyteBound s.params + 1) + 2 < _
      omega
    case x5a =>
      obtain rfl := stackOk_ownOnly (by decide) hA.stack
      have hop : s.latch.op = 0x5#4 := List.mem_singleton.1 (show _ ∈ [0x5#4] from bottomOk_op hA.stack)
      have hn : s.work.nx = s.work.i ∧ s.work.i < s.lcount := by simpa [State.countsOk] using (h.ownAt hf).counts
      have hr : Memory.inRange s.work.i = true := decide_eq_true (Nat.lt_of_lt_of_le hn.2 (h.cap hb (by simp [hop])))
      refine ⟨State.goto .x5b (State.record (.memRead s.work.i (Memory.read s.buf s.work.i))
        { s with work := { s.work with v := Memory.read s.buf s.work.i } }),
        by show andThen (memRead s) _ = _; rw [memRead, if_pos hr]; rfl, ?_⟩
      exact goto_nearer hA rfl rfl rfl rfl (by simp [Label.opened, Label.callee, stackWeight, Label.weight, requestBound, wrbyteBound, rdbyteBound, recoverBound]; try omega)
    case fin =>
      refine ⟨_, rfl, ?_⟩
      rw [hA.remaining]
      show 0 < _
      omega
    all_goals exact absurd (show topOk _ = true from htop) (by simp [topOk, Label.callee])

end Sys2Proof.Machine
end

