-- ==== Sys2Proof/Laws/Frames.lean ====
section
/-! SUPPORT. What the Engine never touches, and that each action is one entry of the history (spec/10_state.md R49); then the run of a command over an ordinary schedule ends with the command completed (`run_completes`). -/

namespace Sys2Proof.Machine

/-- t agrees with s in everything the Host and the platform own, and in what the command latched. -/
structure SameHost (s t : State) : Prop where
  cmd : t.cmd = s.cmd
  count : t.count = s.count
  hostErr : t.hostErr = s.hostErr
  latch : t.latch = s.latch
  params : t.params = s.params
  inputs : t.inputs = s.inputs
  hostLog : t.hostLog = s.hostLog

theorem SameHost.trans {s t u : State} (h : SameHost s t) (h' : SameHost t u) : SameHost s u :=
  ⟨h'.cmd.trans h.cmd, h'.count.trans h.count, h'.hostErr.trans h.hostErr, h'.latch.trans h.latch, h'.params.trans h.params,
    h'.inputs.trans h.inputs, h'.hostLog.trans h.hostLog⟩

/-- What `SameHost` compares, as one value. -/
def State.hostOwned (s : State) : Word × BitVec 16 × Bool × Latch × Params × List Event × List Word :=
  (s.cmd, s.count, s.hostErr, s.latch, s.params, s.inputs, s.hostLog)

theorem SameHost.of {s t : State} (h : t.hostOwned = s.hostOwned) : SameHost s t := by
  simp only [State.hostOwned, Prod.mk.injEq] at h
  obtain ⟨hc, hn, he, hl, hp, hi, hg⟩ := h
  exact { cmd := hc, count := hn, hostErr := he, latch := hl, params := hp, inputs := hi, hostLog := hg }

/-- A step that takes no action: the machine's sequencing alone. -/
structure Sequencing (s t : State) : Prop where
  host : SameHost s t
  hist : t.hist = s.hist
  res : t.res = s.res
  busy : t.busy = s.busy
  dirty : t.dirty = s.dirty
  buf : t.buf = s.buf
  con : t.con = s.con
  stat : t.stat = s.stat
  trn : t.trn = s.trn
  rcv : t.rcv = s.rcv
  brg : t.brg = s.brg
  line : t.line = s.line
  draws : t.draws = s.draws

theorem sequencing_of (s : State) (f : List Label) (w : Work) : Sequencing s { s with fsm := f, work := w } :=
  { host := SameHost.of rfl
    hist := rfl, res := rfl, busy := rfl, dirty := rfl, buf := rfl, con := rfl, stat := rfl, trn := rfl, rcv := rfl
    brg := rfl, line := rfl, draws := rfl }

theorem goto_sequencing (l : Label) (s : State) : Sequencing s (s.goto l) := sequencing_of s _ _

theorem resume_sequencing {c : Label} {r : Result} {s t : State} (h : resume c r s = .next t) : Sequencing s t := by
  cases c <;> simp only [resume, reduceCtorEq] at h
  case d7a => cases r <;> cases h <;> exact sequencing_of s _ _
  all_goals
    cases h
    try simp only [State.pollClassify, State.afterAddr, State.readLoop, State.writeLoop]
    (repeat' split) <;> exact sequencing_of s _ _

theorem finish_sequencing {r : Result} {s t : State} (h : s.finish r = .next t) : Sequencing s t := by
  unfold State.finish at h
  split at h
  · cases h
  · cases h; exact sequencing_of s _ _
  · have := resume_sequencing h
    exact ⟨⟨this.host.cmd, this.host.count, this.host.hostErr, this.host.latch, this.host.params, this.host.inputs, this.host.hostLog⟩,
      this.hist, this.res, this.busy, this.dirty, this.buf, this.con, this.stat, this.trn, this.rcv, this.brg, this.line, this.draws⟩

/-- An action records itself, and leaves alone what the Host and the platform own. -/
structure Acts (s t : State) : Prop where
  hist : ∃ a, t.hist = a :: s.hist
  host : SameHost s t

theorem Acts.seq {s u t : State} (h : Acts s u) (hs : Sequencing u t) : Acts s t :=
  ⟨h.hist.imp fun _ ha => hs.hist.trans ha, h.host.trans hs.host⟩

theorem Acts.finish {s u t : State} {r : Result} (ht : u.finish r = .next t) (h : Acts s u) : Acts s t :=
  h.seq (finish_sequencing ht)

theorem actQ2_acts {s t : State} (h : actQ2 s = .next t) : Acts s t := by
  unfold actQ2 at h
  split at h
  · cases h; exact ⟨⟨_, rfl⟩, .of rfl⟩
  · exact Acts.finish h ⟨⟨_, rfl⟩, .of rfl⟩

theorem actQ3_acts {s t : State} (h : actQ3 s = .next t) : Acts s t := by
  unfold actQ3 at h
  split at h
  · split at h
    · exact Acts.finish h ⟨⟨_, rfl⟩, .of rfl⟩
    · cases h
  · cases h

theorem secondCheck_acts {s t : State} {l : Label} (h : secondCheck l s = .next t) : Acts s t := by
  unfold secondCheck at h
  split at h
  · cases h; exact ⟨⟨_, rfl⟩, .of rfl⟩
  · exact Acts.finish h ⟨⟨_, rfl⟩, .of rfl⟩

theorem actW5_acts {s t : State} (h : actW5 s = .next t) : Acts s t := by
  unfold actW5 at h
  split at h
  · cases h; exact ⟨⟨_, rfl⟩, .of rfl⟩
  · split at h
    · cases h; exact ⟨⟨_, rfl⟩, .of rfl⟩
    · exact Acts.finish h ⟨⟨_, rfl⟩, .of rfl⟩

theorem firstCheck_acts (l m : Label) (s : State) : Acts s (firstCheck l m s) := by
  unfold firstCheck; split <;> exact ⟨⟨_, rfl⟩, .of rfl⟩

theorem pollUntil_acts {read onDone onTimeout : State → State} {done : State → Bool} {n : Nat} {s : State}
    (hr : Acts s (read s).countPoll) (hd : ∀ u, Sequencing u (onDone u)) (ht : ∀ u, Sequencing u (onTimeout u)) :
    Acts s (pollUntil read done n onDone onTimeout s) := by
  unfold pollUntil
  dsimp only
  split
  · exact hr.seq (hd _)
  · split
    · exact hr.seq (ht _)
    · exact hr

theorem toPf_sequencing (e : Result) (s : State) : Sequencing s (s.toPf e) := sequencing_of s _ _

theorem recoverLoop_sequencing (s : State) : Sequencing s s.recoverLoop := by
  unfold State.recoverLoop; split <;> exact goto_sequencing _ _

theorem readLoop_sequencing (s : State) : Sequencing s s.readLoop := by
  unfold State.readLoop; split <;> exact sequencing_of _ _ _

theorem actD7b_acts {s t : State} (h : actD7b s = .next t) : Acts s t := by
  unfold actD7b memWrite at h
  by_cases hr : Memory.inRange s.work.i = true
  · rw [if_pos hr] at h
    cases h
    exact (show Acts s (State.nextByte (State.record (.memWrite s.work.i s.work.b) { s with buf := Memory.write s.buf s.work.i s.work.b })) from
      ⟨⟨_, rfl⟩, .of rfl⟩).seq (readLoop_sequencing _)
  · rw [if_neg hr] at h; cases h

theorem actX5a_acts {s t : State} (h : actX5a s = .next t) : Acts s t := by
  unfold actX5a memRead at h
  by_cases hr : Memory.inRange s.work.i = true
  · rw [if_pos hr] at h
    cases h
    exact ⟨⟨_, rfl⟩, .of rfl⟩
  · rw [if_neg hr] at h; cases h

/-- Every Engine action records itself, and leaves alone what the Host and the platform own. -/
theorem actAt_acts {s t : State} {l : Label} (h : actAt l s = .next t) : Acts s t := by
  cases l
  case q2 => exact actQ2_acts h
  case q3 => exact actQ3_acts h
  case s5 | g5 | t5 => exact secondCheck_acts h
  case w5 => exact actW5_acts h
  case d7b => exact actD7b_acts h
  case x5a => exact actX5a_acts h
  case s3 | g3 | t3 => cases h; exact firstCheck_acts _ _ _
  case s4 | g4 | t4 | b6 | w4 | b4 =>
    cases h
    exact pollUntil_acts ⟨⟨_, rfl⟩, .of rfl⟩ (goto_sequencing _) (toPf_sequencing _)
  case v5 => cases h; split <;> [exact (show Acts s (lineSense .scl s).startToggles from ⟨⟨_, rfl⟩, .of rfl⟩).seq (recoverLoop_sequencing _); exact ⟨⟨_, rfl⟩, .of rfl⟩]
  case v6a => cases h; split <;> [exact (show Acts s (lineSense .sda s).nextToggle from ⟨⟨_, rfl⟩, .of rfl⟩).seq (recoverLoop_sequencing _); exact ⟨⟨_, rfl⟩, .of rfl⟩]
  case v6e => cases h; exact (show Acts s (delay s).nextToggle from ⟨⟨_, rfl⟩, .of rfl⟩).seq (recoverLoop_sequencing _)
  case v8 | w2 | b7 | p1 | d1 | x1 => cases h; split <;> exact ⟨⟨_, rfl⟩, .of rfl⟩
  case v14 => cases h; split <;> [exact ⟨⟨_, rfl⟩, .of rfl⟩; (split <;> exact ⟨⟨_, rfl⟩, .of rfl⟩)]
  case i3 | m4 | e2 | v16 | vf | pf | p6 | px | d9 | dx | x7 | xx | u2 | b8 => exact Acts.finish h ⟨⟨_, rfl⟩, .of rfl⟩
  all_goals first
    | (cases h; done)
    | (cases h; exact ⟨⟨_, rfl⟩, .of rfl⟩)

/-- `act`, the same. -/
theorem act_acts {s t : State} (h : act s = .next t) : Acts s t := by
  unfold act at h
  split at h
  · cases h
  · exact actAt_acts h

/-! ## A run over an ordinary schedule -/

theorem hostWrite_remaining (off : BitVec 9) (w : Word) (s : State) : (hostWrite off w s).remaining = s.remaining := by
  unfold hostWrite
  split <;> (try split) <;> rfl

theorem hostWrite_inputs (off : BitVec 9) (w : Word) (s : State) : (hostWrite off w s).inputs = s.inputs := by
  unfold hostWrite
  split <;> (try split) <;> rfl

/-- One agent's step uses up an event of the schedule or an action of the command. -/
theorem tick_nearer {s : State} (h : s.Inv) (hb : s.busy = true) (ho : ordinary s.inputs) :
    ∃ t, tick s = .next t ∧ ordinary t.inputs ∧ t.inputs.length + t.remaining < s.inputs.length + s.remaining := by
  have hact : ∀ u : State, u.Inv → u.busy = true → ordinary u.inputs →
      ∃ t, act u = .next t ∧ ordinary t.inputs ∧ t.inputs.length + t.remaining < u.inputs.length + u.remaining := by
    intro u hu hbu hou
    obtain ⟨t, ht, hr⟩ := act_decreases hu hbu
    have hi := (act_acts ht).host.inputs
    exact ⟨t, ht, by rw [hi]; exact hou, by rw [hi]; omega⟩
  unfold tick
  cases hi : s.inputs with
  | nil => simpa [hi] using hact s h hb ho
  | cons e rest =>
    have hrest : ordinary rest := fun x hx => ho x (by rw [hi]; exact List.mem_cons_of_mem _ hx)
    have he : e.isBoundary = false := ho e (by rw [hi]; exact List.mem_cons_self)
    cases e with
    | engine =>
      obtain ⟨t, h1, h2, h3⟩ := hact (s.withInputs rest) (withInputs_keeps rest h) hb hrest
      refine ⟨t, h1, h2, ?_⟩
      have h4 : t.inputs.length + t.remaining < rest.length + s.remaining := h3
      simp only [List.length_cons]
      omega
    | env e => exact ⟨_, rfl, hrest, by show rest.length + s.remaining < _; simp⟩
    | hostRead off => exact ⟨_, rfl, hrest, by show rest.length + s.remaining < _; simp⟩
    | hostWrite off w =>
      refine ⟨_, rfl, by rw [hostWrite_inputs]; exact hrest, ?_⟩
      rw [hostWrite_inputs, hostWrite_remaining]
      show rest.length + s.remaining < _
      simp
    | hostWait =>
      have := hact s h hb ho
      rw [hi] at this
      exact this
    | hostNarrow => cases he
    | reset d => cases he
    | pause => cases he

/-- A command that runs over an ordinary schedule runs to its `Complete` (R341). -/
theorem run_completes {n : Nat} {s : State} (h : s.Inv) (ho : ordinary s.inputs) (hn : s.inputs.length + s.remaining ≤ n) :
    ∃ t, run n s = .next t ∧ t.busy = false ∧ ordinary t.inputs := by
  induction n generalizing s with
  | zero =>
    refine ⟨s, rfl, ?_, ho⟩
    cases hb : s.busy with
    | false => rfl
    | true =>
      exfalso
      have hbusy := h.busy
      rw [State.BusyOk, hb] at hbusy
      unfold State.remaining at hn
      cases hf : s.fsm with
      | nil => rw [hf] at hbusy; cases hbusy
      | cons l rest => rw [hf] at hn; simp only at hn; omega
  | succ n ih =>
    cases hb : s.busy with
    | false => exact ⟨s, run_idle _ hb, hb, ho⟩
    | true =>
      obtain ⟨t, ht, hto, hlt⟩ := tick_nearer h hb ho
      rw [run_succ n hb (atBoundary_ordinary ho), ht]
      exact ih (tick_keeps h ht) hto (by omega)

/-- What remains of a command just accepted: its actions (R285), and its `Complete`. -/
theorem remaining_accept (u : Submission) (s : State) :
    (accept u s).remaining =
      stackWeight s.params (accept u s).work s.count.toNat u.entry.opened + 1 := by
  unfold State.remaining
  have hne : ∃ a b, u.entry.opened = a :: b := by
    unfold Label.opened
    split
    · exact ⟨_, _, rfl⟩
    · split <;> exact ⟨_, _, rfl⟩
  obtain ⟨a, b, hab⟩ := hne
  rw [accept_fsm, hab]
  rfl

end Sys2Proof.Machine
end

