-- ==== Sys2Proof/Laws/PerInstr.lean ====
section
/-! SUPPORT. What holds of each command as a term: its word is legal (spec/30_encoding.md R116), and its OP field is the opcode table's (R113). -/

namespace Sys2Proof.Laws.EncodeLegal

/-- The OP of each command (R113). -/
def opOf (i : Instr) : BitVec 4 :=
  match i with
  | .init => 0x1#4
  | .modstart => 0x2#4
  | .poll _ => 0x3#4
  | .read _ _ => 0x4#4
  | .write _ _ => 0x5#4
  | .wrbyte _ => 0x6#4
  | .rdbyte _ => 0x7#4
  | .start => 0x8#4
  | .rstart => 0x9#4
  | .stop => 0xA#4
  | .recover => 0xB#4

/-- The word of the command is legal, and its OP field is the opcode table's. -/
def Statement (i : Instr) : Prop := CmdWord.legal (encode i) = true ∧ opField (encode i) = opOf i

theorem init : Statement .init := ⟨legal_enc _ _ _ _ (by decide) (by decide), opField_enc _ _ _ _⟩

theorem modstart : Statement .modstart := ⟨legal_enc _ _ _ _ (by decide) (by decide), opField_enc _ _ _ _⟩

theorem poll (addr7 : BitVec 7) : Statement (.poll addr7) :=
  ⟨legal_enc _ _ _ _ (by decide) (by decide), opField_enc _ _ _ _⟩

theorem read (addr7 : BitVec 7) (sub8 : Byte) : Statement (.read addr7 sub8) :=
  ⟨legal_enc _ _ _ _ (by decide) (by decide), opField_enc _ _ _ _⟩

theorem write (addr7 : BitVec 7) (sub8 : Byte) : Statement (.write addr7 sub8) :=
  ⟨legal_enc _ _ _ _ (by decide) (by decide), opField_enc _ _ _ _⟩

theorem wrbyte (byte8 : Byte) : Statement (.wrbyte byte8) :=
  ⟨legal_enc _ _ _ _ (by decide) (by decide), opField_enc _ _ _ _⟩

theorem rdbyte (ack : Bool) : Statement (.rdbyte ack) :=
  ⟨legal_enc _ _ _ _ (by decide) (by decide), opField_enc _ _ _ _⟩

theorem start : Statement .start := ⟨legal_enc _ _ _ _ (by decide) (by decide), opField_enc _ _ _ _⟩

theorem rstart : Statement .rstart := ⟨legal_enc _ _ _ _ (by decide) (by decide), opField_enc _ _ _ _⟩

theorem stop : Statement .stop := ⟨legal_enc _ _ _ _ (by decide) (by decide), opField_enc _ _ _ _⟩

theorem recover : Statement .recover := ⟨legal_enc _ _ _ _ (by decide) (by decide), opField_enc _ _ _ _⟩

end Sys2Proof.Laws.EncodeLegal
end

