-- ==== Sys2Proof/Laws/Schedule.lean ====
section
/-! SUPPORT. Following a run along a written schedule: one lemma for each kind of event at its head, runs in sequence, and the run of a command from a run of known length (log 1, log 2). -/

namespace Sys2Proof.Machine

@[simp] theorem andThen_next (s : State) (f : State → Host.Outcome State Fault Refusal) : andThen (.next s) f = f s := rfl

theorem andThen_assoc (o : Host.Outcome State Fault Refusal) (f g : State → Host.Outcome State Fault Refusal) :
    andThen (andThen o f) g = andThen o (fun s => andThen (f s) g) := by
  cases o <;> rfl

/-- A run that has stopped stays where it is. -/
theorem run_stopped (n : Nat) {s : State} (h : s.busy = false ∨ s.atBoundary = true) : run n s = .next s := by
  cases n with
  | zero => rfl
  | succ n => rcases h with h | h <;> simp [run, h]

/-- A run in two parts. -/
theorem run_add (m n : Nat) (s : State) : run (m + n) s = andThen (run m s) (run n) := by
  induction m generalizing s with
  | zero => simp [run]
  | succ m ih =>
    rw [Nat.succ_add]
    by_cases h : (!s.busy || s.atBoundary) = true
    · have h' : s.busy = false ∨ s.atBoundary = true := by simpa using h
      rw [run_stopped _ h', run_stopped _ h', andThen_next, run_stopped _ h']
    · simp only [run, h, Bool.false_eq_true, if_false]
      cases tick s with
      | next t => exact ih t
      | fault _ => rfl
      | refused _ => rfl

/-- The Engine's turn at the head of the schedule. -/
theorem run_engine (n : Nat) {s : State} {rest : List Event} (hb : s.busy = true) (hi : s.inputs = .engine :: rest) :
    run (n + 1) s = andThen (act (s.withInputs rest)) (run n) := by
  rw [run_succ n hb (by simp [State.atBoundary, hi, Event.isBoundary])]
  simp [tick, hi]

/-- The end of the schedule: the Engine goes on alone. -/
theorem run_alone (n : Nat) {s : State} (hb : s.busy = true) (hi : s.inputs = []) :
    run (n + 1) s = andThen (act s) (run n) := by
  rw [run_succ n hb (by simp [State.atBoundary, hi])]
  simp [tick, hi]

/-- An Environment step at the head of the schedule. -/
theorem run_env (n : Nat) {s : State} {e : EnvStep} {rest : List Event} (hb : s.busy = true) (hi : s.inputs = .env e :: rest) :
    run (n + 1) s = run n (envStep e (s.withInputs rest)) := by
  rw [run_succ n hb (by simp [State.atBoundary, hi, Event.isBoundary])]
  simp [tick, hi]

/-- A Host read at the head of the schedule. -/
theorem run_hostRead (n : Nat) {s : State} {off : BitVec 9} {rest : List Event} (hb : s.busy = true)
    (hi : s.inputs = .hostRead off :: rest) : run (n + 1) s = run n (hostRead off (s.withInputs rest)) := by
  rw [run_succ n hb (by simp [State.atBoundary, hi, Event.isBoundary])]
  simp [tick, hi]

/-- A Host write at the head of the schedule. -/
theorem run_hostWrite (n : Nat) {s : State} {off : BitVec 9} {w : Word} {rest : List Event} (hb : s.busy = true)
    (hi : s.inputs = .hostWrite off w :: rest) : run (n + 1) s = run n (hostWrite off w (s.withInputs rest)) := by
  rw [run_succ n hb (by simp [State.atBoundary, hi, Event.isBoundary])]
  simp [tick, hi]

/-- A command whose run of n agents' steps reached its `Complete`, n within the fuel, ends there. -/
theorem runCommand_of_run {n : Nat} {s t : State} (h : run n s = .next t) (hb : t.busy = false) (hn : n ≤ s.fuel) :
    runCommand s = .next t := by
  obtain ⟨k, hk⟩ := Nat.exists_eq_add_of_le hn
  rw [runCommand, hk, run_add, h, andThen_next, run_stopped _ (Or.inl hb)]

end Sys2Proof.Machine
end

