-- ==== Sys2Proof/Tests/Slice0.lean ====
section
/-! SUPPORT. Tests: the checks of WellFormed, words written out from spec/30_encoding.md R110 and R113, the spec's own examples (spec/42_recovery.md R211, spec/43_primitives.md, spec/44_transfers.md, spec/45_host_interface.md), and for each obligation with hypotheses a state and operands that meet them. -/

namespace Sys2Proof.Tests
open Sys2Proof Sys2Proof.Machine

/-! ## WellFormed: an ill-formed word for each check (R116, R117) -/

theorem test_op_zero_refused : CmdWord.opNonzero 0x00000000#32 = false ∧ CmdWord.legal 0x00000000#32 = false := by decide

theorem test_op_unassigned_refused : CmdWord.opAssigned 0x0000000C#32 = false ∧ CmdWord.legal 0x0000000F#32 = false := by
  decide

theorem test_rsv0_refused : CmdWord.rsv0Zero 0x00000021#32 = false ∧ CmdWord.legal 0x00000081#32 = false := by decide

theorem test_rsv1_refused : CmdWord.rsv1Zero 0x00800001#32 = false ∧ CmdWord.legal 0x80000001#32 = false := by decide

theorem test_count_refused : CmdWord.countLegal 0x003C1004#32 257#16 = false ∧ CmdWord.countLegal 0x003C1004#32 256#16 = true ∧
    CmdWord.countLegal 0x003C0003#32 257#16 = true := by decide

theorem test_errors_by_name : decode 0x00000000#32 = .error .opZero ∧ decode 0x0000000C#32 = .error .opUnassigned ∧
    decode 0x00000020#32 = .error .reserved0 ∧ decode 0x00800003#32 = .error .reserved1 := by decide

/-! ## Words, field by field: rsv1, ADDR7, DATA8, rsv0, ACK, OP (R110, R113) -/

/-- A word from its six fields, bit 31 first. -/
def fields (rsv1 : BitVec 9) (addr7 : BitVec 7) (data8 : BitVec 8) (rsv0 : BitVec 3) (ack : BitVec 1) (op : BitVec 4) : Word :=
  rsv1 ++ addr7 ++ data8 ++ rsv0 ++ ack ++ op

theorem test_decode_init : decode (fields 0b000000000 0b0000000 0b00000000 0b000 0b0 0b0001) = .ok .init := by decide

theorem test_decode_modstart : decode (fields 0b000000000 0b0000000 0b00000000 0b000 0b0 0b0010) = .ok .modstart := by decide

theorem test_decode_poll :
    decode (fields 0b000000000 0b0111100 0b00000000 0b000 0b0 0b0011) = .ok (.poll 0x3C#7) := by decide

theorem test_decode_read :
    decode (fields 0b000000000 0b0111100 0b00010000 0b000 0b0 0b0100) = .ok (.read 0x3C#7 0x10#8) := by decide

theorem test_decode_write :
    decode (fields 0b000000000 0b0111100 0b10000001 0b000 0b0 0b0101) = .ok (.write 0x3C#7 0x81#8) := by decide

theorem test_decode_wrbyte :
    decode (fields 0b000000000 0b0000000 0b01111000 0b000 0b0 0b0110) = .ok (.wrbyte 0x78#8) := by decide

theorem test_decode_rdbyte :
    decode (fields 0b000000000 0b0000000 0b00000000 0b000 0b1 0b0111) = .ok (.rdbyte true) ∧
    decode (fields 0b000000000 0b0000000 0b00000000 0b000 0b0 0b0111) = .ok (.rdbyte false) := by decide

theorem test_decode_start : decode (fields 0b000000000 0b0000000 0b00000000 0b000 0b0 0b1000) = .ok .start := by decide

theorem test_decode_rstart : decode (fields 0b000000000 0b0000000 0b00000000 0b000 0b0 0b1001) = .ok .rstart := by decide

theorem test_decode_stop : decode (fields 0b000000000 0b0000000 0b00000000 0b000 0b0 0b1010) = .ok .stop := by decide

theorem test_decode_recover : decode (fields 0b000000000 0b0000000 0b00000000 0b000 0b0 0b1011) = .ok .recover := by decide

/-- A field the command does not read may hold anything (R113). -/
theorem test_decode_ignores_unused : decode (fields 0b000000000 0b1111111 0b11111111 0b000 0b1 0b1000) = .ok .start := by decide

theorem test_table_word : decodeTableWord 32 0x003C1004 = some (.read 0x3C#7 0x10#8) ∧ decodeTableWord 32 0x0000000C = none := by
  decide

/-! ## Small states -/

/-- Small parameters. -/
def small : Params := { nCtl := 2, nXfer := 3, nRec := 2 }

/-- A clean idle bus, small parameters. -/
def ready : State := { State.reset with dirty := false, params := small }

/-- A state with a schedule. -/
def State.after (evs : List Event) (s : State) : State := { s with inputs := evs }

/-- CODE, DATA, NXFER, DIRTY, and the number of actions, `Complete` included. -/
def seen (o : Host.Outcome State Fault Refusal) : Option (BitVec 5 × Byte × BitVec 16 × Bool × Nat) :=
  match o with
  | .next t => some (t.res.code, t.res.data, t.res.nxfer, t.dirty, t.hist.length)
  | .fault _ => none
  | .refused _ => none

/-- One value read off the next state. -/
def field {α : Type} (f : State → α) (o : Host.Outcome State Fault Refusal) : Option α :=
  match o with
  | .next t => some (f t)
  | .fault _ => none
  | .refused _ => none

/-! ## One command (the spec's examples) -/

/-- R301: after reset, INIT is I1, I2, I3 and Complete; RES = 0x00000001, DIRTY = 1. -/
theorem test_init : seen (exec .init State.reset) = some (1, 0, 0, true, 4) := by decide

/-- R303: after reset, MODSTART is M1 to M4 and Complete; ON = 1, CTL_ON = 1, DIRTY = 1. -/
theorem test_modstart : seen (exec .modstart State.reset) = some (1, 0, 0, true, 5) ∧
    field (fun t => (t.con.on, t.con.ie, t.estat.getLsbD 3)) (exec .modstart State.reset) = some (true, false, true) := by decide

/-- R225: BCL reads 0 twice, SEN reads 0 at the third poll: 8 actions, Ok, DIRTY unchanged. -/
theorem test_start_ok :
    seen (exec .start (State.after (List.replicate 6 .engine ++ [.env (clears .sen)]) { ready with params := { nCtl := 3 } })) =
      some (1, 0, 0, false, 9) := by decide

/-- R223: a collision that comes with the completion is found by the second check. -/
theorem test_start_second_check :
    seen (exec .start (State.after (List.replicate 5 .engine ++ [.env { clrSen := true, bcl := some true }]) ready)) =
      some (5, 0, 0, true, 11) := by decide

/-- R227: RSEN never clears: N_CTL + 5 actions, ClockStuck, DIRTY = 1, RSEN left 1. -/
theorem test_rstart_stuck : seen (exec .rstart ready) = some (6, 0, 0, true, 8) ∧
    field (fun t => t.con.rsen) (exec .rstart ready) = some true := by decide

/-- R231: PEN reads 0 at the first poll: 6 actions, Ok. -/
theorem test_stop_ok : seen (exec .stop (State.after (cooperate clearAll 5) ready)) = some (1, 0, 0, false, 7) := by decide

/-- R239: TRSTAT reads 1 at the first poll and 0 at the second: 7 actions, Ack, DIRTY unchanged. -/
theorem test_wrbyte_ack :
    seen (exec (.wrbyte 0x78) (State.after (List.replicate 3 .engine ++ [.env { trstat := some true }, .engine, .engine,
      .env { trstat := some false }]) ready)) = some (2, 0, 0, false, 8) := by decide

/-- R236: a byte still queued: no byte is written to TRN, DIRTY = 1. -/
theorem test_wrbyte_full : seen (exec (.wrbyte 0x78) { ready with stat := { tbf := true } }) = some (7, 0, 0, true, 5) ∧
    field (fun t => t.trn) (exec (.wrbyte 0x78) { ready with stat := { tbf := true } }) = some 0 := by decide

/-- R244: RBF 1 at once, ACKEN 0 at once, RCV = 0x5A, ACK: 9 actions, BYTE with the byte, ACKDT = 0, RBF = 0. -/
theorem test_rdbyte_byte :
    seen (exec (.rdbyte true) (State.after (cooperate clearAll 8) { ready with stat := { rbf := true }, rcv := 0x5A })) =
      some (3, 0x5A, 0, false, 10) := by decide

/-- R242: no byte comes: ReceiveTimeout after N_XFER reads. -/
theorem test_rdbyte_timeout : seen (exec (.rdbyte false) ready) = some (9, 0, 0, true, 9) ∧
    field (fun t => t.con.ackdt) (exec (.rdbyte false) ready) = some true := by decide

/-- R211: both lines free, N_REC = 10: 25 actions, Ok, CON.ON = 1, DIRTY = 0. -/
theorem test_recover_free : seen (exec .recover State.reset) = some (1, 0, 0, false, 26) ∧
    field (fun t => t.con.on) (exec .recover State.reset) = some true := by decide

/-- R202, R209: SCL held low: 6 actions, SCL_low, the controller off. -/
theorem test_recover_scl : seen (exec .recover { ready with line := { extSclLow := true } }) = some (10, 0, 0, true, 7) := by
  decide

set_option maxRecDepth 4000 in
/-- R264: a dirty bus, both lines free, N_REC = 10, the target acknowledges: 45 actions, Ok, DIRTY = 0. -/
theorem test_poll_ok : seen (exec (.poll 0x3C) (State.after (cooperate clearAll 50) State.reset)) = some (1, 0, 0, false, 46) := by
  decide

/-- R263 (a): a target that only NAKs: BadAddr. -/
theorem test_poll_nak :
    seen (exec (.poll 0x3C) (State.after (cooperate { clearAll with ackstat := some true } 22) ready)) =
      some (13, 0, 0, true, 22) := by decide

set_option maxRecDepth 4000 in
/-- R269: two bytes: 58 actions, Ok, NXFER = 2, BUF word 0 reads 0x????3412. -/
theorem test_read_two :
    seen (exec (.read 0x3C 0x10) (State.after (sends [0x12, 0x34]) { ready with count := 2 })) = some (1, 0, 2, false, 59) ∧
    field (fun t => (Memory.read t.buf 0, Memory.read t.buf 1))
      (exec (.read 0x3C 0x10) (State.after (sends [0x12, 0x34]) { ready with count := 2 })) = some (0x12, 0x34) := by decide

/-- R188: on a dirty bus READ is three actions, BusDirty. -/
theorem test_read_dirty : seen (exec (.read 0x3C 0x10) { ready with dirty := true }) = some (14, 0, 0, true, 3) := by decide

/-- R279: the target acknowledges: 33 actions, Ok, NXFER = 1; the bytes offered are 0x78, 0x00, 0xAE. -/
theorem test_write_ok :
    seen (exec (.write 0x3C 0x00) (State.after (cooperate clearAll 34) { ready with count := 1, buf := [(0, 0xAE)] })) =
      some (1, 0, 1, false, 34) ∧
    field (fun t => trnWrites t.hist)
      (exec (.write 0x3C 0x00) (State.after (cooperate clearAll 34) { ready with count := 1, buf := [(0, 0xAE)] })) =
      some [0x78, 0x00, 0xAE] := by decide

/-- R279: the target NAKs only the data byte: CommFail, NXFER = 0, DIRTY = 1. -/
theorem test_write_nak :
    (seen (exec (.write 0x3C 0x00) (State.after (cooperate clearAll 20 ++ cooperate { clearAll with ackstat := some true } 16)
      { ready with count := 1, buf := [(0, 0xAE)] }))) = some (15, 0, 0, true, 35) := by decide

/-! ## One step -/

/-- R116: the all-zero word starts nothing. -/
theorem test_step_rejects : field (fun t => (t.busy, t.res.code, t.cmd)) (step (State.after [.hostWrite 0 0] State.reset)) =
    some (false, 16, 0) := by decide

/-- R291, R50: ESTAT reads 2 after reset. -/
theorem test_step_reads_estat : field (fun t => t.hostLog) (step (State.after [.hostRead 0x008] State.reset)) = some [2] := by
  decide

/-- R82: a word of the BUF window, little-endian. -/
theorem test_step_writes_buf :
    field (fun t => t.buf) (step (State.after [.hostWrite 0x104 0x44332211] State.reset)) =
      some [(4, 0x11), (5, 0x22), (6, 0x33), (7, 0x44)] := by decide

/-- The word offered by `withFetchWord` runs in the very next step. -/
theorem test_fetch_word_runs : seen (step (State.reset.withFetchWord 32 0x00000001)) = some (1, 0, 0, true, 4) := by decide

/-! ## States and operands that meet the obligations' hypotheses -/

/-- What a step answered is a next state. -/
theorem next_of_seen {o : Host.Outcome State Fault Refusal} (h : (field (fun _ => ()) o).isSome = true) : ∃ t, o = .next t := by
  cases o with
  | next t => exact ⟨t, rfl⟩
  | fault _ => simp [field] at h
  | refused _ => simp [field] at h

/-- The invariant, from its parts: what holds of the whole state, at the deepest label, and at the command's own. -/
theorem inv_of {s : State}
    (hs : paramsPositive s.params ∧ s.BusyOk ∧ s.PositionOk ∧ Memory.wf s.buf = true ∧ s.con.ie = false ∧ s.CapOk)
    (ht : pollOk s.params s.work.k s.top = true ∧ toggleOk s.params s.work.j s.top = true ∧
      recoverOff s.con.on s.top = true ∧ linesOk s.line s.top = true ∧ errorOk s.running s.work.e s.top = true)
    (ho : s.fsm ≠ [] → s.exitOk s.bottom = true ∧ s.trackerOk s.bottom = true ∧ s.countsOk s.bottom = true ∧
      s.operandsOk s.bottom = true) : s.Inv :=
  { params := hs.1, busy := hs.2.1, position := hs.2.2.1, memory := hs.2.2.2.1, interruptEnable := hs.2.2.2.2.1
    cap := hs.2.2.2.2.2
    top := { poll := ht.1, toggle := ht.2.1, off := ht.2.2.1, lines := ht.2.2.2.1, error := ht.2.2.2.2 }
    own := fun hf => { exit := (ho hf).1, tracker := (ho hf).2.1, counts := (ho hf).2.2.1, operands := (ho hf).2.2.2 } }

/-- The clean idle state meets the invariant. -/
theorem ready_inv : ready.Inv :=
  inv_of (by decide) (by decide) (by decide)

/-- A state in the middle of a START, paused before the request is asserted. -/
def inStart : State :=
  { ready with busy := true, fsm := [.s2], latch := { op := 0x8 }, con := { on := true } }

theorem inStart_inv : inStart.Inv :=
  inv_of (by decide) (by decide) (by decide)

theorem witness_DecodeOpcodeTable :
    0x007FFF11#32 &&& 0xFF8000EF#32 = 0x1#32 ∧ 0x007FFF12#32 &&& 0xFF8000EF#32 = 0x2#32 ∧
    0x007FFF13#32 &&& 0xFF8000EF#32 = 0x3#32 ∧ 0x007FFF14#32 &&& 0xFF8000EF#32 = 0x4#32 ∧
    0x007FFF15#32 &&& 0xFF8000EF#32 = 0x5#32 ∧ 0x007FFF16#32 &&& 0xFF8000EF#32 = 0x6#32 ∧
    0x007FFF17#32 &&& 0xFF8000EF#32 = 0x7#32 ∧ 0x007FFF18#32 &&& 0xFF8000EF#32 = 0x8#32 ∧
    0x007FFF19#32 &&& 0xFF8000EF#32 = 0x9#32 ∧ 0x007FFF1A#32 &&& 0xFF8000EF#32 = 0xA#32 ∧
    0x007FFF1B#32 &&& 0xFF8000EF#32 = 0xB#32 ∧ 0x00000000#32 &&& 0xFF8000EF#32 = 0x0#32 ∧
    0x007FFF1C#32 &&& 0xFF8000EF#32 = 0xC#32 ∧ 0x007FFF1D#32 &&& 0xFF8000EF#32 = 0xD#32 ∧
    0x007FFF1E#32 &&& 0xFF8000EF#32 = 0xE#32 ∧ 0x007FFF1F#32 &&& 0xFF8000EF#32 = 0xF#32 := by decide

theorem witness_EncodeKeepsUsedFields : decode 0x007FFF13#32 = .ok (.poll 0x7F#7) := by decide

theorem witness_StepRunsDecodedCommand :
    (ready.busy = false ∧ (0x000#9).toNat / 4 = 0 ∧ (0x003#9).toNat / 4 = 0 ∧ decode 0x00000008#32 = .ok .start) ∧
    (32 ≤ 32 ∧ decodeTableWord 32 0x00000008 = some .start ∧ 4 ≤ 32 ∧ decodeTableWord 4 0x8 = some .start) := by decide

theorem witness_Rejection :
    ready.busy = false ∧ (0x003#9).toNat / 4 = 0 ∧ (0x00000000#32).extractLsb' 0 4 = 0x0#4 ∧
    (0x0000000C#32).extractLsb' 0 4 = 0xC#4 ∧ (0x0000000D#32).extractLsb' 0 4 = 0xD#4 ∧
    (0x0000000E#32).extractLsb' 0 4 = 0xE#4 ∧ (0x0000000F#32).extractLsb' 0 4 = 0xF#4 ∧
    (0x00000081#32).extractLsb' 5 3 ≠ 0#3 ∧ (0x80000001#32).extractLsb' 23 9 ≠ 0#9 ∧
    (0x003C0005#32).extractLsb' 0 4 = 0x5#4 ∧ 256 < (257#16).toNat := by decide

theorem witness_Acceptance :
    ready.busy = false ∧ (0x003#9).toNat / 4 = 0 ∧
    ¬ (((0x003C1004#32).extractLsb' 0 4 = 0x0#4 ∨ (0x003C1004#32).extractLsb' 0 4 = 0xC#4 ∨
        (0x003C1004#32).extractLsb' 0 4 = 0xD#4 ∨ (0x003C1004#32).extractLsb' 0 4 = 0xE#4 ∨
        (0x003C1004#32).extractLsb' 0 4 = 0xF#4 ∨ (0x003C1004#32).extractLsb' 5 3 ≠ 0#3 ∨
        (0x003C1004#32).extractLsb' 23 9 ≠ 0#9) ∨
      (((0x003C1004#32).extractLsb' 0 4 = 0x4#4 ∨ (0x003C1004#32).extractLsb' 0 4 = 0x5#4) ∧ 256 < (256#16).toNat)) := by decide

theorem witness_BusyHostWrites :
    inStart.busy = true ∧ (0x000#9).toNat / 4 = 0 ∧ (0x00F#9).toNat / 4 = 3 ∧ 64 ≤ (0x100#9).toNat / 4 ∧
    64 ≤ (0x1FF#9).toNat / 4 := by decide

theorem witness_OtherHostWrites :
    (0x004#9).toNat / 4 = 1 ∧ (0x007#9).toNat / 4 = 1 ∧ (0x008#9).toNat / 4 = 2 ∧ (0x00B#9).toNat / 4 = 2 ∧
    (0x00C#9).toNat / 4 = 3 ∧ (0x00F#9).toNat / 4 = 3 ∧ ready.busy = false ∧ 64 ≤ (0x100#9).toNat / 4 ∧
    64 ≤ (0x1FF#9).toNat / 4 ∧ Memory.wf ready.buf = true ∧ 4 ≤ (0x010#9).toNat / 4 ∧ (0x010#9).toNat / 4 < 64 ∧
    4 ≤ (0x0FF#9).toNat / 4 ∧ (0x0FF#9).toNat / 4 < 64 := by decide

theorem witness_HostReads :
    (0x000#9).toNat / 4 = 0 ∧ (0x004#9).toNat / 4 = 1 ∧ (0x008#9).toNat / 4 = 2 ∧ (0x00C#9).toNat / 4 = 3 ∧
    4 ≤ (0x010#9).toNat / 4 ∧ (0x0FF#9).toNat / 4 < 64 ∧ 64 ≤ (0x100#9).toNat / 4 ∧ 64 ≤ (0x1FF#9).toNat / 4 := by decide

theorem witness_StepKeepsInvariant : inStart.Inv ∧ ∃ t, step inStart = .next t := ⟨inStart_inv, next_of_seen (by decide)⟩

theorem witness_StepNeverFaults : ready.Inv ∧
    step (State.after [.hostNarrow] ready) = .refused .hostWidth ∧ (State.after [.hostNarrow] ready).inputs.head? = some .hostNarrow :=
  ⟨ready_inv, rfl, rfl⟩

theorem witness_HistoryOnlyGrows :
    (∃ t, step inStart = .next t) ∧ ∃ t, step (State.after [.reset {}] inStart) = .next t :=
  ⟨next_of_seen (by decide), next_of_seen (by decide)⟩

/-- A busy schedule: the Environment, the Host and the Engine each take steps. -/
def mixed : List Event :=
  [.env clearAll, .hostRead 0x008, .engine, .hostWrite 0x00C 7, .engine, .env { bcl := some false }, .engine, .engine]

/-- CommandCompletes, OneResult, ByteCount: a READ at the largest count, and a command that has none. -/
theorem witness_CommandCompletes :
    ready.Inv ∧ ({ ready with count := 256 } : State).busy = false ∧ ordinary mixed ∧
    (opField (encode (.read 0x3C 0x10)) = 0x4#4 ∨ opField (encode (.read 0x3C 0x10)) = 0x5#4 →
      ({ ready with count := 256 } : State).count.toNat ≤ 256) ∧
    (opField (encode .stop) = 0x4#4 ∨ opField (encode .stop) = 0x5#4 → ready.count.toNat ≤ 256) :=
  ⟨ready_inv, by decide⟩

theorem witness_DirtyBusRefused :
    ({ ready with dirty := true, count := 256 } : State).busy = false ∧ ordinary mixed ∧
    ({ ready with dirty := true, count := 256 } : State).dirty = true ∧
    ({ ready with dirty := true, count := 256 } : State).count.toNat ≤ 256 ∧
    opField (encode (.read 0x3C 0x10)) = 0x4#4 ∧ opField (encode (.write 0x3C 0x10)) = 0x5#4 := by decide

/-- The last action but one of a RECOVER on a dirty bus. -/
def recovered : State :=
  { ready with dirty := true, busy := true, fsm := [.v16], latch := { op := 0xB }, con := { on := true } }

theorem recovered_inv : recovered.Inv :=
  inv_of (by decide) (by decide) (by decide)

/-- The failure exit of a START on a clean bus. -/
def failing : State :=
  { ready with busy := true, fsm := [.pf], latch := { op := 0x8 }, work := { e := .clockStuck } }

theorem failing_inv : failing.Inv :=
  inv_of (by decide) (by decide) (by decide)

/-- The tracker goes from 1 to 0, and from 0 to 1. -/
theorem witness_TrackerWriters :
    (recovered.Inv ∧ field (fun t => decide (t.dirty ≠ recovered.dirty)) (act recovered) = some true) ∧
    (failing.Inv ∧ field (fun t => decide (t.dirty ≠ failing.dirty)) (act failing) = some true) :=
  ⟨⟨recovered_inv, by decide⟩, failing_inv, by decide⟩

theorem witness_PauseIsInvisible :
    ready.Inv ∧ ready.busy = false ∧ ordinary mixed ∧
    field (fun t => t.busy) (exec .start { ready with inputs := mixed ++ .pause :: mixed }) = some true :=
  ⟨ready_inv, by decide⟩

/-- HostCannotDisturb: with the Host's accesses alone, and with a Host that waits. -/
theorem witness_HostCannotDisturb :
    ready.Inv ∧ ready.busy = false ∧ ordinary mixed ∧ ordinary (mixed ++ .hostWait :: mixed) ∧
    (∃ t, exec .start { ready with inputs := mixed } = .next t) ∧
    ∃ t, exec .start { ready with inputs := mixed ++ .hostWait :: mixed } = .next t :=
  ⟨ready_inv, by decide, by decide, by decide, next_of_seen (by decide), next_of_seen (by decide)⟩

/-- ActionEffects, EngineWrites: an action that writes a request bit. -/
theorem witness_ActionEffects :
    (∃ t, act inStart = .next t) ∧ field (fun t => t.hist) (act inStart) = some (.writeCon .sen true :: inStart.hist) :=
  ⟨next_of_seen (by decide), by decide⟩

/-- LineLevels, RegisterWords. -/
theorem witness_LineLevels : ready.con.on = false := by decide

/-- InitResult, ModstartResult: with and without Environment steps. -/
theorem witness_InitResult : ready.busy = false ∧ ordinary mixed ∧ envQuiet [.engine, .hostRead 0x008] := by
  refine ⟨by decide, by decide, ?_⟩
  intro e he x hx
  subst hx
  simp at he

/-- RequestCompletes, RequestTimesOut, RequestCollidesSecond: the first and the last poll. -/
theorem witness_RequestCompletes :
    (Instr.start, ConField.sen) ∈ requests ∧ (Instr.rstart, ConField.rsen) ∈ requests ∧ (Instr.stop, ConField.pen) ∈ requests ∧
    ready.busy = false ∧ ready.inputs = [] ∧ ready.stat.bcl = false ∧ 0 < ready.params.nCtl ∧ 1 ≤ 1 ∧ 1 ≤ ready.params.nCtl ∧
    1 ≤ 2 ∧ 2 ≤ ready.params.nCtl := by decide

theorem witness_RequestCollidesFirst :
    ({ ready with stat := { bcl := true } } : State).busy = false ∧ ({ ready with stat := { bcl := true } } : State).inputs = [] ∧
    ({ ready with stat := { bcl := true } } : State).stat.bcl = true := by decide

/-- WriteByteResult: a status for each clause. -/
theorem witness_WriteByteResult :
    ready.busy = false ∧ ready.inputs = [] ∧ 0 < ready.params.nXfer ∧ ({ tbf := true } : Stat).tbf = true ∧
    (({ trstat := true } : Stat).tbf = false ∧ ({ trstat := true } : Stat).trstat = true) ∧
    (({ bcl := true } : Stat).trstat = false ∧ ({ bcl := true } : Stat).bcl = true ∧ ({ iwcol := true } : Stat).iwcol = true) ∧
    (({ ackstat := true } : Stat).bcl = false ∧ ({ ackstat := true } : Stat).iwcol = false ∧ ({ ackstat := true } : Stat).ackstat = true) ∧
    ({} : Stat).ackstat = false := by decide

/-- ReadByteReceives: the first and the last poll, without and with an overflow. -/
theorem witness_ReadByteReceives :
    ready.busy = false ∧ ready.stat.rbf = false ∧ 1 ≤ 1 ∧ 1 ≤ ready.params.nXfer ∧ 1 ≤ 3 ∧ 3 ≤ ready.params.nXfer ∧
    1 ≤ ready.params.nCtl ∧ 2 ≤ ready.params.nCtl ∧ ready.stat.i2cov = false ∧ ({ i2cov := true } : Stat).rbf = false := by decide

theorem witness_ReadByteTimesOut :
    ready.busy = false ∧ ready.inputs = [] ∧ 0 < ready.params.nXfer ∧ 0 < ready.params.nCtl ∧ ready.stat.rbf = false ∧
    ({ rbf := true } : Stat).rbf = true := by decide

theorem witness_PrimitiveFrame :
    ready.Inv ∧ ready.busy = false ∧ ordinary mixed ∧ opField (encode (.rdbyte true)) ∈ [0x6#4, 0x7#4, 0x8#4, 0x9#4, 0xA#4] ∧
    ∃ t, exec (.rdbyte true) { ready with inputs := mixed } = .next t :=
  ⟨ready_inv, by decide, by decide, by decide, next_of_seen (by decide)⟩

/-- RecoverResult, RecoverExit, PollHardware: each of the two pulls, and none. -/
theorem witness_RecoverResult :
    ready.Inv ∧ ready.busy = false ∧ ready.inputs = [] ∧ ready.line.extSclLow = false ∧ ready.line.extSdaLow = false ∧
    ({ extSclLow := true } : Lines).extSclLow = true ∧ ({ extSdaLow := true } : Lines).extSclLow = false ∧
    ({ extSdaLow := true } : Lines).extSdaLow = true ∧ State.reset.dirty = true :=
  ⟨ready_inv, by decide⟩

/-- StuckDataLaw: p at 0, at N_REC and above. -/
theorem witness_StuckDataLaw :
    ({ ready with line := { extSdaLow := true } } : State).busy = false ∧
    ({ ready with line := { extSdaLow := true } } : State).line.extSclLow = false ∧
    ({ ready with line := { extSdaLow := true } } : State).line.extSdaLow = true ∧ 0 ≤ ready.params.nRec ∧
    2 ≤ ready.params.nRec ∧ ready.params.nRec < 3 := by decide

/-- PollResult: a clean and a dirty bus, a target that acknowledges and one that does not. -/
theorem witness_PollResult :
    ready.busy = false ∧ ready.stat.calm ∧ paramsPositive ready.params ∧
    (ready.dirty = true → ready.line.extSclLow = false ∧ ready.line.extSdaLow = false) ∧ ready.params.nRec + 38 ≤ 40 ∧
    (State.reset.dirty = true → State.reset.line.extSclLow = false ∧ State.reset.line.extSdaLow = false) ∧
    State.reset.stat.calm ∧ ({ ackstat := true } : Stat).calm := by decide

/-- ReadStoresBytes: no byte and 256 bytes. -/
theorem witness_ReadStoresBytes :
    ready.busy = false ∧ ready.dirty = false ∧ ready.stat.calm ∧ ready.stat.ackstat = false ∧ paramsPositive ready.params ∧
    Memory.wf ready.buf = true ∧ ([] : List Byte).length = ready.count.toNat ∧
    (List.replicate 256 (0xA5 : Byte)).length = ({ ready with count := 256 } : State).count.toNat ∧
    (List.replicate 256 (0xA5 : Byte)).length ≤ 256 :=
  And.intro (by decide) (And.intro (by decide) (And.intro (by decide) (And.intro (by decide) (And.intro (by decide)
    (And.intro (by decide) (And.intro (by decide)
      (And.intro (by rw [List.length_replicate]; decide) (by rw [List.length_replicate]))))))))

/-- WriteSendsBytes, WriteStopsAtNak, RoundTrip: the largest count, the first and the last byte. -/
theorem witness_WriteSendsBytes :
    ready.busy = false ∧ ready.dirty = false ∧ ready.stat.calm ∧ ready.stat.ackstat = false ∧ paramsPositive ready.params ∧
    ({ ready with count := 256 } : State).count.toNat ≤ 256 ∧ 27 + 7 * ({ ready with count := 256 } : State).count.toNat ≤ 1819 ∧
    0 ≤ ({ ready with count := 256 } : State).count.toNat + 1 ∧ 257 ≤ ({ ready with count := 256 } : State).count.toNat + 1 ∧
    15 + ready.params.nCtl ≤ 17 ∧ Memory.wf [(0, (1 : Byte)), (255, 2)] = true := by decide

/-- ReadStopsAtTimeout: no byte, and all but one. -/
theorem witness_ReadStopsAtTimeout :
    ready.busy = false ∧ ready.dirty = false ∧ ready.stat.calm ∧ ready.stat.ackstat = false ∧ paramsPositive ready.params ∧
    Memory.wf ready.buf = true ∧ ({ ready with count := 2 } : State).count.toNat ≤ 256 ∧
    ([] : List Byte).length < ({ ready with count := 2 } : State).count.toNat ∧
    ([0x12] : List Byte).length < ({ ready with count := 2 } : State).count.toNat ∧ 12 + ready.params.nXfer ≤ 15 := by decide

/-- ReadStopsAtByte: the bounds of ReadStopsAtTimeout, with its own schedule's. -/
theorem witness_ReadStopsAtByte :
    ready.busy = false ∧ ready.dirty = false ∧ ready.stat.calm ∧ ready.stat.ackstat = false ∧ paramsPositive ready.params ∧
    Memory.wf ready.buf = true ∧ ({ ready with count := 256 } : State).count.toNat ≤ 256 ∧
    ([0x12] : List Byte).length < ({ ready with count := 256 } : State).count.toNat ∧ 30 + ready.params.nCtl ≤ 32 := by decide

/-- ReadStopsAtNak, ReadStopsAtRstart: the first and the last byte. -/
theorem witness_ReadStopsAtNak :
    ready.busy = false ∧ ready.dirty = false ∧ ready.stat.calm ∧ ready.stat.ackstat = false ∧ paramsPositive ready.params ∧
    ({ ready with count := 256 } : State).count.toNat ≤ 256 ∧ 0 ≤ 2 ∧ 2 ≤ 2 ∧ 15 + ready.params.nCtl ≤ 17 ∧
    20 + ready.params.nCtl ≤ 22 := by decide

/-- TransferStopsAtByte: READ's last byte and WRITE's, at the largest count. -/
theorem witness_TransferStopsAtByte :
    ({ clearAll with tbf := some true } : EnvStep) ∈ byteFailures ∧ ({ clearAll with bcl := some true } : EnvStep) ∈ byteFailures ∧
    ready.busy = false ∧ ready.dirty = false ∧ ready.stat.calm ∧ ready.stat.ackstat = false ∧ paramsPositive ready.params ∧
    ({ ready with count := 256 } : State).count.toNat ≤ 256 ∧ 30 + ready.params.nXfer ≤ 33 ∧ 2 ≤ 2 ∧
    257 ≤ ({ ready with count := 256 } : State).count.toNat + 1 := by decide

/-- AddressPhaseFails: each cause, and the NAK. -/
theorem witness_AddressPhaseFails :
    ready.busy = false ∧ ready.dirty = false ∧ paramsPositive ready.params ∧
    ({ ready with count := 256 } : State).count.toNat ≤ 256 ∧ 40 + 2 * ready.params.nCtl + ready.params.nXfer ≤ 47 ∧
    addressFails { bcl := true } true = true ∧ addressFails {} false = true ∧ addressFails { tbf := true } true = true ∧
    addressFails { trstat := true } true = true ∧ addressFails { iwcol := true } true = true ∧
    (addressFails { ackstat := true } true = false ∧ ({ ackstat := true } : Stat).ackstat = true) := by decide

/-- FinalStopFails: no byte, and two. -/
theorem witness_FinalStopFails :
    ready.busy = false ∧ ready.dirty = false ∧ ready.stat.calm ∧ ready.stat.ackstat = false ∧ paramsPositive ready.params ∧
    Memory.wf ready.buf = true ∧ ([] : List Byte).length = ready.count.toNat ∧
    ([0x12, 0x34] : List Byte).length = ({ ready with count := 2 } : State).count.toNat ∧
    ([0x12, 0x34] : List Byte).length ≤ 256 ∧ 20 + ready.params.nCtl ≤ 22 := by decide

theorem witness_TransferFrame :
    ready.Inv ∧ ready.busy = false ∧ ordinary mixed ∧ opField (encode (.poll 0x3C)) ∈ [0x3#4, 0x4#4, 0x5#4] ∧
    (∃ t, exec (.poll 0x3C) { ready with inputs := mixed } = .next t) ∧ ready.count.toNat ≤ 0 ∧ ready.count.toNat ≤ 255 :=
  ⟨ready_inv, by decide, by decide, by decide, next_of_seen (by decide), by decide, by decide⟩

end Sys2Proof.Tests
end

/-! SUPPORT. One induction over the step: what every agent's move keeps, every step keeps, but for a reset event (spec/20_memory.md R93). With it, the statements on the invariant, on reset and on the history (spec/10_state.md R32, R49, R50; spec/70_reset_and_hazards.md R360). -/

namespace Sys2Proof.Machine

/-! ## A command and its submission (R113, R292) -/

/-- The submission a command makes. -/
def submissionOf (i : Instr) : Submission :=
  match i with
  | .init => { op := 0x1#4, entry := .i1 }
  | .modstart => { op := 0x2#4, entry := .m1 }
  | .poll a => { op := 0x3#4, addr7 := some a, entry := .p1 }
  | .read a sub => { op := 0x4#4, data8 := some sub, addr7 := some a, entry := .d1 }
  | .write a sub => { op := 0x5#4, data8 := some sub, addr7 := some a, entry := .x1 }
  | .wrbyte v => { op := 0x6#4, data8 := some v, entry := .w1 }
  | .rdbyte ack => { op := 0x7#4, ack := some ack, entry := .b1 }
  | .start => { op := 0x8#4, entry := .s1 }
  | .rstart => { op := 0x9#4, entry := .g1 }
  | .stop => { op := 0xA#4, entry := .t1 }
  | .recover => { op := 0xB#4, entry := .v1 }

/-- READ and WRITE: the commands that look at COUNT (R117). -/
def Submission.counted (u : Submission) : Prop := u.op = 0x4#4 ∨ u.op = 0x5#4

/-- The submission starts at the first label of its operation (R292). -/
theorem entryOf_submissionOf (i : Instr) : entryOf (submissionOf i).op = some (submissionOf i).entry := by
  cases i <;> rfl

/-- What a command does on an idle block: READ and WRITE with too large a COUNT are rejected (R117), every other
submission is accepted and run (R292). -/
theorem exec_idle_cases {i : Instr} {s t : State} (hb : s.busy = false) (h : exec i s = .next t) :
    t = reject s ∨
      ((submissionOf i).counted → s.count.toNat ≤ Config.bufCap) ∧ runCommand (accept (submissionOf i) s) = .next t := by
  have hperform : ∀ u : Submission, perform u s = runCommand (accept u s) := fun u => by simp [perform, hb]
  have hcounted : ∀ u : Submission, performCounted u s = .next t →
      t = reject s ∨ s.count.toNat ≤ Config.bufCap ∧ runCommand (accept u s) = .next t := fun u hu => by
    simp only [performCounted, hb, Bool.false_eq_true, if_false, countTooLarge, decide_eq_true_eq] at hu
    split at hu
    · cases hu; exact .inl rfl
    · exact .inr ⟨by omega, hu⟩
  cases i
  case read | write => exact (hcounted _ h).imp_right fun ⟨hc, hr⟩ => ⟨fun _ => hc, hr⟩
  all_goals exact .inr ⟨fun hc => absurd hc (by simp [Submission.counted, submissionOf]), (hperform _).symm.trans h⟩

/-! ## What every agent's move keeps -/

/-- P is kept by every move of the Engine, the Environment and the Host, and by the submission of a command. -/
structure KeptByMoves (P : State → Prop) : Prop where
  inputs : ∀ (rest : List Event) {s : State}, P s → P (s.withInputs rest)
  act : ∀ {s t : State}, P s → act s = .next t → P t
  env : ∀ (e : EnvStep) {s : State}, P s → P (envStep e s)
  hostRead : ∀ (off : BitVec 9) {s : State}, P s → P (hostRead off s)
  hostWrite : ∀ (off : BitVec 9) (w : Word) {s : State}, P s → P (hostWrite off w s)
  reject : ∀ {s : State}, P s → s.busy = false → P (reject s)
  accept : ∀ (u : Submission) {s : State}, P s → s.busy = false → entryOf u.op = some u.entry →
    (u.counted → s.count.toNat ≤ Config.bufCap) → P (accept u s)

section
variable {P : State → Prop} (k : KeptByMoves P)
include k

theorem KeptByMoves.tick {s t : State} (h : P s) (ht : tick s = .next t) : P t := by
  unfold Machine.tick at ht
  split at ht
  · exact k.act h ht
  · exact k.act (k.inputs _ h) ht
  · cases ht; exact k.env _ (k.inputs _ h)
  · cases ht; exact k.hostRead _ (k.inputs _ h)
  · cases ht; exact k.hostWrite _ _ (k.inputs _ h)
  · exact k.act h ht
  all_goals cases ht; exact h

theorem KeptByMoves.runCommand {s t : State} (h : P s) (ht : runCommand s = .next t) : P t :=
  run_induction (fun _ _ hs _ _ hk => k.tick hs hk) s.fuel s t h ht

theorem KeptByMoves.goOn {s t : State} (h : P s) (ht : goOn s = .next t) : P t := by
  unfold Machine.goOn at ht
  split at ht
  · exact k.runCommand h ht
  · cases ht; exact h

theorem KeptByMoves.submit {w : Word} {s t : State} (h : P s) (hb : s.busy = false) (ht : submit w s = .next t) :
    P t := by
  unfold Machine.submit at ht
  split at ht
  · cases ht; exact k.reject h hb
  · next i _ =>
    obtain rfl | ⟨hc, hr⟩ := exec_idle_cases hb ht
    · exact k.reject h hb
    · exact k.runCommand (k.accept _ h hb (entryOf_submissionOf i) hc) hr

theorem KeptByMoves.idleWrite {off : BitVec 9} {w : Word} {s t : State} (h : P s) (hb : s.busy = false)
    (ht : idleWrite off w s = .next t) : P t := by
  unfold Machine.idleWrite at ht
  split at ht
  · next hreg => exact k.submit (k.hostWrite off w h) (by simp [Machine.hostWrite, hreg, hb]) ht
  all_goals cases ht; exact k.hostWrite off w h

/-- An idle block keeps P at every event but a reset. -/
theorem KeptByMoves.idleEvent {e : Event} {s t : State} (h : P s) (hb : s.busy = false) (hr : ∀ d, e ≠ .reset d)
    (ht : idleEvent e s = .next t) : P t := by
  cases e with
  | engine => cases ht; exact h
  | env e => cases ht; exact k.env e h
  | hostRead off => cases ht; exact k.hostRead off h
  | hostWrite off w => exact k.idleWrite h hb ht
  | hostWait => cases ht; exact k.hostRead _ h
  | hostNarrow => cases ht
  | reset d => exact absurd rfl (hr d)
  | pause => cases ht; exact h

/-- A step keeps P, or takes a reset event. -/
theorem KeptByMoves.step {s t : State} (h : P s) (ht : step s = .next t) :
    P t ∨ ∃ d rest, s.inputs = .reset d :: rest ∧ t = resetBlock d (s.withInputs rest) := by
  unfold Machine.step stepBody at ht
  split at ht
  · exact .inl (k.goOn h ht)
  · exact .inl (k.goOn (k.inputs _ h) ht)
  · next d rest hi => cases ht; exact .inr ⟨d, rest, hi, rfl⟩
  · cases ht
  · next e rest _ hreset _ hi =>
    refine .inl ?_
    split at ht
    · exact k.runCommand h ht
    · next hb => exact k.idleEvent (k.inputs rest h) (by simpa using hb) hreset ht

end

/-! ## The invariant -/

theorem reject_keeps {s : State} (h : s.Inv) (hb : s.busy = false) : (reject s).Inv :=
  h.idle rfl hb (h.fsm_idle hb) h.memory rfl (h.lines_idle hb)

theorem inv_keptByMoves : KeptByMoves State.Inv where
  inputs := withInputs_keeps
  act := act_keeps
  env := envStep_keeps
  hostRead := hostRead_keeps
  hostWrite := hostWrite_keeps
  reject := reject_keeps
  accept u _ h hb hu hc := accept_keeps u h hb hu hc

/-- Settles O15: every agent's move keeps the invariant, and a reset event leads back into it. -/
theorem stepKeepsInvariant : Obligations.StepKeepsInvariant := by
  unfold Obligations.StepKeepsInvariant
  intro s t h ht
  obtain hk | ⟨d, rest, -, rfl⟩ := inv_keptByMoves.step h ht
  · exact hk
  · exact resetBlock_keeps d h.params

/-! ## Reset (R50, R360) -/

/-- The state a run begins with is one a reset event can leave. -/
theorem reset_eq_resetBlock : State.reset = resetBlock {} State.reset := rfl

theorem ResReg.word_cleared : ResReg.word {} = 0 := by decide

theorem Con.word_cleared : Con.word {} = 0 := by decide

theorem Stat.word_cleared : Stat.word {} = 0 := by decide

theorem resetBlock_resetValues (d : ResetDraw) (s : State) : ResetValues (resetBlock d s) where
  cmd := rfl
  res := ResReg.word_cleared
  busy := rfl
  dirty := rfl
  hostErr := rfl
  count := rfl
  fsm := rfl
  latch := rfl
  work := ⟨rfl, rfl, rfl, rfl, Con.word_cleared, Stat.word_cleared, rfl, rfl, rfl⟩
  con := Con.word_cleared
  brg := rfl
  lines := ⟨rfl, rfl⟩
  hist := rfl

/-- Settles O13: both parts are what `resetBlock` leaves. -/
theorem resetLeaves : Obligations.ResetLeaves := by
  unfold Obligations.ResetLeaves
  refine ⟨reset_eq_resetBlock ▸ resetBlock_resetValues {} State.reset, fun s d rest => ?_⟩
  exact ⟨resetBlock d (s.withInputs rest), rfl, resetBlock_resetValues d _, rfl, rfl, rfl, rfl, rfl, rfl, rfl⟩

/-- Settles O14: what a reset event leaves meets the invariant, whatever was drawn. -/
theorem resetMeetsInvariant : Obligations.ResetMeetsInvariant := by
  unfold Obligations.ResetMeetsInvariant
  rw [reset_eq_resetBlock]
  exact resetBlock_keeps {} (by decide)

/-! ## The history (R49) -/

theorem hostWrite_hist (off : BitVec 9) (w : Word) (s : State) : (hostWrite off w s).hist = s.hist := by
  unfold hostWrite
  split <;> (try split) <;> rfl

/-- The Engine's action adds one entry in front, and every other move leaves the history as it is. -/
theorem histGrows_keptByMoves (old : List Action) : KeptByMoves fun s => old <:+ s.hist where
  inputs _ _ h := h
  act h ha := by
    obtain ⟨a, hist⟩ := (act_acts ha).hist
    rw [hist]
    exact h.trans (List.suffix_cons a _)
  env _ _ h := h
  hostRead _ _ h := h
  hostWrite off w s h := by rwa [hostWrite_hist]
  reject h _ := h
  accept _ _ h _ _ _ := h

/-- Settles O17: what every move keeps is that the old history is the tail of the new one. -/
theorem historyOnlyGrows : Obligations.HistoryOnlyGrows := by
  unfold Obligations.HistoryOnlyGrows
  intro s t ht
  obtain ⟨acts, hist⟩ | ⟨d, rest, hi, -⟩ := (histGrows_keptByMoves s.hist).step (List.suffix_refl _) ht
  · exact .inl ⟨acts, hist.symm⟩
  · exact .inr ⟨d, by rw [hi]; rfl⟩

end Sys2Proof.Machine

/-! SUPPORT. What an Engine action is: one of the model's atomic operations, followed by sequencing (spec/40_register_interface.md R140 to R155, spec/10_state.md R49). With it, the statements on the actions' effects and on what the Engine writes. -/

namespace Sys2Proof.Machine

/-! ## The atomic operations -/

/-- What the Engine may write to a field of CON: 1 to a request bit (R143), 0 to IE, RDBYTE's answer to ACKDT (R241). -/
def State.mayWrite (s : State) (f : ConField) (v : Bool) : Prop :=
  (f ∈ [ConField.sen, .rsen, .pen, .rcen, .acken] → v = true) ∧ (f = .ie → v = false) ∧
    (f = .ackdt → v = ackdtOf s.work.ack)

/-- `Atomic s a u`: the action a, as the history records it, is possible in s and takes s to u. -/
inductive Atomic (s : State) : Action → State → Prop where
  | readCon : Atomic s (.readCon s.con) (ctlReadCon s)
  | readStat : Atomic s (.readStat s.stat) (ctlReadStat s)
  | readRcv : Atomic s (.readRcv s.rcv) (ctlReadRcv s)
  | writeCon {f : ConField} {v : Bool} (h : s.mayWrite f v) : Atomic s (.writeCon f v) (ctlWriteCon f v s)
  | writeTrn : Atomic s (.writeTrn s.work.v) (ctlWriteTrn s.work.v s)
  | writeBrg {v : BitVec 16} : Atomic s (.writeBrg v) (ctlWriteBrg v s)
  | lineDrive {l : Line} {v : Bool} : Atomic s (.lineDrive l v) (lineDrive l v s)
  | lineSense {l : Line} : Atomic s (.lineSense l (s.sensed l)) (lineSense l s)
  | delay : Atomic s (.delay Config.tRec) (delay s)
  | diag {p : Prim} : Atomic s (.diag p) (diag p s)
  | dirtyWrite {v : Bool} : Atomic s (.dirtyWrite v) (dirtyWrite v s)
  | dirtyRead : Atomic s (.dirtyRead s.dirty) (dirtyRead s)
  | memRead (h : Memory.inRange s.work.i = true) : Atomic s (.memRead s.work.i (Memory.read s.buf s.work.i))
      (State.record (.memRead s.work.i (Memory.read s.buf s.work.i))
        { s with work := { s.work with v := Memory.read s.buf s.work.i } })
  | memWrite (h : Memory.inRange s.work.i = true) : Atomic s (.memWrite s.work.i s.work.b)
      (State.record (.memWrite s.work.i s.work.b) { s with buf := Memory.write s.buf s.work.i s.work.b })
  | complete {code : BitVec 5} {data : Byte} {nxfer : BitVec 16} :
      Atomic s (.complete code data nxfer) (complete code data nxfer s)

theorem Atomic.hist {s u : State} {a : Action} (h : Atomic s a u) : u.hist = a :: s.hist := by
  cases h <;> rfl

theorem memRead_atomic {s u : State} (h : memRead s = .next u) :
    Atomic s (.memRead s.work.i (Memory.read s.buf s.work.i)) u := by
  unfold memRead at h
  split at h <;> cases h
  exact .memRead ‹_›

theorem memWrite_atomic {s u : State} (h : memWrite s = .next u) : Atomic s (.memWrite s.work.i s.work.b) u := by
  unfold memWrite at h
  split at h <;> cases h
  exact .memWrite ‹_›

theorem assertRequest_atomic (s : State) (f : ConField) (hf : f ∈ [ConField.sen, .rsen, .pen, .rcen, .acken]) :
    Atomic s (.writeCon f true) (assertRequest f s) :=
  .writeCon ⟨fun _ => rfl, fun h => absurd hf (by subst h; decide), fun h => absurd hf (by subst h; decide)⟩

theorem andThen_eq_next {o : Host.Outcome State Fault Refusal} {f : State → Host.Outcome State Fault Refusal} {t : State}
    (h : andThen o f = .next t) : ∃ u, o = .next u ∧ f u = .next t := by
  cases o with
  | next u => exact ⟨u, rfl, h⟩
  | fault r => cases h
  | refused r => cases h

/-! ## An atomic operation and the sequencing after it -/

/-- s goes to t by one atomic operation, recorded as a, and the sequencing that is folded into it (R14). -/
def Took (s : State) (a : Action) (t : State) : Prop := ∃ u, Atomic s a u ∧ Sequencing u t

theorem Sequencing.trans {s t u : State} (h : Sequencing s t) (h' : Sequencing t u) : Sequencing s u where
  host := h.host.trans h'.host
  hist := h'.hist.trans h.hist
  res := h'.res.trans h.res
  busy := h'.busy.trans h.busy
  dirty := h'.dirty.trans h.dirty
  buf := h'.buf.trans h.buf
  con := h'.con.trans h.con
  stat := h'.stat.trans h.stat
  trn := h'.trn.trans h.trn
  rcv := h'.rcv.trans h.rcv
  brg := h'.brg.trans h.brg
  line := h'.line.trans h.line
  draws := h'.draws.trans h.draws

/-- An atomic operation, then sequencing of the positions and the working registers alone. -/
theorem Atomic.then {s u : State} {a : Action} (h : Atomic s a u) (f : List Label) (w : Work) :
    ∃ a, Took s a { u with fsm := f, work := w } := ⟨a, u, h, sequencing_of u f w⟩

theorem Atomic.seq {s u t : State} {a : Action} (h : Atomic s a u) (hs : Sequencing u t) : ∃ a, Took s a t :=
  ⟨a, u, h, hs⟩

theorem Atomic.finish {s u t : State} {a : Action} {r : Result} (h : Atomic s a u) (ht : u.finish r = .next t) :
    ∃ a, Took s a t := h.seq (finish_sequencing ht)

/-! ## The actions -/

theorem State.mayWrite_on (s : State) (v : Bool) : s.mayWrite .on v := ⟨fun h => absurd h (by decide), nofun, nofun⟩

theorem State.mayWrite_slew (s : State) (v : Bool) : s.mayWrite .slew v := ⟨fun h => absurd h (by decide), nofun, nofun⟩

theorem State.mayWrite_ie (s : State) : s.mayWrite .ie false := ⟨fun h => absurd h (by decide), fun _ => rfl, nofun⟩

theorem State.mayWrite_ackdt (s : State) : s.mayWrite .ackdt (ackdtOf s.work.ack) :=
  ⟨fun h => absurd h (by decide), nofun, fun _ => rfl⟩

theorem actQ2_took {s t : State} (h : actQ2 s = .next t) : ∃ a, Took s a t := by
  unfold actQ2 at h
  split at h
  · cases h; exact Atomic.readStat.then _ _
  · exact Atomic.readStat.finish h

theorem actQ3_took {s t : State} (h : actQ3 s = .next t) : ∃ a, Took s a t := by
  unfold actQ3 at h
  split at h
  · split at h
    · exact Atomic.diag.finish h
    · cases h
  · cases h

theorem firstCheck_took (l m : Label) (s : State) : ∃ a, Took s a (firstCheck l m s) := by
  unfold firstCheck; split <;> exact Atomic.readStat.then _ _

theorem secondCheck_took {s t : State} {l : Label} (h : secondCheck l s = .next t) : ∃ a, Took s a t := by
  unfold secondCheck at h
  split at h
  · cases h; exact Atomic.readStat.then _ _
  · exact Atomic.readStat.finish h

theorem actW5_took {s t : State} (h : actW5 s = .next t) : ∃ a, Took s a t := by
  unfold actW5 at h
  split at h
  · cases h; exact Atomic.readStat.then _ _
  · split at h
    · cases h; exact Atomic.readStat.then _ _
    · exact Atomic.readStat.finish h

/-- One iteration of a bounded poll is its one read (R228). -/
theorem pollUntil_took {read onDone onTimeout : State → State} {done : State → Bool} {n : Nat} {s : State} {a : Action}
    (hr : Atomic s a (read s)) (hd : ∀ u, Sequencing u (onDone u)) (ht : ∀ u, Sequencing u (onTimeout u)) :
    ∃ a, Took s a (pollUntil read done n onDone onTimeout s) := by
  have hc : Sequencing (read s) (read s).countPoll := sequencing_of _ _ _
  unfold pollUntil
  dsimp only
  split
  · exact hr.seq (hc.trans (hd _))
  · split
    · exact hr.seq (hc.trans (ht _))
    · exact hr.seq hc

theorem startToggles_sequencing (s : State) : Sequencing s s.startToggles := sequencing_of _ _ _

theorem nextToggle_sequencing (s : State) : Sequencing s s.nextToggle := sequencing_of _ _ _

theorem nextByte_sequencing (s : State) : Sequencing s s.nextByte := sequencing_of _ _ _

theorem actV5_took {s t : State} (h : actV5 s = .next t) : ∃ a, Took s a t := by
  cases h
  split
  · exact Atomic.lineSense.seq ((startToggles_sequencing _).trans (recoverLoop_sequencing _))
  · exact Atomic.lineSense.then _ _

theorem actV6a_took {s t : State} (h : actV6a s = .next t) : ∃ a, Took s a t := by
  cases h
  split
  · exact Atomic.lineSense.seq ((nextToggle_sequencing _).trans (recoverLoop_sequencing _))
  · exact Atomic.lineSense.then _ _

theorem actV14_took {s t : State} (h : actV14 s = .next t) : ∃ a, Took s a t := by
  cases h
  (repeat' split) <;> exact Atomic.lineSense.then _ _

theorem actD7b_took {s t : State} (h : actD7b s = .next t) : ∃ a, Took s a t := by
  obtain ⟨u, hw, ht⟩ := andThen_eq_next h
  cases ht
  exact (memWrite_atomic hw).seq ((nextByte_sequencing u).trans (readLoop_sequencing _))

theorem actX5a_took {s t : State} (h : actX5a s = .next t) : ∃ a, Took s a t := by
  obtain ⟨u, hr, ht⟩ := andThen_eq_next h
  cases ht
  exact (memRead_atomic hr).seq (goto_sequencing _ u)

/-- Every Engine action is one atomic operation and sequencing. -/
theorem actAt_took {s t : State} {l : Label} (h : actAt l s = .next t) : ∃ a, Took s a t := by
  cases l
  -- the actions with a branch, and the loops
  case q2 => exact actQ2_took h
  case q3 => exact actQ3_took h
  case s3 | g3 | t3 => cases h; exact firstCheck_took _ _ _
  case s5 | g5 | t5 => exact secondCheck_took h
  case w5 => exact actW5_took h
  case v5 => exact actV5_took h
  case v6a => exact actV6a_took h
  case v6e => cases h; exact Atomic.delay.seq ((nextToggle_sequencing _).trans (recoverLoop_sequencing _))
  case v14 => exact actV14_took h
  case d7b => exact actD7b_took h
  case x5a => exact actX5a_took h
  -- bounded polls
  case s4 | g4 | t4 | b6 => cases h; exact pollUntil_took .readCon (goto_sequencing _) (toPf_sequencing _)
  case w4 | b4 => cases h; exact pollUntil_took .readStat (goto_sequencing _) (toPf_sequencing _)
  -- reads and senses
  case q1 => cases h; exact Atomic.readCon.then _ _
  case w2 | b7 => cases h; split <;> exact Atomic.readStat.then _ _
  case b8 => exact Atomic.readRcv.finish h
  case p1 | d1 | x1 => cases h; split <;> exact Atomic.dirtyRead.then _ _
  case v7 | v13 => cases h; exact Atomic.lineSense.then _ _
  case v8 => cases h; split <;> exact Atomic.lineSense.then _ _
  -- writes to the controller
  case s2 => cases h; exact (assertRequest_atomic s .sen (by decide)).then _ _
  case g2 => cases h; exact (assertRequest_atomic s .rsen (by decide)).then _ _
  case t2 => cases h; exact (assertRequest_atomic s .pen (by decide)).then _ _
  case b3 => cases h; exact (assertRequest_atomic s .rcen (by decide)).then _ _
  case b5 => cases h; exact (assertRequest_atomic s .acken (by decide)).then _ _
  case e1 | v1 | v15 => cases h; exact (Atomic.writeCon (s.mayWrite_on _)).then _ _
  case e2 | m4 => exact (Atomic.writeCon (s.mayWrite_on _)).finish h
  case m2 => cases h; exact (Atomic.writeCon (s.mayWrite_slew _)).then _ _
  case m3 => cases h; exact (Atomic.writeCon s.mayWrite_ie).then _ _
  case b2 => cases h; exact (Atomic.writeCon s.mayWrite_ackdt).then _ _
  case w3 => cases h; exact Atomic.writeTrn.then _ _
  case m1 => cases h; exact Atomic.writeBrg.then _ _
  -- the lines, delays, the tracker and the end of the command
  case i1 | i2 | v2 | v3 | v6b | v6d | v9 | v11 => cases h; exact Atomic.lineDrive.then _ _
  case v4 | v6c | v10 | v12 => cases h; exact Atomic.delay.then _ _
  case i3 | v16 | vf | pf | p6 | px | d9 | dx | x7 | xx | u2 => exact Atomic.dirtyWrite.finish h
  case fin => cases h; exact Atomic.complete.then _ _
  -- a line that calls is no action
  all_goals cases h

/-- `act`, the same. -/
theorem act_took {s t : State} (h : act s = .next t) : ∃ a, Took s a t := by
  unfold act at h
  split at h
  · cases h
  · exact actAt_took h

/-! ## What an atomic operation changes -/

/-- A write of CON.ON clears the collision flags where it makes the bit rise, and no other write does (R145). -/
theorem ctlWriteCon_stat_cases (f : ConField) (v : Bool) (s : State) :
    (ctlWriteCon f v s).stat = (match f, v with
      | .on, true => if s.con.on then s.stat else { s.stat with bcl := false, iwcol := false }
      | _, _ => s.stat) := by
  cases hon : s.con.on <;> cases f <;> cases v <;> simp [Stat.afterEnable, hon]

theorem sensed_off {s : State} (h : s.con.on = false) (l : Line) : s.sensed l = s.level l := by
  simp [State.sensed, h]

/-- Settles O26: the action is the atomic operation's entry (`act_took`). -/
theorem actionEffects : Obligations.ActionEffects := by
  unfold Obligations.ActionEffects
  intro s t h
  have hhost := (act_acts h).host
  obtain ⟨a, u, ha, hs⟩ := act_took h
  refine ⟨a, ?_⟩
  rw [hs.hist, hs.con, hs.stat, hs.trn, hs.brg, hs.line, hs.dirty, hs.buf, hs.res, hs.busy, hs.rcv, hhost.cmd, hhost.count,
    hhost.hostErr, hhost.latch, hhost.params]
  cases ha
  case writeCon f v hw =>
    refine ⟨rfl, rfl, ?_, rfl, rfl, rfl, rfl, rfl, rfl, rfl, rfl, rfl, rfl, rfl, rfl, rfl, trivial⟩
    rw [ctlWriteCon_stat_cases]
    cases f <;> cases v <;> rfl
  case lineSense l =>
    exact ⟨rfl, rfl, rfl, rfl, rfl, rfl, rfl, rfl, rfl, rfl, rfl, rfl, rfl, rfl, rfl, rfl, fun hon => sensed_off hon l⟩
  case lineDrive l v => cases l <;> and_intros <;> trivial
  all_goals and_intros <;> trivial

/-- Settles O27: the entry added to H fixes which atomic operation it was. -/
theorem engineWrites : Obligations.EngineWrites := by
  unfold Obligations.EngineWrites
  intro s t h
  obtain ⟨a, u, ha, hs⟩ := act_took h
  rw [hs.hist, ha.hist]
  refine ⟨fun f v hfv => ?_, fun v hv => ?_⟩
  · obtain rfl := (List.cons.inj hfv).1
    cases ha with
    | writeCon hw => exact hw
  · obtain rfl := (List.cons.inj hv).1
    cases ha
    rfl

/-! ## The lines (R47, R148, R149) -/

/-- Settles O30: with CON.ON = 0 the sample is the level (`sensed_off`), and a drive stores its bit. -/
theorem lineLevels : Obligations.LineLevels := by
  unfold Obligations.LineLevels
  refine fun s => ⟨fun hon => ⟨?_, ?_⟩, fun v => ⟨rfl, rfl⟩⟩
  · exact sensed_off hon .scl
  · exact sensed_off hon .sda

end Sys2Proof.Machine

/-! SUPPORT. The words of the registers, bit by bit (spec/10_state.md R34, R35, R40, R42, R43). -/

namespace Sys2Proof.Machine

/-- A word is known by its 32 bits: above them every bit is 0. -/
theorem getLsbD_word {w : Word} {bit : Nat → Bool} (hlow : ∀ n < 32, w.getLsbD n = bit n)
    (hhigh : ∀ n, bit (n + 32) = false) (n : Nat) : w.getLsbD n = bit n := by
  by_cases hn : n < 32
  · exact hlow n hn
  · obtain ⟨k, rfl⟩ := Nat.exists_eq_add_of_le' (Nat.le_of_not_lt hn)
    rw [hhigh, BitVec.getLsbD_of_ge _ _ (Nat.le_add_left 32 k)]

/-- The bits of CON (R40). -/
def Con.bit (c : Con) (n : Nat) : Bool :=
  match n with
  | 0 => c.sen | 1 => c.rsen | 2 => c.pen | 3 => c.rcen | 4 => c.acken | 5 => c.ackdt
  | 6 => c.slew | 7 => c.ie | 15 => c.on | _ => false

theorem Con.word_getLsbD (c : Con) (n : Nat) : c.word.getLsbD n = c.bit n := by
  refine getLsbD_word (fun n hn => ?_) (fun _ => rfl) n
  change BitVec.getLsbD (w := 16 + 1 + 7 + 1 + 1 + 1 + 1 + 1 + 1 + 1 + 1) _ n = _
  unfold Con.word
  simp only [BitVec.getLsbD_append]
  interval_cases n <;> simp [Con.bit]

/-- The bits of STAT (R42). -/
def Stat.bit (st : Stat) (n : Nat) : Bool :=
  match n with
  | 0 => st.tbf | 1 => st.rbf | 2 => st.i2cov | 3 => st.iwcol | 4 => st.bcl | 5 => st.trstat
  | 6 => st.ackstat | _ => false

theorem Stat.word_getLsbD (st : Stat) (n : Nat) : st.word.getLsbD n = st.bit n := by
  refine getLsbD_word (fun n hn => ?_) (fun _ => rfl) n
  change BitVec.getLsbD (w := 25 + 1 + 1 + 1 + 1 + 1 + 1 + 1) _ n = _
  unfold Stat.word
  simp only [BitVec.getLsbD_append]
  interval_cases n <;> simp [Stat.bit]

/-- A word of four flags, the first argument bit 0: ESTAT (R35) and LINE (R43). -/
def flagBit (b0 b1 b2 b3 : Bool) (n : Nat) : Bool :=
  match n with
  | 0 => b0 | 1 => b1 | 2 => b2 | 3 => b3 | _ => false

theorem flags_getLsbD (b0 b1 b2 b3 : Bool) (n : Nat) :
    (0#28 ++ BitVec.ofBool b3 ++ BitVec.ofBool b2 ++ BitVec.ofBool b1 ++ BitVec.ofBool b0 : Word).getLsbD n =
      flagBit b0 b1 b2 b3 n := by
  refine getLsbD_word (fun n hn => ?_) (fun _ => rfl) n
  change BitVec.getLsbD (w := 28 + 1 + 1 + 1 + 1) _ n = _
  simp only [BitVec.getLsbD_append]
  interval_cases n <;> simp [flagBit]

theorem estat_getLsbD (s : State) (n : Nat) :
    s.estat.getLsbD n = flagBit s.busy s.dirty s.hostErr s.con.on n := flags_getLsbD _ _ _ _ n

theorem lineWord_getLsbD (s : State) (n : Nat) :
    s.lineWord.getLsbD n = flagBit s.line.sclOut s.line.sdaOut s.sclIn s.sdaIn n := flags_getLsbD _ _ _ _ n

theorem sclIn_off {s : State} (h : s.con.on = false) : s.sclIn = (s.line.sclOut && !s.line.extSclLow) := by
  simp [State.sclIn, State.level, h]

theorem sdaIn_off {s : State} (h : s.con.on = false) : s.sdaIn = (s.line.sdaOut && !s.line.extSdaLow) := by
  simp [State.sdaIn, State.level, h]

/-- RES from bit 0 on: CODE, three zeros, DATA, NXFER (R34). -/
theorem ResReg.word_getLsbD (r : ResReg) (n : Nat) : r.word.getLsbD n =
    if n < 5 then r.code.getLsbD n else if n < 8 then false
    else if n < 16 then r.data.getLsbD (n - 8) else r.nxfer.getLsbD (n - 16) := by
  change BitVec.getLsbD (w := 16 + 8 + 3 + 5) _ n = _
  unfold ResReg.word
  simp only [BitVec.getLsbD_append]
  simp only [BitVec.getLsbD_zero, Nat.sub_sub, Nat.reduceAdd]
  grind

theorem ResReg.word_fields (r : ResReg) :
    r.word.extractLsb' 0 5 = r.code ∧ r.word.extractLsb' 5 3 = 0#3 ∧ r.word.extractLsb' 8 8 = r.data ∧
      r.word.extractLsb' 16 16 = r.nxfer := by
  refine ⟨?_, ?_, ?_, ?_⟩ <;> ext i hi <;> rw [BitVec.getElem_extractLsb', ResReg.word_getLsbD]
  · rw [if_pos (by omega), Nat.zero_add, BitVec.getLsbD_eq_getElem hi]
  · rw [if_neg (by omega), if_pos (by omega), BitVec.getElem_zero]
  · rw [if_neg (by omega), if_neg (by omega), if_pos (by omega), Nat.add_sub_cancel_left, BitVec.getLsbD_eq_getElem hi]
  · rw [if_neg (by omega), if_neg (by omega), if_neg (by omega), Nat.add_sub_cancel_left, BitVec.getLsbD_eq_getElem hi]

/-- Settles O31: the bits of each word, read off its fields. -/
theorem registerWords : Obligations.RegisterWords := by
  unfold Obligations.RegisterWords
  intro s n
  refine ⟨s.con.word_getLsbD n, s.stat.word_getLsbD n, estat_getLsbD s n, fun h2 h3 => ?_, fun hon => ⟨?_, ?_⟩,
    s.res.word_fields⟩
  · rw [lineWord_getLsbD]
    match n with
    | 0 | 1 | _ + 4 => rfl
    | 2 => exact absurd rfl h2
    | 3 => exact absurd rfl h3
  · exact (lineWord_getLsbD s 2).trans (sclIn_off hon)
  · exact (lineWord_getLsbD s 3).trans (sdaIn_off hon)

end Sys2Proof.Machine

/-! SUPPORT. What the Engine does reads nothing of the Host's own fields (spec/20_memory.md R93), so a run follows its schedule one event at a time, and what comes behind an event does not change what it does. Before it, the statement on a Host access of another width (R81). -/

namespace Sys2Proof.Machine

/-- Settles O12: the step looks at the width before anything else. -/
theorem narrowAccessRefused : Obligations.NarrowAccessRefused := by
  unfold Obligations.NarrowAccessRefused
  exact fun _ _ => rfl

/-! ## The Engine does not see the Host's own fields -/

/-- s with h's schedule, Host's log and HOSTERR: the fields no Engine action reads or writes. -/
def State.withHostOf (s h : State) : State :=
  { s with inputs := h.inputs, hostLog := h.hostLog, hostErr := h.hostErr }

/-- f neither reads nor writes the Host's own fields. -/
def HostBlind (f : State → State) : Prop := ∀ h s : State, f (s.withHostOf h) = (f s).withHostOf h

/-- The same of an f that may stop. -/
def HostBlindStep (f : State → Host.Outcome State Fault Refusal) : Prop :=
  ∀ h s : State, f (s.withHostOf h) = andThen (f s) fun t => .next (t.withHostOf h)

theorem HostBlind.next {f : State → State} (hf : HostBlind f) : HostBlindStep fun s => .next (f s) :=
  fun h s => congrArg Host.Outcome.next (hf h s)

theorem HostBlind.comp {g f : State → State} (hg : HostBlind g) (hf : HostBlind f) : HostBlind fun s => g (f s) :=
  fun h s => (congrArg g (hf h s)).trans (hg h (f s))

theorem HostBlindStep.comp {g : State → Host.Outcome State Fault Refusal} {f : State → State} (hg : HostBlindStep g)
    (hf : HostBlind f) : HostBlindStep fun s => g (f s) :=
  fun h s => (congrArg g (hf h s)).trans (hg h (f s))

theorem HostBlind.ite {c : State → Prop} [∀ s, Decidable (c s)] {f g : State → State} (hf : HostBlind f) (hg : HostBlind g)
    (hc : ∀ h s, c (s.withHostOf h) ↔ c s := by exact fun _ _ => .rfl) : HostBlind fun s => if c s then f s else g s :=
  fun h s => (if_congr (hc h s) (hf h s) (hg h s)).trans (apply_ite (fun t : State => t.withHostOf h) _ _ _).symm

theorem HostBlindStep.ite {c : State → Prop} [∀ s, Decidable (c s)] {f g : State → Host.Outcome State Fault Refusal}
    (hf : HostBlindStep f) (hg : HostBlindStep g) (hc : ∀ h s, c (s.withHostOf h) ↔ c s := by exact fun _ _ => .rfl) :
    HostBlindStep fun s => if c s then f s else g s :=
  fun h s => (if_congr (hc h s) (hf h s) (hg h s)).trans (apply_ite (andThen · _) _ _ _).symm

theorem HostBlindStep.andThen {f g : State → Host.Outcome State Fault Refusal} (hf : HostBlindStep f)
    (hg : HostBlindStep g) : HostBlindStep fun s => andThen (f s) g := fun h s => by
  show Machine.andThen (f (s.withHostOf h)) g = _
  rw [hf, andThen_assoc, andThen_assoc]
  exact congrArg _ (funext (hg h))

/-! ### Sequencing -/

theorem recoverLoop_hostBlind : HostBlind State.recoverLoop := .ite (fun _ _ => rfl) (fun _ _ => rfl)

theorem readLoop_hostBlind : HostBlind State.readLoop := .ite (fun _ _ => rfl) (fun _ _ => rfl)

theorem writeLoop_hostBlind : HostBlind State.writeLoop := .ite (fun _ _ => rfl) (fun _ _ => rfl)

theorem afterAddr_hostBlind (l : Label) : HostBlind (State.afterAddr l) :=
  .ite (fun _ _ => rfl) (.ite (fun _ _ => rfl) (fun _ _ => rfl))

theorem pollClassify_hostBlind : HostBlind State.pollClassify :=
  .ite (fun _ _ => rfl) (.ite (fun _ _ => rfl) (.ite (fun _ _ => rfl) (fun _ _ => rfl)))

theorem resume_hostBlind (c : Label) (r : Result) : HostBlindStep (resume c r) := by
  cases c
  -- the callers that go on into a loop or a classification of their own
  case p5 => exact (pollClassify_hostBlind.comp (f := State.keepT r) fun _ _ => rfl).next
  case d3 => exact ((afterAddr_hostBlind .d4).comp (f := State.keepW r) fun _ _ => rfl).next
  case x3 => exact ((afterAddr_hostBlind .x4).comp (f := State.keepW r) fun _ _ => rfl).next
  case d6 =>
    exact (HostBlind.ite (readLoop_hostBlind.comp (f := fun s => (s.keepW r).startLoop) fun _ _ => rfl) fun _ _ => rfl).next
  case x4 =>
    exact (HostBlind.ite (writeLoop_hostBlind.comp (f := fun s => (s.keepW r).startLoop) fun _ _ => rfl) fun _ _ => rfl).next
  case x5b =>
    exact (HostBlind.ite (writeLoop_hostBlind.comp (f := fun s => (s.keepW r).nextByte) fun _ _ => rfl) fun _ _ => rfl).next
  -- the callers that look at the result alone
  case d7a => cases r <;> exact fun _ _ => rfl
  case p2 | p3 | d2 | d4 | d5 | d8 | x2 | x6 => exact (HostBlind.ite (fun _ _ => rfl) fun _ _ => rfl).next
  all_goals exact fun _ _ => rfl

theorem finish_withHostOf (r : Result) (h s : State) :
    (s.withHostOf h).finish r = andThen (s.finish r) fun t => .next (t.withHostOf h) := by
  unfold State.finish
  rw [show (s.withHostOf h).fsm = s.fsm from rfl]
  split
  · rfl
  · rfl
  · exact resume_hostBlind _ r h { s with fsm := _ }

/-- An atomic operation, then the end of the operation with a result read off what it left. -/
theorem finish_hostBlind {f : State → State} {r : State → Result} (hf : HostBlind f)
    (hr : ∀ h s, r (s.withHostOf h) = r s := by exact fun _ _ => rfl) : HostBlindStep fun s => (f s).finish (r s) := fun h s => by
  show (f (s.withHostOf h)).finish (r (s.withHostOf h)) = _
  rw [hf, hr]
  exact finish_withHostOf (r s) h (f s)

/-! ### The actions -/

theorem memRead_hostBlind : HostBlindStep memRead := .ite (fun _ _ => rfl) (fun _ _ => rfl)

theorem memWrite_hostBlind : HostBlindStep memWrite := .ite (fun _ _ => rfl) (fun _ _ => rfl)

theorem firstCheck_hostBlind (l m : Label) : HostBlind (firstCheck l m) := .ite (fun _ _ => rfl) (fun _ _ => rfl)

theorem secondCheck_hostBlind (l : Label) : HostBlindStep (secondCheck l) :=
  .ite (fun _ _ => rfl) (finish_hostBlind fun _ _ => rfl)

theorem actQ3_hostBlind : HostBlindStep actQ3 := fun h s => by
  unfold actQ3
  rw [show (s.withHostOf h).fsm = s.fsm from rfl]
  split
  · split
    · exact finish_withHostOf .ok h (diag _ s)
    · rfl
  · rfl

/-- One read of a bounded poll; the ceiling is one of the parameters. -/
theorem pollUntil_hostBlind {read onDone onTimeout : State → State} {done : State → Bool} {n : State → Nat}
    (hread : HostBlind read) (hdone : ∀ h s, done (s.withHostOf h) = done s) (hn : ∀ h s, n (s.withHostOf h) = n s)
    (hd : HostBlind onDone) (ht : HostBlind onTimeout) : HostBlind fun s => pollUntil read done (n s) onDone onTimeout s :=
  have hcount : ∀ h s, (read (s.withHostOf h)).countPoll = (read s).countPoll.withHostOf h :=
    fun h s => congrArg State.countPoll (hread h s)
  .ite (hd.comp hcount)
    (.ite (ht.comp hcount) hcount fun h s => by rw [hcount, hn]; rfl)
    fun h s => by rw [hcount, hdone]

theorem pollRequest_hostBlind (f : ConField) (l : Label) : HostBlind (pollRequest f (State.goto l)) :=
  pollUntil_hostBlind (fun _ _ => rfl) (fun _ _ => rfl) (fun _ _ => rfl) (fun _ _ => rfl) (fun _ _ => rfl)

theorem actAt_hostBlind (l : Label) : HostBlindStep (actAt l) := by
  cases l
  case q2 => exact .ite (fun _ _ => rfl) (finish_hostBlind fun _ _ => rfl)
  case q3 => exact actQ3_hostBlind
  case s3 | g3 | t3 => exact (firstCheck_hostBlind _ _).next
  case s5 | g5 | t5 => exact secondCheck_hostBlind _
  case s4 | g4 | t4 | b6 => exact (pollRequest_hostBlind _ _).next
  case w4 | b4 =>
    exact (pollUntil_hostBlind (fun _ _ => rfl) (fun _ _ => rfl) (fun _ _ => rfl) (fun _ _ => rfl) (fun _ _ => rfl)).next
  case w5 => exact .ite (fun _ _ => rfl) (.ite (fun _ _ => rfl) (finish_hostBlind fun _ _ => rfl))
  case v5 =>
    exact (HostBlind.ite (recoverLoop_hostBlind.comp (f := fun s => (lineSense .scl s).startToggles) fun _ _ => rfl)
      fun _ _ => rfl).next
  case v6a =>
    exact (HostBlind.ite (recoverLoop_hostBlind.comp (f := fun s => (lineSense .sda s).nextToggle) fun _ _ => rfl)
      fun _ _ => rfl).next
  case v6e => exact (recoverLoop_hostBlind.comp (f := fun s => (delay s).nextToggle) fun _ _ => rfl).next
  case v14 => exact (HostBlind.ite (fun _ _ => rfl) (.ite (fun _ _ => rfl) fun _ _ => rfl)).next
  case v8 | w2 | b7 | p1 | d1 | x1 => exact (HostBlind.ite (fun _ _ => rfl) fun _ _ => rfl).next
  case d7b => exact memWrite_hostBlind.andThen (readLoop_hostBlind.comp (f := State.nextByte) fun _ _ => rfl).next
  case x5a => exact memRead_hostBlind.andThen fun _ _ => rfl
  case i3 | m4 | e2 | v16 | vf | pf | p6 | px | d9 | dx | x7 | xx | u2 | b8 => exact finish_hostBlind fun _ _ => rfl
  all_goals exact fun _ _ => rfl

theorem act_hostBlind : HostBlindStep act := fun h s => by
  unfold act
  rw [show (s.withHostOf h).fsm = s.fsm from rfl]
  split
  · rfl
  · exact actAt_hostBlind _ h s

end Sys2Proof.Machine

/-! SUPPORT. A running command takes its schedule one event at a time (R93, R295), and the fuel of `runCommand` is enough for it (R341). With it, the statement on the pause (log 1). -/

namespace Sys2Proof.Machine

/-! ## One agent's step does not look behind the event it takes -/

/-- The Engine's action is the same under another schedule. -/
theorem act_withInputs {s t : State} (ht : act s = .next t) (evs : List Event) :
    act (s.withInputs evs) = .next (t.withInputs evs) := by
  have hhost := (act_acts ht).host
  have h : act (s.withInputs evs) = .next (t.withHostOf (s.withInputs evs)) := by
    have hblind := act_hostBlind (s.withInputs evs) s
    rwa [ht] at hblind
  rw [h, State.withHostOf, withInputs_hostLog, withInputs_hostErr, ← hhost.hostLog, ← hhost.hostErr]
  rfl

theorem act_inputs {s t : State} (ht : act s = .next t) : t.inputs = s.inputs := (act_acts ht).host.inputs

theorem hostWrite_withInputs (off : BitVec 9) (w : Word) (evs : List Event) (s : State) :
    hostWrite off w (s.withInputs evs) = (hostWrite off w s).withInputs evs := by
  unfold hostWrite
  cases hostReg off with
  | cmd | estat | count | bufWord => dsimp only; rw [apply_ite (State.withInputs evs)]; rfl
  | res | unmapped => rfl

/-- With more events behind an ordinary schedule, its first event is at the head still, and no boundary. -/
theorem atBoundary_append {s : State} (hne : s.inputs ≠ []) (ho : ordinary s.inputs) (more : List Event) :
    (s.withInputs (s.inputs ++ more)).atBoundary = false := by
  obtain ⟨e, rest, hi⟩ := List.exists_cons_of_ne_nil hne
  rw [hi] at ho ⊢
  exact (List.forall_mem_cons.mp ho).1

/-- With more events behind the schedule, the agent's step is the same. -/
theorem tick_append {s t : State} (hne : s.inputs ≠ []) (ho : ordinary s.inputs) (ht : tick s = .next t)
    (more : List Event) : tick (s.withInputs (s.inputs ++ more)) = .next (t.withInputs (t.inputs ++ more)) := by
  cases hi : s.inputs with
  | nil => exact absurd hi hne
  | cons e rest =>
    rw [hi] at ho
    have he : e.isBoundary = false := (List.forall_mem_cons.mp ho).1
    unfold tick at ht
    rw [hi] at ht
    cases e with
    | engine =>
      have ht' : act (s.withInputs rest) = .next t := ht
      rw [act_inputs ht']
      exact act_withInputs ht' _
    | env e => cases ht; rfl
    | hostRead off => cases ht; rfl
    | hostWrite off w =>
      cases ht
      rw [hostWrite_inputs]
      exact congrArg Host.Outcome.next (hostWrite_withInputs off w _ (s.withInputs rest))
    | hostWait =>
      have ht' : act s = .next t := ht
      rw [act_inputs ht', hi]
      exact act_withInputs ht' _
    | hostNarrow | reset | pause => cases he

/-! ## A run over the first part of a schedule -/

/-- A run takes the first part of its schedule to the end, or completes the command on the way, whatever comes behind. -/
theorem run_append {s : State} (h : s.Inv) (ho : ordinary s.inputs) :
    ∃ (k : Nat) (t : State), (∀ more, run k (s.withInputs (s.inputs ++ more)) = .next (t.withInputs (t.inputs ++ more))) ∧
      (t.busy = false ∨ t.inputs = []) ∧ k + (t.inputs.length + t.remaining) ≤ s.inputs.length + s.remaining := by
  induction hm : s.inputs.length + s.remaining using Nat.strong_induction_on generalizing s with
  | _ m ih =>
    subst hm
    by_cases hstop : s.busy = false ∨ s.inputs = []
    · exact ⟨0, s, fun _ => rfl, hstop, by omega⟩
    · obtain ⟨hb, hne⟩ : s.busy = true ∧ s.inputs ≠ [] := by simpa using hstop
      obtain ⟨u, hu, huo, hlt⟩ := tick_nearer h hb ho
      obtain ⟨k, t, hrun, hend, hk⟩ := ih _ hlt (tick_keeps h hu) huo rfl
      refine ⟨k + 1, t, fun more => ?_, hend, by omega⟩
      rw [run_succ (s := s.withInputs (s.inputs ++ more)) k hb (atBoundary_append hne ho more), tick_append hne ho hu]
      exact hrun more

/-! ## The fuel of `runCommand` -/

/-- The running command still fits in the bound of R285. -/
def State.WithinBound (s : State) : Prop := s.remaining ≤ commandBound s.params

theorem act_busy {s t : State} (h : s.Inv) (ht : act s = .next t) : s.busy = true := by
  cases hb : s.busy with
  | true => rfl
  | false => rw [act, h.fsm_idle hb] at ht; cases ht

theorem hostWrite_params (off : BitVec 9) (w : Word) (s : State) : (hostWrite off w s).params = s.params := by
  unfold hostWrite
  split <;> (try split) <;> rfl

/-- What R285 says of each command: a full READ is the longest. -/
theorem accept_withinBound (u : Submission) {s : State} (hu : entryOf u.op = some u.entry)
    (hc : u.counted → s.count.toNat ≤ Config.bufCap) : (accept u s).WithinBound := by
  unfold State.WithinBound
  rw [remaining_accept]
  change _ ≤ commandBound s.params
  have hmul (h : u.counted) (b : Nat) : s.count.toNat * b ≤ 256 * b := Nat.mul_le_mul_right b (hc h)
  obtain ⟨⟨⟨n, hn⟩⟩, ack, d8, a7, entry⟩ := u
  interval_cases n <;> cases hu
  -- WRITE and READ, whose loops run COUNT times
  on_goal 5 =>
    have := hmul (.inr rfl) (wrbyteBound s.params + 1)
    simp only [Label.opened, Label.callee, stackWeight, Label.weight, commandBound, Config.bufCap]
    omega
  on_goal 4 =>
    have := hmul (.inl rfl) (rdbyteBound s.params + 1)
    simp only [Label.opened, Label.callee, stackWeight, Label.weight, commandBound, Config.bufCap]
    omega
  all_goals
    simp only [Label.opened, Label.callee, stackWeight, Label.weight, commandBound, recoverBound, requestBound, wrbyteBound]
    omega

/-- Every agent's move keeps the invariant, and the bound with it. -/
theorem withinBound_keptByMoves : KeptByMoves fun s => s.Inv ∧ s.WithinBound where
  inputs rest _ h := ⟨withInputs_keeps rest h.1, h.2⟩
  act {s t} h ht := by
    obtain ⟨u, hu, hlt⟩ := act_decreases h.1 (act_busy h.1 ht)
    obtain rfl : u = t := by rw [ht] at hu; cases hu; rfl
    refine ⟨act_keeps h.1 ht, ?_⟩
    rw [State.WithinBound, (act_acts ht).host.params]
    exact hlt.le.trans h.2
  env e _ h := ⟨envStep_keeps e h.1, h.2⟩
  hostRead off _ h := ⟨hostRead_keeps off h.1, h.2⟩
  hostWrite off w s h := by
    refine ⟨hostWrite_keeps off w h.1, ?_⟩
    rw [State.WithinBound, hostWrite_remaining, hostWrite_params]
    exact h.2
  reject h hb := ⟨reject_keeps h.1 hb, h.2⟩
  accept u _ h hb hu hc := ⟨accept_keeps u h.1 hb hu hc, accept_withinBound u hu hc⟩

/-- The fuel of `runCommand` takes the whole schedule and all that remains of the command. -/
theorem State.WithinBound.enough {s : State} (h : s.WithinBound) : s.inputs.length + s.remaining ≤ s.fuel :=
  Nat.add_le_add_left h _

/-- Runs with enough fuel for the command end alike. -/
theorem run_enough {m n : Nat} {s : State} (h : s.Inv) (ho : ordinary s.inputs) (hm : s.inputs.length + s.remaining ≤ m)
    (hn : s.inputs.length + s.remaining ≤ n) : run m s = run n s := by
  obtain ⟨t, ht, hb, -⟩ := run_completes h ho le_rfl
  have hall {n : Nat} (hn : s.inputs.length + s.remaining ≤ n) : run n s = .next t := by
    obtain ⟨k, rfl⟩ := Nat.exists_eq_add_of_le hn
    rw [run_add, ht, andThen_next, run_stopped k (.inl hb)]
  rw [hall hm, hall hn]

/-- A command whose run of n agents' steps stopped, n within the fuel, stops there. -/
theorem runCommand_of_stopped {n : Nat} {s t : State} (ht : run n s = .next t) (hstop : t.busy = false ∨ t.atBoundary = true)
    (hn : n ≤ s.fuel) : runCommand s = .next t := by
  obtain ⟨k, hk⟩ := Nat.exists_eq_add_of_le hn
  rw [runCommand, hk, run_add, ht, andThen_next, run_stopped k hstop]

/-- A command that has run some agents' steps goes on to the same end. -/
theorem runCommand_run {k : Nat} {s t : State} (h : s.Inv) (hbound : s.WithinBound) (hs : ordinary s.inputs)
    (ht : ordinary t.inputs) (hrun : run k s = .next t) : runCommand t = runCommand s := by
  obtain ⟨hinv, hbound'⟩ := run_induction (fun _ _ hu _ _ hk => withinBound_keptByMoves.tick hu hk) k s t ⟨h, hbound⟩ hrun
  have hs' := hbound.enough
  have ht' := hbound'.enough
  calc runCommand t = run (s.fuel + t.fuel) t := run_enough hinv ht ht' (by omega)
    _ = run (k + (s.fuel + t.fuel)) s := by rw [run_add k, hrun, andThen_next]
    _ = runCommand s := run_enough h hs (by omega) hs'

/-! ## The pause -/

/-- A command that stopped at the pause took the whole first part of the schedule, and goes on from there as if the
pause had not been. -/
theorem runCommand_pause {s t : State} {before after : List Event} (h : s.Inv) (hbound : s.WithinBound)
    (hbefore : ordinary before) (hafter : ordinary after)
    (ht : runCommand (s.withInputs (before ++ .pause :: after)) = .next t) (hb : t.busy = true) :
    t.inputs = .pause :: after ∧
      runCommand (t.withInputs after) = runCommand (s.withInputs (before ++ after)) := by
  obtain ⟨k, u, hrun, hend, hk⟩ := run_append (s := s.withInputs before) (withInputs_keeps before h) hbefore
  have hk : k + (u.inputs.length + u.remaining) ≤ before.length + s.remaining := hk
  have hremaining : s.remaining ≤ commandBound s.params := hbound
  have hstop : (u.withInputs (u.inputs ++ .pause :: after)).busy = false ∨
      (u.withInputs (u.inputs ++ .pause :: after)).atBoundary = true :=
    hend.imp_right fun hi => by rw [hi]; rfl
  have hfuel : k ≤ (s.withInputs (before ++ .pause :: after)).fuel := by
    simp only [State.fuel, withInputs_inputs, withInputs_params, List.length_append]
    omega
  obtain rfl : u.withInputs (u.inputs ++ .pause :: after) = t :=
    Host.Outcome.next.inj ((runCommand_of_stopped (hrun (.pause :: after)) hstop hfuel).symm.trans ht)
  have hused : u.inputs = [] := hend.resolve_left fun hidle => Bool.noConfusion (hidle.symm.trans hb)
  refine ⟨by rw [hused]; rfl, ?_⟩
  have hjoined : run k (s.withInputs (before ++ after)) = .next (u.withInputs after) := by
    have := hrun after
    rwa [hused] at this
  exact runCommand_run (withInputs_keeps _ h) hbound (List.forall_mem_append.mpr ⟨hbefore, hafter⟩) hafter hjoined

theorem step_pause {s : State} {rest : List Event} (hi : s.inputs = .pause :: rest) : step s = goOn (s.withInputs rest) := by
  unfold step stepBody
  rw [hi]

/-- An idle block accepts and runs the command, if its COUNT is within BUF where it looks at it (R117, R292). -/
theorem exec_accepted {i : Instr} {s : State} (hb : s.busy = false)
    (hc : (submissionOf i).counted → s.count.toNat ≤ Config.bufCap) :
    exec i s = runCommand (accept (submissionOf i) s) := by
  have hperform : ∀ u : Submission, perform u s = runCommand (accept u s) := fun u => by simp [perform, hb]
  have hcounted (hu : s.count.toNat ≤ Config.bufCap) (u : Submission) : performCounted u s = runCommand (accept u s) := by
    have hsmall : countTooLarge s = false := decide_eq_false (Nat.not_lt.mpr hu)
    simp [performCounted, hb, hsmall]
  cases i
  case read => exact hcounted (hc (.inl rfl)) _
  case write => exact hcounted (hc (.inr rfl)) _
  all_goals exact hperform _

/-- Settles O23: the command is accepted alike under both schedules (`exec_accepted`), and from the pause on it runs as
without it (`runCommand_pause`). -/
theorem pauseIsInvisible : Obligations.PauseIsInvisible := by
  unfold Obligations.PauseIsInvisible
  intro s t i before after h hb hbefore hafter ht hbusy
  obtain hreject | ⟨hc, hr⟩ := exec_idle_cases (s := s.withInputs (before ++ .pause :: after)) hb ht
  · have hidle : t.busy = false := by rw [hreject]; exact hb
    exact Bool.noConfusion (hidle.symm.trans hbusy)
  · have hu := entryOf_submissionOf i
    obtain ⟨hi, hgo⟩ := runCommand_pause (s := accept (submissionOf i) s) (accept_keeps _ h hb hu hc)
      (accept_withinBound _ hu hc) hbefore hafter hr hbusy
    calc step t = goOn (t.withInputs after) := step_pause hi
      _ = runCommand (t.withInputs after) := by rw [goOn, withInputs_busy, hbusy]; rfl
      _ = runCommand ((accept (submissionOf i) s).withInputs (before ++ after)) := hgo
      _ = exec i { s with inputs := before ++ after } :=
        (exec_accepted (s := s.withInputs (before ++ after)) hb hc).symm

end Sys2Proof.Machine

/-! SUPPORT. The decoder, said once: the words it accepts (R116), the fields a masked word fixes (R113), and where each field of a word stands (R112). With it, the statements on the encoding. -/

namespace Sys2Proof

/-! ## The decoder -/

/-- The decoder looks at the reserved fields, then at the opcode map. -/
theorem decode_eq_ok_iff {w : Word} {i : Instr} :
    decode w = .ok i ↔ rsv0Field w = 0#3 ∧ rsv1Field w = 0#9 ∧ decodeOp w = .ok i := by
  by_cases h0 : rsv0Field w = 0#3 <;> by_cases h1 : rsv1Field w = 0#9 <;> simp [decode, h0, h1]

theorem decode_of_reserved_zero {w : Word} (h0 : rsv0Field w = 0#3) (h1 : rsv1Field w = 0#9) :
    decode w = decodeOp w := by
  simp [decode, h0, h1]

/-- The command is the one that w's OP names, its operands the fields of w that its row of R113 names. -/
def Instr.StandsIn (w : Word) (i : Instr) : Prop :=
  match i with
  | .init => opField w = 0x1#4
  | .modstart => opField w = 0x2#4
  | .poll a => opField w = 0x3#4 ∧ a = addr7Field w
  | .read a sub => opField w = 0x4#4 ∧ a = addr7Field w ∧ sub = data8Field w
  | .write a sub => opField w = 0x5#4 ∧ a = addr7Field w ∧ sub = data8Field w
  | .wrbyte v => opField w = 0x6#4 ∧ v = data8Field w
  | .rdbyte ack => opField w = 0x7#4 ∧ ack = ackField w
  | .start => opField w = 0x8#4
  | .rstart => opField w = 0x9#4
  | .stop => opField w = 0xA#4
  | .recover => opField w = 0xB#4

/-- What the decoder reads stands in the word. -/
theorem standsIn_of_decode {w : Word} {i : Instr} (h : decode w = .ok i) : i.StandsIn w := by
  obtain ⟨-, -, h⟩ := decode_eq_ok_iff.mp h
  unfold decodeOp at h
  split at h <;> cases h
  all_goals simpa [Instr.StandsIn, ← BitVec.toNat_inj]

/-- The opcode map refuses the operations R113 reserves and no other. -/
theorem decodeOp_refuses_iff (w : Word) : (∃ e, decodeOp w = .error e) ↔
    opField w = 0x0#4 ∨ opField w = 0xC#4 ∨ opField w = 0xD#4 ∨ opField w = 0xE#4 ∨ opField w = 0xF#4 := by
  have hlt := (opField w).isLt
  simp only [← BitVec.toNat_inj]
  unfold decodeOp
  split
  case h_13 =>
    simp only [imp_false] at *
    refine iff_of_true ⟨_, rfl⟩ ?_
    simp only [BitVec.toNat_ofNat]
    omega
  all_goals simp [*]

/-- Settles O1: the reserved fields of an assembled word are 0, and its other fields read back as given. -/
theorem decodeEncode : Obligations.DecodeEncode := by
  unfold Obligations.DecodeEncode
  intro i
  have hmap (op ack data8 addr7) : decode (enc op ack data8 addr7) = decodeOp (enc op ack data8 addr7) :=
    decode_of_reserved_zero (rsv0Field_enc op ack data8 addr7) (rsv1Field_enc op ack data8 addr7)
  cases i <;> simp [encode, hmap, decodeOp]

/-- A command's word, both ways. -/
theorem encode_decode_of_eq {i : Instr} {w : Word} (h : encode i = w) : encode i = w ∧ decode w = .ok i :=
  ⟨h, h ▸ decodeEncode i⟩

/-- Settles O5: each word is the command's, and decoding undoes encoding (`decodeEncode`). -/
theorem knownWords : Obligations.KnownWords := by
  unfold Obligations.KnownWords
  refine ⟨?_, ?_, ?_, ?_, ?_, ?_, ?_, ?_, ?_, ?_, ?_, ?_, ?_⟩
  all_goals exact encode_decode_of_eq (by decide)

/-- Settles O3: a reserved field is refused, and with both 0 the opcode map decides (`decodeOp_refuses_iff`). -/
theorem decodeRefusesIllegalWords : Obligations.DecodeRefusesIllegalWords := by
  unfold Obligations.DecodeRefusesIllegalWords
  intro w
  change _ ↔ opField w = 0x0#4 ∨ opField w = 0xC#4 ∨ opField w = 0xD#4 ∨ opField w = 0xE#4 ∨ opField w = 0xF#4 ∨
    rsv0Field w ≠ 0#3 ∨ rsv1Field w ≠ 0#9
  by_cases h0 : rsv0Field w = 0#3
  · by_cases h1 : rsv1Field w = 0#9
    · simp [decode_of_reserved_zero h0 h1, decodeOp_refuses_iff, h0, h1]
    · simp [decode, h0, h1]
  · simp [decode, h0]

/-! ## The mask of R113 -/

/-- A field the mask covers is the word's own. -/
theorem extractLsb'_and_of_covered {w mask : Word} {k n : Nat} (h : mask.extractLsb' k n = BitVec.allOnes n) :
    (w &&& mask).extractLsb' k n = w.extractLsb' k n := by
  rw [BitVec.extractLsb'_and, h, BitVec.and_allOnes]

/-- The mask covers OP and both reserved fields, so a word that matches has the row's OP and its reserved fields 0. -/
theorem decode_of_masked {w : Word} (op : BitVec 4) (h : w &&& 0xFF8000EF#32 = op.setWidth 32) :
    decode w = decodeOp w ∧ opField w = op := by
  have hrow : w &&& 0xFF8000EF#32 = enc op false 0 0 := by simp [h, enc]
  have hop : opField (w &&& 0xFF8000EF#32) = opField w := extractLsb'_and_of_covered (by decide)
  have hrsv0 : rsv0Field (w &&& 0xFF8000EF#32) = rsv0Field w := extractLsb'_and_of_covered (by decide)
  have hrsv1 : rsv1Field (w &&& 0xFF8000EF#32) = rsv1Field w := extractLsb'_and_of_covered (by decide)
  rw [hrow] at hop hrsv0 hrsv1
  exact ⟨decode_of_reserved_zero (by simp [← hrsv0]) (by simp [← hrsv1]), by simp [← hop]⟩

/-- The decoder's answer on a word that matches a row of R113. -/
theorem decode_row {w : Word} {r : Except DecodeError Instr} (op : BitVec 4) (hr : opField w = op → decodeOp w = r)
    (h : w &&& 0xFF8000EF#32 = op.setWidth 32) : decode w = r := by
  obtain ⟨hd, ho⟩ := decode_of_masked op h
  rw [hd, hr ho]

/-- Settles O2: under the mask the opcode map decides (`decode_of_masked`). -/
theorem decodeOpcodeTable : Obligations.DecodeOpcodeTable := by
  unfold Obligations.DecodeOpcodeTable
  intro w
  refine ⟨decode_row 0x1#4 ?_, decode_row 0x2#4 ?_, decode_row 0x3#4 ?_, decode_row 0x4#4 ?_, decode_row 0x5#4 ?_,
    decode_row 0x6#4 ?_, decode_row 0x7#4 ?_, decode_row 0x8#4 ?_, decode_row 0x9#4 ?_, decode_row 0xA#4 ?_,
    decode_row 0xB#4 ?_, decode_row 0x0#4 ?_, ?_⟩
  case refine_13 =>
    rintro (h | h | h | h)
    · exact decode_row 0xC#4 (fun ho => by simp [decodeOp, ho]) h
    · exact decode_row 0xD#4 (fun ho => by simp [decodeOp, ho]) h
    · exact decode_row 0xE#4 (fun ho => by simp [decodeOp, ho]) h
    · exact decode_row 0xF#4 (fun ho => by simp [decodeOp, ho]) h
  all_goals
    intro ho
    simp [decodeOp, ho, addr7Field, data8Field, ackField]

/-! ## A word's fields, encoded again -/

/-- A field put back where it stood is the word under the field's mask. -/
theorem setWidth_extractLsb'_shiftLeft (w : Word) (k n : Nat) :
    (w.extractLsb' k n).setWidth 32 <<< k = w &&& (BitVec.allOnes n).setWidth 32 <<< k := by
  ext j hj
  by_cases hk : j < k
  · simp [hk]
  · simp [hk, hj, Nat.add_sub_cancel' (Nat.le_of_not_lt hk), Bool.and_comm]

theorem opField_placed (w : Word) : (opField w).setWidth 32 = w &&& 0x0000000F#32 := by
  simpa [opField] using setWidth_extractLsb'_shiftLeft w 0 4

theorem data8Field_placed (w : Word) : (data8Field w).setWidth 32 <<< 8 = w &&& 0x0000FF00#32 :=
  setWidth_extractLsb'_shiftLeft w 8 8

theorem addr7Field_placed (w : Word) : (addr7Field w).setWidth 32 <<< 16 = w &&& 0x007F0000#32 :=
  setWidth_extractLsb'_shiftLeft w 16 7

theorem ackField_placed (w : Word) : (BitVec.ofBool (ackField w)).setWidth 32 <<< 4 = w &&& 0x00000010#32 := by
  have hbit : BitVec.ofBool (ackField w) = w.extractLsb' 4 1 := by
    ext j hj
    obtain rfl : j = 0 := by omega
    simp [ackField]
  rw [hbit]
  exact setWidth_extractLsb'_shiftLeft w 4 1

/-- The word assembled from some of w's fields is w under the mask of those fields. -/
theorem enc_eq_and {w ackMask data8Mask addr7Mask mask : Word} {op : BitVec 4} {ack : Bool} {data8 : Byte} {addr7 : BitVec 7}
    (hop : opField w = op) (hack : (BitVec.ofBool ack).setWidth 32 <<< 4 = w &&& ackMask)
    (hdata8 : data8.setWidth 32 <<< 8 = w &&& data8Mask) (haddr7 : addr7.setWidth 32 <<< 16 = w &&& addr7Mask)
    (hmask : addr7Mask ||| data8Mask ||| ackMask ||| 0x0000000F#32 = mask) : enc op ack data8 addr7 = w &&& mask := by
  simp only [enc, hack, hdata8, haddr7, ← hop, opField_placed, ← hmask, BitVec.and_or_distrib_left]

/-- A field an operation does not use is given as 0, which is the word under no mask. -/
theorem zero_placed (w : Word) {n k : Nat} : (0#n).setWidth 32 <<< k = w &&& 0#32 := by
  simp

/-- Settles O4: each field the command uses stands where it stood (`enc_eq_and`), and the others are 0. -/
theorem encodeKeepsUsedFields : Obligations.EncodeKeepsUsedFields := by
  unfold Obligations.EncodeKeepsUsedFields
  intro w i h
  have hw := standsIn_of_decode h
  cases i
  case poll =>
    obtain ⟨hop, rfl⟩ := hw
    exact enc_eq_and hop (zero_placed w) (zero_placed w) (addr7Field_placed w) rfl
  case read | write =>
    obtain ⟨hop, rfl, rfl⟩ := hw
    exact enc_eq_and hop (zero_placed w) (data8Field_placed w) (addr7Field_placed w) rfl
  case wrbyte =>
    obtain ⟨hop, rfl⟩ := hw
    exact enc_eq_and hop (zero_placed w) (data8Field_placed w) (zero_placed w) rfl
  case rdbyte =>
    obtain ⟨hop, rfl⟩ := hw
    exact enc_eq_and hop (ackField_placed w) (zero_placed w) (zero_placed w) rfl
  all_goals exact enc_eq_and hw (zero_placed w) (zero_placed w) (zero_placed w) rfl

end Sys2Proof

namespace Sys2Proof.Machine

/-! ## Rejection (R116, R117, R299) -/

/-- The submission's operation is the one the word names. -/
theorem submissionOf_op_of_decode {w : Word} {i : Instr} (h : decode w = .ok i) : (submissionOf i).op = opField w := by
  have hw := standsIn_of_decode h
  cases i
  case init | modstart | start | rstart | stop | recover => exact hw.symm
  all_goals exact hw.1.symm

/-- READ or WRITE with COUNT above 256 is rejected before anything else is looked at (R117). -/
theorem exec_rejects_count {i : Instr} {s : State} (hb : s.busy = false) (hu : (submissionOf i).counted)
    (hc : 256 < s.count.toNat) : exec i s = .next (reject s) := by
  have hlarge : countTooLarge s = true := decide_eq_true hc
  have hcounted (u : Submission) : performCounted u s = .next (reject s) := by simp [performCounted, hb, hlarge]
  cases i
  case read | write => exact hcounted _
  all_goals simp [Submission.counted, submissionOf] at hu

/-- The Host's write to CMD at the head of the schedule of an idle block: the word is stored and submitted (R292). -/
theorem step_hostWrite_cmd {s : State} {off : BitVec 9} (w : Word) (rest : List Event) (hb : s.busy = false)
    (hoff : off.toNat / 4 = 0) :
    step { s with inputs := .hostWrite off w :: rest } = submit w { s with inputs := rest, cmd := w } := by
  have hreg : hostReg off = .cmd := by simp [hostReg, hoff]
  simp [step, stepBody, hb, idleEvent, idleWrite, hostWrite, hreg]

/-- Settles O7: an illegal word fails to decode, and READ and WRITE look at COUNT before all else
(`exec_rejects_count`). -/
theorem rejection : Obligations.Rejection := by
  unfold Obligations.Rejection
  intro s off w rest hb hoff h
  rw [step_hostWrite_cmd w rest hb hoff, submit]
  cases hd : decode w with
  | error e => rfl
  | ok i =>
    obtain hillegal | ⟨hop, hc⟩ := h
    · obtain ⟨e, he⟩ := (decodeRefusesIllegalWords w).mpr hillegal
      cases hd.symm.trans he
    · exact exec_rejects_count hb (by rwa [Submission.counted, submissionOf_op_of_decode hd]) hc

end Sys2Proof.Machine

/-! SUPPORT. The register interface (spec/40_register_interface.md): a write of CON.ON, the two reads that load a working
register, and what the Environment may do. -/

namespace Sys2Proof.Machine

/-! ## The Engine's accesses (R141, R142, R145, R152, R153) -/

/-- Settles O28: ESTAT bit 3 is CON.ON (`estat_getLsbD`), and the flags are cleared where the write makes it rise
(`ctlWriteCon_stat_cases`). -/
theorem enableWrite : Obligations.EnableWrite := by
  unfold Obligations.EnableWrite
  refine fun s v => ⟨ctlWriteCon_con .on v s, estat_getLsbD _ 3, ?_⟩
  rw [ctlWriteCon_stat_cases]
  cases v with
  | false => simp
  | true => cases hon : s.con.on <;> simp

/-- Settles O29: both reads are these state updates by definition; RCV's looks at no bit of STAT. -/
theorem receiveRead : Obligations.ReceiveRead := by
  unfold Obligations.ReceiveRead
  exact fun s => ⟨rfl, rfl⟩

/-! ## The Environment's liberties (R160) -/

/-- An Environment step as the only event is taken at once, by a running block and by an idle one. -/
theorem oneEvent_env (e : EnvStep) (s : State) : oneEvent (.env e) s = .next (envStep e { s with inputs := [] }) := by
  cases hb : s.busy with
  | true => simp [oneEvent, hb, tick, State.withInputs]
  | false => simp [oneEvent, hb, step, stepBody, idleEvent, State.withInputs]

/-- Each request bit standing after an Environment step stood before it. -/
theorem Con.afterEnv_requests (e : EnvStep) (c : Con) :
    ((c.afterEnv e).sen = true → c.sen = true) ∧ ((c.afterEnv e).rsen = true → c.rsen = true) ∧
    ((c.afterEnv e).pen = true → c.pen = true) ∧ ((c.afterEnv e).rcen = true → c.rcen = true) ∧
    ((c.afterEnv e).acken = true → c.acken = true) := by
  simp +contextual [Con.afterEnv]

/-- The Environment step that keeps the request bits it is told to keep, clears the others, and writes STAT, RCV and both
outside pulls. -/
def EnvStep.imposing (keepSen keepRsen keepPen keepRcen keepAcken : Bool) (st : Stat) (b : Byte) (scl sda : Bool) :
    EnvStep where
  clrSen := !keepSen
  clrRsen := !keepRsen
  clrPen := !keepPen
  clrRcen := !keepRcen
  clrAcken := !keepAcken
  tbf := some st.tbf
  rbf := some st.rbf
  i2cov := some st.i2cov
  iwcol := some st.iwcol
  bcl := some st.bcl
  trstat := some st.trstat
  ackstat := some st.ackstat
  rcv := some b
  extSclLow := some scl
  extSdaLow := some sda

/-- Clearing a bit unless it is to be kept is conjunction with what is to be kept. -/
theorem Con.afterEnv_imposing (keepSen keepRsen keepPen keepRcen keepAcken : Bool) (st : Stat) (b : Byte)
    (scl sda : Bool) (c : Con) :
    c.afterEnv (.imposing keepSen keepRsen keepPen keepRcen keepAcken st b scl sda) =
      { c with
        sen := c.sen && keepSen
        rsen := c.rsen && keepRsen
        pen := c.pen && keepPen
        rcen := c.rcen && keepRcen
        acken := c.acken && keepAcken } := by
  simp [Con.afterEnv, EnvStep.imposing]

/-- Settles O25: an Environment step is taken whether a command runs or not (`oneEvent_env`), sets no request bit
(`Con.afterEnv_requests`), and `EnvStep.imposing` reaches every combination. -/
theorem environmentLiberties : Obligations.EnvironmentLiberties := by
  unfold Obligations.EnvironmentLiberties
  refine ⟨oneEvent_env, fun e s => ?_, fun s keepSen keepRsen keepPen keepRcen keepAcken st b scl sda => ?_⟩
  · exact ⟨s.con.afterEnv e, s.stat.afterEnv e, e.rcv.getD s.rcv, e.extSclLow.getD s.line.extSclLow,
      e.extSdaLow.getD s.line.extSdaLow, rfl, rfl, rfl, rfl, rfl, s.con.afterEnv_requests e⟩
  · refine ⟨.imposing keepSen keepRsen keepPen keepRcen keepAcken st b scl sda, ?_⟩
    rw [envStep, Con.afterEnv_imposing]
    rfl

end Sys2Proof.Machine

/-! SUPPORT. The Bus State Tracker (spec/41_bus_state_tracker.md): which actions write DIRTY (R184, R186), and a command of a fixed number of Engine actions followed over any ordinary schedule. -/

namespace Sys2Proof.Machine

/-! ## The writers of the tracker (R184, R186) -/

/-- The labels whose action is `DIRTY <- 1`: INIT's, and the failing exits of the primitives, RECOVER and the transfers. -/
def Label.marksDirty : List Label := [.i3, .pf, .vf, .px, .dx, .xx, .u2]

/-- The labels whose action is `DIRTY <- 0`: the successful exits of RECOVER and the transfers. -/
def Label.marksClean : List Label := [.v16, .p6, .d9, .x7]

/-- The tracker after the action at l. -/
def Label.tracker (l : Label) (d : Bool) : Bool :=
  if l ∈ Label.marksDirty then true else if l ∈ Label.marksClean then false else d

theorem finish_dirty {r : Result} {u t : State} (h : u.finish r = .next t) : t.dirty = u.dirty :=
  (finish_sequencing h).dirty

theorem firstCheck_dirty (l m : Label) (s : State) : (firstCheck l m s).dirty = s.dirty := by
  unfold firstCheck; split <;> rfl

theorem secondCheck_dirty {l : Label} {s t : State} (h : secondCheck l s = .next t) : t.dirty = s.dirty := by
  unfold secondCheck at h
  split at h
  · cases h; rfl
  · exact (finish_dirty h).trans rfl

theorem pollUntil_dirty {read onDone onTimeout : State → State} {done : State → Bool} {n : Nat} {s : State}
    (hr : (read s).dirty = s.dirty) (hd : ∀ u, (onDone u).dirty = u.dirty) (ht : ∀ u, (onTimeout u).dirty = u.dirty) :
    (pollUntil read done n onDone onTimeout s).dirty = s.dirty := by
  have hc : (read s).countPoll.dirty = s.dirty := hr
  unfold pollUntil
  dsimp only
  split
  · exact (hd _).trans hc
  · split
    · exact (ht _).trans hc
    · exact hc

theorem memRead_dirty {s u : State} (h : memRead s = .next u) : u.dirty = s.dirty := by
  cases memRead_atomic h; rfl

theorem memWrite_dirty {s u : State} (h : memWrite s = .next u) : u.dirty = s.dirty := by
  cases memWrite_atomic h; rfl

theorem actQ2_dirty {s t : State} (h : actQ2 s = .next t) : t.dirty = s.dirty := by
  unfold actQ2 at h
  split at h
  · cases h; rfl
  · exact (finish_dirty h).trans rfl

theorem actQ3_dirty {s t : State} (h : actQ3 s = .next t) : t.dirty = s.dirty := by
  unfold actQ3 at h
  split at h
  · split at h
    · exact (finish_dirty h).trans rfl
    · cases h
  · cases h

theorem actW5_dirty {s t : State} (h : actW5 s = .next t) : t.dirty = s.dirty := by
  unfold actW5 at h
  split at h
  · cases h; rfl
  · split at h
    · cases h; rfl
    · exact (finish_dirty h).trans rfl

/-- Each action writes the tracker as its label says, and only then. -/
theorem actAt_dirty {l : Label} {s t : State} (h : actAt l s = .next t) : t.dirty = l.tracker s.dirty := by
  cases l
  -- the actions that end an operation, the writers of the tracker among them
  case i3 | v16 | vf | pf | p6 | px | d9 | dx | x7 | xx | u2 | e2 | m4 | b8 => exact (finish_dirty h).trans rfl
  case q2 => exact actQ2_dirty h
  case q3 => exact actQ3_dirty h
  case w5 => exact actW5_dirty h
  case s5 | g5 | t5 => exact secondCheck_dirty h
  -- the checks, the polls and the loops
  case s3 | g3 | t3 => cases h; exact firstCheck_dirty _ _ s
  case s4 | g4 | t4 | b6 | w4 | b4 => cases h; exact pollUntil_dirty rfl (fun _ => rfl) (fun _ => rfl)
  case v5 | v6a => cases h; split; exacts [(recoverLoop_sequencing _).dirty, rfl]
  case v6e => cases h; exact (recoverLoop_sequencing _).dirty
  case d7b =>
    obtain ⟨u, hw, ht⟩ := andThen_eq_next h
    cases ht
    exact (readLoop_sequencing u.nextByte).dirty.trans (memWrite_dirty (u := u) hw)
  case x5a =>
    obtain ⟨u, hr, ht⟩ := andThen_eq_next h
    cases ht
    exact memRead_dirty (u := u) hr
  -- a branch on what was just read
  case v8 | w2 | b7 | p1 | d1 | x1 => cases h; split <;> rfl
  case v14 => cases h; (repeat' split) <;> rfl
  -- one operation and a `goto`; a line that calls is no action
  all_goals cases h; try rfl

theorem act_dirty {l : Label} {rest : List Label} {s t : State} (hf : s.fsm = l :: rest) (h : act s = .next t) :
    t.dirty = l.tracker s.dirty := by
  unfold act at h
  rw [hf] at h
  exact actAt_dirty h

/-- Where a transfer succeeds the bus is clean already (R184). -/
theorem State.Inv.clean_at_success {l : Label} {rest : List Label} {s : State} (h : s.Inv) (hf : s.fsm = l :: rest)
    (hl : l ∈ [Label.p6, .d9, .x7]) : s.dirty = false := by
  have hown : ∀ m ∈ [Label.p6, .d9, .x7], m.ownOnly = true := by decide
  obtain rfl := stackOk_ownOnly (hown l hl) (h.at hf).stack
  have htracker := (h.ownAt hf).tracker
  simp only [List.mem_cons, List.not_mem_nil, or_false] at hl
  obtain rfl | rfl | rfl := hl <;> simpa [State.trackerOk] using htracker

theorem hostWrite_dirty (off : BitVec 9) (w : Word) (s : State) : (hostWrite off w s).dirty = s.dirty := by
  unfold hostWrite
  split <;> (try split) <;> rfl

/-- Settles O22: the action's label says what it does to the tracker (`act_dirty`), and the transfers' `DIRTY <- 0`
finds it clean (`State.Inv.clean_at_success`). -/
theorem trackerWriters : Obligations.TrackerWriters := by
  unfold Obligations.TrackerWriters
  refine ⟨fun s t h ht hne => ?_, fun _ _ => rfl, fun off w s => ⟨hostWrite_dirty off w s, rfl⟩⟩
  obtain ⟨l, rest, hf⟩ : ∃ l rest, s.fsm = l :: rest := by
    refine List.exists_cons_of_ne_nil fun hnil => ?_
    rw [act, hnil] at ht
    cases ht
  have hd := act_dirty hf ht
  rw [hf, List.head?_cons]
  unfold Label.tracker at hd
  split_ifs at hd with hmark hclean
  · exact .inl ⟨hd, by simpa [Label.marksDirty] using hmark⟩
  · refine .inr ⟨hd, ?_⟩
    obtain rfl | hl := List.mem_cons.mp hclean
    · rfl
    · exact absurd (hd.trans (h.clean_at_success hf hl).symm) hne
  · exact absurd hd hne

/-! ## A command of a fixed number of actions, over any ordinary schedule -/

/-- `P n` holds with n Engine actions to go: each action takes one off, and no other agent's move touches it. -/
structure Countdown (P : Nat → State → Prop) : Prop where
  busy : ∀ {n s}, P (n + 1) s → s.busy = true
  idle : ∀ {s}, P 0 s → s.busy = false
  act : ∀ {n s}, P (n + 1) s → ∃ t, act s = .next t ∧ P n t
  inputs : ∀ {n s} (rest : List Event), P n s → P n (s.withInputs rest)
  env : ∀ {n s} (e : EnvStep), P n s → P n (envStep e s)
  hostRead : ∀ {n s} (off : BitVec 9), P n s → P n (hostRead off s)
  hostErr : ∀ {n s} (b : Bool), P n s → P n { s with hostErr := b }

/-- A Host write reaches nothing of a running block but HOSTERR (R293, R294). -/
theorem hostWrite_running (off : BitVec 9) (w : Word) {s : State} (hb : s.busy = true) :
    ∃ b, hostWrite off w s = { s with hostErr := b } := by
  unfold hostWrite
  cases hostReg off with
  | cmd | count | bufWord => exact ⟨true, if_pos hb⟩
  | res | unmapped => exact ⟨s.hostErr, rfl⟩
  | estat => cases w.getLsbD 2; exacts [⟨s.hostErr, rfl⟩, ⟨false, rfl⟩]

/-- o is a next state whose schedule is ordinary, and with it m actions to go, together fewer than k. -/
def Nearer (P : Nat → State → Prop) (k : Nat) (o : Host.Outcome State Fault Refusal) : Prop :=
  ∃ m t, o = .next t ∧ P m t ∧ ordinary t.inputs ∧ t.inputs.length + m < k

section
variable {P : Nat → State → Prop} (c : Countdown P)
include c

theorem Countdown.act_nearer {n k : Nat} {s : State} (h : P (n + 1) s) (ho : ordinary s.inputs)
    (hk : s.inputs.length + n < k) : Nearer P k (Machine.act s) := by
  obtain ⟨t, ht, hP⟩ := c.act h
  rw [← act_inputs ht] at ho hk
  exact ⟨n, t, ht, hP, ho, hk⟩

/-- One agent's step uses up an event of the schedule or an action of the command. -/
theorem Countdown.tick_nearer {n : Nat} {s : State} (h : P (n + 1) s) (ho : ordinary s.inputs) :
    Nearer P (s.inputs.length + (n + 1)) (tick s) := by
  have hrest {e : Event} {rest : List Event} (hi : s.inputs = e :: rest) :
      e.isBoundary = false ∧ ordinary rest ∧ s.inputs.length = rest.length + 1 := by
    rw [hi] at ho ⊢
    exact ⟨(List.forall_mem_cons.mp ho).1, (List.forall_mem_cons.mp ho).2, rfl⟩
  -- a move of the Environment or the Host takes its event off the schedule
  have hmove {e : Event} {rest : List Event} {t : State} (hi : s.inputs = e :: rest) (ht : P (n + 1) t)
      (hti : t.inputs = rest) : Nearer P (s.inputs.length + (n + 1)) (.next t) := by
    obtain ⟨-, hor, hlen⟩ := hrest hi
    exact ⟨n + 1, t, rfl, ht, hti ▸ hor, by rw [hti]; omega⟩
  unfold tick
  split
  · exact c.act_nearer h ho (by omega)
  · next rest hi =>
    obtain ⟨-, hor, hlen⟩ := hrest hi
    exact c.act_nearer (c.inputs rest h) hor (by rw [withInputs_inputs]; omega)
  · next e rest hi => exact hmove hi (c.env e (c.inputs rest h)) rfl
  · next off rest hi => exact hmove hi (c.hostRead off (c.inputs rest h)) rfl
  · next off w rest hi =>
    obtain ⟨b, hw⟩ := hostWrite_running off w (c.busy (c.inputs rest h))
    rw [hw]
    exact hmove hi (c.hostErr b (c.inputs rest h)) rfl
  · exact c.act_nearer h ho (by omega)
  all_goals next hi => cases (hrest hi).1

theorem Countdown.run {n fuel : Nat} {s : State} (h : P n s) (ho : ordinary s.inputs) (hn : s.inputs.length + n ≤ fuel) :
    ∃ t, run fuel s = .next t ∧ P 0 t := by
  induction fuel generalizing n s with
  | zero =>
    obtain rfl : n = 0 := by omega
    exact ⟨s, rfl, h⟩
  | succ fuel ih =>
    cases n with
    | zero => exact ⟨s, run_idle _ (c.idle h), h⟩
    | succ n =>
      obtain ⟨m, t, ht, hP, hto, hlt⟩ := c.tick_nearer h ho
      rw [run_succ fuel (c.busy h) (atBoundary_ordinary ho), ht, andThen_next]
      exact ih hP hto (by omega)

/-- A command of at most as many actions as the longest (R285) ends where its count is 0. -/
theorem Countdown.runCommand {n : Nat} {s : State} (h : P n s) (ho : ordinary s.inputs) (hn : n ≤ commandBound s.params) :
    ∃ t, runCommand s = .next t ∧ P 0 t :=
  c.run h ho (Nat.add_le_add_left hn _)

end

/-! ## READ and WRITE on a dirty bus (R188) -/

/-- A READ or WRITE accepted on a dirty bus, with n Engine actions to go, after the history `old`. -/
def Refusing (old : List Action) (n : Nat) (s : State) : Prop :=
  s.dirty = true ∧ s.work.nx = 0 ∧
    match n with
    | 3 => s.busy = true ∧ (s.fsm = [.d1] ∨ s.fsm = [.x1]) ∧ s.hist = old
    | 2 => s.busy = true ∧ (s.fsm = [.dx] ∨ s.fsm = [.xx]) ∧ s.work.xe = .busDirty ∧ s.hist = .dirtyRead true :: old
    | 1 => s.busy = true ∧ s.fsm = [.fin] ∧ s.work.fin = .busDirty ∧ s.hist = [.dirtyWrite true, .dirtyRead true] ++ old
    | 0 => s.busy = false ∧ s.fsm = [] ∧ s.res = { code := Result.busDirty.code, data := 0, nxfer := 0 } ∧
        s.hist = [.complete Result.busDirty.code 0 0, .dirtyWrite true, .dirtyRead true] ++ old
    | _ => False

/-- The outermost operation goes to its `Complete`. -/
theorem finish_outermost {l : Label} {s : State} (hf : s.fsm = [l]) (r : Result) :
    s.finish r = .next { s with fsm := [.fin], work := { s.work with fin := r } } := by
  unfold State.finish
  rw [hf]

theorem nxfer_of_none {s : State} (h : s.work.nx = 0) : s.nxfer = 0 := by
  simp [State.nxfer, h]

theorem refusing_countdown (old : List Action) : Countdown (Refusing old) where
  busy {n s} h := by
    obtain ⟨-, -, h⟩ := h
    match n, h with
    | 0, h | 1, h | 2, h => exact h.1
  idle h := h.2.2.1
  act {n s} h := by
    obtain ⟨hd, hnx, h⟩ := h
    match n, h with
    | 2, ⟨hb, hf, hh⟩ =>
      have hwork : (dirtyRead s).work.d = true := hd
      obtain hf | hf := hf <;> simp only [act, hf, actAt, actD1, actX1, hwork, if_true]
      · exact ⟨_, rfl, hd, hnx, hb, .inl (by simp [hf, Label.opened, Label.callee]), rfl, by simp [hd, hh]⟩
      · exact ⟨_, rfl, hd, hnx, hb, .inr (by simp [hf, Label.opened, Label.callee]), rfl, by simp [hd, hh]⟩
    | 1, ⟨hb, hf, hxe, hh⟩ =>
      obtain hf | hf := hf <;> simp only [act, hf, actAt, actDx, actXx, hxe]
      all_goals
        rw [finish_outermost (by exact hf)]
        exact ⟨_, rfl, rfl, hnx, hb, rfl, rfl, by simp [hh]⟩
    | 0, ⟨hb, hf, hfin, hh⟩ =>
      simp only [act, hf, actAt, actFin, hfin, nxfer_of_none hnx]
      exact ⟨_, rfl, hd, hnx, rfl, rfl, rfl, by simp [hh, Result.data]⟩
  inputs _ h := h
  env _ h := h
  hostRead _ h := h
  hostErr _ h := h

theorem submissionOf_op (i : Instr) : (submissionOf i).op = opField (encode i) :=
  submissionOf_op_of_decode (decodeEncode i)

/-- What the Engine did since s, read off the history. -/
theorem since_of_hist_append {s t : State} {acts : List Action} (h : t.hist = acts ++ s.hist) : s.since t = acts := by
  rw [State.since, h, List.length_append, Nat.add_sub_cancel, List.take_left]

theorem accept_refusing {i : Instr} {s : State} (hd : s.dirty = true) (hu : (submissionOf i).counted) :
    Refusing s.hist 3 (accept (submissionOf i) s) := by
  refine ⟨hd, rfl, rfl, ?_, rfl⟩
  cases i
  case read => exact .inl rfl
  case write => exact .inr rfl
  all_goals simp [Submission.counted, submissionOf] at hu

/-- Settles O21: the command is accepted (`exec_accepted`), and then follows its three actions over any schedule
(`refusing_countdown`). -/
theorem dirtyBusRefused : Obligations.DirtyBusRefused := by
  unfold Obligations.DirtyBusRefused
  intro s i hb ho hd hc hop
  have hu : (submissionOf i).counted := by rwa [Submission.counted, submissionOf_op]
  have hthree : 3 ≤ commandBound s.params := by unfold commandBound; omega
  obtain ⟨t, ht, htd, -, htb, htf, htr, hth⟩ :=
    (refusing_countdown s.hist).runCommand (s := accept (submissionOf i) s) (accept_refusing hd hu) ho hthree
  refine ⟨t, (exec_accepted hb fun _ => hc).trans ht, htb, htf, htd, htr, hth, ?_⟩
  rw [since_of_hist_append hth]
  decide

end Sys2Proof.Machine

/-! SUPPORT. RECOVER (spec/42_recovery.md R200) on lines the Environment leaves alone: its blocks of actions, each a run of known length, put together along its paths. With it, the statements on its result by the outside pulls and on stuck data. -/

namespace Sys2Proof.Machine

/-! ## Runs of the Engine alone -/

theorem toggles_append (a b : List Action) : toggles (a ++ b) = toggles a + toggles b := List.countP_append

/-- Between s and t the history grew by n actions, k of them toggles. -/
def Performed (s : State) (n k : Nat) (t : State) : Prop :=
  ∃ acts : List Action, t.hist = acts ++ s.hist ∧ acts.length = n ∧ toggles acts = k

theorem Performed.trans {s t u : State} {m n j k : Nat} (h : Performed s m j t) (h' : Performed t n k u) :
    Performed s (m + n) (j + k) u := by
  obtain ⟨acts, hist, rfl, rfl⟩ := h
  obtain ⟨acts', hist', rfl, rfl⟩ := h'
  refine ⟨acts' ++ acts, by rw [hist', hist, List.append_assoc], ?_, ?_⟩
  · rw [List.length_append, Nat.add_comm]
  · rw [toggles_append, Nat.add_comm]

theorem Performed.toggles_since {s t : State} {n k : Nat} (h : Performed s n k t) : toggles (s.since t) = k := by
  obtain ⟨acts, hist, -, rfl⟩ := h
  rw [since_of_hist_append hist]

/-- n Engine actions, k of them toggles, lead from s to t. -/
structure RunsTo (s : State) (n k : Nat) (t : State) : Prop where
  run : run n s = .next t
  performed : Performed s n k t

theorem RunsTo.of_run {s t : State} (acts : List Action) (hrun : Machine.run acts.length s = .next t)
    (hist : t.hist = acts ++ s.hist) : RunsTo s acts.length (toggles acts) t :=
  ⟨hrun, acts, hist, rfl, rfl⟩

theorem RunsTo.refl (s : State) : RunsTo s 0 0 s := .of_run [] rfl rfl

theorem RunsTo.trans {s t u : State} {m n j k N K : Nat} (h : RunsTo s m j t) (h' : RunsTo t n k u)
    (hN : N = m + n := by omega) (hK : K = j + k := by omega) : RunsTo s N K u := by
  subst hN hK
  exact ⟨by rw [run_add, h.run, andThen_next, h'.run], h.performed.trans h'.performed⟩

/-! ## RECOVER on lines the Environment leaves alone -/

/-- RECOVER called in c, above `rest`. -/
def State.startRecover (c : State) (rest : List Label) : State :=
  { c with busy := true, fsm := .v1 :: rest, inputs := [] }

/-- RECOVER called in c, above `rest`, past V3: at l, both drives released, the outside pulls as given. -/
def State.recovering (c : State) (rest : List Label) (l : Label) (w : Work) (scl sda : Bool) (hist : List Action) : State :=
  { c with
    busy := true
    con := c.con.set .on false
    fsm := l :: rest
    work := w
    line := { extSclLow := scl, extSdaLow := sda }
    hist := hist
    inputs := [] }

/-- Where V6, the head of the toggle loop, leads with index j. -/
def toggleHead (p : Params) (j : Nat) : Label := if j < p.nRec then .v6a else .v7

section
variable (c : State) (rest : List Label) (w : Work) (scl sda : Bool) (hist : List Action)

/-! ### Its blocks of actions -/

/-- V1 to V4. -/
theorem runs_opening : RunsTo (c.startRecover rest) 4 0
    (c.recovering rest .v5 c.work c.line.extSclLow c.line.extSdaLow
      ([.delay Config.tRec, .lineDrive .scl true, .lineDrive .sda true, .writeCon .on false] ++ c.hist)) :=
  .of_run [.delay Config.tRec, .lineDrive .scl true, .lineDrive .sda true, .writeCon .on false] rfl rfl

/-- V5 with SCL held (R202). -/
theorem runs_clockCheck_low : RunsTo (c.recovering rest .v5 w true sda hist) 1 0
    (c.recovering rest .vf { w with x := false, e := .sclLow } true sda (.lineSense .scl false :: hist)) :=
  .of_run [.lineSense .scl false] rfl rfl

theorem recoverLoop_recovering (l : Label) :
    (c.recovering rest l w scl sda hist).recoverLoop = c.recovering rest (toggleHead c.params w.j) w scl sda hist := by
  have hp : (c.recovering rest l w scl sda hist).params = c.params := rfl
  have hw : (c.recovering rest l w scl sda hist).work = w := rfl
  unfold State.recoverLoop toggleHead
  rw [hp, hw]
  split <;> rfl

/-- V5 with SCL free. -/
theorem runs_clockCheck_high : RunsTo (c.recovering rest .v5 w false sda hist) 1 0
    (c.recovering rest (toggleHead c.params 0) { w with x := true, j := 0 } false sda (.lineSense .scl true :: hist)) :=
  .of_run [.lineSense .scl true] (congrArg _ (recoverLoop_recovering c rest { w with x := true, j := 0 } ..)) rfl

/-- V6a to V6d with SDA held: a toggle (R203). -/
theorem runs_toggle : RunsTo (c.recovering rest .v6a w scl true hist) 4 1
    (c.recovering rest .v6e { w with y := false } scl true
      ([.lineDrive .scl true, .delay Config.tRec, .lineDrive .scl false, .lineSense .sda false] ++ hist)) :=
  .of_run [.lineDrive .scl true, .delay Config.tRec, .lineDrive .scl false, .lineSense .sda false] rfl rfl

/-- V6e, the end of an iteration that toggled. -/
theorem runs_v6e : RunsTo (c.recovering rest .v6e w scl sda hist) 1 0
    (c.recovering rest (toggleHead c.params (w.j + 1)) { w with j := w.j + 1 } scl sda (.delay Config.tRec :: hist)) :=
  .of_run [.delay Config.tRec] (congrArg _ (recoverLoop_recovering c rest { w with j := w.j + 1 } ..)) rfl

/-- V6a with SDA free: an iteration that toggles nothing (R203). -/
theorem runs_sample : RunsTo (c.recovering rest .v6a w scl false hist) 1 0
    (c.recovering rest (toggleHead c.params (w.j + 1)) { w with y := true, j := w.j + 1 } scl false
      (.lineSense .sda true :: hist)) :=
  .of_run [.lineSense .sda true] (congrArg _ (recoverLoop_recovering c rest { w with y := true, j := w.j + 1 } ..)) rfl

/-- V7 and V8 with SDA held (R204). -/
theorem runs_lineCheck_low : RunsTo (c.recovering rest .v7 w false true hist) 2 0
    (c.recovering rest .vf { w with x := true, y := false, e := .sdaLow } false true
      ([.lineSense .sda false, .lineSense .scl true] ++ hist)) :=
  .of_run [.lineSense .sda false, .lineSense .scl true] rfl rfl

/-- V7 and V8 with both lines free. -/
theorem runs_lineCheck_high : RunsTo (c.recovering rest .v7 w false false hist) 2 0
    (c.recovering rest .v9 { w with x := true, y := true } false false
      ([.lineSense .sda true, .lineSense .scl true] ++ hist)) :=
  .of_run [.lineSense .sda true, .lineSense .scl true] rfl rfl

/-- V9 to V12 (R205). -/
theorem runs_pulse : RunsTo (c.recovering rest .v9 w scl sda hist) 4 0
    (c.recovering rest .v13 w scl sda
      ([.delay Config.tRec, .lineDrive .sda true, .delay Config.tRec, .lineDrive .sda false] ++ hist)) :=
  .of_run [.delay Config.tRec, .lineDrive .sda true, .delay Config.tRec, .lineDrive .sda false] rfl rfl

/-- V13 and V14 with both lines free (R206). -/
theorem runs_finalCheck_high : RunsTo (c.recovering rest .v13 w false false hist) 2 0
    (c.recovering rest .v15 { w with x := true, y := true } false false
      ([.lineSense .sda true, .lineSense .scl true] ++ hist)) :=
  .of_run [.lineSense .sda true, .lineSense .scl true] rfl rfl

/-! ### The toggle loop (R203) -/

/-- The actions of an iteration that finds SDA held, or free. -/
def passActions (held : Bool) : Nat := if held then 5 else 1

/-- One iteration, on an SDA that stays as it is. -/
theorem runs_pass (held : Bool) : ∃ (w' : Work) (hist' : List Action), w'.j = w.j + 1 ∧
    RunsTo (c.recovering rest .v6a w scl held hist) (passActions held) held.toNat
      (c.recovering rest (toggleHead c.params (w.j + 1)) w' scl held hist') := by
  cases held with
  | true => exact ⟨_, _, rfl, (runs_toggle c rest w scl hist).trans (runs_v6e ..) rfl rfl⟩
  | false => exact ⟨_, _, rfl, runs_sample c rest w scl hist⟩

/-- m iterations, on an SDA that stays as it is. -/
theorem runs_passes (held : Bool) (m : Nat) (hm : w.j + m ≤ c.params.nRec) :
    ∃ (w' : Work) (hist' : List Action), w'.j = w.j + m ∧
      RunsTo (c.recovering rest (toggleHead c.params w.j) w scl held hist) (m * passActions held) (m * held.toNat)
        (c.recovering rest (toggleHead c.params w'.j) w' scl held hist') := by
  induction m with
  | zero => exact ⟨w, hist, rfl, by simpa using RunsTo.refl _⟩
  | succ m ih =>
    obtain ⟨w₁, hist₁, hj₁, hruns⟩ := ih (by omega)
    have hhead : toggleHead c.params w₁.j = .v6a := if_pos (by omega)
    rw [hhead] at hruns
    obtain ⟨w₂, hist₂, hj₂, hpass⟩ := runs_pass c rest w₁ scl hist₁ held
    rw [← hj₂] at hpass
    exact ⟨w₂, hist₂, by omega, hruns.trans hpass (Nat.succ_mul ..) (Nat.succ_mul ..)⟩

/-- The iterations that are left take the loop to V7. -/
theorem runs_to_v7 (held : Bool) (hj : w.j ≤ c.params.nRec) : ∃ (w' : Work) (hist' : List Action),
    RunsTo (c.recovering rest (toggleHead c.params w.j) w scl held hist)
      ((c.params.nRec - w.j) * passActions held) ((c.params.nRec - w.j) * held.toNat)
      (c.recovering rest .v7 w' scl held hist') := by
  obtain ⟨w', hist', hj', hruns⟩ := runs_passes c rest w scl hist held (c.params.nRec - w.j) (by omega)
  have hhead : toggleHead c.params w'.j = .v7 := if_neg (by omega)
  rw [hhead] at hruns
  exact ⟨w', hist', hruns⟩

/-! ### From the call to the exit label -/

/-- With SCL held the clock check fails (R202). -/
theorem runs_to_vf_of_sclHeld (hscl : c.line.extSclLow = true) : ∃ (w' : Work) (hist' : List Action),
    RunsTo (c.startRecover rest) 5 0
      (c.recovering rest .vf { w' with e := .sclLow } true c.line.extSdaLow hist') := by
  have hopening := runs_opening c rest
  rw [hscl] at hopening
  exact ⟨{ c.work with x := false }, _, hopening.trans (runs_clockCheck_low ..)⟩

/-- With SCL free the toggle loop begins. -/
theorem runs_to_toggleLoop (hscl : c.line.extSclLow = false) : ∃ (w' : Work) (hist' : List Action), w'.j = 0 ∧
    RunsTo (c.startRecover rest) 5 0
      (c.recovering rest (toggleHead c.params w'.j) w' false c.line.extSdaLow hist') := by
  have hopening := runs_opening c rest
  rw [hscl] at hopening
  exact ⟨{ c.work with x := true, j := 0 }, _, rfl, hopening.trans (runs_clockCheck_high ..)⟩

/-- With SDA held the loop toggles to its end, and the line check fails (R204). -/
theorem runs_to_vf_of_sdaHeld (hj : w.j ≤ c.params.nRec) : ∃ (w' : Work) (hist' : List Action),
    RunsTo (c.recovering rest (toggleHead c.params w.j) w false true hist)
      (5 * (c.params.nRec - w.j) + 2) (c.params.nRec - w.j)
      (c.recovering rest .vf { w' with e := .sdaLow } false true hist') := by
  obtain ⟨w', hist', hruns⟩ := runs_to_v7 c rest w false hist true hj
  refine ⟨{ w' with x := true, y := false }, _, hruns.trans (runs_lineCheck_low ..) ?_ ?_⟩
  · rw [passActions, if_pos rfl, Nat.mul_comm]
  · exact (Nat.mul_one _).symm

/-- With both lines free the loop toggles nothing more, and the pulse and the final check succeed (R205, R206). -/
theorem runs_to_v15_of_free (hj : w.j ≤ c.params.nRec) : ∃ (w' : Work) (hist' : List Action),
    RunsTo (c.recovering rest (toggleHead c.params w.j) w false false hist) (c.params.nRec - w.j + 8) 0
      (c.recovering rest .v15 w' false false hist') := by
  obtain ⟨w', hist', hruns⟩ := runs_to_v7 c rest w false hist false hj
  have hpulse := (runs_lineCheck_high c rest w' hist').trans ((runs_pulse ..).trans (runs_finalCheck_high ..) rfl rfl) rfl rfl
  refine ⟨_, _, hruns.trans hpulse ?_ rfl⟩
  rw [passActions, if_neg Bool.false_ne_true, Nat.mul_one]

end

/-! ### RECOVER as a command -/

/-- The command RECOVER, accepted in c, after its `Complete` with result r. -/
def State.recovered (c : State) (r : Result) (w : Work) (scl sda : Bool) (hist : List Action) : State :=
  { c.recovering [] .fin w scl sda (.complete r.code 0 0 :: hist) with
    busy := false
    fsm := []
    res := { code := r.code, data := 0, nxfer := 0 }
    dirty := r.isError
    con := c.con.set .on (!r.isError)
    stat := c.stat.afterEnable (!r.isError) }

/-- The last action of RECOVER: NXFER is 0 (R296, R297). -/
theorem run_complete {s : State} (hf : s.fsm = [.fin]) (hb : s.busy = true) (hi : s.inputs = [])
    (hop : s.latch.op = 0xB#4) : run 1 s = .next (complete s.work.fin.code s.work.fin.data 0 s) := by
  have hnx : s.nxfer = 0 := by simp [State.nxfer, hop]
  rw [run_alone 0 hb hi, act, hf]
  simp only [actAt, actFin, hnx, andThen_next]
  rfl

section
variable (c : State) (w : Work) (scl sda : Bool) (hist : List Action) (hop : c.latch.op = 0xB#4)
include hop

/-- The failing exit (R207). -/
theorem runs_vf {e : Result} (he : e = .sclLow ∨ e = .sdaLow) :
    RunsTo (c.recovering [] .vf { w with e := e } scl sda hist) 2 0
      (c.recovered e { w with e := e, fin := e } scl sda (.dirtyWrite true :: hist)) := by
  have hexit : run 1 (c.recovering [] .vf { w with e := e } scl sda hist) =
      .next { c.recovering [] .fin { w with e := e, fin := e } scl sda (.dirtyWrite true :: hist) with dirty := true } := rfl
  refine .of_run [.complete e.code 0 0, .dirtyWrite true] ?_ rfl
  rw [List.length, List.length_singleton, run_add, hexit, andThen_next, run_complete rfl rfl rfl (by exact hop)]
  obtain rfl | rfl := he <;> rfl

/-- The successful exit (R206). -/
theorem runs_v15 :
    RunsTo (c.recovering [] .v15 w scl sda hist) 3 0
      (c.recovered .ok { w with fin := .ok } scl sda ([.dirtyWrite false, .writeCon .on true] ++ hist)) := by
  have hexit : run 2 (c.recovering [] .v15 w scl sda hist) =
      .next { c.recovering [] .fin { w with fin := .ok } scl sda ([.dirtyWrite false, .writeCon .on true] ++ hist) with
        dirty := false, con := c.con.set .on true, stat := c.stat.afterEnable true } := rfl
  refine .of_run [.complete 1 0 0, .dirtyWrite false, .writeCon .on true] ?_ rfl
  exact (run_add 2 1 _).trans (by rw [hexit, andThen_next, run_complete rfl rfl rfl (by exact hop)]; rfl)

end

/-- The command RECOVER, accepted in c, ends with r after n actions and k toggles if the Engine runs alone. -/
def RecoversAlone (c : State) (r : Result) (n k : Nat) : Prop :=
  ∃ (w : Work) (hist : List Action),
    RunsTo (c.startRecover []) (n + 1) k (c.recovered r w c.line.extSclLow c.line.extSdaLow hist)

section
variable {c : State} (hop : c.latch.op = 0xB#4)
include hop

theorem recoversAlone_sclHeld (hscl : c.line.extSclLow = true) : RecoversAlone c .sclLow 6 0 := by
  obtain ⟨w, hist, hruns⟩ := runs_to_vf_of_sclHeld c [] hscl
  rw [RecoversAlone, hscl]
  exact ⟨_, _, hruns.trans (runs_vf c w true _ hist hop (.inl rfl))⟩

theorem recoversAlone_sdaHeld (hscl : c.line.extSclLow = false) (hsda : c.line.extSdaLow = true) :
    RecoversAlone c .sdaLow (5 * c.params.nRec + 8) c.params.nRec := by
  obtain ⟨w, hist, hj, hloop⟩ := runs_to_toggleLoop c [] hscl
  rw [hsda] at hloop
  obtain ⟨w', hist', hruns⟩ := runs_to_vf_of_sdaHeld c [] w hist (by omega)
  rw [RecoversAlone, hscl, hsda]
  exact ⟨_, _, hloop.trans (hruns.trans (runs_vf c w' false true hist' hop (.inr rfl)) rfl rfl)⟩

theorem recoversAlone_free (hscl : c.line.extSclLow = false) (hsda : c.line.extSdaLow = false) :
    RecoversAlone c .ok (c.params.nRec + 15) 0 := by
  obtain ⟨w, hist, hj, hloop⟩ := runs_to_toggleLoop c [] hscl
  rw [hsda] at hloop
  obtain ⟨w', hist', hruns⟩ := runs_to_v15_of_free c [] w hist (by omega)
  rw [RecoversAlone, hscl, hsda]
  exact ⟨_, _, hloop.trans (hruns.trans (runs_v15 c w' false false hist' hop) rfl rfl)⟩

end

/-! ### RECOVER under a quiet Environment (R209) -/

/-- RECOVER as accepted in s (R292). -/
def State.recoverAccepted (s : State) : State := accept (submissionOf .recover) s

/-- An idle block accepts RECOVER and runs it over its schedule. -/
theorem exec_recover {s : State} (hb : s.busy = false) (evs : List Event) :
    exec .recover { s with inputs := evs } = runCommand (s.recoverAccepted.withInputs evs) :=
  exec_accepted (s := { s with inputs := evs }) hb fun hu => absurd hu (by simp [Submission.counted, submissionOf])

theorem recoversAlone_bound (p : Params) : 5 * p.nRec + 16 ≤ commandBound p := by
  unfold commandBound recoverBound; omega

/-- With nothing scheduled the Engine runs RECOVER alone. -/
theorem exec_recover_alone {s : State} {r : Result} {n k : Nat} (hb : s.busy = false) (hi : s.inputs = [])
    (h : RecoversAlone s.recoverAccepted r n k) (hn : n + 1 ≤ commandBound s.recoverAccepted.params) :
    ∃ (w : Work) (hist : List Action),
      exec .recover s = .next (s.recoverAccepted.recovered r w s.line.extSclLow s.line.extSdaLow hist) ∧
      Performed s (n + 1) k (s.recoverAccepted.recovered r w s.line.extSclLow s.line.extSdaLow hist) := by
  obtain ⟨w, hist, hruns⟩ := h
  have hs : s = { s with inputs := [] } := by rw [← hi]
  refine ⟨w, hist, ?_, hruns.performed⟩
  rw [hs, exec_recover hb]
  exact runCommand_of_run hruns.run rfl (hn.trans (Nat.le_add_left ..))

/-- What RECOVER has left behind is the end of a command, with no bytes counted (R296, R297). -/
theorem recovered_ended {c s : State} {r : Result} {w : Work} {scl sda : Bool} {hist : List Action} {n k : Nat}
    (hr : r.data = 0) (h : Performed s (n + 1) k (c.recovered r w scl sda hist)) :
    Ended s (c.recovered r w scl sda hist) r 0 n := by
  obtain ⟨acts, hhist, hlen, -⟩ := h
  obtain ⟨a, acts, rfl⟩ := List.exists_cons_of_length_eq_add_one hlen
  obtain ⟨rfl, hold⟩ := List.cons.inj hhist
  refine ⟨rfl, rfl, by rw [hr]; rfl, acts, ?_, Nat.succ.inj hlen⟩
  rw [hr]
  exact congrArg _ hold

/-- Settles O42: on lines that stay as they are RECOVER comes to one of its two exits (`recoversAlone_sclHeld`,
`recoversAlone_sdaHeld`, `recoversAlone_free`), and `State.recovered` is what they leave. -/
theorem recoverResult : Obligations.RecoverResult := by
  unfold Obligations.RecoverResult
  intro s hb hi
  have hbound := recoversAlone_bound s.recoverAccepted.params
  rcases Bool.eq_false_or_eq_true s.line.extSclLow with hscl | hscl
  · obtain ⟨w, hist, hexec, hdid⟩ := exec_recover_alone hb hi (recoversAlone_sclHeld rfl hscl) (by omega)
    exact ⟨_, hexec, ⟨rfl, rfl, fun _ => rfl⟩, rfl, rfl, rfl, rfl,
      fun _ => ⟨recovered_ended rfl hdid, hdid.toggles_since, rfl, rfl, rfl⟩, by simp [hscl], by simp [hscl]⟩
  rcases Bool.eq_false_or_eq_true s.line.extSdaLow with hsda | hsda
  · obtain ⟨w, hist, hexec, hdid⟩ := exec_recover_alone hb hi (recoversAlone_sdaHeld rfl hscl hsda) (by omega)
    exact ⟨_, hexec, ⟨rfl, rfl, fun _ => rfl⟩, rfl, rfl, rfl, rfl, by simp [hscl],
      fun _ => ⟨recovered_ended rfl hdid, hdid.toggles_since, rfl, rfl, rfl⟩, by simp [hsda]⟩
  · obtain ⟨w, hist, hexec, hdid⟩ := exec_recover_alone hb hi (recoversAlone_free rfl hscl hsda) (by omega)
    exact ⟨_, hexec, ⟨rfl, rfl, fun _ => rfl⟩, rfl, rfl, rfl, rfl, by simp [hscl], by simp [hsda],
      fun _ => ⟨recovered_ended rfl hdid, hdid.toggles_since, rfl, rfl, rfl⟩⟩

/-! ### The stuck-data law (R208) -/

theorem withInputs_self {s : State} {evs : List Event} (h : s.inputs = evs) : s.withInputs evs = s := by
  subst h; rfl

/-- With Engine turns alone ahead in the schedule a run is the Engine's own; it stops early where the command ends. -/
theorem run_engineTurns {n m : Nat} {s t : State} (h : run n (s.withInputs []) = .next t) (hnm : n ≤ m)
    (rest : List Event) : ∃ evs, run n (s.withInputs (List.replicate m .engine ++ rest)) = .next (t.withInputs evs) ∧
      (t.busy = true → evs = List.replicate (m - n) .engine ++ rest) := by
  induction n generalizing m s with
  | zero => cases h; exact ⟨_, rfl, fun _ => rfl⟩
  | succ n ih =>
    obtain ⟨m, rfl⟩ : ∃ m', m = m' + 1 := ⟨m - 1, by omega⟩
    cases hb : s.busy with
    | false =>
      rw [run_idle _ (by exact hb)] at h ⊢
      cases h
      exact ⟨_, rfl, fun hb' => Bool.noConfusion (hb.symm.trans hb')⟩
    | true =>
      rw [run_alone n (by exact hb) rfl] at h
      obtain ⟨u, hu, ht⟩ := andThen_eq_next h
      rw [← withInputs_self (act_inputs hu)] at ht
      obtain ⟨evs, hrun, hevs⟩ := ih (m := m) ht (by omega)
      refine ⟨evs, ?_, fun ht' => (hevs ht').trans (by rw [Nat.add_sub_add_right])⟩
      have hact : act (s.withInputs (List.replicate m .engine ++ rest)) = _ := act_withInputs hu _
      have hturn := run_engine (s := s.withInputs (List.replicate (m + 1) .engine ++ rest)) n hb rfl
      exact hturn.trans ((congrArg (andThen · (run n)) hact).trans hrun)

/-- The Environment lets go of SDA, and does nothing else. -/
def releaseSda : EnvStep := { extSdaLow := some false }

theorem envStep_releaseSda (s : State) :
    envStep releaseSda s = { s with line := { s.line with extSdaLow := false } } := by
  simp [envStep, releaseSda, Con.afterEnv, Stat.afterEnv]

/-- RECOVER begun in s over the schedule ends with r, after k toggles. -/
def RecoversOver (s : State) (evs : List Event) (r : Result) (k : Nat) : Prop :=
  ∃ t, exec .recover { s with inputs := evs } = .next t ∧ t.busy = false ∧ t.res.code = r.code ∧ toggles (s.since t) = k

section
variable {s : State} (hb : s.busy = false)
include hb

/-- A run of known length that came to the `Complete`, within the fuel. -/
theorem recoversOver_of_run {t : State} {evs : List Event} {r : Result} {n m k : Nat}
    (hrun : run n (s.recoverAccepted.withInputs evs) = .next t) (hn : n ≤ evs.length + commandBound s.params)
    (hbusy : t.busy = false) (hcode : t.res.code = r.code) (hdid : Performed s m k t) : RecoversOver s evs r k :=
  ⟨t, (exec_recover hb evs).trans (runCommand_of_run hrun hbusy hn), hbusy, hcode, hdid.toggles_since⟩

/-- SDA is released before the first action. -/
theorem recoversOver_releasedAtOnce (hscl : s.line.extSclLow = false) : RecoversOver s [.env releaseSda] .ok 0 := by
  obtain ⟨w, hist, hruns⟩ := recoversAlone_free
    (c := { s with line := { s.line with extSdaLow := false } }.recoverAccepted) rfl hscl rfl
  have hbound := recoversAlone_bound s.params
  have henv := run_env (s := s.recoverAccepted.withInputs [.env releaseSda]) (s.params.nRec + 16) rfl rfl
  rw [envStep_releaseSda] at henv
  exact recoversOver_of_run hb (henv.trans hruns.run) (by simp; omega) rfl rfl hruns.performed

/-- SDA is held until RECOVER has ended. -/
theorem recoversOver_notReleased (hscl : s.line.extSclLow = false) (hsda : s.line.extSdaLow = true) {m : Nat}
    (hm : 5 * s.params.nRec + 9 ≤ m) (rest : List Event) :
    RecoversOver s (List.replicate m .engine ++ rest) .sdaLow s.params.nRec := by
  obtain ⟨w, hist, hruns⟩ := recoversAlone_sdaHeld (c := s.recoverAccepted) rfl hscl hsda
  obtain ⟨evs, hrun, -⟩ := run_engineTurns (s := s.recoverAccepted) hruns.run hm rest
  exact recoversOver_of_run hb hrun (hm.trans (by simp; omega)) rfl rfl hruns.performed

end

/-- Toggle q + 1 ends with V6d. -/
theorem runs_to_toggle (c : State) (rest : List Label) {q : Nat} (hscl : c.line.extSclLow = false)
    (hsda : c.line.extSdaLow = true) (hq : q < c.params.nRec) : ∃ (w : Work) (hist : List Action), w.j = q ∧
      RunsTo (c.startRecover rest) (5 * q + 9) (q + 1) (c.recovering rest .v6e w false true hist) := by
  obtain ⟨w₀, hist₀, hj₀, hloop⟩ := runs_to_toggleLoop c rest hscl
  rw [hsda] at hloop
  obtain ⟨w, hist, hj, hpasses⟩ := runs_passes c rest w₀ false hist₀ true q (by omega)
  have hhead : toggleHead c.params w.j = .v6a := if_pos (by omega)
  rw [hhead] at hpasses
  refine ⟨{ w with y := false }, _, by simpa [hj₀] using hj, hloop.trans (hpasses.trans (runs_toggle ..) rfl rfl) ?_ ?_⟩
  · rw [passActions, if_pos rfl]; omega
  · rw [Bool.toNat_true]; omega

/-- From V6e on free lines RECOVER succeeds, with no more toggles. -/
theorem runs_v6e_to_recovered (c : State) (w : Work) (hist : List Action) (hop : c.latch.op = 0xB#4)
    (hj : w.j < c.params.nRec) : ∃ (w' : Work) (hist' : List Action),
      RunsTo (c.recovering [] .v6e w false false hist) (c.params.nRec - w.j + 11) 0
        (c.recovered .ok w' false false hist') := by
  obtain ⟨w', hist', hfree⟩ := runs_to_v15_of_free c [] { w with j := w.j + 1 } (.delay Config.tRec :: hist) hj
  have hnext : c.params.nRec - { w with j := w.j + 1 }.j + 1 = c.params.nRec - w.j := by show _ - (w.j + 1) + 1 = _; omega
  exact ⟨_, _, (runs_v6e c [] w false false hist).trans (hfree.trans (runs_v15 c w' false false hist' hop) rfl rfl)
    (by omega)⟩

/-- SDA is released right after toggle q + 1. -/
theorem recoversOver_released {s : State} (hb : s.busy = false) (hscl : s.line.extSclLow = false)
    (hsda : s.line.extSdaLow = true) {q : Nat} (hq : q < s.params.nRec) :
    RecoversOver s (List.replicate (5 * q + 9) .engine ++ [.env releaseSda]) .ok (q + 1) := by
  obtain ⟨w, hist, rfl, htoggle⟩ := runs_to_toggle s.recoverAccepted [] hscl hsda hq
  obtain ⟨evs, hrun, hevs⟩ := run_engineTurns (s := s.recoverAccepted) htoggle.run le_rfl [.env releaseSda]
  obtain rfl : evs = [.env releaseSda] := by simpa using hevs rfl
  obtain ⟨w', hist', hfree⟩ := runs_v6e_to_recovered s.recoverAccepted w hist rfl hq
  have henv := run_env (s := (s.recoverAccepted.recovering [] .v6e w false true hist).withInputs [.env releaseSda])
    (s.params.nRec - w.j + 11) rfl rfl
  rw [envStep_releaseSda] at henv
  have hbound := recoversAlone_bound s.params
  refine recoversOver_of_run hb (n := 5 * w.j + 9 + (s.params.nRec - w.j + 11 + 1)) ?_ ?_ rfl rfl
    (htoggle.performed.trans hfree.performed)
  · rw [run_add, hrun, andThen_next, henv]
    exact hfree.run
  · simp; omega

/-- Settles O44: SDA is free from the start for p = 0, released after toggle p for p ≤ N_REC, and held to the end for
p > N_REC. -/
theorem stuckDataLaw : Obligations.StuckDataLaw := by
  unfold Obligations.StuckDataLaw
  intro s p hb hscl hsda
  cases p with
  | zero =>
    obtain ⟨t, ht, hbusy, hcode, htog⟩ := recoversOver_releasedAtOnce hb hscl
    exact ⟨t, ht, hbusy, fun _ => hcode, nofun, by rw [htog, Nat.zero_min]⟩
  | succ q =>
    rcases Nat.lt_or_ge q s.params.nRec with hq | hq
    · obtain ⟨t, ht, hbusy, hcode, htog⟩ := recoversOver_released hb hscl hsda hq
      exact ⟨t, ht, hbusy, fun _ => hcode, fun h => absurd h (by omega), by omega⟩
    · obtain ⟨t, ht, hbusy, hcode, htog⟩ := recoversOver_notReleased hb hscl hsda (m := 5 * q + 9) (by omega)
        [.env releaseSda]
      exact ⟨t, ht, hbusy, fun h => absurd h (by omega), fun _ => hcode, by omega⟩

end Sys2Proof.Machine

/-! SUPPORT. RECOVER under every Environment and Host: what its actions are made of, what they leave alone, and the outcome its two exits settle (spec/42_recovery.md R206, R207, R210). With it, the statement on how RECOVER ends. -/

namespace Sys2Proof.Machine

/-! ## One agent's step, by agent -/

/-- One agent's step while a command runs: the Engine's, the Environment's, or one that reaches only the Host's own side
(R93, R293). -/
theorem tick_running_cases {s t : State} (hb : s.busy = true) (ht : tick s = .next t) : ∃ rest, rest <:+ s.inputs ∧
    (act (s.withInputs rest) = .next t ∨ (∃ e, .env e ∈ s.inputs ∧ t = envStep e (s.withInputs rest)) ∨
      ∃ err log, t = { s.withInputs rest with hostErr := err, hostLog := log }) := by
  have hrest {e : Event} {rest : List Event} (hi : s.inputs = e :: rest) : rest <:+ s.inputs := hi ▸ List.suffix_cons e rest
  unfold tick at ht
  split at ht
  · exact ⟨s.inputs, List.suffix_rfl, .inl ht⟩
  · next rest hi => exact ⟨rest, hrest hi, .inl ht⟩
  · next e rest hi => cases ht; exact ⟨rest, hrest hi, .inr (.inl ⟨e, by rw [hi]; exact List.mem_cons_self, rfl⟩)⟩
  · next off rest hi => cases ht; exact ⟨rest, hrest hi, .inr (.inr ⟨_, _, rfl⟩)⟩
  · next off w rest hi =>
    cases ht
    obtain ⟨err, hw⟩ := hostWrite_running off w (s := s.withInputs rest) hb
    exact ⟨rest, hrest hi, .inr (.inr ⟨err, _, hw⟩)⟩
  · exact ⟨s.inputs, List.suffix_rfl, .inl ht⟩
  all_goals cases ht; exact ⟨s.inputs, List.suffix_rfl, .inr (.inr ⟨_, _, rfl⟩)⟩

/-! ## The actions of RECOVER -/

/-- While RECOVER runs one label stands alone, RECOVER's own or that of `Complete`: RECOVER calls nothing. -/
theorem stackOk_recover {l : Label} {rest : List Label} (h : stackOk 0xB#4 (l :: rest) = true) :
    l ∈ Label.fin :: Label.v1.body ∧ rest = [] := by
  have hcalls : ∀ l ∈ Label.fin :: Label.v1.body, l.callee = none := by decide
  induction rest generalizing l with
  | nil =>
    have h : bottomOk 0xB#4 l = true := h
    exact ⟨by simpa [bottomOk, entryOf, or_comm] using h, rfl⟩
  | cons c rest ih =>
    obtain ⟨first, hc, -⟩ := stackOk_callee h
    rw [hcalls c (ih (stackOk_tail h)).1] at hc
    cases hc

/-- The operations RECOVER is made of: CON.ON, the lines, which are sensed with the controller off, delays, the tracker,
and `Complete`. -/
inductive RecoverOp (s : State) : State → Prop where
  | enable {v : Bool} : RecoverOp s (ctlWriteCon .on v s)
  | drive {l : Line} {v : Bool} : RecoverOp s (lineDrive l v s)
  | sense {l : Line} (hoff : s.con.on = false) : RecoverOp s (lineSense l s)
  | delay : RecoverOp s (delay s)
  | mark {v : Bool} : RecoverOp s (dirtyWrite v s)
  | complete {code : BitVec 5} {data : Byte} {nxfer : BitVec 16} : RecoverOp s (complete code data nxfer s)

theorem actAt_recoverOp {l : Label} {s t : State} (hl : l ∈ Label.fin :: Label.v1.body)
    (hoff : recoverOff s.con.on l = true) (ht : actAt l s = .next t) : ∃ u, RecoverOp s u ∧ Sequencing u t := by
  have hsense (h : (!s.con.on) = true) : s.con.on = false := by simpa using h
  cases l
  case v1 | v15 => cases ht; exact ⟨_, .enable, goto_sequencing _ _⟩
  case v2 | v3 | v6b | v6d | v9 | v11 => cases ht; exact ⟨_, .drive, goto_sequencing _ _⟩
  case v4 | v6c | v10 | v12 => cases ht; exact ⟨_, .delay, goto_sequencing _ _⟩
  case v6e => cases ht; exact ⟨_, .delay, (nextToggle_sequencing _).trans (recoverLoop_sequencing _)⟩
  case v7 | v13 => cases ht; exact ⟨_, .sense (hsense hoff), goto_sequencing _ _⟩
  case v5 =>
    cases ht
    refine ⟨_, .sense (l := .scl) (hsense hoff), ?_⟩
    split
    · exact (startToggles_sequencing _).trans (recoverLoop_sequencing _)
    · exact sequencing_of _ _ _
  case v6a =>
    cases ht
    refine ⟨_, .sense (l := .sda) (hsense hoff), ?_⟩
    split
    · exact (nextToggle_sequencing _).trans (recoverLoop_sequencing _)
    · exact sequencing_of _ _ _
  case v8 | v14 =>
    cases ht
    refine ⟨_, .sense (l := .sda) (hsense hoff), ?_⟩
    (repeat' split) <;> exact sequencing_of _ _ _
  case v16 | vf => exact ⟨_, .mark, finish_sequencing ht⟩
  case fin => cases ht; exact ⟨_, .complete, sequencing_of _ _ _⟩
  all_goals simp [Label.body] at hl

/-- What RECOVER never touches (R210 (d)), but for the request bits, which are the Environment's to clear. -/
def State.recoverKeeps (s : State) : Word × BitVec 16 × Memory × Byte × BitVec 16 × Bool × Bool × Bool × Nat :=
  (s.cmd, s.count, s.buf, s.trn, s.brg, s.con.ackdt, s.con.slew, s.con.ie, s.draws)

/-- The request bits of CON. -/
def Con.requestBits (c : Con) : Bool × Bool × Bool × Bool × Bool := (c.sen, c.rsen, c.pen, c.rcen, c.acken)

theorem RecoverOp.keeps {s u : State} (h : RecoverOp s u) :
    u.recoverKeeps = s.recoverKeeps ∧ u.con.requestBits = s.con.requestBits := by
  cases h
  case sense l hoff => exact ⟨by simp [State.recoverKeeps, lineSense, State.record, hoff], rfl⟩
  all_goals exact ⟨rfl, rfl⟩

theorem Sequencing.recoverKeeps {u t : State} (h : Sequencing u t) : t.recoverKeeps = u.recoverKeeps := by
  rw [State.recoverKeeps, h.host.cmd, h.host.count, h.buf, h.trn, h.brg, h.con, h.draws]
  rfl

/-! ## How it ends (R206, R207) -/

/-- Ok with the controller on and the bus clean, or a line error with the controller off and the bus dirty. -/
def RecoverOutcome (code : BitVec 5) (on dirty : Bool) : Prop :=
  (code = Result.ok.code ∧ on = true ∧ dirty = false) ∨
    ((code = Result.sclLow.code ∨ code = Result.sdaLow.code) ∧ on = false ∧ dirty = true)

/-- The outcome is settled from V16 and from VF on. -/
structure State.RecoverExitOk (s : State) : Prop where
  enabled : s.fsm = [.v16] → s.con.on = true
  ending : s.fsm = [.fin] → RecoverOutcome s.work.fin.code s.con.on s.dirty
  ended : s.fsm = [] → RecoverOutcome s.res.code s.con.on s.dirty

/-- Before its exits RECOVER has settled nothing. -/
theorem goto_recoverExit {u : State} {l m : Label} (hf : u.fsm = [l]) (hm : m ∈ Label.v1.body) (hne : m ≠ .v16) :
    (u.goto m).RecoverExitOk := by
  have hcallee : ∀ m ∈ Label.v1.body, m.callee = none ∧ m ≠ .fin := by decide
  obtain ⟨hc, hfin⟩ := hcallee m hm
  have hfsm : (u.goto m).fsm = [m] := by simp [hf, Label.opened, hc]
  constructor <;> intro h <;> rw [hfsm] at h <;> simp_all

theorem recoverLoop_recoverExit {u : State} {l : Label} (hf : u.fsm = [l]) : u.recoverLoop.RecoverExitOk := by
  unfold State.recoverLoop
  split
  · exact goto_recoverExit hf (by decide) (by decide)
  · exact goto_recoverExit hf (by decide) (by decide)

theorem actAt_recoverExit {l : Label} {s t : State} (hl : l ∈ Label.fin :: Label.v1.body) (hf : s.fsm = [l])
    (he : s.RecoverExitOk) (hoff : recoverOff s.con.on l = true) (herr : errorOk .v1 s.work.e l = true)
    (ht : actAt l s = .next t) : t.RecoverExitOk := by
  cases l
  case v1 | v2 | v3 | v4 | v6b | v6c | v6d | v7 | v9 | v10 | v11 | v12 | v13 =>
    cases ht; exact goto_recoverExit hf (by decide) (by decide)
  case v6e => cases ht; exact recoverLoop_recoverExit (l := .v6e) hf
  case v5 =>
    cases ht
    split
    · exact recoverLoop_recoverExit (l := .v5) hf
    · exact goto_recoverExit (l := .v5) hf (by decide) (by decide)
  case v6a =>
    cases ht
    split
    · exact recoverLoop_recoverExit (l := .v6a) hf
    · exact goto_recoverExit (l := .v6a) hf (by decide) (by decide)
  case v8 => cases ht; split <;> exact goto_recoverExit (l := .v8) hf (by decide) (by decide)
  case v14 => cases ht; (repeat' split) <;> exact goto_recoverExit (l := .v14) hf (by decide) (by decide)
  case v15 =>
    cases ht
    refine ⟨fun _ => rfl, fun h => ?_, fun h => ?_⟩ <;> simp [hf, Label.opened, Label.callee] at h
  case v16 =>
    have ht : (dirtyWrite false s).finish .ok = .next t := ht
    rw [finish_outermost (by exact hf)] at ht
    cases ht
    exact ⟨nofun, fun _ => .inl ⟨rfl, he.enabled hf, rfl⟩, nofun⟩
  case vf =>
    have ht : (dirtyWrite true s).finish s.work.e = .next t := ht
    rw [finish_outermost (by exact hf)] at ht
    cases ht
    have herr : s.work.e = .sclLow ∨ s.work.e = .sdaLow := by simpa [errorOk] using herr
    exact ⟨nofun, fun _ => .inr ⟨herr.imp (congrArg _) (congrArg _), by simpa [recoverOff] using hoff, rfl⟩, nofun⟩
  case fin =>
    cases ht
    exact ⟨nofun, nofun, fun _ => he.ending hf⟩
  all_goals simp [Label.body] at hl

/-! ## The whole run -/

/-- RECOVER, begun in s₀, runs in s or has ended there. -/
structure Recovers (s₀ s : State) : Prop where
  inv : s.Inv
  op : s.latch.op = 0xB#4
  keeps : s.recoverKeeps = s₀.recoverKeeps
  exit : s.RecoverExitOk
  quiet : envQuiet s₀.inputs → envQuiet s.inputs ∧ s.con.requestBits = s₀.con.requestBits

theorem Recovers.withInputs {s₀ s : State} (h : Recovers s₀ s) {rest : List Event} (hrest : rest <:+ s.inputs) :
    Recovers s₀ (s.withInputs rest) where
  inv := withInputs_keeps rest h.inv
  op := h.op
  keeps := h.keeps
  exit := ⟨h.exit.enabled, h.exit.ending, h.exit.ended⟩
  quiet hq := ⟨fun e he => (h.quiet hq).1 e (hrest.subset he), (h.quiet hq).2⟩

theorem Recovers.act {s₀ s t : State} (h : Recovers s₀ s) (ht : act s = .next t) : Recovers s₀ t := by
  obtain ⟨l, rest, hf⟩ : ∃ l rest, s.fsm = l :: rest :=
    List.exists_cons_of_ne_nil fun hnil => by rw [Machine.act, hnil] at ht; cases ht
  have hstack := (h.inv.at hf).stack
  rw [h.op] at hstack
  obtain ⟨hl, rfl⟩ := stackOk_recover hstack
  have htop := h.inv.topAt hf
  have hrunning : s.running = .v1 := by rw [State.running, hf, h.op]; rfl
  rw [hrunning] at htop
  have hat : actAt l s = .next t := by rwa [Machine.act, hf] at ht
  obtain ⟨u, hu, hseq⟩ := actAt_recoverOp hl htop.off hat
  obtain ⟨hkeeps, hbits⟩ := hu.keeps
  exact {
    inv := act_keeps h.inv ht
    op := by rw [(act_acts ht).host.latch, h.op]
    keeps := hseq.recoverKeeps.trans (hkeeps.trans h.keeps)
    exit := actAt_recoverExit hl hf h.exit htop.off htop.error hat
    quiet := fun hq => by
      rw [act_inputs ht, hseq.con, hbits]
      exact h.quiet hq }

theorem Recovers.tick {s₀ s t : State} (h : Recovers s₀ s) (hb : s.busy = true) (ht : tick s = .next t) : Recovers s₀ t := by
  obtain ⟨rest, hrest, hact | ⟨e, he, rfl⟩ | ⟨err, log, rfl⟩⟩ := tick_running_cases hb ht
  · exact (h.withInputs hrest).act hact
  · exact {
      inv := tick_keeps h.inv ht
      op := h.op
      keeps := h.keeps
      exit := ⟨h.exit.enabled, h.exit.ending, h.exit.ended⟩
      quiet := fun hq => absurd rfl ((h.quiet hq).1 _ he e) }
  · exact {
      inv := tick_keeps h.inv ht
      op := h.op
      keeps := h.keeps
      exit := ⟨h.exit.enabled, h.exit.ending, h.exit.ended⟩
      quiet := (h.withInputs hrest).quiet }

theorem recovers_accept {s : State} (h : s.Inv) (hb : s.busy = false) : Recovers s s.recoverAccepted where
  inv := accept_keeps _ h hb rfl nofun
  op := rfl
  keeps := rfl
  exit := ⟨nofun, nofun, nofun⟩
  quiet hq := ⟨hq, rfl⟩

/-- RECOVER ends, over every ordinary schedule (R209). -/
theorem exec_recover_completes {s : State} (h : s.Inv) (hb : s.busy = false) (ho : ordinary s.inputs) :
    ∃ t, exec .recover s = .next t ∧ t.busy = false ∧ Recovers s t := by
  have hrec := recovers_accept h hb
  have hfuel : s.recoverAccepted.WithinBound := accept_withinBound _ rfl nofun
  obtain ⟨t, ht, htb, -⟩ := run_completes hrec.inv ho hfuel.enough
  exact ⟨t, (exec_recover hb s.inputs).trans ht, htb,
    run_induction (fun _ _ hs hsb _ hst => hs.tick hsb hst) _ _ _ hrec ht⟩

/-- Settles O43: the run keeps `Recovers`, and where it has ended the outcome is settled and both drives are released. -/
theorem recoverExit : Obligations.RecoverExit := by
  unfold Obligations.RecoverExit
  intro s h hb ho
  obtain ⟨t, ht, htb, hrec⟩ := exec_recover_completes h hb ho
  have hlines : t.line.sclOut = true ∧ t.line.sdaOut = true := by simpa [linesOk] using hrec.inv.lines_idle htb
  have houtcome := hrec.exit.ended (hrec.inv.fsm_idle htb)
  have hkeeps := hrec.keeps
  simp only [State.recoverKeeps, Prod.mk.injEq] at hkeeps
  obtain ⟨hcmd, hcount, hbuf, htrn, hbrg, hackdt, hslew, hie, hdraws⟩ := hkeeps
  refine ⟨t, ht, hlines.1, hlines.2, ⟨hcmd, hcount, fun a => by rw [hbuf]⟩, htrn, hbrg, hackdt, hslew, hie, hdraws,
    houtcome, fun hq => ?_⟩
  simpa [Con.requestBits] using (hrec.quiet hq).2

end Sys2Proof.Machine

/-! SUPPORT. The primitives as commands (spec/43_primitives.md) under an Environment whose steps are written out: their lines as runs of known length, put together along their paths. With it, the statements on START, RSTART and STOP, on WRBYTE and on RDBYTE. -/

namespace Sys2Proof.Machine

/-! ## The Engine alone, from line to line -/

/-- The running command stands at line l, its sub-operations opened, with nothing scheduled; the registers are those of c. -/
def State.standing (c : State) (l : Label) (w : Work) (hist : List Action) : State :=
  { c with busy := true, fsm := l.opened, work := w, hist := hist, inputs := [] }

/-- From s the Engine alone comes in n actions to line l, with the registers as in c and working registers that satisfy P. -/
def ComesTo (s : State) (n : Nat) (c : State) (l : Label) (P : Work → Prop) : Prop :=
  ∃ (w : Work) (hist : List Action), P w ∧ RunsTo s n 0 (c.standing l w hist)

theorem ComesTo.trans {s c c' : State} {l l' : Label} {m n N : Nat} {P P' : Work → Prop} (h : ComesTo s m c l P)
    (h' : ∀ w hist, P w → ComesTo (c.standing l w hist) n c' l' P') (hN : N = m + n := by omega) :
    ComesTo s N c' l' P' := by
  obtain ⟨w, hist, hP, hruns⟩ := h
  obtain ⟨w', hist', hP', hruns'⟩ := h' w hist hP
  exact ⟨w', hist', hP', hruns.trans hruns'⟩

/-- One action. -/
theorem RunsTo.of_act {s t : State} (a : Action) (hb : s.busy = true) (hi : s.inputs = []) (hact : act s = .next t)
    (hist : t.hist = a :: s.hist) (ha : toggles [a] = 0 := by rfl) : RunsTo s 1 0 t :=
  ⟨by rw [run_alone 0 hb hi, hact]; rfl, [a], hist, rfl, ha⟩

/-- One action, from a line that opens no sub-operation or from its deepest label, to a line of the same operation. -/
theorem ComesTo.of_act {c c' : State} {l l' : Label} {w w' : Work} {hist : List Action} (a : Action) {P : Work → Prop}
    (hact : act (c.standing l w hist) = .next (c'.standing l' w' (a :: hist))) (hP : P w') (ha : toggles [a] = 0 := by rfl) :
    ComesTo (c.standing l w hist) 1 c' l' P :=
  ⟨w', _, hP, .of_act a rfl rfl hact rfl ha⟩

/-! ## The bounded poll (R228) -/

/-- Where one read of a poll at l leads, with the read counted in w: on to `next`, to the failure exit with e, or to l. -/
def State.pollTurn (c : State) (l next : Label) (e : Result) (done : Bool) (n : Nat) (w : Work) (hist : List Action) : State :=
  if done then c.standing next w hist
  else if w.k = n then c.standing .pf { w with e := e } hist
  else c.standing l w hist

/-- At l the Engine polls for a condition on the registers of c, which is `done`, with ceiling n and timeout error e. -/
def PollsAt (c : State) (l next : Label) (e : Result) (done : Bool) (n : Nat) : Prop :=
  ∀ (w : Work) (hist : List Action), ∃ (w' : Work) (a : Action), w'.k = w.k + 1 ∧ toggles [a] = 0 ∧
    act (c.standing l w hist) = .next (c.pollTurn l next e done n w' (a :: hist))

section
variable {c : State} {l next : Label} {e : Result} {done : Bool} {n : Nat} (h : PollsAt c l next e done n) (w : Work)
  (hist : List Action)
include h

theorem PollsAt.completes (hd : done = true) : ComesTo (c.standing l w hist) 1 c next fun _ => True := by
  obtain ⟨w', a, -, ha, hact⟩ := h w hist
  rw [State.pollTurn, if_pos hd] at hact
  exact .of_act a hact trivial ha

theorem PollsAt.waits (hd : done = false) (hk : w.k = 0) {m : Nat} (hm : m < n) :
    ComesTo (c.standing l w hist) m c l (·.k = m) := by
  induction m with
  | zero => exact ⟨w, hist, hk, .refl _⟩
  | succ m ih =>
    refine (ih (by omega)).trans (n := 1) fun w₁ hist₁ (hk₁ : w₁.k = m) => ?_
    obtain ⟨w', a, hk', ha, hact⟩ := h w₁ hist₁
    rw [State.pollTurn, if_neg (by simp [hd]), if_neg (by omega)] at hact
    exact .of_act a hact (by rw [hk', hk₁]) ha

/-- A poll that never completes takes exactly n reads. -/
theorem PollsAt.timesOut (hd : done = false) (hk : w.k = 0) (hn : 0 < n) :
    ComesTo (c.standing l w hist) n c .pf (·.e = e) := by
  refine (h.waits w hist hd hk (Nat.sub_lt hn Nat.one_pos)).trans (n := 1) fun w₁ hist₁ (hk₁ : w₁.k = n - 1) => ?_
  obtain ⟨w', a, hk', ha, hact⟩ := h w₁ hist₁
  rw [State.pollTurn, if_neg (by simp [hd]), if_pos (by omega)] at hact
  exact .of_act a hact rfl ha

end

/-! ## The sub-sequences every primitive uses -/

/-- In the first line of a primitive, `call`, IDLE_CHECK stands at l. -/
def State.checking (c : State) (call l : Label) (w : Work) (hist : List Action) : State :=
  { c with busy := true, fsm := [l, call], work := w, hist := hist, inputs := [] }

section
variable (c : State) (w : Work) (hist : List Action)

theorem standing_eq_checking {call : Label} {p : Prim} (hcall : call.prim = some p) :
    c.standing call w hist = c.checking call .q1 w hist := by
  have hopened : call.opened = [.q1, call] := by cases call <;> simp [Label.prim] at hcall <;> rfl
  rw [State.checking, ← hopened]
  rfl

theorem finish_checking {call next : Label} (hnext : ∀ r s, resume call r s = .next (s.goto next)) (l : Label)
    (r : Result) : (c.checking call l w hist).finish r = .next (c.standing next w hist) := by
  simp [State.finish, State.checking, hnext, State.goto, State.standing]

/-- Q1: the CON snapshot. -/
theorem runs_q1 (call : Label) : RunsTo (c.checking call .q1 w hist) 1 0
    (c.checking call .q2 { w with c := c.con } (.readCon c.con :: hist)) := .of_act (.readCon c.con) rfl rfl rfl rfl

theorem act_q2 (call : Label) : act (c.checking call .q2 w hist) =
    if notIdle w.c c.stat then .next (c.checking call .q3 { w with s := c.stat } (.readStat c.stat :: hist))
    else (c.checking call .q2 { w with s := c.stat } (.readStat c.stat :: hist)).finish .ok := rfl

/-- Q2 finds the controller idle. -/
theorem runs_q2_idle {call next : Label} (hnext : ∀ r s, resume call r s = .next (s.goto next))
    (hidle : notIdle w.c c.stat = false) : RunsTo (c.checking call .q2 w hist) 1 0
      (c.standing next { w with s := c.stat } (.readStat c.stat :: hist)) := by
  have hact := act_q2 c w hist call
  rw [if_neg (Bool.eq_false_iff.mp hidle), finish_checking c _ _ hnext] at hact
  exact .of_act (.readStat c.stat) rfl rfl hact rfl

/-- Q2 finds it not idle. -/
theorem runs_q2_diag (call : Label) (hidle : notIdle w.c c.stat = true) : RunsTo (c.checking call .q2 w hist) 1 0
    (c.checking call .q3 { w with s := c.stat } (.readStat c.stat :: hist)) := by
  have hact := act_q2 c w hist call
  rw [if_pos hidle] at hact
  exact .of_act (.readStat c.stat) rfl rfl hact rfl

/-- Q3: the diagnostic event. -/
theorem runs_q3 {call next : Label} {p : Prim} (hcall : call.prim = some p)
    (hnext : ∀ r s, resume call r s = .next (s.goto next)) :
    RunsTo (c.checking call .q3 w hist) 1 0 (c.standing next w (.diag p :: hist)) := by
  have hact : act (c.checking call .q3 w hist) = (c.checking call .q3 w (.diag p :: hist)).finish .ok := by
    simp only [act, actAt, actQ3, State.checking, hcall]
    rfl
  rw [finish_checking c _ _ hnext] at hact
  exact .of_act (.diag p) rfl rfl hact rfl

/-- IDLE_CHECK (R154): the primitive goes on whatever it read. -/
theorem comesTo_idleCheck {call next : Label} {p : Prim} (hcall : call.prim = some p)
    (hnext : ∀ r s, resume call r s = .next (s.goto next)) :
    ComesTo (c.standing call w hist) (idleActions c) c next (fun w' => w'.v = w.v ∧ w'.ack = w.ack) := by
  rw [standing_eq_checking c w hist hcall, idleActions]
  cases hidle : notIdle c.con c.stat with
  | false =>
    have hq2 := runs_q2_idle c { w with c := c.con } (.readCon c.con :: hist) hnext hidle
    exact ⟨{ w with c := c.con, s := c.stat }, _, ⟨rfl, rfl⟩, (runs_q1 c w hist call).trans hq2 rfl rfl⟩
  | true =>
    have hq2 := runs_q2_diag c { w with c := c.con } (.readCon c.con :: hist) call hidle
    have hq3 := runs_q3 c { w with c := c.con, s := c.stat } (.readStat c.stat :: .readCon c.con :: hist) hcall hnext
    exact ⟨{ w with c := c.con, s := c.stat }, _, ⟨rfl, rfl⟩, (runs_q1 c w hist call).trans (hq2.trans hq3 rfl rfl) rfl rfl⟩

/-- CYCLE_ENABLE (R152) after a collision. -/
def State.reenabled (c : State) : State :=
  { c with con := c.con.set .on true, stat := { c.stat with bcl := false, iwcol := false } }

theorem comesTo_cycleEnable {l : Label} (hl : l ∈ [Label.sc, .gc, .tc, .wc]) :
    ComesTo (c.standing l w hist) 2 c.reenabled .pf (·.e = .busCollision) := by
  refine ⟨{ w with e := .busCollision }, [.writeCon .on true, .writeCon .on false] ++ hist, rfl, ?_⟩
  simp only [List.mem_cons, List.not_mem_nil, or_false] at hl
  obtain rfl | rfl | rfl | rfl := hl <;> exact .of_run [.writeCon .on true, .writeCon .on false] rfl rfl

end

/-- The failure exit (R221): the bus is dirty. -/
theorem ComesTo.fails {s c : State} {n N : Nat} {e : Result} (h : ComesTo s n c .pf (·.e = e)) (hN : N = n + 1 := by omega) :
    ComesTo s N { c with dirty := true } .fin (·.fin = e) :=
  h.trans (n := 1) fun w _ he => .of_act (w' := { w with fin := w.e }) (.dirtyWrite true) rfl he

/-- A collision ends the primitive with the controller enabled again and the bus dirty (R224). -/
theorem comesTo_fin_of_collision {l : Label} (hl : l ∈ [Label.sc, .gc, .tc, .wc]) (c : State) (w : Work)
    (hist : List Action) :
    ComesTo (c.standing l w hist) 3 { c.reenabled with dirty := true } .fin (·.fin = .busCollision) :=
  (comesTo_cycleEnable c w hist hl).fails

/-! ## The end of the command (R296) -/

/-- The command has ended with r, no bytes counted, and the registers of c. -/
def State.completed (c : State) (r : Result) (w : Work) (hist : List Action) : State :=
  { c with
    busy := false
    fsm := []
    res := { code := r.code, data := r.data, nxfer := 0 }
    work := w
    hist := .complete r.code r.data 0 :: hist
    inputs := [] }

/-- Over the schedule the command that runs in s ends with r after n actions, with the registers of c. -/
def EndsOver (s : State) (evs : List Event) (n : Nat) (c : State) (r : Result) : Prop :=
  ∃ (m : Nat) (w : Work) (hist : List Action), m ≤ evs.length + (n + 1) ∧
    run m (s.withInputs evs) = .next (c.completed r w hist) ∧ Performed s (n + 1) 0 (c.completed r w hist)

/-- The running command is not READ or WRITE. -/
def State.Uncounted (s : State) : Prop := ¬(s.latch.op = 0x4#4 ∨ s.latch.op = 0x5#4)

/-- RES.NXFER is 0 but for READ and WRITE (R297). -/
theorem State.Uncounted.nxfer {s : State} (h : s.Uncounted) : s.nxfer = 0 := if_neg h

/-- The Engine comes to `Complete` alone. -/
theorem ComesTo.ends {s c : State} {n : Nat} {r : Result} (h : ComesTo s n c .fin (·.fin = r)) (hop : c.Uncounted)
    (hi : s.inputs = [] := by rfl) : EndsOver s [] n c r := by
  obtain ⟨w, hist, rfl, hruns⟩ := h
  have hnx : (c.standing .fin w hist).nxfer = 0 := State.Uncounted.nxfer hop
  have hfin : RunsTo (c.standing .fin w hist) 1 0 (c.completed w.fin w hist) :=
    .of_act (.complete w.fin.code w.fin.data 0) rfl rfl (congrArg (fun nx => Host.Outcome.next (complete _ _ nx _)) hnx) rfl
  have hend : RunsTo s (n + 1) 0 _ := hruns.trans hfin
  exact ⟨n + 1, w, hist, by simp, by rw [withInputs_self hi]; exact hend.run, hend.performed⟩

/-- The Engine comes alone to where the Environment takes a step, and the command goes on from there. -/
theorem ComesTo.env {s c c' : State} {l : Label} {P : Work → Prop} {n m N : Nat} {r : Result} {e : EnvStep}
    {evs : List Event} (h : ComesTo s n c l P)
    (hrest : ∀ w hist, P w → EndsOver ((envStep e c).standing l w hist) evs m c' r) (hN : N = n + m := by omega)
    (hi : s.inputs = [] := by rfl) :
    EndsOver s (List.replicate n .engine ++ .env e :: evs) N c' r := by
  subst hN
  obtain ⟨w, hist, hP, hruns⟩ := h
  obtain ⟨k, w', hist', hk, hrun, hdid⟩ := hrest w hist hP
  have hfirst := hruns.run
  rw [← withInputs_self hi] at hfirst
  obtain ⟨evs', hturns, hevs⟩ := run_engineTurns hfirst le_rfl (.env e :: evs)
  obtain rfl : evs' = .env e :: evs := by simpa using hevs rfl
  have henv := run_env (s := (c.standing l w hist).withInputs (.env e :: evs)) k rfl rfl
  refine ⟨n + (k + 1), w', hist', by simp; omega, ?_, hruns.performed.trans hdid⟩
  rw [run_add, hturns, andThen_next, henv]
  exact hrun

/-- The registers where a command i accepted in s begins. -/
def State.accepted (i : Instr) (s : State) : State := accept (submissionOf i) s

theorem idleActions_le (s : State) : idleActions s ≤ 3 := by unfold idleActions; split <;> omega

/-- An accepted primitive, from its first line to its `Complete`. -/
theorem exec_of_endsOver {i : Instr} {s c : State} {evs : List Event} {n : Nat} {r : Result} (hb : s.busy = false)
    (hi : ¬(submissionOf i).counted)
    (h : EndsOver ((s.accepted i).standing (submissionOf i).entry (s.accepted i).work s.hist) evs n c r)
    (hn : n ≤ idleActions s + 7 + s.params.nXfer + s.params.nCtl) :
    ∃ (w : Work) (hist : List Action), exec i (s.withInputs evs) = .next (c.completed r w hist) ∧
      Ended s (c.completed r w hist) r 0 n := by
  obtain ⟨m, w, hist, hm, hrun, acts, hhist, hlen, -⟩ := h
  refine ⟨w, hist, ?_, rfl, rfl, rfl, ?_⟩
  · have hidle := idleActions_le s
    have hbound : n + 1 ≤ commandBound s.params := by unfold commandBound wrbyteBound rdbyteBound Config.bufCap; omega
    rw [exec_accepted (s := s.withInputs evs) hb fun hu => absurd hu hi]
    exact runCommand_of_run hrun rfl (hm.trans (Nat.add_le_add_left hbound _))
  · obtain ⟨a, acts, rfl⟩ := List.exists_cons_of_length_eq_add_one hlen
    obtain ⟨rfl, hold⟩ := List.cons.inj hhist
    exact ⟨acts, congrArg _ hold, Nat.succ.inj hlen⟩

/-- The same, with nothing scheduled. -/
theorem exec_alone_of_endsOver {i : Instr} {s c : State} {n : Nat} {r : Result} (hb : s.busy = false) (hi : s.inputs = [])
    (hc : ¬(submissionOf i).counted)
    (h : EndsOver ((s.accepted i).standing (submissionOf i).entry (s.accepted i).work s.hist) [] n c r)
    (hn : n ≤ idleActions s + 7 + s.params.nXfer + s.params.nCtl) :
    ∃ (w : Work) (hist : List Action), exec i s = .next (c.completed r w hist) ∧ Ended s (c.completed r w hist) r 0 n := by
  have hexec := exec_of_endsOver hb hc h hn
  rwa [withInputs_self hi] at hexec

/-! ## START, RSTART and STOP (R222, R226, R230) -/

/-- The three commands that request a bus condition. -/
inductive Request where
  | start
  | rstart
  | stop

/-- A request's command, its request bit, and its lines: the call of IDLE_CHECK, the request, the first check, the poll,
the second check, and the collision's. -/
structure RequestLines where
  instr : Instr
  field : ConField
  call : Label
  ask : Label
  check : Label
  poll : Label
  recheck : Label
  collision : Label

/-- The table of R222, R226 and R230. -/
def Request.lines (q : Request) : RequestLines :=
  match q with
  | .start => ⟨.start, .sen, .s1, .s2, .s3, .s4, .s5, .sc⟩
  | .rstart => ⟨.rstart, .rsen, .g1, .g2, .g3, .g4, .g5, .gc⟩
  | .stop => ⟨.stop, .pen, .t1, .t2, .t3, .t4, .t5, .tc⟩

theorem mem_requests {p : Instr × ConField} (h : p ∈ requests) : ∃ q : Request, p = (q.lines.instr, q.lines.field) := by
  simp only [requests, List.mem_cons, List.not_mem_nil, or_false] at h
  obtain rfl | rfl | rfl := h
  exacts [⟨.start, rfl⟩, ⟨.rstart, rfl⟩, ⟨.stop, rfl⟩]

/-- The request bit is v, and BCL is b. -/
def Request.registers (q : Request) (v b : Bool) (c : State) : State :=
  { c with con := c.con.set q.lines.field v, stat := { c.stat with bcl := b } }

section
variable (q : Request) (c : State) (w : Work) (hist : List Action)

/-- IDLE_CHECK and the request. -/
theorem comesTo_requestCheck : ComesTo (c.standing q.lines.call w hist) (idleActions c + 1) (q.registers true c.stat.bcl c)
    q.lines.check fun _ => True := by
  have hidle : ComesTo (c.standing q.lines.call w hist) (idleActions c) c q.lines.ask
      fun w' => w'.v = w.v ∧ w'.ack = w.ack := by
    cases q <;> exact comesTo_idleCheck c w hist rfl fun _ _ => rfl
  refine hidle.trans (n := 1) fun w hist _ => .of_act (w' := w) (.writeCon q.lines.field true) ?_ trivial
  cases q <;> rfl

/-- The first check finds no collision: the poll begins. -/
theorem comesTo_requestPoll (hbcl : c.stat.bcl = false) : ComesTo (c.standing q.lines.call w hist) (idleActions c + 2)
    (q.registers true false c) q.lines.poll (·.k = 0) := by
  have hcheck := comesTo_requestCheck q c w hist
  rw [hbcl] at hcheck
  refine hcheck.trans (n := 1) fun w hist _ =>
    .of_act (w' := { w with s := { c.stat with bcl := false }, k := 0 }) (.readStat { c.stat with bcl := false }) ?_ rfl
  cases q <;> rfl

/-- The first check finds a collision (R223). -/
theorem comesTo_requestCollision (hbcl : c.stat.bcl = true) : ComesTo (c.standing q.lines.call w hist) (idleActions c + 2)
    (q.registers true true c) q.lines.collision fun _ => True := by
  have hcheck := comesTo_requestCheck q c w hist
  rw [hbcl] at hcheck
  refine hcheck.trans (n := 1) fun w hist _ =>
    .of_act (w' := { w with s := { c.stat with bcl := true } }) (.readStat { c.stat with bcl := true }) ?_ trivial
  cases q <;> rfl

theorem pollsAt_request : PollsAt c q.lines.poll q.lines.recheck .clockStuck (c.con.cleared q.lines.field) c.params.nCtl :=
  fun w hist => ⟨{ w with c := c.con, k := w.k + 1 }, .readCon c.con, rfl, rfl, by cases q <;> rfl⟩

/-- The second check finds no collision. -/
theorem comesTo_fin_of_recheck (v : Bool) : ComesTo ((q.registers v false c).standing q.lines.recheck w hist) 1
    (q.registers v false c) .fin (·.fin = .ok) := by
  refine .of_act (w' := { w with s := { c.stat with bcl := false }, fin := .ok }) (.readStat { c.stat with bcl := false }) ?_ rfl
  cases q <;> rfl

/-- The second check finds a collision (R223, R375). -/
theorem comesTo_requestCollision_of_recheck (v : Bool) : ComesTo ((q.registers v true c).standing q.lines.recheck w hist) 1
    (q.registers v true c) q.lines.collision fun _ => True := by
  refine .of_act (w' := { w with s := { c.stat with bcl := true } }) (.readStat { c.stat with bcl := true }) ?_ trivial
  cases q <;> rfl

/-- A collision ends the request with BusCollision (R224). -/
theorem comesTo_fin_of_requestCollision : ComesTo (c.standing q.lines.collision w hist) 3
    { c.reenabled with dirty := true } .fin (·.fin = .busCollision) :=
  comesTo_fin_of_collision (by cases q <;> decide) c w hist

theorem cleared_registers (v b : Bool) : (q.registers v b c).con.cleared q.lines.field = !v := by cases q <;> rfl

/-- The Environment clears the request bit, and may set or clear BCL. -/
theorem envStep_clears_request (b : Option Bool) :
    envStep { clears q.lines.field with bcl := b } (q.registers true false c) = q.registers false (b.getD false) c := by
  cases q <;> simp [envStep, clears, Request.registers, Request.lines, Con.afterEnv, Stat.afterEnv, Con.set]

/-! ### The four ways it ends -/

/-- Just before poll m the Environment clears the request bit, and may set BCL: the poll ends, and the second check
follows. -/
theorem endsOver_of_recheck (hbcl : c.stat.bcl = false) {m : Nat} (h1 : 1 ≤ m) (hm : m ≤ c.params.nCtl) (b : Option Bool)
    {c' : State} {n N : Nat} {r : Result} (hop : c'.Uncounted)
    (hrest : ∀ w hist, ComesTo ((q.registers false (b.getD false) c).standing q.lines.recheck w hist) n c' .fin (·.fin = r))
    (hN : N = idleActions c + 2 + m + n := by omega) :
    EndsOver (c.standing q.lines.call w hist)
      (List.replicate (idleActions c + 2 + (m - 1)) .engine ++ [.env { clears q.lines.field with bcl := b }]) N c' r := by
  have hwaits := (comesTo_requestPoll q c w hist hbcl).trans (N := idleActions c + 2 + (m - 1)) fun w hist hk =>
    (pollsAt_request q _).waits w hist (cleared_registers q c true false) hk (show m - 1 < c.params.nCtl by omega)
  refine hwaits.env (m := n + 1) fun w hist _ => ?_
  rw [envStep_clears_request]
  have hpoll := (pollsAt_request q _).completes w hist (cleared_registers q c false (b.getD false))
  exact (hpoll.trans fun w hist _ => hrest w hist).ends hop

variable (hop : c.Uncounted)
include hop

theorem request_completes (hbcl : c.stat.bcl = false) {m : Nat} (h1 : 1 ≤ m) (hm : m ≤ c.params.nCtl) :
    EndsOver (c.standing q.lines.call w hist)
      (List.replicate (idleActions c + 2 + (m - 1)) .engine ++ [.env (clears q.lines.field)])
      (idleActions c + 3 + m) (q.registers false false c) .ok := by
  have hclears : clears q.lines.field = { clears q.lines.field with bcl := none } := by cases q <;> rfl
  rw [hclears]
  exact endsOver_of_recheck q c w hist hbcl h1 hm none hop fun w hist => comesTo_fin_of_recheck q c w hist false

theorem request_collides_second (hbcl : c.stat.bcl = false) {m : Nat} (h1 : 1 ≤ m) (hm : m ≤ c.params.nCtl) :
    EndsOver (c.standing q.lines.call w hist)
      (List.replicate (idleActions c + 2 + (m - 1)) .engine ++ [.env { clears q.lines.field with bcl := some true }])
      (idleActions c + 6 + m) { (q.registers false true c).reenabled with dirty := true } .busCollision :=
  endsOver_of_recheck q c w hist hbcl h1 hm (some true) hop (n := 4) fun w hist =>
    (comesTo_requestCollision_of_recheck q c w hist false).trans fun w hist _ => comesTo_fin_of_requestCollision q _ w hist

theorem request_collides_first (hbcl : c.stat.bcl = true) : EndsOver (c.standing q.lines.call w hist) []
    (idleActions c + 5) { (q.registers true true c).reenabled with dirty := true } .busCollision :=
  ((comesTo_requestCollision q c w hist hbcl).trans fun w hist _ => comesTo_fin_of_requestCollision q _ w hist).ends hop

theorem request_timesOut (hbcl : c.stat.bcl = false) (hn : 0 < c.params.nCtl) : EndsOver (c.standing q.lines.call w hist) []
    (idleActions c + 3 + c.params.nCtl) { q.registers true false c with dirty := true } .clockStuck := by
  have htimesOut := (comesTo_requestPoll q c w hist hbcl).trans (n := c.params.nCtl) (N := idleActions c + 2 + c.params.nCtl) fun w hist hk =>
    (pollsAt_request q _).timesOut w hist (cleared_registers q c true false) hk hn
  exact htimesOut.fails.ends hop

end

/-! ### As commands -/

theorem Request.entry_eq (q : Request) : (submissionOf q.lines.instr).entry = q.lines.call := by cases q <;> rfl

theorem Request.not_counted (q : Request) : ¬(submissionOf q.lines.instr).counted := by
  cases q <;> simp [Submission.counted, submissionOf, Request.lines]

/-- A request command, from its call to its `Complete`. -/
theorem exec_request {q : Request} {s c : State} {evs : List Event} {n : Nat} {r : Result} (hb : s.busy = false)
    (h : EndsOver ((s.accepted q.lines.instr).standing q.lines.call (s.accepted q.lines.instr).work s.hist) evs n c r)
    (hn : n ≤ idleActions s + 7 + s.params.nXfer + s.params.nCtl) : ∃ (w : Work) (hist : List Action),
      exec q.lines.instr (s.withInputs evs) = .next (c.completed r w hist) ∧ Ended s (c.completed r w hist) r 0 n := by
  rw [← q.entry_eq] at h
  exact exec_of_endsOver hb q.not_counted h hn

theorem Stat.bcl_eta {st : Stat} {b : Bool} (h : st.bcl = b) : { st with bcl := b } = st := by rw [← h]

/-- Settles O34: the poll waits until the bit clears, and the second check finds no collision (`request_completes`). -/
theorem requestCompletes : Obligations.RequestCompletes := by
  unfold Obligations.RequestCompletes
  intro p hp s m hb hbcl h1 hm
  obtain ⟨q, rfl⟩ := mem_requests hp
  obtain ⟨w, hist, hexec, hended⟩ := exec_request (n := idleActions s + 3 + m) hb
    (request_completes q (s.accepted q.lines.instr) _ _ q.not_counted hbcl h1 hm) (by omega)
  exact ⟨_, hexec, hended, rfl, rfl, Stat.bcl_eta hbcl, ⟨rfl, rfl, fun _ => rfl⟩, rfl, rfl, rfl, rfl⟩

/-- Settles O35: the poll takes its N_CTL reads and goes to the failure exit (`request_timesOut`). -/
theorem requestTimesOut : Obligations.RequestTimesOut := by
  unfold Obligations.RequestTimesOut
  intro p hp s hb hi hbcl hn
  obtain ⟨q, rfl⟩ := mem_requests hp
  obtain ⟨w, hist, hexec, hended⟩ := exec_request (n := idleActions s + 3 + s.params.nCtl) hb
    (request_timesOut q (s.accepted q.lines.instr) _ _ q.not_counted hbcl hn) (by omega)
  rw [withInputs_self hi] at hexec
  exact ⟨_, hexec, hended, rfl, rfl, Stat.bcl_eta hbcl, ⟨rfl, rfl, fun _ => rfl⟩, rfl, rfl, rfl, rfl⟩

/-- Settles O36: the first check goes to the enable cycle and the failure exit (`request_collides_first`). -/
theorem requestCollidesFirst : Obligations.RequestCollidesFirst := by
  unfold Obligations.RequestCollidesFirst
  intro p hp s hb hi hbcl
  obtain ⟨q, rfl⟩ := mem_requests hp
  obtain ⟨w, hist, hexec, hended⟩ := exec_request (n := idleActions s + 5) hb
    (request_collides_first q (s.accepted q.lines.instr) _ _ q.not_counted hbcl) (by omega)
  rw [withInputs_self hi] at hexec
  exact ⟨_, hexec, hended, rfl, rfl, rfl, ⟨rfl, rfl, fun _ => rfl⟩, rfl, rfl, rfl, rfl⟩

/-- Settles O37: the poll completes, and the second check goes the way of the first (`request_collides_second`). -/
theorem requestCollidesSecond : Obligations.RequestCollidesSecond := by
  unfold Obligations.RequestCollidesSecond
  intro p hp s m hb hbcl h1 hm
  obtain ⟨q, rfl⟩ := mem_requests hp
  obtain ⟨w, hist, hexec, hended⟩ := exec_request (n := idleActions s + 6 + m) hb
    (request_collides_second q (s.accepted q.lines.instr) _ _ q.not_counted hbcl h1 hm) (by omega)
  exact ⟨_, hexec, hended, rfl, rfl, rfl, ⟨rfl, rfl, fun _ => rfl⟩, rfl, rfl, rfl, rfl⟩

/-! ## WRBYTE (R235) -/

/-- The byte stands in TRN. -/
def State.offered (v : Byte) (c : State) : State := { c with trn := v }

section
variable (c : State) (w : Work) (hist : List Action)

theorem comesTo_w2 : ComesTo (c.standing .w1 w hist) (idleActions c) c .w2 (·.v = w.v) := by
  obtain ⟨w', hist', ⟨hv, -⟩, hruns⟩ := comesTo_idleCheck c w hist (call := .w1) rfl fun _ _ => rfl
  exact ⟨w', hist', hv, hruns⟩

/-- W2: a byte still queued is TransmitBufferFull (R236). -/
theorem act_w2 : act (c.standing .w2 w hist) = .next
    (if c.stat.tbf then c.standing .pf { w with s := c.stat, e := .transmitBufferFull } (.readStat c.stat :: hist)
      else c.standing .w3 { w with s := c.stat } (.readStat c.stat :: hist)) := rfl

theorem comesTo_pf_of_full (htbf : c.stat.tbf = true) :
    ComesTo (c.standing .w1 w hist) (idleActions c + 1) c .pf (·.e = .transmitBufferFull) := by
  refine (comesTo_w2 c w hist).trans (n := 1) fun w hist _ => ?_
  have hact := act_w2 c w hist
  rw [if_pos htbf] at hact
  exact .of_act (.readStat c.stat) hact rfl

/-- The byte is offered, and the poll begins. -/
theorem comesTo_w4 (htbf : c.stat.tbf = false) :
    ComesTo (c.standing .w1 w hist) (idleActions c + 2) (c.offered w.v) .w4 (·.k = 0) := by
  refine (comesTo_w2 c w hist).trans (n := 2) fun w₁ hist hv => ?_
  have hact := act_w2 c w₁ hist
  rw [if_neg (by simp [htbf])] at hact
  have hw2 : ComesTo (c.standing .w2 w₁ hist) 1 c .w3 (·.v = w.v) := .of_act (.readStat c.stat) hact hv
  refine hw2.trans (n := 1) fun w₂ hist hv => ?_
  rw [← hv]
  exact .of_act (w' := { w₂ with k := 0 }) (.writeTrn w₂.v) rfl rfl

theorem pollsAt_w4 : PollsAt c .w4 .w5 .clockStuck (!c.stat.trstat) c.params.nXfer :=
  fun w _ => ⟨{ w with s := c.stat, k := w.k + 1 }, .readStat c.stat, rfl, rfl, rfl⟩

/-- A transmission that has ended is seen at the first poll. -/
theorem comesTo_w5 (htbf : c.stat.tbf = false) (htrstat : c.stat.trstat = false) :
    ComesTo (c.standing .w1 w hist) (idleActions c + 3) (c.offered w.v) .w5 fun _ => True :=
  (comesTo_w4 c w hist htbf).trans fun w' hist _ =>
    (pollsAt_w4 (c.offered w.v)).completes w' hist (congrArg (!·) htrstat)

/-- W5: a collision wins over the acknowledge bit (R238). -/
theorem act_w5 : act (c.standing .w5 w hist) =
    if c.stat.writeCollided then .next (c.standing .wc { w with s := c.stat } (.readStat c.stat :: hist))
    else if c.stat.ackstat then .next (c.standing .pf { w with s := c.stat, e := .nak } (.readStat c.stat :: hist))
    else .next (c.standing .fin { w with s := c.stat, fin := .ack } (.readStat c.stat :: hist)) := rfl

theorem comesTo_wc (h : c.stat.writeCollided = true) : ComesTo (c.standing .w5 w hist) 1 c .wc fun _ => True := by
  have hact := act_w5 c w hist
  rw [if_pos h] at hact
  exact .of_act (.readStat c.stat) hact trivial

theorem comesTo_pf_of_nak (h : c.stat.writeCollided = false) (hack : c.stat.ackstat = true) :
    ComesTo (c.standing .w5 w hist) 1 c .pf (·.e = .nak) := by
  have hact := act_w5 c w hist
  rw [if_neg (by simp [h]), if_pos hack] at hact
  exact .of_act (.readStat c.stat) hact rfl

theorem comesTo_fin_of_ack (h : c.stat.writeCollided = false) (hack : c.stat.ackstat = false) :
    ComesTo (c.standing .w5 w hist) 1 c .fin (·.fin = .ack) := by
  have hact := act_w5 c w hist
  rw [if_neg (by simp [h]), if_neg (by simp [hack])] at hact
  exact .of_act (.readStat c.stat) hact rfl

/-! ### The five ways it ends, while the Environment takes no step -/

variable (hop : c.Uncounted)
include hop

theorem wrbyte_full (htbf : c.stat.tbf = true) : EndsOver (c.standing .w1 w hist) [] (idleActions c + 2)
    { c with dirty := true } .transmitBufferFull :=
  (comesTo_pf_of_full c w hist htbf).fails.ends hop

section
variable (htbf : c.stat.tbf = false)
include htbf

theorem wrbyte_timesOut (htrstat : c.stat.trstat = true) (hn : 0 < c.params.nXfer) :
    EndsOver (c.standing .w1 w hist) [] (idleActions c + 3 + c.params.nXfer)
      { c.offered w.v with dirty := true } .clockStuck := by
  have hpoll := (comesTo_w4 c w hist htbf).trans (n := c.params.nXfer) (N := idleActions c + 2 + c.params.nXfer) fun w' hist hk =>
    (pollsAt_w4 (c.offered w.v)).timesOut w' hist (congrArg (!·) htrstat) hk hn
  exact hpoll.fails.ends hop

variable (htrstat : c.stat.trstat = false)
include htrstat

theorem wrbyte_collides (h : c.stat.writeCollided = true) : EndsOver (c.standing .w1 w hist) [] (idleActions c + 7)
    { (c.offered w.v).reenabled with dirty := true } .busCollision := by
  have hcheck := (comesTo_w5 c w hist htbf htrstat).trans (n := 1) (N := idleActions c + 4) fun w' hist _ => comesTo_wc (c.offered w.v) w' hist h
  exact (hcheck.trans (n := 3) fun w' hist _ => comesTo_fin_of_collision (by decide) (c.offered w.v) w' hist).ends hop

theorem wrbyte_nak (h : c.stat.writeCollided = false) (hack : c.stat.ackstat = true) :
    EndsOver (c.standing .w1 w hist) [] (idleActions c + 5) { c.offered w.v with dirty := true } .nak := by
  have hcheck := (comesTo_w5 c w hist htbf htrstat).trans (n := 1) (N := idleActions c + 4) fun w' hist _ =>
    comesTo_pf_of_nak (c.offered w.v) w' hist h hack
  exact hcheck.fails.ends hop

theorem wrbyte_ack (h : c.stat.writeCollided = false) (hack : c.stat.ackstat = false) :
    EndsOver (c.standing .w1 w hist) [] (idleActions c + 4) (c.offered w.v) .ack := by
  have hcheck := (comesTo_w5 c w hist htbf htrstat).trans (n := 1) (N := idleActions c + 4) fun w' hist _ =>
    comesTo_fin_of_ack (c.offered w.v) w' hist h hack
  exact hcheck.ends hop

end

end

/-! ### As a command -/

theorem Stat.writeCollided_iff (st : Stat) : st.writeCollided = true ↔ st.bcl = true ∨ st.iwcol = true := by
  simp [Stat.writeCollided]

/-- Settles O38: one case for each of the five ways WRBYTE ends. -/
theorem writeByteResult : Obligations.WriteByteResult := by
  unfold Obligations.WriteByteResult
  intro s v hb hi hn
  have hop : ¬(submissionOf (.wrbyte v)).counted := by simp [Submission.counted, submissionOf]
  rcases Bool.eq_false_or_eq_true s.stat.tbf with htbf | htbf
  · obtain ⟨w, hist, hexec, hended⟩ := exec_alone_of_endsOver (n := idleActions s + 2) hb hi hop
      (wrbyte_full (s.accepted (.wrbyte v)) _ _ hop htbf) (by omega)
    exact ⟨_, hexec, ⟨rfl, rfl, fun _ => rfl⟩, rfl, rfl, rfl, fun _ => ⟨hended, rfl, rfl, rfl, rfl⟩, by simp [htbf]⟩
  rcases Bool.eq_false_or_eq_true s.stat.trstat with htr | htr
  · obtain ⟨w, hist, hexec, hended⟩ := exec_alone_of_endsOver (n := idleActions s + 3 + s.params.nXfer) hb hi hop
      (wrbyte_timesOut (s.accepted (.wrbyte v)) _ _ hop htbf htr hn) (by omega)
    exact ⟨_, hexec, ⟨rfl, rfl, fun _ => rfl⟩, rfl, rfl, rfl, by simp [htbf],
      fun _ => ⟨rfl, fun _ => ⟨hended, rfl, rfl, rfl⟩, by simp [htr]⟩⟩
  rcases Bool.eq_false_or_eq_true s.stat.writeCollided with hcol | hcol
  · obtain ⟨w, hist, hexec, hended⟩ := exec_alone_of_endsOver (n := idleActions s + 7) hb hi hop
      (wrbyte_collides (s.accepted (.wrbyte v)) _ _ hop htbf htr hcol) (by omega)
    exact ⟨_, hexec, ⟨rfl, rfl, fun _ => rfl⟩, rfl, rfl, rfl, by simp [htbf],
      fun _ => ⟨rfl, by simp [htr], fun _ => ⟨fun _ => ⟨hended, rfl, rfl, rfl⟩,
        fun h => absurd hcol (by simp [Stat.writeCollided, h])⟩⟩⟩
  have hcalm : ¬(s.stat.bcl = true ∨ s.stat.iwcol = true) := by rw [← Stat.writeCollided_iff, hcol]; decide
  rcases Bool.eq_false_or_eq_true s.stat.ackstat with hack | hack
  · obtain ⟨w, hist, hexec, hended⟩ := exec_alone_of_endsOver (n := idleActions s + 5) hb hi hop
      (wrbyte_nak (s.accepted (.wrbyte v)) _ _ hop htbf htr hcol hack) (by omega)
    exact ⟨_, hexec, ⟨rfl, rfl, fun _ => rfl⟩, rfl, rfl, rfl, by simp [htbf],
      fun _ => ⟨rfl, by simp [htr], fun _ => ⟨fun h => absurd h hcalm,
        fun _ => ⟨rfl, rfl, fun _ => ⟨hended, rfl⟩, by simp [hack]⟩⟩⟩⟩
  · obtain ⟨w, hist, hexec, hended⟩ := exec_alone_of_endsOver (n := idleActions s + 4) hb hi hop
      (wrbyte_ack (s.accepted (.wrbyte v)) _ _ hop htbf htr hcol hack) (by omega)
    exact ⟨_, hexec, ⟨rfl, rfl, fun _ => rfl⟩, rfl, rfl, rfl, by simp [htbf],
      fun _ => ⟨rfl, by simp [htr], fun _ => ⟨fun h => absurd h hcalm,
        fun _ => ⟨rfl, rfl, by simp [hack], fun _ => ⟨hended, rfl⟩⟩⟩⟩⟩

/-! ## RDBYTE (R240) -/

/-- The receive is requested, the acknowledge bit is ready in ACKDT, and ACKEN is as given. -/
def State.receiving (ack acken : Bool) (c : State) : State :=
  { c with con := { c.con with rcen := true, acken := acken, ackdt := !ack } }

/-- A byte has arrived. -/
def State.holding (b : Byte) (c : State) : State := { c with stat := { c.stat with rbf := true }, rcv := b }

section
variable (c : State) (w : Work) (hist : List Action)

/-- IDLE_CHECK, ACKDT and RCEN: the poll begins. -/
theorem comesTo_b4 : ComesTo (c.standing .b1 w hist) (idleActions c + 2) (c.receiving w.ack c.con.acken) .b4 (·.k = 0) := by
  refine (comesTo_idleCheck c w hist (call := .b1) rfl fun _ _ => rfl).trans (n := 2) fun w₁ hist ⟨_, hack⟩ => ?_
  rw [← hack]
  exact ⟨{ w₁ with k := 0 }, [.writeCon .rcen true, .writeCon .ackdt (!w₁.ack)] ++ hist, rfl,
    .of_run [.writeCon .rcen true, .writeCon .ackdt (!w₁.ack)] rfl rfl⟩

theorem pollsAt_b4 : PollsAt c .b4 .b5 .receiveTimeout c.stat.rbf c.params.nXfer :=
  fun w _ => ⟨{ w with s := c.stat, k := w.k + 1 }, .readStat c.stat, rfl, rfl, rfl⟩

/-- B5: the acknowledge is requested, and the second poll begins. -/
theorem comesTo_b6 (ack acken : Bool) : ComesTo ((c.receiving ack acken).standing .b5 w hist) 1 (c.receiving ack true) .b6
    (·.k = 0) :=
  .of_act (w' := { w with k := 0 }) (.writeCon .acken true) rfl rfl

/-- The poll that finds a byte, and B5. -/
theorem comesTo_b6_of_full (ack acken : Bool) (hrbf : c.stat.rbf = true) :
    ComesTo ((c.receiving ack acken).standing .b4 w hist) 2 (c.receiving ack true) .b6 (·.k = 0) :=
  ((pollsAt_b4 (c.receiving ack acken)).completes w hist hrbf).trans fun w hist _ => comesTo_b6 c w hist ack acken

theorem pollsAt_b6 : PollsAt c .b6 .b7 .clockStuck (c.con.cleared .acken) c.params.nCtl :=
  fun w _ => ⟨{ w with c := c.con, k := w.k + 1 }, .readCon c.con, rfl, rfl, rfl⟩

/-- B7: an overflow leaves RCV unread (R243). -/
theorem act_b7 : act (c.standing .b7 w hist) = .next
    (if c.stat.i2cov then c.standing .pf { w with s := c.stat, e := .receiveOverflow } (.readStat c.stat :: hist)
      else c.standing .b8 { w with s := c.stat } (.readStat c.stat :: hist)) := rfl

theorem comesTo_pf_of_overflow (hov : c.stat.i2cov = true) :
    ComesTo (c.standing .b7 w hist) 1 c .pf (·.e = .receiveOverflow) := by
  have hact := act_b7 c w hist
  rw [if_pos hov] at hact
  exact .of_act (.readStat c.stat) hact rfl

/-- B7 and B8: the byte is read, which clears RBF. -/
theorem comesTo_fin_of_byte (hov : c.stat.i2cov = false) : ComesTo (c.standing .b7 w hist) 2
    { c with stat := { c.stat with rbf := false } } .fin (·.fin = .byte c.rcv) := by
  have hact := act_b7 c w hist
  rw [if_neg (by simp [hov])] at hact
  have hb7 : ComesTo (c.standing .b7 w hist) 1 c .b8 fun _ => True := .of_act (.readStat c.stat) hact trivial
  exact hb7.trans (n := 1) fun w hist _ =>
    .of_act (w' := { w with b := c.rcv, fin := .byte c.rcv }) (.readRcv c.rcv) rfl rfl

/-! ### The ways it ends -/

/-- The Environment brings a byte. -/
theorem envStep_byte (ack acken : Bool) (b : Byte) :
    envStep { rbf := some true, rcv := some b } (c.receiving ack acken) = (c.holding b).receiving ack acken := by
  simp [envStep, State.receiving, State.holding, Con.afterEnv, Stat.afterEnv]

/-- The Environment ends the acknowledge. -/
theorem envStep_clears_acken (ack : Bool) : envStep (clears .acken) (c.receiving ack true) = c.receiving ack false := by
  simp [envStep, clears, State.receiving, Con.afterEnv, Stat.afterEnv]

/-- A byte arrives just before poll k1, and the acknowledge ends just before poll k2 of the second poll. -/
theorem endsOver_of_b7 (hrbf : c.stat.rbf = false) {k1 k2 : Nat} (h1 : 1 ≤ k1) (hk1 : k1 ≤ c.params.nXfer) (h2 : 1 ≤ k2)
    (hk2 : k2 ≤ c.params.nCtl) {b : Byte} {c' : State} {r : Result} (hop : c'.Uncounted)
    (hrest : ∀ w' hist, ComesTo (((c.holding b).receiving w.ack false).standing .b7 w' hist) 2 c' .fin (·.fin = r)) :
    EndsOver (c.standing .b1 w hist)
      (List.replicate (idleActions c + 2 + (k1 - 1)) .engine ++ .env { rbf := some true, rcv := some b } ::
        (List.replicate (2 + (k2 - 1)) .engine ++ [.env (clears .acken)]))
      (idleActions c + 5 + k1 + k2) c' r := by
  have hwaits := (comesTo_b4 c w hist).trans (n := k1 - 1) (N := idleActions c + 2 + (k1 - 1)) fun w' hist hk =>
    (pollsAt_b4 (c.receiving w.ack c.con.acken)).waits w' hist hrbf hk (show k1 - 1 < c.params.nXfer by omega)
  refine hwaits.env (m := k2 + 4) fun w' hist _ => ?_
  rw [envStep_byte]
  have hwaits := (comesTo_b6_of_full (c.holding b) w' hist w.ack c.con.acken rfl).trans (n := k2 - 1) (N := 2 + (k2 - 1))
    fun w' hist hk => (pollsAt_b6 ((c.holding b).receiving w.ack true)).waits w' hist rfl hk (show k2 - 1 < c.params.nCtl by omega)
  refine hwaits.env (m := 3) fun w' hist _ => ?_
  rw [envStep_clears_acken]
  exact (((pollsAt_b6 ((c.holding b).receiving w.ack false)).completes w' hist rfl).trans (n := 2) fun w hist _ => hrest w hist).ends hop

variable (hop : c.Uncounted)
include hop

section
variable (hrbf : c.stat.rbf = false) {k1 k2 : Nat} (h1 : 1 ≤ k1) (hk1 : k1 ≤ c.params.nXfer) (h2 : 1 ≤ k2)
  (hk2 : k2 ≤ c.params.nCtl) (b : Byte)
include hrbf h1 hk1 h2 hk2

theorem rdbyte_receives (hov : c.stat.i2cov = false) : EndsOver (c.standing .b1 w hist)
    (List.replicate (idleActions c + 2 + (k1 - 1)) .engine ++ .env { rbf := some true, rcv := some b } ::
      (List.replicate (2 + (k2 - 1)) .engine ++ [.env (clears .acken)]))
    (idleActions c + 5 + k1 + k2) { c.receiving w.ack false with stat := { c.stat with rbf := false }, rcv := b } (.byte b) :=
  endsOver_of_b7 c w hist hrbf h1 hk1 h2 hk2 hop fun w' hist =>
    comesTo_fin_of_byte ((c.holding b).receiving w.ack false) w' hist hov

theorem rdbyte_overflows (hov : c.stat.i2cov = true) : EndsOver (c.standing .b1 w hist)
    (List.replicate (idleActions c + 2 + (k1 - 1)) .engine ++ .env { rbf := some true, rcv := some b } ::
      (List.replicate (2 + (k2 - 1)) .engine ++ [.env (clears .acken)]))
    (idleActions c + 5 + k1 + k2) { (c.holding b).receiving w.ack false with dirty := true } .receiveOverflow :=
  endsOver_of_b7 c w hist hrbf h1 hk1 h2 hk2 hop fun w' hist =>
    (comesTo_pf_of_overflow ((c.holding b).receiving w.ack false) w' hist hov).fails

end

/-- No byte arrives. -/
theorem rdbyte_receiveTimeout (hrbf : c.stat.rbf = false) (hn : 0 < c.params.nXfer) :
    EndsOver (c.standing .b1 w hist) [] (idleActions c + 3 + c.params.nXfer)
      { c.receiving w.ack c.con.acken with dirty := true } .receiveTimeout := by
  have hpoll := (comesTo_b4 c w hist).trans (n := c.params.nXfer) (N := idleActions c + 2 + c.params.nXfer) fun w' hist hk =>
    (pollsAt_b4 (c.receiving w.ack c.con.acken)).timesOut w' hist hrbf hk hn
  exact hpoll.fails.ends hop

/-- A byte is there, and its acknowledge never ends. -/
theorem rdbyte_clockStuck (hrbf : c.stat.rbf = true) (hn : 0 < c.params.nCtl) :
    EndsOver (c.standing .b1 w hist) [] (idleActions c + 5 + c.params.nCtl)
      { c.receiving w.ack true with dirty := true } .clockStuck := by
  have hfull := (comesTo_b4 c w hist).trans (n := 2) (N := idleActions c + 4) fun w' hist _ =>
    comesTo_b6_of_full c w' hist w.ack c.con.acken hrbf
  have hpoll := hfull.trans (n := c.params.nCtl) (N := idleActions c + 4 + c.params.nCtl) fun w' hist hk =>
    (pollsAt_b6 (c.receiving w.ack true)).timesOut w' hist rfl hk hn
  exact hpoll.fails.ends hop

end

theorem Stat.rbf_eta {st : Stat} {b : Bool} (h : st.rbf = b) : { st with rbf := b } = st := by rw [← h]

theorem rdbyte_not_counted (ack : Bool) : ¬(submissionOf (.rdbyte ack)).counted := by simp [Submission.counted, submissionOf]

/-- Settles O40: the first poll or the second takes all its reads (`rdbyte_receiveTimeout`, `rdbyte_clockStuck`). -/
theorem readByteTimesOut : Obligations.ReadByteTimesOut := by
  unfold Obligations.ReadByteTimesOut
  intro s ack hb hi hnx hnc
  have hop := rdbyte_not_counted ack
  rcases Bool.eq_false_or_eq_true s.stat.rbf with hrbf | hrbf
  · obtain ⟨w, hist, hexec, hended⟩ := exec_alone_of_endsOver (n := idleActions s + 5 + s.params.nCtl) hb hi hop
      (rdbyte_clockStuck (s.accepted (.rdbyte ack)) _ _ hop hrbf hnc) (by omega)
    exact ⟨_, hexec, rfl, rfl, rfl, ⟨rfl, rfl, fun _ => rfl⟩, rfl, rfl, rfl, by simp [hrbf], fun _ => ⟨hended, rfl⟩⟩
  · obtain ⟨w, hist, hexec, hended⟩ := exec_alone_of_endsOver (n := idleActions s + 3 + s.params.nXfer) hb hi hop
      (rdbyte_receiveTimeout (s.accepted (.rdbyte ack)) _ _ hop hrbf hnx) (by omega)
    exact ⟨_, hexec, rfl, rfl, rfl, ⟨rfl, rfl, fun _ => rfl⟩, rfl, rfl, rfl, fun _ => ⟨hended, rfl⟩, by simp [hrbf]⟩

/-- Settles O39: both polls complete (`endsOver_of_b7`), and the overflow check decides between the failure exit and the
byte. -/
theorem readByteReceives : Obligations.ReadByteReceives := by
  unfold Obligations.ReadByteReceives
  intro s ack k1 k2 b hb hrbf h1 hk1 h2 hk2
  have hop := rdbyte_not_counted ack
  rw [List.append_assoc, List.append_assoc]
  rcases Bool.eq_false_or_eq_true s.stat.i2cov with hov | hov
  · obtain ⟨w, hist, hexec, hended⟩ := exec_of_endsOver (n := idleActions s + 5 + k1 + k2) hb hop
      (rdbyte_overflows (s.accepted (.rdbyte ack)) _ _ hop hrbf h1 hk1 h2 hk2 b hov) (by omega)
    exact ⟨_, hexec, rfl, rfl, ⟨rfl, rfl, fun _ => rfl⟩, rfl, rfl, rfl, by simp [hov], fun _ => ⟨hended, rfl, rfl⟩⟩
  · obtain ⟨w, hist, hexec, hended⟩ := exec_of_endsOver (n := idleActions s + 5 + k1 + k2) hb hop
      (rdbyte_receives (s.accepted (.rdbyte ack)) _ _ hop hrbf h1 hk1 h2 hk2 b hov) (by omega)
    exact ⟨_, hexec, rfl, rfl, ⟨rfl, rfl, fun _ => rfl⟩, rfl, rfl, rfl,
      fun _ => ⟨hended, rfl, Stat.rbf_eta hrbf⟩, by simp [hov]⟩

end Sys2Proof.Machine

/-! SUPPORT. The five primitives as commands under every Environment and Host (spec/43_primitives.md, spec/45_host_interface.md R304): what their actions are made of, and what they leave alone. -/

namespace Sys2Proof.Machine

/-! ## Where a primitive can stand -/

/-- The labels the primitives share: IDLE_CHECK, CYCLE_ENABLE, the failure exit and `Complete`. -/
def Label.shared : List Label := [.q1, .q2, .q3, .e1, .e2, .pf, .fin]

/-- The OP of the one primitive a line belongs to. -/
def Label.primitiveOp (l : Label) : Option (BitVec 4) :=
  match l with
  | .w1 | .w2 | .w3 | .w4 | .w5 | .wc => some 0x6#4
  | .b1 | .b2 | .b3 | .b4 | .b5 | .b6 | .b7 | .b8 => some 0x7#4
  | .s1 | .s2 | .s3 | .s4 | .s5 | .sc => some 0x8#4
  | .g1 | .g2 | .g3 | .g4 | .g5 | .gc => some 0x9#4
  | .t1 | .t2 | .t3 | .t4 | .t5 | .tc => some 0xA#4
  | _ => none

/-- The label is one of the primitive with this OP, or one it shares. -/
def Label.standsIn (l : Label) (op : BitVec 4) : Prop := l ∈ Label.shared ∨ l.primitiveOp = some op

/-- The OPs of the primitives. -/
def primitiveOps : List (BitVec 4) := [0x6#4, 0x7#4, 0x8#4, 0x9#4, 0xA#4]

theorem body_standsIn {op : BitVec 4} (hop : op ∈ primitiveOps) {first : Label} (hfirst : entryOf op = some first) :
    ∀ l ∈ first.body, l.standsIn op := by
  have hbodies : ∀ op ∈ primitiveOps, ∀ l ∈ ((entryOf op).getD .fin).body, l ∈ Label.shared ∨ l.primitiveOp = some op := by
    decide
  have hbody := hbodies op hop
  rwa [hfirst] at hbody

/-- What a primitive calls has shared labels alone. -/
theorem callee_shared {c first : Label} {op : BitVec 4} (hc : c.standsIn op) (hfirst : c.callee = some first) :
    ∀ l ∈ first.body, l ∈ Label.shared := by
  have hbodies : ∀ first ∈ [Label.q1, .e1], ∀ l ∈ first.body, l ∈ Label.shared := by decide
  refine hbodies first ?_
  cases c <;> simp [Label.callee, Label.standsIn, Label.shared, Label.primitiveOp] at hfirst hc <;> simp [← hfirst]

theorem stackOk_primitive {op : BitVec 4} (hop : op ∈ primitiveOps) {l : Label} {rest : List Label}
    (h : stackOk op (l :: rest) = true) : l.standsIn op := by
  induction rest generalizing l with
  | nil =>
    have h : bottomOk op l = true := h
    unfold bottomOk at h
    split at h
    · next first hfirst =>
      obtain hl | hl : l ∈ first.body ∨ l = .fin := by simpa using h
      · exact body_standsIn hop hfirst l hl
      · exact .inl (by rw [hl]; decide)
    · cases h
  | cons c rest ih =>
    obtain ⟨first, hfirst, hl⟩ := stackOk_callee h
    exact .inl (callee_shared (ih (stackOk_tail h)) hfirst l hl)

/-! ## The actions of the primitives -/

/-- The OP of the one primitive that writes a field of CON; CON.ON is any primitive's, and the others are none's. -/
def ConField.writer (f : ConField) : Option (BitVec 4) :=
  match f with
  | .rcen | .acken | .ackdt => some 0x7#4
  | .sen => some 0x8#4
  | .rsen => some 0x9#4
  | .pen => some 0xA#4
  | .slew | .ie | .on => none

/-- The operations the primitive with this OP is made of; l is the label it stands at. -/
inductive PrimitiveOp (op : BitVec 4) (l : Label) (s : State) : State → Prop where
  | readCon : PrimitiveOp op l s (ctlReadCon s)
  | readStat : PrimitiveOp op l s (ctlReadStat s)
  | readRcv (hop : op = 0x7#4) : PrimitiveOp op l s (ctlReadRcv s)
  | writeCon {f : ConField} {v : Bool} (hf : f.writer = some op) : PrimitiveOp op l s (ctlWriteCon f v s)
  | disable (hl : l = .e1) : PrimitiveOp op l s (ctlWriteCon .on false s)
  | enable (hl : l = .e2) : PrimitiveOp op l s (ctlWriteCon .on true s)
  | writeTrn {v : Byte} (hop : op = 0x6#4) : PrimitiveOp op l s (ctlWriteTrn v s)
  | diag {p : Prim} : PrimitiveOp op l s (diag p s)
  | mark {v : Bool} : PrimitiveOp op l s (dirtyWrite v s)
  | complete {code : BitVec 5} {data : Byte} {nxfer : BitVec 16} : PrimitiveOp op l s (complete code data nxfer s)

/-- One operation of the primitive, and the sequencing folded into it. -/
def PrimitiveAct (op : BitVec 4) (l : Label) (s t : State) : Prop := ∃ u, PrimitiveOp op l s u ∧ Sequencing u t

section
variable {op : BitVec 4} {l : Label} {s : State}

theorem PrimitiveOp.seq {u t : State} (h : PrimitiveOp op l s u) (hs : Sequencing u t) : PrimitiveAct op l s t :=
  ⟨u, h, hs⟩

theorem PrimitiveOp.then {u : State} (h : PrimitiveOp op l s u) (f : List Label) (w : Work) :
    PrimitiveAct op l s { u with fsm := f, work := w } := h.seq (sequencing_of u f w)

theorem PrimitiveOp.finish {u t : State} {r : Result} (h : PrimitiveOp op l s u) (ht : u.finish r = .next t) :
    PrimitiveAct op l s t := h.seq (finish_sequencing ht)

theorem PrimitiveOp.poll {read onDone onTimeout : State → State} {done : State → Bool} {n : Nat}
    (h : PrimitiveOp op l s (read s)) (hd : ∀ u, Sequencing u (onDone u)) (ht : ∀ u, Sequencing u (onTimeout u)) :
    PrimitiveAct op l s (pollUntil read done n onDone onTimeout s) := by
  have hc : Sequencing (read s) (read s).countPoll := sequencing_of _ _ _
  unfold pollUntil
  dsimp only
  split
  · exact h.seq (hc.trans (hd _))
  · split
    · exact h.seq (hc.trans (ht _))
    · exact h.seq hc

theorem actAt_primitive {t : State} (hl : l.standsIn op) (ht : actAt l s = .next t) : PrimitiveAct op l s t := by
  cases l
  case q1 => cases ht; exact PrimitiveOp.readCon.then _ _
  case q2 =>
    have ht : actQ2 s = .next t := ht
    unfold actQ2 at ht
    split at ht
    · cases ht; exact PrimitiveOp.readStat.then _ _
    · exact PrimitiveOp.readStat.finish ht
  case q3 =>
    have ht : actQ3 s = .next t := ht
    unfold actQ3 at ht
    split at ht
    · split at ht
      · exact PrimitiveOp.diag.finish ht
      · cases ht
    · cases ht
  case e1 => cases ht; exact (PrimitiveOp.disable rfl).then _ _
  case e2 => exact (PrimitiveOp.enable rfl).finish ht
  case pf => exact PrimitiveOp.mark.finish ht
  case fin => cases ht; exact PrimitiveOp.complete.then _ _
  case s2 => cases ht; exact (PrimitiveOp.writeCon (f := .sen) (hl.resolve_left (by decide))).then _ _
  case g2 => cases ht; exact (PrimitiveOp.writeCon (f := .rsen) (hl.resolve_left (by decide))).then _ _
  case t2 => cases ht; exact (PrimitiveOp.writeCon (f := .pen) (hl.resolve_left (by decide))).then _ _
  case b2 => cases ht; exact (PrimitiveOp.writeCon (f := .ackdt) (hl.resolve_left (by decide))).then _ _
  case b3 => cases ht; exact (PrimitiveOp.writeCon (f := .rcen) (hl.resolve_left (by decide))).then _ _
  case b5 => cases ht; exact (PrimitiveOp.writeCon (f := .acken) (hl.resolve_left (by decide))).then _ _
  case s3 | g3 | t3 => cases ht; unfold firstCheck; split <;> exact PrimitiveOp.readStat.then _ _
  case s4 | g4 | t4 | b6 => cases ht; exact PrimitiveOp.readCon.poll (goto_sequencing _) (toPf_sequencing _)
  case w4 | b4 => cases ht; exact PrimitiveOp.readStat.poll (goto_sequencing _) (toPf_sequencing _)
  case s5 | g5 | t5 =>
    have ht : secondCheck _ s = .next t := ht
    unfold secondCheck at ht
    split at ht
    · cases ht; exact PrimitiveOp.readStat.then _ _
    · exact PrimitiveOp.readStat.finish ht
  case w2 | b7 => cases ht; split <;> exact PrimitiveOp.readStat.then _ _
  case w3 => cases ht; exact (PrimitiveOp.writeTrn (Option.some.inj (hl.resolve_left (by decide))).symm).then _ _
  case w5 =>
    have ht : actW5 s = .next t := ht
    unfold actW5 at ht
    (repeat' split at ht)
    · cases ht; exact PrimitiveOp.readStat.then _ _
    · cases ht; exact PrimitiveOp.readStat.then _ _
    · exact PrimitiveOp.readStat.finish ht
  case b8 => exact (PrimitiveOp.readRcv (Option.some.inj (hl.resolve_left (by decide))).symm).finish ht
  case s1 | g1 | t1 | w1 | b1 | sc | gc | tc | wc => cases ht
  all_goals simp [Label.standsIn, Label.shared, Label.primitiveOp] at hl

end

/-! ## What they leave alone -/

/-- What the primitive with this OP leaves alone under every Environment and Host. -/
def State.primitiveKeeps (op : BitVec 4) (s : State) :
    Word × BitVec 16 × Memory × BitVec 16 × Bool × Bool × Bool × Bool × Nat × Bool × Byte :=
  (s.cmd, s.count, s.buf, s.brg, s.con.slew, s.con.ie, s.line.sclOut, s.line.sdaOut, s.draws,
    if op = 0x7#4 then false else s.con.ackdt, if op = 0x6#4 then 0 else s.trn)

/-- The request bits it leaves alone. -/
def Con.requestsKept (op : BitVec 4) (c : Con) : Bool × Bool × Bool × Bool × Bool :=
  (if op = 0x8#4 then false else c.sen, if op = 0x9#4 then false else c.rsen, if op = 0xA#4 then false else c.pen,
    if op = 0x7#4 then false else c.rcen, if op = 0x7#4 then false else c.acken)

/-- The status bits it leaves alone. -/
def Stat.kept (op : BitVec 4) (st : Stat) : Bool × Bool × Bool × Bool × Bool :=
  (if op = 0x7#4 then false else st.rbf, st.tbf, st.i2cov, st.trstat, st.ackstat)

/-- What it leaves alone besides, if the Environment takes no step. -/
def State.quietKeeps (op : BitVec 4) (s : State) :
    (Bool × Bool × Bool × Bool × Bool) × (Bool × Bool × Bool × Bool × Bool) × Byte × Lines :=
  (s.con.requestsKept op, s.stat.kept op, s.rcv, s.line)

theorem Stat.afterEnable_kept (op : BitVec 4) (rises : Bool) (st : Stat) : (st.afterEnable rises).kept op = st.kept op := by
  cases rises <;> rfl

section
variable {op : BitVec 4} {l : Label} {s u t : State}

theorem PrimitiveOp.keeps (h : PrimitiveOp op l s u) :
    u.primitiveKeeps op = s.primitiveKeeps op ∧ u.quietKeeps op = s.quietKeeps op := by
  cases h
  case readRcv hop => subst hop; exact ⟨rfl, rfl⟩
  case writeTrn hop => subst hop; exact ⟨rfl, rfl⟩
  case writeCon f v hf =>
    cases f <;> simp only [ConField.writer, Option.some.injEq, reduceCtorEq] at hf <;> subst hf <;> exact ⟨rfl, rfl⟩
  case disable | enable =>
    exact ⟨rfl, by rw [State.quietKeeps, ctlWriteCon_stat, Stat.afterEnable_kept]; rfl⟩
  all_goals exact ⟨rfl, rfl⟩

/-- Outside CYCLE_ENABLE no operation of a primitive writes CON.ON. -/
theorem PrimitiveOp.on (h : PrimitiveOp op l s u) (h1 : l ≠ .e1) (h2 : l ≠ .e2) : u.con.on = s.con.on := by
  cases h
  case disable hl => exact absurd hl h1
  case enable hl => exact absurd hl h2
  case writeCon f v hf => cases f <;> simp [ConField.writer] at hf <;> rfl
  all_goals rfl

theorem Sequencing.primitiveKeeps (h : Sequencing u t) :
    t.primitiveKeeps op = u.primitiveKeeps op ∧ t.quietKeeps op = u.quietKeeps op := by
  constructor
  · rw [State.primitiveKeeps, h.host.cmd, h.host.count, h.buf, h.brg, h.con, h.line, h.draws, h.trn]; rfl
  · rw [State.quietKeeps, h.con, h.stat, h.rcv, h.line]; rfl

end

/-- CON.ON is 1 or as it was, but between E1 and E2. -/
theorem actAt_on {op : BitVec 4} {l : Label} {rest : List Label} {s t : State} {on : Bool} (hf : s.fsm = l :: rest)
    (hon : s.fsm.head? ≠ some .e2 → s.con.on = true ∨ s.con.on = on) (hact : PrimitiveAct op l s t)
    (ht : actAt l s = .next t) : t.fsm.head? ≠ some .e2 → t.con.on = true ∨ t.con.on = on := by
  intro hne
  by_cases h1 : l = .e1
  · subst h1; cases ht; exact absurd rfl hne
  by_cases h2 : l = .e2
  · subst h2
    have hseq : Sequencing (ctlWriteCon .on true s) t := finish_sequencing (r := .ok) ht
    exact .inl (by rw [hseq.con]; rfl)
  · obtain ⟨u, hu, hseq⟩ := hact
    rw [hseq.con, hu.on h1 h2]
    exact hon (by simpa [hf] using h2)

/-! ## The whole run -/

/-- The primitive with this OP, begun in s₀, runs in s or has ended there: CON.ON is 1 or as it was but between E1 and
E2. -/
structure RunsPrimitive (op : BitVec 4) (s₀ s : State) : Prop where
  inv : s.Inv
  latched : s.latch.op = op
  keeps : s.primitiveKeeps op = s₀.primitiveKeeps op
  on : s.fsm.head? ≠ some .e2 → s.con.on = true ∨ s.con.on = s₀.con.on
  quiet : envQuiet s₀.inputs → envQuiet s.inputs ∧ s.quietKeeps op = s₀.quietKeeps op

section
variable {op : BitVec 4} {s₀ s t : State} (h : RunsPrimitive op s₀ s)
include h

theorem RunsPrimitive.withInputs {rest : List Event} (hrest : rest <:+ s.inputs) :
    RunsPrimitive op s₀ (s.withInputs rest) where
  inv := withInputs_keeps rest h.inv
  latched := h.latched
  keeps := h.keeps
  on := h.on
  quiet hq := ⟨fun e he => (h.quiet hq).1 e (hrest.subset he), (h.quiet hq).2⟩

theorem RunsPrimitive.act (hop : op ∈ primitiveOps) (ht : act s = .next t) : RunsPrimitive op s₀ t := by
  obtain ⟨l, rest, hf⟩ : ∃ l rest, s.fsm = l :: rest :=
    List.exists_cons_of_ne_nil fun hnil => by rw [Machine.act, hnil] at ht; cases ht
  have hstack := (h.inv.at hf).stack
  rw [h.latched] at hstack
  have hat : actAt l s = .next t := by rwa [Machine.act, hf] at ht
  have hprim := actAt_primitive (stackOk_primitive hop hstack) hat
  have ⟨u, hu, hseq⟩ := hprim
  exact {
    inv := act_keeps h.inv ht
    latched := by rw [(act_acts ht).host.latch, h.latched]
    keeps := hseq.primitiveKeeps.1.trans (hu.keeps.1.trans h.keeps)
    on := actAt_on hf h.on hprim hat
    quiet := fun hq => by
      rw [act_inputs ht, hseq.primitiveKeeps.2, hu.keeps.2]
      exact h.quiet hq }

theorem RunsPrimitive.tick (hop : op ∈ primitiveOps) (hb : s.busy = true) (ht : tick s = .next t) :
    RunsPrimitive op s₀ t := by
  obtain ⟨rest, hrest, hact | ⟨e, he, rfl⟩ | ⟨err, log, rfl⟩⟩ := tick_running_cases hb ht
  · exact (h.withInputs hrest).act hop hact
  · exact {
      inv := tick_keeps h.inv ht
      latched := h.latched
      keeps := h.keeps
      on := h.on
      quiet := fun hq => absurd rfl ((h.quiet hq).1 _ he e) }
  · exact {
      inv := tick_keeps h.inv ht
      latched := h.latched
      keeps := h.keeps
      on := h.on
      quiet := (h.withInputs hrest).quiet }

end

theorem runsPrimitive_accepted {i : Instr} {s : State} (h : s.Inv) (hb : s.busy = false)
    (hc : ¬(submissionOf i).counted) : RunsPrimitive (submissionOf i).op s (s.accepted i) where
  inv := accept_keeps _ h hb (entryOf_submissionOf i) fun hu => absurd hu hc
  latched := rfl
  keeps := rfl
  on _ := .inr rfl
  quiet hq := ⟨hq, rfl⟩

/-- A primitive that has ended, over an ordinary schedule. -/
theorem exec_runsPrimitive {i : Instr} {s t : State} (h : s.Inv) (hb : s.busy = false) (ho : ordinary s.inputs)
    (hop : (submissionOf i).op ∈ primitiveOps) (ht : exec i s = .next t) :
    t.busy = false ∧ RunsPrimitive (submissionOf i).op s t := by
  have hc : ¬(submissionOf i).counted := by
    have hnot : ∀ op ∈ primitiveOps, ¬(op = 0x4#4 ∨ op = 0x5#4) := by decide
    exact hnot _ hop
  have hstart := runsPrimitive_accepted h hb hc
  have hfuel : (s.accepted i).WithinBound :=
    accept_withinBound _ (entryOf_submissionOf i) fun hu => absurd hu hc
  obtain ⟨t', ht', htb, -⟩ := run_completes hstart.inv ho hfuel.enough
  rw [exec_accepted hb fun hu => absurd hu hc] at ht
  obtain rfl : t' = t := Host.Outcome.next.inj (ht'.symm.trans ht)
  exact ⟨htb, run_induction (fun _ _ hs hsb _ hst => hs.tick hop hsb hst) _ _ _ hstart ht'⟩

/-- Settles O41: the run keeps `RunsPrimitive`, and where it has ended the Engine stands at no E2. -/
theorem primitiveFrame : Obligations.PrimitiveFrame := by
  unfold Obligations.PrimitiveFrame
  intro s t i h hb ho hop ht
  rw [← submissionOf_op] at hop ⊢
  obtain ⟨htb, hruns⟩ := exec_runsPrimitive h hb ho hop ht
  have hkeeps := hruns.keeps
  simp only [State.primitiveKeeps, Prod.mk.injEq] at hkeeps
  obtain ⟨hcmd, hcount, hbuf, hbrg, hslew, hie, hscl, hsda, hdraws, hackdt, htrn⟩ := hkeeps
  refine ⟨⟨hcmd, hcount, fun a => by rw [hbuf]⟩, hbrg, hslew, hie, hscl, hsda, hdraws,
    hruns.on (by rw [hruns.inv.fsm_idle htb]; nofun), fun hne => by simpa [hne] using hackdt,
    fun hne => by simpa [hne] using htrn, fun hq => ?_⟩
  have hquiet := (hruns.quiet hq).2
  simp only [State.quietKeeps, Con.requestsKept, Stat.kept, Prod.mk.injEq] at hquiet
  obtain ⟨⟨hsen, hrsen, hpen, hrcen, hacken⟩, ⟨hrbf, htbf, hov, htr, hack⟩, hrcv, hline⟩ := hquiet
  exact ⟨fun hne => by simpa [hne] using hsen, fun hne => by simpa [hne] using hrsen, fun hne => by simpa [hne] using hpen,
    fun hne => by simpa [hne] using And.intro hrcen (And.intro hacken hrbf), hrcv, hline, htbf, hov, htr, hack⟩

end Sys2Proof.Machine

/-! SUPPORT. The rounds of a cooperating controller: before each Engine action one step of the Environment (spec/95_test_vectors.md). Over rounds the run of a command is followed in parts, each of known length, with the entries of H that the statements on the transfers speak of. -/

namespace Sys2Proof.Machine

/-! ## Rounds -/

/-- One round for each step: the Environment takes it, and then the Engine its action. -/
def rounds (es : List EnvStep) : List Event := es.flatMap fun e => [.env e, .engine]

theorem rounds_append (es es' : List EnvStep) : rounds (es ++ es') = rounds es ++ rounds es' := List.flatMap_append

theorem cooperate_eq_rounds (e : EnvStep) (n : Nat) : cooperate e n = rounds (List.replicate n e) := by
  rw [cooperate, rounds, List.flatMap_def, List.map_replicate]

/-- The entries of H that matter here: the bytes offered to TRN, the answers put in ACKDT, and the Stops asked for. -/
def Action.isNoted (a : Action) : Bool :=
  match a with
  | .writeTrn _ | .writeCon .ackdt _ | .writeCon .pen true => true
  | _ => false

/-- Those entries, the newest first. -/
def notes (acts : List Action) : List Action := acts.filter Action.isNoted

theorem notes_append (acts acts' : List Action) : notes (acts ++ acts') = notes acts ++ notes acts' := List.filter_append ..

theorem notes_cons (a : Action) (acts : List Action) :
    notes (a :: acts) = if a.isNoted then a :: notes acts else notes acts := List.filter_cons

theorem trnWrites_notes (acts : List Action) : trnWrites (notes acts) = trnWrites acts := by
  induction acts with
  | nil => rfl
  | cons a acts ih =>
    rw [notes_cons]
    cases a
    case writeCon f v => split <;> exact ih
    all_goals simp [Action.isNoted, trnWrites, ih]

theorem ackdtWrites_notes (acts : List Action) : ackdtWrites (notes acts) = ackdtWrites acts := by
  induction acts with
  | nil => rfl
  | cons a acts ih =>
    rw [notes_cons]
    cases a
    case writeCon f v => cases f <;> cases v <;> simp [Action.isNoted, ackdtWrites, ih]
    all_goals simp [Action.isNoted, ackdtWrites, ih]

theorem stopsAsked_notes (acts : List Action) : stopsAsked (notes acts) = stopsAsked acts := by
  rw [stopsAsked, notes, List.countP_filter]
  refine List.countP_congr fun a _ => ?_
  simp only [Bool.and_eq_true, decide_eq_true_eq, and_iff_left_iff_imp]
  rintro rfl; rfl

/-- The rounds lead from s to t, whatever the schedule has behind them, and log has the noted ones of their actions. -/
structure Passes (es : List EnvStep) (s : State) (log : List Action) (t : State) : Prop where
  run : ∀ more, run (2 * es.length) (s.withInputs (rounds es ++ more)) = .next (t.withInputs more)
  hist : ∃ acts, t.hist = acts ++ s.hist ∧ acts.length = es.length ∧ notes acts = log

theorem Passes.refl (s : State) : Passes [] s [] s := ⟨fun _ => rfl, [], rfl, rfl, rfl⟩

theorem Passes.trans {es es' : List EnvStep} {s t u : State} {log log' : List Action} (h : Passes es s log t)
    (h' : Passes es' t log' u) : Passes (es ++ es') s (log' ++ log) u where
  run more := by
    rw [rounds_append, List.append_assoc, List.length_append, Nat.mul_add, run_add, h.run, andThen_next, h'.run]
  hist := by
    obtain ⟨acts, hist, hlen, rfl⟩ := h.hist
    obtain ⟨acts', hist', hlen', rfl⟩ := h'.hist
    exact ⟨acts' ++ acts, by rw [hist', hist, List.append_assoc], by simp [hlen, hlen', Nat.add_comm], notes_append ..⟩

/-- One round. -/
theorem Passes.round {e : EnvStep} {s t : State} (a : Action) (hb : s.busy = true) (hact : act (envStep e s) = .next t)
    (hist : t.hist = a :: s.hist) : Passes [e] s (notes [a]) t where
  run more := by
    have henv := run_env (s := s.withInputs (.env e :: .engine :: more)) 1 hb rfl
    have hengine := run_engine (s := envStep e (s.withInputs (.engine :: more))) (rest := more) 0 hb rfl
    exact henv.trans (hengine.trans (by
      have hact' : act ((envStep e s).withInputs more) = _ := act_withInputs hact more
      exact congrArg (andThen · (Machine.run 0)) hact'))
  hist := ⟨[a], hist, rfl, rfl⟩

/-! ## The Environment's step, taken again -/

theorem getD_getD {α : Type} (o : Option α) (x : α) : o.getD (o.getD x) = o.getD x := by cases o <;> rfl

/-- The same step again changes nothing more. -/
theorem envStep_envStep (e : EnvStep) (s : State) : envStep e (envStep e s) = envStep e s := by
  simp [envStep, Con.afterEnv, Stat.afterEnv, getD_getD]

/-- The first round may start from where the Environment's step leads. -/
theorem Passes.settle {e : EnvStep} {es : List EnvStep} {s t : State} {log : List Action} (hb : s.busy = true)
    (h : Passes (e :: es) (envStep e s) log t) : Passes (e :: es) s log t where
  run more := by
    have hrest : rounds (e :: es) ++ more = .env e :: .engine :: (rounds es ++ more) := rfl
    have hlen : 2 * (e :: es).length = 2 * es.length + 1 + 1 := rfl
    have henv := run_env (s := s.withInputs (rounds (e :: es) ++ more)) (2 * es.length + 1) hb hrest
    have henv' := run_env (s := (envStep e s).withInputs (rounds (e :: es) ++ more)) (2 * es.length + 1) hb hrest
    have hidem : envStep e (((envStep e s).withInputs (rounds (e :: es) ++ more)).withInputs (.engine :: (rounds es ++ more))) =
        envStep e ((s.withInputs (rounds (e :: es) ++ more)).withInputs (.engine :: (rounds es ++ more))) :=
      congrArg (State.withInputs _) (envStep_envStep e s)
    rw [← h.run more, hlen, henv, henv', hidem]
  hist := h.hist

/-- n rounds of one step. -/
abbrev Rounds (e : EnvStep) (n : Nat) : State → List Action → State → Prop := Passes (List.replicate n e)

theorem Rounds.trans {e : EnvStep} {m n N : Nat} {s t u : State} {log log' : List Action} (h : Rounds e m s log t)
    (h' : Rounds e n t log' u) (hN : N = m + n := by omega) : Rounds e N s (log' ++ log) u := by
  subst hN
  have := Passes.trans h h'
  rwa [List.replicate_append_replicate] at this

theorem Rounds.settle {e : EnvStep} {n : Nat} {s t : State} {log : List Action} (hb : s.busy = true) (hn : 0 < n)
    (h : Rounds e n (envStep e s) log t) : Rounds e n s log t := by
  obtain ⟨n, rfl⟩ := Nat.exists_eq_add_of_le' hn
  exact Passes.settle hb h

end Sys2Proof.Machine

/-! SUPPORT. The primitives called by a transfer (spec/43_primitives.md), over rounds of one and the same step of the Environment: from the call to the result the caller goes on with. -/

namespace Sys2Proof.Machine

/-! ## Places, and what a primitive leaves of the working registers -/

/-- The running command stands at `stack` with nothing scheduled; the registers are those of c. -/
def State.placed (c : State) (stack : List Label) (w : Work) (hist : List Action) : State :=
  { c with busy := true, fsm := stack, work := w, hist := hist, inputs := [] }

/-- The tracker is d. -/
def State.withDirty (d : Bool) (c : State) : State := { c with dirty := d }

/-- The working registers that no primitive writes; the others are cleared. -/
def Work.base (w : Work) : Work := { w with k := 0, c := {}, s := {}, b := 0, e := .none }

theorem Work.base_v {w w' : Work} (h : w'.base = w.base) : w'.v = w.v := by
  simpa [Work.base] using congrArg Work.v h

theorem Work.base_nx {w w' : Work} (h : w'.base = w.base) : w'.nx = w.nx := by
  simpa [Work.base] using congrArg Work.nx h

theorem Work.base_i {w w' : Work} (h : w'.base = w.base) : w'.i = w.i := by
  simpa [Work.base] using congrArg Work.i h

theorem Work.base_w {w w' : Work} (h : w'.base = w.base) : w'.w = w.w := by
  simpa [Work.base] using congrArg Work.w h

theorem Work.base_xe {w w' : Work} (h : w'.base = w.base) : w'.xe = w.xe := by
  simpa [Work.base] using congrArg Work.xe h

theorem Work.base_ack {w w' : Work} (h : w'.base = w.base) : w'.ack = w.ack := by
  simpa [Work.base] using congrArg Work.ack h

/-- In n rounds of e the Engine comes from s to `stack`, with the registers as in c and working registers that satisfy P. -/
def Comes (e : EnvStep) (n : Nat) (s : State) (log : List Action) (c : State) (stack : List Label) (P : Work → Prop) : Prop :=
  ∃ (w : Work) (hist : List Action), P w ∧ Rounds e n s log (c.placed stack w hist)

/-- In n rounds of e the Engine comes from s to where `caller` goes on with the result r, with the registers as in c and the
working registers of w, but for those of the primitive. -/
def ReturnsIn (e : EnvStep) (n : Nat) (s : State) (log : List Action) (c : State) (caller : Label) (r : Result) (w : Work) :
    Prop :=
  ∃ (w' : Work) (hist : List Action), w'.base = w.base ∧
    ∀ t, resume caller r (c.placed [caller] w' hist) = .next t → Rounds e n s log t

theorem Comes.trans {e : EnvStep} {m n N : Nat} {s c c' : State} {log log' : List Action} {st st' : List Label}
    {P P' : Work → Prop} (h : Comes e m s log c st P)
    (h' : ∀ w hist, P w → Comes e n (c.placed st w hist) log' c' st' P') (hN : N = m + n := by omega) :
    Comes e N s (log' ++ log) c' st' P' := by
  obtain ⟨w, hist, hP, hrounds⟩ := h
  obtain ⟨w', hist', hP', hrounds'⟩ := h' w hist hP
  exact ⟨w', hist', hP', hrounds.trans hrounds'⟩

section
variable {e : EnvStep} {c c₁ c' : State} (hset : envStep e c = c₁)
include hset

theorem Comes.settle {n : Nat} {st st' : List Label} {w : Work} {hist log : List Action} {P : Work → Prop}
    (h : Comes e n (c₁.placed st w hist) log c' st' P) (hn : 0 < n) : Comes e n (c.placed st w hist) log c' st' P := by
  subst hset
  obtain ⟨w', hist', hP, hrounds⟩ := h
  exact ⟨w', hist', hP, Rounds.settle rfl hn hrounds⟩

/-- One round, from registers that the Environment's step takes to c₁. -/
theorem Rounds.of_act {st : List Label} {w : Work} {hist : List Action} {t : State} (a : Action)
    (hact : act (c₁.placed st w hist) = .next t) (hh : t.hist = a :: hist) :
    Rounds e 1 (c.placed st w hist) (notes [a]) t := by
  subst hset
  exact Passes.round a rfl hact hh

theorem Comes.of_act {st st' : List Label} {w w' : Work} {hist : List Action} {P : Work → Prop} (a : Action)
    (hact : act (c₁.placed st w hist) = .next (c'.placed st' w' (a :: hist))) (hP : P w') :
    Comes e 1 (c.placed st w hist) (notes [a]) c' st' P :=
  ⟨w', _, hP, Rounds.of_act hset a hact rfl⟩

/-- The primitive's last action, at l. -/
theorem Comes.returns {n N : Nat} {s : State} {log : List Action} {l caller : Label} {P : Work → Prop} {r : Result} {w : Work}
    (h : Comes e n s log c [l, caller] P) (a : Action)
    (hact : ∀ w₁ hist, P w₁ → ∃ w₂ : Work, w₂.base = w.base ∧
      act (c₁.placed [l, caller] w₁ hist) = resume caller r (c'.placed [caller] w₂ (a :: hist)))
    (ha : notes [a] = [] := by rfl) (hN : N = n + 1 := by omega) : ReturnsIn e N s log c' caller r w := by
  obtain ⟨w₁, hist, hP, hrounds⟩ := h
  obtain ⟨w₂, hw, heq⟩ := hact w₁ hist hP
  refine ⟨w₂, a :: hist, hw, fun t ht => ?_⟩
  have hlast := Rounds.of_act hset a (heq.trans ht) (resume_sequencing ht).hist
  rw [ha] at hlast
  exact hrounds.trans hlast

/-- The failure exit (R221): the bus is dirty. -/
theorem Comes.fails {n N : Nat} {s : State} {log : List Action} {caller : Label} {r : Result} {w : Work}
    (h : Comes e n s log c [.pf, caller] fun w' => w'.base = w.base ∧ w'.e = r)
    (hN : N = n + 1 := by omega) : ReturnsIn e N s log (c₁.withDirty true) caller r w := by
  refine h.returns hset (.dirtyWrite true) (hN := hN) fun w₁ hist ⟨hw, he⟩ => ⟨w₁, hw, ?_⟩
  rw [← he]
  rfl

end

/-! ## IDLE_CHECK (R154) -/

section
variable {e : EnvStep} {c : State} (hset : envStep e c = c) (w : Work) (hist : List Action)

theorem act_q2_placed (call caller : Label) : act (c.placed [.q2, call, caller] w hist) =
    if notIdle w.c c.stat then .next (c.placed [.q3, call, caller] { w with s := c.stat } (.readStat c.stat :: hist))
    else resume call .ok (c.placed [call, caller] { w with s := c.stat } (.readStat c.stat :: hist)) := rfl

include hset

/-- The primitive goes on whatever the check read. -/
theorem comes_idleCheck {call next caller : Label} {p : Prim} (hcall : call.prim = some p)
    (hnext : ∀ r s, resume call r s = .next (s.goto next)) (hline : next.callee = none) :
    Comes e (idleActions c) (c.placed [.q1, call, caller] w hist) [] c [next, caller] (·.base = w.base) := by
  have hgoto (w hist) : (c.placed [call, caller] w hist).goto next = c.placed [next, caller] w hist := by
    simp [State.goto, State.placed, Label.opened, hline]
  have hq1 : Comes e 1 (c.placed [.q1, call, caller] w hist) [] c [.q2, call, caller]
      fun w' => w'.base = w.base ∧ w'.c = c.con :=
    .of_act hset (w' := { w with c := c.con }) (.readCon c.con) rfl ⟨rfl, rfl⟩
  unfold idleActions
  cases hidle : notIdle c.con c.stat with
  | false =>
    refine hq1.trans (n := 1) (log' := []) (hN := rfl) fun w₁ hist ⟨hw, hc⟩ =>
      .of_act hset (w' := { w₁ with s := c.stat }) (.readStat c.stat) ?_ hw
    rw [act_q2_placed, hc, hidle, if_neg Bool.false_ne_true, hnext, hgoto]
  | true =>
    have hq2 : Comes e 2 (c.placed [.q1, call, caller] w hist) [] c [.q3, call, caller] (·.base = w.base) := by
      refine hq1.trans (n := 1) (log' := []) fun w₁ hist ⟨hw, hc⟩ =>
        .of_act hset (w' := { w₁ with s := c.stat }) (.readStat c.stat) ?_ hw
      rw [act_q2_placed, hc, hidle, if_pos rfl]
    refine hq2.trans (n := 1) (log' := []) (hN := rfl) fun w₁ hist hw => .of_act hset (.diag p) ?_ hw
    have hact : act (c.placed [.q3, call, caller] w₁ hist) =
        resume call .ok (c.placed [call, caller] w₁ (.diag p :: hist)) := by
      simp only [act, actAt, actQ3, State.placed, hcall]
      rfl
    rw [hact, hnext, hgoto]

end

/-! ## The bounded poll (R228) -/

/-- At l a poll reads for a condition on the registers of c, which is `done`, with ceiling n and timeout error r: each read
is counted, and leads on to `next`, to the failure exit, or to l again. -/
def PollsIn (c : State) (l next caller : Label) (r : Result) (done : Bool) (n : Nat) : Prop :=
  ∀ (w : Work) (hist : List Action), ∃ (w' : Work) (a : Action), w'.base = w.base ∧ w'.k = w.k + 1 ∧ notes [a] = [] ∧
    act (c.placed [l, caller] w hist) = .next
      (if done then c.placed [next, caller] w' (a :: hist)
        else if w'.k = n then c.placed [.pf, caller] { w' with e := r } (a :: hist)
        else c.placed [l, caller] w' (a :: hist))

section
variable {e : EnvStep} {c : State} (hset : envStep e c = c) {l next caller : Label} {r : Result} {done : Bool} {n : Nat}
  (h : PollsIn c l next caller r done n) {w w₀ : Work} (hw : w.base = w₀.base) (hist : List Action)
include hset h hw

theorem PollsIn.completes (hd : done = true) :
    Comes e 1 (c.placed [l, caller] w hist) [] c [next, caller] (·.base = w₀.base) := by
  obtain ⟨w', a, hw', -, ha, hact⟩ := h w hist
  rw [if_pos hd] at hact
  exact ha ▸ .of_act hset a hact (hw'.trans hw)

theorem PollsIn.waits (hd : done = false) (hk : w.k = 0) {m : Nat} (hm : m < n) :
    Comes e m (c.placed [l, caller] w hist) [] c [l, caller] fun w' => w'.base = w₀.base ∧ w'.k = m := by
  induction m with
  | zero => exact ⟨w, hist, ⟨hw, hk⟩, Passes.refl _⟩
  | succ m ih =>
    refine (ih (by omega)).trans (n := 1) (log' := []) fun w₁ hist₁ ⟨hw, hk₁⟩ => ?_
    obtain ⟨w', a, hw', hk', ha, hact⟩ := h w₁ hist₁
    rw [if_neg (by simp [hd]), if_neg (by omega)] at hact
    exact ha ▸ .of_act hset a hact ⟨hw'.trans hw, by omega⟩

/-- A poll that never completes takes exactly n reads. -/
theorem PollsIn.timesOut (hd : done = false) (hk : w.k = 0) (hn : 0 < n) :
    Comes e n (c.placed [l, caller] w hist) [] c [.pf, caller] fun w' => w'.base = w₀.base ∧ w'.e = r := by
  have hwaits := h.waits hset hw hist hd hk (Nat.sub_lt hn Nat.one_pos)
  refine hwaits.trans (n := 1) (log' := []) fun w₁ hist₁ ⟨hw, hk₁⟩ => ?_
  obtain ⟨w', a, hw', hk', ha, hact⟩ := h w₁ hist₁
  rw [if_neg (by simp [hd]), if_pos (by omega)] at hact
  exact ha ▸ .of_act hset a hact ⟨hw'.trans hw, rfl⟩

end

/-! ## What the Environment's step does to a field the Engine wrote -/

/-- A field of CON is v. -/
def State.withField (f : ConField) (v : Bool) (c : State) : State := { c with con := c.con.set f v }

/-- The step clears the request bit. -/
def EnvStep.clears (e : EnvStep) (f : ConField) : Bool :=
  match f with
  | .sen => e.clrSen
  | .rsen => e.clrRsen
  | .pen => e.clrPen
  | .rcen => e.clrRcen
  | .acken => e.clrAcken
  | .ackdt | .slew | .ie | .on => false

/-- A field the step does not clear stays as written. -/
theorem envStep_withField {e : EnvStep} {f : ConField} (h : e.clears f = false) (v : Bool) (c : State) :
    envStep e (c.withField f v) = (envStep e c).withField f v := by
  cases f <;> simp_all [envStep, State.withField, Con.set, Con.afterEnv, EnvStep.clears]

/-- A request bit the step clears is as if it had not been set. -/
theorem envStep_withField_cleared {e : EnvStep} {f : ConField} (h : e.clears f = true) (v : Bool) (c : State) :
    envStep e (c.withField f v) = envStep e c := by
  cases f <;> simp_all [envStep, State.withField, Con.set, Con.afterEnv, EnvStep.clears]

/-! ## A collision: CYCLE_ENABLE (R152), and the failure exit -/

section
variable {e : EnvStep} {c : State} (hset : envStep e c = c) {w w₀ : Work} (hw : w.base = w₀.base) (hist : List Action)
include hset hw

theorem comes_cycleEnable {l : Label} (hl : l ∈ [Label.sc, .gc, .tc, .wc]) (caller : Label) :
    Comes e 2 (c.placed [.e1, l, caller] w hist) [] c.reenabled [.pf, caller]
      fun w' => w'.base = w₀.base ∧ w'.e = .busCollision := by
  have hoff : envStep e (c.withField .on false) = c.withField .on false := by rw [envStep_withField rfl, hset]
  have he1 : Comes e 1 (c.placed [.e1, l, caller] w hist) [] (c.withField .on false) [.e2, l, caller] (·.base = w₀.base) :=
    .of_act hset (.writeCon .on false) rfl hw
  refine he1.trans (n := 1) (log' := []) fun w₁ hist hw => ?_
  refine .of_act hoff (w' := { w₁ with e := .busCollision }) (.writeCon .on true) ?_ ⟨hw, rfl⟩
  simp only [List.mem_cons, List.not_mem_nil, or_false] at hl
  obtain rfl | rfl | rfl | rfl := hl <;> rfl

end

/-! ## START, RSTART and STOP (R222, R226, R230) -/

/-- The entry a request leaves among those that matter: a Stop's own. -/
def Request.log (q : Request) : List Action := notes [.writeCon q.lines.field true]

theorem pollsIn_request (c : State) (q : Request) (caller : Label) : PollsIn c q.lines.poll q.lines.recheck caller .clockStuck
    (c.con.cleared q.lines.field) c.params.nCtl :=
  fun w hist => ⟨{ w with c := c.con, k := w.k + 1 }, .readCon c.con, rfl, rfl, rfl, by cases q <;> rfl⟩

/-- Where the step clears the request bit it reads 0. -/
theorem cleared_of_settled {e : EnvStep} {c : State} (hset : envStep e c = c) {q : Request}
    (hclr : e.clears q.lines.field = true) : c.con.cleared q.lines.field = true := by
  rw [← hset, envStep_con]
  cases q <;> simp_all [Con.cleared, Con.get, Request.lines, EnvStep.clears, Con.afterEnv]

section
variable {e : EnvStep} {c c₁ : State} (hset : envStep e c = c) (q : Request) (w : Work) (hist : List Action) (caller : Label)
include hset

/-- IDLE_CHECK and the request. -/
theorem comes_requestCheck : Comes e (idleActions c + 1) (c.placed [.q1, q.lines.call, caller] w hist) q.log
    (c.withField q.lines.field true) [q.lines.check, caller] (·.base = w.base) := by
  have hidle : Comes e (idleActions c) (c.placed [.q1, q.lines.call, caller] w hist) [] c [q.lines.ask, caller]
      (·.base = w.base) := by
    cases q <;> exact comes_idleCheck hset w hist rfl (fun _ _ => rfl) rfl
  rw [← List.append_nil q.log]
  refine hidle.trans (n := 1) (log' := q.log) fun w₁ hist hw =>
    .of_act hset (w' := w₁) (.writeCon q.lines.field true) ?_ hw
  cases q <;> rfl

section
variable (hset₁ : envStep e (c.withField q.lines.field true) = c₁)
include hset₁

/-- The first check finds no collision: the poll begins. -/
theorem comes_requestPoll (hbcl : c₁.stat.bcl = false) : Comes e (idleActions c + 2)
    (c.placed [.q1, q.lines.call, caller] w hist) q.log c₁ [q.lines.poll, caller] fun w' => w'.base = w.base ∧ w'.k = 0 := by
  refine (comes_requestCheck hset q w hist caller).trans (n := 1) (log' := []) fun w hist hw =>
    .of_act hset₁ (w' := { w with s := c₁.stat, k := 0 }) (.readStat c₁.stat) ?_ ⟨hw, rfl⟩
  cases q <;> simp [act, actAt, actS3, actG3, actT3, firstCheck, Request.lines, State.placed, Stat.busCollided, hbcl] <;> rfl

/-- The first check finds a collision (R223). -/
theorem request_collides (hbcl : c₁.stat.bcl = true) : ReturnsIn e (idleActions c + 5)
    (c.placed [.q1, q.lines.call, caller] w hist) q.log ((envStep e c₁.reenabled).withDirty true) caller .busCollision w := by
  have hset₁' : envStep e c₁ = c₁ := by rw [← hset₁, envStep_envStep]
  have hcheck : Comes e (idleActions c + 2) (c.placed [.q1, q.lines.call, caller] w hist) q.log c₁
      [.e1, q.lines.collision, caller] (·.base = w.base) := by
    refine (comes_requestCheck hset q w hist caller).trans (n := 1) (log' := []) fun w hist hw =>
      .of_act hset₁ (w' := { w with s := c₁.stat }) (.readStat c₁.stat) ?_ hw
    cases q <;> simp [act, actAt, actS3, actG3, actT3, firstCheck, Request.lines, State.placed, Stat.busCollided, hbcl] <;> rfl
  have hcycle := hcheck.trans (n := 2) (N := idleActions c + 4) (log' := []) fun w₁ hist hw =>
    comes_cycleEnable hset₁' hw hist (l := q.lines.collision) (by cases q <;> decide) caller
  exact hcycle.fails rfl

end

/-- The request bit reads 0 at the first poll. -/
theorem request_returns (hclr : e.clears q.lines.field = true) (hbcl : c.stat.bcl = false) : ReturnsIn e (idleActions c + 4)
    (c.placed [.q1, q.lines.call, caller] w hist) q.log c caller .ok w := by
  have hset₁ : envStep e (c.withField q.lines.field true) = c := by rw [envStep_withField_cleared hclr, hset]
  have hpoll := (comes_requestPoll hset q w hist caller hset₁ hbcl).trans (n := 1) (N := idleActions c + 3) (log' := [])
    fun w₁ hist ⟨hw, _⟩ => (pollsIn_request c q caller).completes hset hw hist (cleared_of_settled hset hclr)
  refine hpoll.returns hset (.readStat c.stat) fun w₁ hist hw => ⟨{ w₁ with s := c.stat }, hw, ?_⟩
  cases q <;> simp [act, actAt, actS5, actG5, actT5, secondCheck, Request.lines, State.placed, Stat.busCollided, hbcl,
    State.finish]

/-- The request bit never reads 0. -/
theorem request_stuck (hclr : e.clears q.lines.field = false) (hbcl : c.stat.bcl = false) (hn : 0 < c.params.nCtl) :
    ReturnsIn e (idleActions c + 3 + c.params.nCtl) (c.placed [.q1, q.lines.call, caller] w hist) q.log
      ((c.withField q.lines.field true).withDirty true) caller .clockStuck w := by
  have hset₁ : envStep e (c.withField q.lines.field true) = c.withField q.lines.field true := by
    rw [envStep_withField hclr, hset]
  have hpoll := (comes_requestPoll hset q w hist caller hset₁ hbcl).trans (n := c.params.nCtl)
    (N := idleActions c + 2 + c.params.nCtl) (log' := []) fun w₁ hist ⟨hw, hk⟩ =>
      (pollsIn_request _ q caller).timesOut hset₁ hw hist (by cases q <;> rfl) hk hn
  exact hpoll.fails hset₁

end

/-! ## WRBYTE (R235) -/

theorem pollsIn_w4 (c : State) (caller : Label) :
    PollsIn c .w4 .w5 caller .clockStuck (!c.stat.trstat) c.params.nXfer :=
  fun w _ => ⟨{ w with s := c.stat, k := w.k + 1 }, .readStat c.stat, rfl, rfl, rfl, rfl⟩

theorem settled_offered {e : EnvStep} {c : State} (hset : envStep e c = c) (v : Byte) :
    envStep e (c.offered v) = c.offered v := congrArg (State.offered v) hset

theorem act_w5_placed (c : State) (caller : Label) (w : Work) (hist : List Action) : act (c.placed [.w5, caller] w hist) =
    if c.stat.writeCollided then .next (c.placed [.e1, .wc, caller] { w with s := c.stat } (.readStat c.stat :: hist))
    else if c.stat.ackstat then .next (c.placed [.pf, caller] { w with s := c.stat, e := .nak } (.readStat c.stat :: hist))
    else resume caller .ack (c.placed [caller] { w with s := c.stat } (.readStat c.stat :: hist)) := rfl

section
variable {e : EnvStep} {c : State} (hset : envStep e c = c) (w : Work) (hist : List Action) (caller : Label)
include hset

theorem comes_w2 : Comes e (idleActions c) (c.placed [.q1, .w1, caller] w hist) [] c [.w2, caller] (·.base = w.base) :=
  comes_idleCheck hset w hist rfl (fun _ _ => rfl) rfl

/-- A byte still queued (R236). -/
theorem wrbyte_full_returns (htbf : c.stat.tbf = true) : ReturnsIn e (idleActions c + 2) (c.placed [.q1, .w1, caller] w hist) []
    (c.withDirty true) caller .transmitBufferFull w := by
  have hcheck := (comes_w2 hset w hist caller).trans (n := 1) (N := idleActions c + 1) (log' := [])
    (P' := fun w' => w'.base = w.base ∧ w'.e = .transmitBufferFull) (st' := [.pf, caller]) fun w₁ hist hw =>
      .of_act hset (w' := { w₁ with s := c.stat, e := .transmitBufferFull }) (.readStat c.stat)
        (by simp [act, actAt, actW2, State.placed, htbf]; rfl) ⟨hw, rfl⟩
  exact hcheck.fails hset

section
variable (htbf : c.stat.tbf = false)
include htbf

/-- The byte is offered, and the poll begins. -/
theorem comes_w4 : Comes e (idleActions c + 2) (c.placed [.q1, .w1, caller] w hist) [.writeTrn w.v] (c.offered w.v)
    [.w4, caller] fun w' => w'.base = w.base ∧ w'.k = 0 := by
  have hw2 := (comes_w2 hset w hist caller).trans (n := 1) (N := idleActions c + 1) (log' := [])
    (P' := (·.base = w.base)) (st' := [.w3, caller]) fun w₁ hist hw =>
      .of_act hset (w' := { w₁ with s := c.stat }) (.readStat c.stat)
        (by simp [act, actAt, actW2, State.placed, htbf]; rfl) hw
  refine hw2.trans (n := 1) (log' := [.writeTrn w.v]) fun w₂ hist hw => ?_
  rw [← Work.base_v hw]
  exact .of_act hset (w' := { w₂ with k := 0 }) (.writeTrn w₂.v) rfl ⟨hw, rfl⟩

/-- The transmission never ends. -/
theorem wrbyte_stuck_returns (htr : c.stat.trstat = true) (hn : 0 < c.params.nXfer) :
    ReturnsIn e (idleActions c + 3 + c.params.nXfer) (c.placed [.q1, .w1, caller] w hist) [.writeTrn w.v]
      ((c.offered w.v).withDirty true) caller .clockStuck w := by
  have hset' := settled_offered hset w.v
  have hpoll := (comes_w4 hset w hist caller htbf).trans (n := c.params.nXfer) (N := idleActions c + 2 + c.params.nXfer)
    (log' := []) fun w₁ hist ⟨hw, hk⟩ =>
      (pollsIn_w4 (c.offered w.v) caller).timesOut hset' hw hist (congrArg (!·) htr) hk hn
  exact hpoll.fails hset'

section
variable (htr : c.stat.trstat = false)
include htr

/-- A transmission that has ended is seen at the first poll. -/
theorem comes_w5 : Comes e (idleActions c + 3) (c.placed [.q1, .w1, caller] w hist) [.writeTrn w.v] (c.offered w.v)
    [.w5, caller] (·.base = w.base) :=
  (comes_w4 hset w hist caller htbf).trans (n := 1) (log' := []) fun w₁ hist ⟨hw, _⟩ =>
    (pollsIn_w4 (c.offered w.v) caller).completes (settled_offered hset w.v) hw hist (congrArg (!·) htr)

/-- A collision wins over the acknowledge bit (R238). -/
theorem wrbyte_collides_returns (hcol : c.stat.writeCollided = true) : ReturnsIn e (idleActions c + 7)
    (c.placed [.q1, .w1, caller] w hist) [.writeTrn w.v] ((envStep e (c.offered w.v).reenabled).withDirty true) caller
    .busCollision w := by
  have hset' := settled_offered hset w.v
  have hcheck := (comes_w5 hset w hist caller htbf htr).trans (n := 1) (N := idleActions c + 4) (log' := [])
    (P' := (·.base = w.base)) (st' := [.e1, .wc, caller]) fun w₁ hist hw =>
      .of_act hset' (.readStat c.stat) ((act_w5_placed (c.offered w.v) caller w₁ hist).trans (if_pos hcol)) hw
  have hcycle := hcheck.trans (n := 2) (N := idleActions c + 6) (log' := []) fun w₁ hist hw =>
    comes_cycleEnable hset' hw hist (l := .wc) (by decide) caller
  exact hcycle.fails rfl

variable (hcol : c.stat.writeCollided = false)
include hcol

theorem wrbyte_nak_returns (hack : c.stat.ackstat = true) : ReturnsIn e (idleActions c + 5)
    (c.placed [.q1, .w1, caller] w hist) [.writeTrn w.v] ((c.offered w.v).withDirty true) caller .nak w := by
  have hset' := settled_offered hset w.v
  have hcheck := (comes_w5 hset w hist caller htbf htr).trans (n := 1) (N := idleActions c + 4) (log' := [])
    (P' := fun w' => w'.base = w.base ∧ w'.e = .nak) (st' := [.pf, caller]) fun w₁ hist hw =>
      .of_act hset' (w' := { w₁ with s := c.stat, e := .nak }) (.readStat c.stat)
        ((act_w5_placed (c.offered w.v) caller w₁ hist).trans
          ((if_neg (by rw [State.offered, hcol]; decide)).trans (if_pos hack)))
        ⟨hw, rfl⟩
  exact hcheck.fails hset'

theorem wrbyte_ack_returns (hack : c.stat.ackstat = false) : ReturnsIn e (idleActions c + 4)
    (c.placed [.q1, .w1, caller] w hist) [.writeTrn w.v] (c.offered w.v) caller .ack w := by
  refine (comes_w5 hset w hist caller htbf htr).returns (settled_offered hset w.v) (.readStat c.stat) fun w₁ hist hw =>
    ⟨{ w₁ with s := c.stat }, hw, ?_⟩
  rw [act_w5_placed, if_neg (by rw [State.offered, hcol]; decide), if_neg (by rw [State.offered, hack]; decide)]
  rfl

end

end

end

/-! ## RDBYTE (R240) -/

theorem pollsIn_b4 (c : State) (caller : Label) : PollsIn c .b4 .b5 caller .receiveTimeout c.stat.rbf c.params.nXfer :=
  fun w _ => ⟨{ w with s := c.stat, k := w.k + 1 }, .readStat c.stat, rfl, rfl, rfl, rfl⟩

theorem pollsIn_b6 (c : State) (caller : Label) : PollsIn c .b6 .b7 caller .clockStuck (c.con.cleared .acken) c.params.nCtl :=
  fun w _ => ⟨{ w with c := c.con, k := w.k + 1 }, .readCon c.con, rfl, rfl, rfl, rfl⟩

theorem act_b7_placed (c : State) (caller : Label) (w : Work) (hist : List Action) : act (c.placed [.b7, caller] w hist) = .next
    (if c.stat.i2cov then c.placed [.pf, caller] { w with s := c.stat, e := .receiveOverflow } (.readStat c.stat :: hist)
      else c.placed [.b8, caller] { w with s := c.stat } (.readStat c.stat :: hist)) := rfl

/-- The byte is read from RCV. -/
def State.emptied (c : State) : State := { c with stat := { c.stat with rbf := false } }

/-- ACKDT is ready for the answer. -/
def State.answering (ack : Bool) (c : State) : State := c.withField .ackdt (!ack)

theorem settled_answering {e : EnvStep} {c : State} (hset : envStep e c = c) (ack : Bool) :
    envStep e (c.answering ack) = c.answering ack := by
  rw [State.answering, envStep_withField rfl, hset]

section
variable {e : EnvStep} {c : State} (hset : envStep e c = c) (w : Work) (hist : List Action) (caller : Label)
include hset

/-- IDLE_CHECK, ACKDT and RCEN: the poll begins. -/
theorem comes_b4 : Comes e (idleActions c + 2) (c.placed [.q1, .b1, caller] w hist) [.writeCon .ackdt (!w.ack)]
    ((c.answering w.ack).withField .rcen true) [.b4, caller] fun w' => w'.base = w.base ∧ w'.k = 0 := by
  have hidle : Comes e (idleActions c) (c.placed [.q1, .b1, caller] w hist) [] c [.b2, caller] (·.base = w.base) :=
    comes_idleCheck hset w hist rfl (fun _ _ => rfl) rfl
  have hb2 := hidle.trans (n := 1) (N := idleActions c + 1) (log' := [.writeCon .ackdt (!w.ack)])
    (c' := c.answering w.ack) (st' := [.b3, caller]) (P' := (·.base = w.base)) fun w₁ hist hw => by
      rw [← Work.base_ack hw]
      exact .of_act hset (.writeCon .ackdt (!w₁.ack)) rfl hw
  exact hb2.trans (n := 1) (log' := []) fun w₁ hist hw =>
    .of_act (settled_answering hset w.ack) (w' := { w₁ with k := 0 }) (.writeCon .rcen true) rfl ⟨hw, rfl⟩

section
variable (hrcen : e.clears .rcen = true)
include hrcen

/-- The Environment clears RCEN. -/
theorem settles_receiving (ack : Bool) : envStep e ((c.answering ack).withField .rcen true) = c.answering ack := by
  rw [envStep_withField_cleared hrcen, settled_answering hset]

/-- No byte arrives. -/
theorem rdbyte_timeout_returns (hrbf : c.stat.rbf = false) (hn : 0 < c.params.nXfer) :
    ReturnsIn e (idleActions c + 3 + c.params.nXfer) (c.placed [.q1, .b1, caller] w hist) [.writeCon .ackdt (!w.ack)]
      ((c.answering w.ack).withDirty true) caller .receiveTimeout w := by
  have hset' := settled_answering hset w.ack
  have hpoll := (comes_b4 hset w hist caller).trans (n := c.params.nXfer) (N := idleActions c + 2 + c.params.nXfer)
    (log' := []) fun w₁ hist ⟨hw, hk⟩ =>
      ((pollsIn_b4 (c.answering w.ack) caller).timesOut hset' hw hist hrbf hk hn).settle (settles_receiving hset hrcen _) hn
  exact hpoll.fails hset'

/-- A byte is there: the acknowledge is requested. -/
theorem comes_b6 (hrbf : c.stat.rbf = true) : Comes e (idleActions c + 4) (c.placed [.q1, .b1, caller] w hist)
    [.writeCon .ackdt (!w.ack)] ((c.answering w.ack).withField .acken true) [.b6, caller]
    fun w' => w'.base = w.base ∧ w'.k = 0 := by
  have hset' := settled_answering hset w.ack
  have hpoll := (comes_b4 hset w hist caller).trans (n := 1) (N := idleActions c + 3) (log' := []) fun w₁ hist ⟨hw, _⟩ =>
    ((pollsIn_b4 (c.answering w.ack) caller).completes hset' hw hist hrbf).settle (settles_receiving hset hrcen _) Nat.one_pos
  exact hpoll.trans (n := 1) (log' := []) fun w₁ hist hw =>
    .of_act hset' (w' := { w₁ with k := 0 }) (.writeCon .acken true) rfl ⟨hw, rfl⟩

/-- The acknowledge never ends. -/
theorem rdbyte_stuck_returns (hacken : e.clears .acken = false) (hrbf : c.stat.rbf = true) (hn : 0 < c.params.nCtl) :
    ReturnsIn e (idleActions c + 5 + c.params.nCtl) (c.placed [.q1, .b1, caller] w hist) [.writeCon .ackdt (!w.ack)]
      (((c.answering w.ack).withField .acken true).withDirty true) caller .clockStuck w := by
  have hset' : envStep e ((c.answering w.ack).withField .acken true) = (c.answering w.ack).withField .acken true := by
    rw [envStep_withField hacken, settled_answering hset]
  have hpoll := (comes_b6 hset w hist caller hrcen hrbf).trans (n := c.params.nCtl) (N := idleActions c + 4 + c.params.nCtl)
    (log' := []) fun w₁ hist ⟨hw, hk⟩ => (pollsIn_b6 _ caller).timesOut hset' hw hist rfl hk hn
  exact hpoll.fails hset'

section
variable (hacken : e.clears .acken = true) (hrbf : c.stat.rbf = true)
include hacken hrbf

/-- The acknowledge is sent. -/
theorem comes_b7 : Comes e (idleActions c + 5) (c.placed [.q1, .b1, caller] w hist) [.writeCon .ackdt (!w.ack)]
    (c.answering w.ack) [.b7, caller] (·.base = w.base) := by
  have hset' := settled_answering hset w.ack
  have hdone : (c.answering w.ack).con.cleared .acken = true := by
    rw [← hset', envStep_con]
    simp_all [Con.cleared, Con.get, EnvStep.clears, Con.afterEnv]
  have hcleared : envStep e ((c.answering w.ack).withField .acken true) = c.answering w.ack := by
    rw [envStep_withField_cleared hacken, hset']
  exact (comes_b6 hset w hist caller hrcen hrbf).trans (n := 1) (log' := []) fun w₁ hist ⟨hw, _⟩ =>
    ((pollsIn_b6 (c.answering w.ack) caller).completes hset' hw hist hdone).settle hcleared Nat.one_pos

/-- An overflow leaves RCV unread (R243). -/
theorem rdbyte_overflow_returns (hov : c.stat.i2cov = true) : ReturnsIn e (idleActions c + 7)
    (c.placed [.q1, .b1, caller] w hist) [.writeCon .ackdt (!w.ack)] ((c.answering w.ack).withDirty true) caller
    .receiveOverflow w := by
  have hset' := settled_answering hset w.ack
  have hcheck := (comes_b7 hset w hist caller hrcen hacken hrbf).trans (n := 1) (N := idleActions c + 6) (log' := [])
    (P' := fun w' => w'.base = w.base ∧ w'.e = .receiveOverflow) (st' := [.pf, caller]) fun w₁ hist hw =>
      .of_act hset' (w' := { w₁ with s := c.stat, e := .receiveOverflow }) (.readStat c.stat)
        ((act_b7_placed (c.answering w.ack) caller w₁ hist).trans (congrArg _ (if_pos hov))) ⟨hw, rfl⟩
  exact hcheck.fails hset'

/-- The byte is read, which clears RBF. -/
theorem rdbyte_byte_returns (hov : c.stat.i2cov = false) : ReturnsIn e (idleActions c + 7)
    (c.placed [.q1, .b1, caller] w hist) [.writeCon .ackdt (!w.ack)]
    (c.answering w.ack).emptied caller (.byte c.rcv) w := by
  have hset' := settled_answering hset w.ack
  have hcheck := (comes_b7 hset w hist caller hrcen hacken hrbf).trans (n := 1) (N := idleActions c + 6) (log' := [])
    (P' := (·.base = w.base)) (st' := [.b8, caller]) fun w₁ hist hw =>
      .of_act hset' (w' := { w₁ with s := c.stat }) (.readStat c.stat)
        ((act_b7_placed (c.answering w.ack) caller w₁ hist).trans
          (congrArg _ (if_neg (ne_true_of_eq_false hov)))) hw
  exact hcheck.returns hset' (.readRcv c.rcv) fun w₁ hist hw => ⟨{ w₁ with b := c.rcv }, hw, rfl⟩

end

end

end

end Sys2Proof.Machine

/-! SUPPORT. What the transfers share (spec/44_transfers.md): the way a failing one gives up, with one Stop asked for and the bus dirty (R270, R271), and how a command whose run over rounds has come to its `Complete` ends. -/

namespace Sys2Proof.Machine

/-! ## The end of the command (R296, R297) -/

/-- The registers no transfer writes. -/
def State.fixed (s : State) : Word × BitVec 16 × BitVec 16 × Latch × Params := (s.cmd, s.count, s.brg, s.latch, s.params)

/-- With them BUF: what a transfer's failing way leaves alone. -/
def State.frame (s : State) : (Word × BitVec 16 × BitVec 16 × Latch × Params) × Memory := (s.fixed, s.buf)

theorem fixed_of_frame {s t : State} (h : t.frame = s.frame) : t.fixed = s.fixed := congrArg (·.1) h

theorem buf_of_frame {s t : State} (h : t.frame = s.frame) : t.buf = s.buf := congrArg (·.2) h

theorem cmd_of_fixed {s t : State} (h : t.fixed = s.fixed) : t.cmd = s.cmd := congrArg (·.1) h

theorem count_of_fixed {s t : State} (h : t.fixed = s.fixed) : t.count = s.count := congrArg (·.2.1) h

theorem brg_of_fixed {s t : State} (h : t.fixed = s.fixed) : t.brg = s.brg := congrArg (·.2.2.1) h

theorem latch_of_fixed {s t : State} (h : t.fixed = s.fixed) : t.latch = s.latch := congrArg (·.2.2.2.1) h

theorem params_of_fixed {s t : State} (h : t.fixed = s.fixed) : t.params = s.params := congrArg (·.2.2.2.2) h

theorem sameHostSide_of_frame {s t : State} (h : t.frame = s.frame) : SameHostSide s t :=
  ⟨cmd_of_fixed (fixed_of_frame h), count_of_fixed (fixed_of_frame h), fun a => by rw [buf_of_frame h]⟩

@[simp] theorem frame_envStep (e : EnvStep) (c : State) : (envStep e c).frame = c.frame := rfl
@[simp] theorem frame_withDirty (d : Bool) (c : State) : (c.withDirty d).frame = c.frame := rfl
@[simp] theorem frame_withField (f : ConField) (v : Bool) (c : State) : (c.withField f v).frame = c.frame := rfl
@[simp] theorem frame_reenabled (c : State) : c.reenabled.frame = c.frame := rfl
@[simp] theorem frame_offered (v : Byte) (c : State) : (c.offered v).frame = c.frame := rfl
@[simp] theorem frame_answering (ack : Bool) (c : State) : (c.answering ack).frame = c.frame := rfl
@[simp] theorem frame_emptied (c : State) : c.emptied.frame = c.frame := rfl

/-- The registers at the Engine's next action, if `more` is what is left of the rounds. -/
def State.before (c : State) (more : List EnvStep) : State :=
  match more with
  | [] => c
  | e :: _ => envStep e c

theorem before_frame (c : State) (more : List EnvStep) : (c.before more).frame = c.frame := by cases more <;> rfl

theorem before_dirty (c : State) (more : List EnvStep) : (c.before more).dirty = c.dirty := by cases more <;> rfl

/-- The command begun in s ended in t with result r and the byte count nx after n actions, those noted in log among them, and
the registers are as in c. -/
structure EndsAs (s t : State) (r : Result) (nx n : Nat) (log : List Action) (c : State) : Prop where
  ended : Ended s t r nx n
  noted : notes (s.since t) = log
  frame : t.frame = c.frame
  dirty : t.dirty = c.dirty
  stat : t.stat = c.stat
  rcv : t.rcv = c.rcv

section
variable {s t c : State} {r : Result} {nx n : Nat} {log : List Action} (h : EndsAs s t r nx n log c)
include h

theorem EndsAs.trnWrites : trnWrites (s.since t) = Machine.trnWrites log := by rw [← h.noted, trnWrites_notes]

theorem EndsAs.ackdtWrites : ackdtWrites (s.since t) = Machine.ackdtWrites log := by rw [← h.noted, ackdtWrites_notes]

theorem EndsAs.stopsAsked : stopsAsked (s.since t) = Machine.stopsAsked log := by rw [← h.noted, stopsAsked_notes]

end

theorem rounds_length (es : List EnvStep) : (rounds es).length = 2 * es.length := by
  induction es with
  | nil => rfl
  | cons e es ih => simp only [rounds, List.flatMap_cons, List.length_append] at ih ⊢; rw [ih, List.length_cons]; simp; omega

/-- The Engine stands at `Complete`: its last action, over what is left of the rounds. -/
theorem run_last (more : List EnvStep) (c : State) (w : Work) (hist : List Action) : ∃ (k : Nat) (evs : List Event),
    k ≤ 2 * more.length + 1 ∧ run k ((c.placed [.fin] w hist).withInputs (rounds more)) =
      .next (complete w.fin.code w.fin.data (c.placed [.fin] w hist).nxfer
        (((c.before more).placed [.fin] w hist).withInputs evs)) := by
  cases more with
  | nil => exact ⟨1, [], by simp, run_alone 0 rfl rfl⟩
  | cons e more =>
    refine ⟨2, rounds more, by rw [List.length_cons]; omega, ?_⟩
    have henv := run_env (s := (c.placed [.fin] w hist).withInputs (rounds (e :: more))) 1 rfl rfl
    have hact := run_engine (s := ((envStep e c).placed [.fin] w hist).withInputs (.engine :: rounds more)) 0 rfl rfl
    exact henv.trans hact

/-- READ and WRITE report NX; where it is 0 every command does (R297). -/
theorem nxfer_eq {s : State} (h : s.latch.op = 0x4#4 ∨ s.latch.op = 0x5#4 ∨ s.work.nx = 0) :
    s.nxfer = BitVec.ofNat 16 s.work.nx := by
  unfold State.nxfer
  split
  · rfl
  · next hop =>
    have hnx : s.work.nx = 0 := (h.resolve_left fun h4 => hop (.inl h4)).resolve_left fun h5 => hop (.inr h5)
    rw [hnx]
    rfl

/-- An accepted command that has come to its `Complete`, over a schedule that begins with the rounds it took. -/
theorem exec_of_passes {i : Instr} {s c : State} {es more : List EnvStep} {log : List Action} {w : Work} {hist : List Action}
    (hb : s.busy = false) (hc : (submissionOf i).counted → s.count.toNat ≤ Config.bufCap)
    (h : Passes es ((s.accepted i).placed (submissionOf i).entry.opened (s.accepted i).work s.hist) log
      (c.placed [.fin] w hist))
    (hnx : c.latch.op = 0x4#4 ∨ c.latch.op = 0x5#4 ∨ w.nx = 0) :
    ∃ t, exec i { s with inputs := rounds (es ++ more) } = .next t ∧
      EndsAs s t w.fin w.nx es.length log (c.before more) := by
  have hnxfer : (c.placed [.fin] w hist).nxfer = BitVec.ofNat 16 w.nx := nxfer_eq hnx
  obtain ⟨k, evs, hk, hlast⟩ := run_last more c w hist
  rw [hnxfer] at hlast
  obtain ⟨acts, hacts, hlen, hlog⟩ := h.hist
  have hacts : hist = acts ++ s.hist := hacts
  refine ⟨complete w.fin.code w.fin.data (BitVec.ofNat 16 w.nx) (((c.before more).placed [.fin] w hist).withInputs evs), ?_,
    ⟨rfl, rfl, rfl, acts, congrArg _ hacts, hlen⟩, ?_, rfl, rfl, rfl, rfl⟩
  · rw [exec_accepted (s := { s with inputs := rounds (es ++ more) }) hb hc]
    have hfirst := h.run (rounds more)
    rw [← rounds_append] at hfirst
    have hrun : run (2 * es.length + k) (accept (submissionOf i) { s with inputs := rounds (es ++ more) }) = _ :=
      (run_add (2 * es.length) k _).trans (((congrArg (andThen · (run k)) hfirst).trans hlast))
    refine runCommand_of_run hrun rfl ?_
    have hone : 1 ≤ commandBound s.params := by unfold commandBound; omega
    show _ ≤ (rounds (es ++ more)).length + commandBound s.params
    rw [rounds_length, List.length_append]
    omega
  · rw [since_of_hist_append (acts := .complete w.fin.code w.fin.data (BitVec.ofNat 16 w.nx) :: acts) (congrArg _ hacts)]
    exact hlog

/-- The same, where the last part of the rounds is one of e, and the schedule goes on with e. -/
theorem exec_of_comes {i : Instr} {s s₁ c : State} {es : List EnvStep} {e : EnvStep} {k n : Nat} {log log₁ : List Action}
    {r : Result} {nx : Nat} (hb : s.busy = false) (hc : (submissionOf i).counted → s.count.toNat ≤ Config.bufCap)
    (h : Passes es ((s.accepted i).placed (submissionOf i).entry.opened (s.accepted i).work s.hist) log s₁)
    (h₁ : Comes e k s₁ log₁ c [.fin] fun w => w.fin = r ∧ w.nx = nx) (hk : k ≤ n)
    (hnx : c.latch.op = 0x4#4 ∨ c.latch.op = 0x5#4 ∨ nx = 0) :
    ∃ t, exec i { s with inputs := rounds es ++ cooperate e n } = .next t ∧
      EndsAs s t r nx (es.length + k) (log₁ ++ log) (c.before (List.replicate (n - k) e)) := by
  obtain ⟨w, hist, ⟨rfl, rfl⟩, hrounds⟩ := h₁
  obtain ⟨t, ht, hends⟩ := exec_of_passes hb hc (more := List.replicate (n - k) e) (h.trans hrounds) hnx
  rw [List.length_append, List.length_replicate] at hends
  refine ⟨t, ?_, hends⟩
  rw [cooperate_eq_rounds, ← rounds_append, ← ht, List.append_assoc, List.replicate_append_replicate, Nat.add_sub_cancel' hk]

/-! ## The final Stop, or the one that is asked for when a transfer gives up (R262, R270) -/

section
variable {e : EnvStep} {n : Nat} {s c : State} {log : List Action} {caller : Label} {r : Result} {w : Work}

/-- The caller takes up the result and comes to another place. -/
theorem ReturnsIn.comes {st : List Label} {P : Work → Prop} (h : ReturnsIn e n s log c caller r w)
    (hres : ∀ w' hist, w'.base = w.base →
      ∃ w'', resume caller r (c.placed [caller] w' hist) = .next (c.placed st w'' hist) ∧ P w'') :
    Comes e n s log c st P := by
  obtain ⟨w', hist, hw, hret⟩ := h
  obtain ⟨w'', hres, hP⟩ := hres w' hist hw
  exact ⟨w'', hist, hP, hret _ hres⟩

theorem ReturnsIn.settle {c₀ c₁ : State} {st : List Label} {w₀ : Work} {hist : List Action} (hset : envStep e c₀ = c₁)
    (h : ReturnsIn e n (c₁.placed st w₀ hist) log c caller r w) (hn : 0 < n) :
    ReturnsIn e n (c₀.placed st w₀ hist) log c caller r w := by
  subst hset
  obtain ⟨w', hist', hw, hret⟩ := h
  exact ⟨w', hist', hw, fun t ht => Rounds.settle rfl hn (hret t ht)⟩

end

/-- What STOP records among the noted entries. -/
abbrev stopLog : List Action := [.writeCon .pen true]

/-- The actions of a STOP over rounds of e. -/
def stopActions (e : EnvStep) (c : State) : Nat :=
  idleActions (envStep e c) +
    if (envStep e c).stat.bcl then 5 else if e.clrPen then 4 else 3 + c.params.nCtl

theorem stopActions_le (e : EnvStep) {c : State} (hn : 0 < c.params.nCtl) : stopActions e c ≤ c.params.nCtl + 8 := by
  have := idleActions_le (envStep e c)
  unfold stopActions
  split_ifs <;> omega

/-- Where the Environment clears PEN no STOP times out. -/
theorem stopActions_le_of_clears {e : EnvStep} (c : State) (hclr : e.clrPen = true) : stopActions e c ≤ 8 := by
  have := idleActions_le (envStep e c)
  unfold stopActions
  simp only [hclr, if_true]
  split_ifs <;> omega

theorem envStep_withField_stat (e : EnvStep) (f : ConField) (v : Bool) (c : State) :
    (envStep e (c.withField f v)).stat = (envStep e c).stat := rfl

/-- STOP returns, whatever the Environment does the same in every round. -/
theorem stop_returns (e : EnvStep) {c : State} (w : Work) (hist : List Action) (caller : Label) (hn : 0 < c.params.nCtl) :
    ∃ r c', c'.frame = c.frame ∧
      ReturnsIn e (stopActions e c) (c.placed [.q1, .t1, caller] w hist) stopLog c' caller r w := by
  have hset := envStep_envStep e c
  have hidle : 0 < idleActions (envStep e c) := by unfold idleActions; split <;> omega
  unfold stopActions
  split_ifs with hbcl hclr
  · have h := request_collides hset .stop w hist caller rfl (by rw [envStep_withField_stat, hset]; exact hbcl)
    exact ⟨_, _, by simp, ReturnsIn.settle (c₀ := c) rfl h (by omega)⟩
  · have h := request_returns hset .stop w hist caller hclr (eq_false_of_ne_true hbcl)
    exact ⟨_, _, by simp, ReturnsIn.settle (c₀ := c) rfl h (by omega)⟩
  · have h := request_stuck hset .stop w hist caller (eq_false_of_ne_true hclr) (eq_false_of_ne_true hbcl) hn
    exact ⟨_, _, by simp, ReturnsIn.settle (c₀ := c) rfl (Nat.add_assoc .. ▸ h) (by omega)⟩

/-! ## Failing exits -/

/-- With any of the results in R from its sub-operation, the caller takes a failing exit with `err`: DIRTY <- 1, and
`Complete`. -/
def ExitsWith (R : Result → Prop) (caller : Label) (w : Work) (err : Result) : Prop :=
  ∀ (r : Result) (c : State) (w' : Work) (hist : List Action), R r → w'.base = w.base →
    ∃ last ∈ [Label.u2, .px, .dx, .xx], ∃ w'' : Work,
      resume caller r (c.placed [caller] w' hist) = .next (c.placed [last] w'' hist) ∧ w''.xe = err ∧ w''.nx = w.nx

/-- The failing exit. -/
theorem comes_fin_of_exit {e : EnvStep} {c c₁ : State} (hset : envStep e c = c₁) {last : Label}
    (hlast : last ∈ [Label.u2, .px, .dx, .xx]) (w : Work) (hist : List Action) :
    Comes e 1 (c.placed [last] w hist) [] (c₁.withDirty true) [.fin] fun w' => w'.fin = w.xe ∧ w'.nx = w.nx := by
  refine Comes.of_act hset (w' := { w with fin := w.xe }) (.dirtyWrite true) ?_ ⟨rfl, rfl⟩
  simp only [List.mem_cons, List.not_mem_nil, or_false] at hlast
  obtain rfl | rfl | rfl | rfl := hlast <;> rfl

/-- A STOP whose result sends the caller to a failing exit. -/
theorem ReturnsIn.exits {e : EnvStep} {n : Nat} {s c : State} {log : List Action} {caller : Label} {r err : Result} {w : Work}
    {R : Result → Prop} (h : ReturnsIn e n s log c caller r w) (hx : ExitsWith R caller w err) (hr : R r) :
    Comes e (n + 1) s log ((envStep e c).withDirty true) [.fin] fun w' => w'.fin = err ∧ w'.nx = w.nx := by
  obtain ⟨w', hist, hw, hret⟩ := h
  obtain ⟨last, hlast, w'', hres, hxe, hnx⟩ := hx r c w' hist hr hw
  obtain ⟨w₃, hist₃, ⟨hfin, hnx₃⟩, hlastRound⟩ := comes_fin_of_exit (e := e) rfl hlast w'' hist
  exact ⟨w₃, hist₃, ⟨hfin.trans hxe, hnx₃.trans hnx⟩, (hret _ hres).trans hlastRound⟩

/-- With result r from its sub-operation the caller gives up: it asks for one Stop, and whatever that returns takes a failing
exit with `err`. -/
def GivesUp (caller : Label) (r err : Result) : Prop :=
  ∀ (c : State) (w : Work) (hist : List Action), ∃ (line : Label) (w' : Work),
    resume caller r (c.placed [caller] w hist) = .next (c.placed [.q1, .t1, line] w' hist) ∧ w'.nx = w.nx ∧
      ExitsWith (fun _ => True) line w' err

/-- A transfer that gives up comes to its `Complete` with the bus dirty. -/
theorem ReturnsIn.givesUp {e : EnvStep} {n : Nat} {s c : State} {log : List Action} {caller : Label} {r err : Result} {w : Work}
    (h : ReturnsIn e n s log c caller r w) (hg : GivesUp caller r err) (hn : 0 < c.params.nCtl) :
    ∃ c', c'.dirty = true ∧ c'.frame = c.frame ∧
      Comes e (n + (stopActions e c + 1)) s (stopLog ++ log) c' [.fin] fun w' => w'.fin = err ∧ w'.nx = w.nx := by
  obtain ⟨w', hist, hw, hret⟩ := h
  obtain ⟨line, w₁, hres, hnx, hx⟩ := hg c w' hist
  obtain ⟨r', c', hframe, hstop⟩ := stop_returns e w₁ hist line hn
  obtain ⟨w₂, hist₂, ⟨hfin, hnx₂⟩, hrounds⟩ := hstop.exits hx trivial
  have hbase : w'.nx = w.nx := Work.base_nx hw
  exact ⟨(envStep e c').withDirty true, rfl, hframe, w₂, hist₂, ⟨hfin, hnx₂.trans (hnx.trans hbase)⟩,
    (hret _ hres).trans (n := stopActions e c + 1) hrounds⟩

/-! ## The callers that give up (R262, R267, R277) -/

/-- The lines of UNWIND and of POLL's classification whose exits do not depend on STOP's result. -/
theorem exitsWith_unwind (w : Work) : ExitsWith (fun _ => True) .u1 w w.xe := by
  intro r c w' hist _ hw
  exact ⟨.u2, by decide, { w' with t := r }, rfl, (Work.base_xe hw :), (Work.base_nx hw :)⟩

/-- POLL's classification of an address byte that was not acknowledged (R262). -/
theorem exitsWith_pollClassify {w : Work} (hack : w.w ≠ .ack) :
    ExitsWith (fun _ => True) .p5 w (if w.w = .nak then .badAddr else .commFail) := by
  intro r c w' hist _ hw
  have hww : w'.w = w.w := Work.base_w hw
  refine ⟨.px, by decide, { w' with t := r, xe := if w.w = .nak then .badAddr else .commFail }, ?_, rfl, (Work.base_nx hw :)⟩
  by_cases hnak : w.w = .nak <;>
    simp [resume, State.pollClassify, State.keepT, State.placed, hww, hack, hnak, State.toExit, State.goto, Label.opened,
      Label.callee]

/-- The three transfers. -/
inductive Transfer where
  | poll
  | read
  | write

/-- A transfer's first line, its START and its address byte. -/
structure TransferLines where
  first : Label
  start : Label
  addr : Label

/-- The table of R260, R265 and R275. -/
def Transfer.lines (x : Transfer) : TransferLines :=
  match x with
  | .poll => ⟨.p1, .p3, .p4⟩
  | .read => ⟨.d1, .d2, .d3⟩
  | .write => ⟨.x1, .x2, .x3⟩

theorem givesUp_of_unwind {caller : Label} {r err : Result}
    (h : ∀ (c : State) (w : Work) (hist : List Action), ∃ w' : Work,
      resume caller r (c.placed [caller] w hist) = .next (c.placed [.q1, .t1, .u1] w' hist) ∧ w'.xe = err ∧ w'.nx = w.nx) :
    GivesUp caller r err := by
  intro c w hist
  obtain ⟨w', hres, rfl, hnx⟩ := h c w hist
  exact ⟨.u1, w', hres, hnx, exitsWith_unwind w'⟩

/-- START failed. -/
theorem givesUp_start (x : Transfer) {r : Result} (hr : r ≠ .ok) : GivesUp x.lines.start r .commFail :=
  givesUp_of_unwind fun _ w _ => ⟨{ w with r := r, xe := .commFail }, by cases x <;> exact congrArg _ (if_neg hr), rfl, rfl⟩

/-- RSTART failed. -/
theorem givesUp_rstart {r : Result} (hr : r ≠ .ok) : GivesUp .d5 r .commFail :=
  givesUp_of_unwind fun _ w _ => ⟨{ w with r := r, xe := .commFail }, congrArg _ (if_neg hr), rfl, rfl⟩

/-- The address byte was not acknowledged, or failed: only here a NAK is BadAddr. -/
theorem givesUp_addr (x : Transfer) {r : Result} (hr : r ≠ .ack) :
    GivesUp x.lines.addr r (if r = .nak then .badAddr else .commFail) := by
  cases x with
  | poll => exact fun _ w _ => ⟨.p5, { w with w := r }, rfl, rfl, exitsWith_pollClassify hr⟩
  | read | write =>
    refine givesUp_of_unwind fun _ w _ =>
      ⟨{ w with w := r, xe := if r = .nak then .badAddr else .commFail }, ?_, rfl, rfl⟩
    by_cases hnak : r = .nak <;>
      simp [Transfer.lines, resume, State.afterAddr, State.keepW, State.placed, hr, hnak, State.unwind, State.toExit,
        State.goto, Label.opened, Label.callee]

/-- A later byte was not acknowledged, or failed. -/
theorem givesUp_byte {caller : Label} (hcaller : caller ∈ [Label.d4, .d6, .x4, .x5b]) {r : Result} (hr : r ≠ .ack) :
    GivesUp caller r .commFail := by
  refine givesUp_of_unwind fun _ w _ => ⟨{ w with w := r, xe := .commFail }, ?_, rfl, rfl⟩
  simp only [List.mem_cons, List.not_mem_nil, or_false] at hcaller
  obtain rfl | rfl | rfl | rfl := hcaller <;> exact congrArg _ (if_neg hr)

/-- RDBYTE returned no byte. -/
theorem givesUp_rdbyte {r : Result} (hr : ∀ b, r ≠ .byte b) : GivesUp .d7a r .commFail := by
  refine givesUp_of_unwind fun _ w _ => ⟨{ w with r := r, xe := .commFail }, ?_, rfl, rfl⟩
  cases r
  case byte b => exact absurd rfl (hr b)
  all_goals rfl

end Sys2Proof.Machine

/-! SUPPORT. The transfers line by line, up to the byte that fails or to the final Stop, with a controller that completes every request at its first poll and a target that acknowledges (spec/44_transfers.md R260, R265, R275). -/

namespace Sys2Proof.Machine

/-! ## What goes into the log -/

theorem trnWrites_append (acts acts' : List Action) : trnWrites (acts ++ acts') = trnWrites acts' ++ trnWrites acts := by
  induction acts with
  | nil => simp [trnWrites]
  | cons a acts ih => cases a <;> simp [trnWrites, ih]

theorem ackdtWrites_append (acts acts' : List Action) :
    ackdtWrites (acts ++ acts') = ackdtWrites acts' ++ ackdtWrites acts := by
  induction acts with
  | nil => simp [ackdtWrites]
  | cons a acts ih =>
    cases a
    case writeCon f v => cases f <;> simp [ackdtWrites, ih]
    all_goals simp [ackdtWrites, ih]

theorem stopsAsked_append (acts acts' : List Action) : stopsAsked (acts ++ acts') = stopsAsked acts + stopsAsked acts' :=
  List.countP_append

/-- The bytes were offered to TRN in this order. -/
def offers (bytes : List Byte) : List Action := (bytes.map .writeTrn).reverse

theorem offers_append (bytes bytes' : List Byte) : offers (bytes ++ bytes') = offers bytes' ++ offers bytes := by
  simp [offers]

theorem offers_cons (b : Byte) (bytes : List Byte) : offers (b :: bytes) = offers bytes ++ [.writeTrn b] := by simp [offers]

@[simp] theorem trnWrites_offers (bytes : List Byte) : trnWrites (offers bytes) = bytes := by
  induction bytes with
  | nil => rfl
  | cons b bytes ih => rw [offers_cons, trnWrites_append, ih]; rfl

@[simp] theorem ackdtWrites_offers (bytes : List Byte) : ackdtWrites (offers bytes) = [] := by
  induction bytes with
  | nil => rfl
  | cons b bytes ih => rw [offers_cons, ackdtWrites_append, ih]; rfl

@[simp] theorem stopsAsked_offers (bytes : List Byte) : stopsAsked (offers bytes) = 0 := by
  induction bytes with
  | nil => rfl
  | cons b bytes ih => rw [offers_cons, stopsAsked_append, ih]; rfl

/-- ACKDT was given these answers in this order. -/
def answers (bits : List Bool) : List Action := (bits.map (.writeCon .ackdt ·)).reverse

theorem answers_cons (b : Bool) (bits : List Bool) : answers (b :: bits) = answers bits ++ [.writeCon .ackdt b] := by
  simp [answers]

@[simp] theorem trnWrites_answers (bits : List Bool) : trnWrites (answers bits) = [] := by
  induction bits with
  | nil => rfl
  | cons b bits ih => rw [answers_cons, trnWrites_append, ih]; rfl

@[simp] theorem ackdtWrites_answers (bits : List Bool) : ackdtWrites (answers bits) = bits := by
  induction bits with
  | nil => rfl
  | cons b bits ih => rw [answers_cons, ackdtWrites_append, ih]; rfl

@[simp] theorem stopsAsked_answers (bits : List Bool) : stopsAsked (answers bits) = 0 := by
  induction bits with
  | nil => rfl
  | cons b bits ih => rw [answers_cons, stopsAsked_append, ih]; rfl

theorem bufBytes_succ (m : Memory) (n : Nat) : bufBytes m (n + 1) = bufBytes m n ++ [Memory.read m n] := by
  simp [bufBytes, List.range_succ]

theorem bufBytes_length (m : Memory) (n : Nat) : (bufBytes m n).length = n := by simp [bufBytes]

/-! ## A controller that completes, a target that acknowledges -/

/-- The Environment clears every request bit. -/
structure EnvStep.ClearsAll (e : EnvStep) : Prop where
  sen : e.clrSen = true
  rsen : e.clrRsen = true
  pen : e.clrPen = true
  rcen : e.clrRcen = true
  acken : e.clrAcken = true

theorem clearAll_clearsAll : clearAll.ClearsAll := ⟨rfl, rfl, rfl, rfl, rfl⟩

theorem EnvStep.ClearsAll.clears {e : EnvStep} (h : e.ClearsAll) (q : Request) : e.clears q.lines.field = true := by
  cases q
  exacts [h.sen, h.rsen, h.pen]

/-- No request bit of CON is set. -/
theorem notIdle_of_requestBits {c : Con} {st : Stat} (hc : c.requestBits = (false, false, false, false, false))
    (htr : st.trstat = false) : notIdle c st = false := by
  simp only [Con.requestBits, Prod.mk.injEq] at hc
  simp [notIdle, hc, htr]

theorem EnvStep.ClearsAll.requestBits {e : EnvStep} (h : e.ClearsAll) (c : Con) :
    (c.afterEnv e).requestBits = (false, false, false, false, false) := by
  simp [Con.afterEnv, Con.requestBits, h.sen, h.rsen, h.pen, h.rcen, h.acken]

/-- Over rounds of e, in c, every request completes at its first poll and every byte is acknowledged. -/
structure Answers (e : EnvStep) (c : State) : Prop where
  settled : envStep e c = c
  clearsAll : e.ClearsAll
  calm : c.stat.calm
  acked : c.stat.ackstat = false

theorem Answers.requestBits {e : EnvStep} {c : State} (h : Answers e c) :
    c.con.requestBits = (false, false, false, false, false) := by
  rw [← h.settled]
  exact h.clearsAll.requestBits _

theorem idleActions_of_requestBits {c : State} (hc : c.con.requestBits = (false, false, false, false, false))
    (htr : c.stat.trstat = false) : idleActions c = 2 := by
  rw [idleActions, notIdle_of_requestBits hc htr]
  rfl

theorem answers_clearAll {c : State} (hcalm : c.stat.calm) (hack : c.stat.ackstat = false) :
    Answers clearAll (envStep clearAll c) := ⟨envStep_envStep _ _, clearAll_clearsAll, hcalm, hack⟩

section
variable {e : EnvStep} {c : State} (h : Answers e c) (w : Work) (hist : List Action) (caller : Label)
include h

theorem Answers.idle : idleActions c = 2 := by
  obtain ⟨-, htr, -⟩ := h.calm
  exact idleActions_of_requestBits h.requestBits htr

theorem Answers.offered (v : Byte) : Answers e (c.offered v) := ⟨settled_offered h.settled v, h.clearsAll, h.calm, h.acked⟩

theorem Answers.request (q : Request) :
    ReturnsIn e 6 (c.placed [.q1, q.lines.call, caller] w hist) q.log c caller .ok w := by
  obtain ⟨-, -, hbcl, -, -⟩ := h.calm
  have hret := request_returns h.settled q w hist caller (h.clearsAll.clears q) hbcl
  rwa [h.idle] at hret

theorem Answers.wrbyte :
    ReturnsIn e 6 (c.placed [.q1, .w1, caller] w hist) [.writeTrn w.v] (c.offered w.v) caller .ack w := by
  obtain ⟨htbf, htr, hbcl, hiw, -⟩ := h.calm
  have hret := wrbyte_ack_returns h.settled w hist caller htbf htr (by simp [Stat.writeCollided, hbcl, hiw]) h.acked
  rwa [h.idle] at hret

end

/-! ## The start of a transfer -/

section
variable {e : EnvStep} {c : State} (x : Transfer) (w : Work) (hist : List Action)

/-- The tracker is found clean. -/
theorem comes_start {c₁ : State} (hset : envStep e c = c₁) (hd : c₁.dirty = false) :
    Comes e 1 (c.placed [x.lines.first] w hist) [] c₁ [.q1, .s1, x.lines.start] (·.nx = w.nx) := by
  refine .of_act hset (w' := { w with d := false }) (.dirtyRead false) ?_ rfl
  cases x <;> simp [act, actAt, actP1, actD1, actX1, dirtyRead, Transfer.lines, State.placed, hd, State.goto, Label.opened,
    Label.callee, State.record]

/-- START has completed: the address byte is next. -/
theorem ReturnsIn.comes_addr {n : Nat} {s : State} {log : List Action} (h : ReturnsIn e n s log c x.lines.start .ok w) :
    Comes e n s log c [.q1, .w1, x.lines.addr]
      fun w' => w'.v = addrByte c.latch.addr7 .write ∧ w'.nx = w.nx := by
  refine h.comes fun w' hist hw => ⟨{ w' with r := .ok, v := addrByte c.latch.addr7 .write }, ?_, rfl, (Work.base_nx hw :)⟩
  cases x <;> rfl

/-- On a clean bus the address byte is reached. -/
theorem Answers.comes_addr (h : Answers e c) (hd : c.dirty = false) :
    Comes e 7 (c.placed [x.lines.first] w hist) [] c [.q1, .w1, x.lines.addr]
      fun w' => w'.v = addrByte c.latch.addr7 .write ∧ w'.nx = w.nx :=
  (comes_start x w hist h.settled hd).trans (n := 6) (log' := []) fun w₁ hist₁ hnx => by
    have hstart := (h.request w₁ hist₁ x.lines.start .start).comes_addr x
    rwa [hnx] at hstart

end

/-! ## The final Stop, and success -/

/-- The successful exit (R261, R266, R276). -/
theorem comes_fin_of_success {e : EnvStep} {c : State} (hset : envStep e c = c) {last : Label}
    (hlast : last ∈ [Label.p6, .d9, .x7]) (w : Work) (hist : List Action) :
    Comes e 1 (c.placed [last] w hist) [] (c.withDirty false) [.fin] fun w' => w'.fin = .ok ∧ w'.nx = w.nx := by
  refine Comes.of_act hset (w' := { w with fin := .ok }) (.dirtyWrite false) ?_ ⟨rfl, rfl⟩
  simp only [List.mem_cons, List.not_mem_nil, or_false] at hlast
  obtain rfl | rfl | rfl := hlast <;> rfl

/-- `caller` asks for the final Stop: with Ok the transfer succeeds, with anything else it fails (R262, R267, R277). -/
structure FinalStop (caller : Label) (w : Work) : Prop where
  ok : ∀ c w' hist, w'.base = w.base → ∃ last ∈ [Label.p6, .d9, .x7], ∃ w'' : Work,
    resume caller .ok (State.placed c [caller] w' hist) = .next (c.placed [last] w'' hist) ∧ w''.nx = w.nx
  fails : ExitsWith (· ≠ .ok) caller w .commFail

theorem finalStop_poll {w : Work} (hw : w.w = .ack) : FinalStop .p5 w where
  ok c w' hist hbase := by
    have hww : w'.w = .ack := (Work.base_w hbase).trans hw
    refine ⟨.p6, by decide, { w' with t := .ok }, ?_, (Work.base_nx hbase :)⟩
    simp [resume, State.pollClassify, State.keepT, State.placed, hww, State.goto, Label.opened, Label.callee]
  fails r c w' hist hr hbase := by
    have hww : w'.w = .ack := (Work.base_w hbase).trans hw
    refine ⟨.px, by decide, { w' with t := r, xe := .commFail }, ?_, rfl, (Work.base_nx hbase :)⟩
    simp [resume, State.pollClassify, State.keepT, State.placed, hww, hr, State.toExit, State.goto, Label.opened, Label.callee]

theorem finalStop_read (w : Work) : FinalStop .d8 w where
  ok c w' hist hbase := ⟨.d9, by decide, { w' with t := .ok }, rfl, (Work.base_nx hbase :)⟩
  fails r c w' hist hr hbase :=
    ⟨.dx, by decide, { w' with t := r, xe := .commFail }, congrArg _ (if_neg hr), rfl, (Work.base_nx hbase :)⟩

theorem finalStop_write (w : Work) : FinalStop .x6 w where
  ok c w' hist hbase := ⟨.x7, by decide, { w' with t := .ok }, rfl, (Work.base_nx hbase :)⟩
  fails r c w' hist hr hbase :=
    ⟨.xx, by decide, { w' with t := r, xe := .commFail }, congrArg _ (if_neg hr), rfl, (Work.base_nx hbase :)⟩

/-- The final Stop completes. -/
theorem Answers.finalStop {e : EnvStep} {c : State} (h : Answers e c) {w : Work} {caller : Label} (hx : FinalStop caller w)
    (hist : List Action) : Comes e 7 (c.placed [.q1, .t1, caller] w hist) stopLog (c.withDirty false) [.fin]
      fun w' => w'.fin = .ok ∧ w'.nx = w.nx := by
  obtain ⟨w', hist', hw, hret⟩ := h.request w hist caller .stop
  obtain ⟨last, hlast, w'', hres, hnx⟩ := hx.ok c w' hist' hw
  obtain ⟨w₃, hist₃, ⟨hfin, hnx₃⟩, hround⟩ := comes_fin_of_success h.settled hlast w'' hist'
  exact ⟨w₃, hist₃, ⟨hfin, hnx₃.trans hnx⟩, (hret _ hres).trans (n := 1) hround⟩

/-! ## WRITE, byte by byte (R275) -/

/-- X5, the head of WRITE's data loop, with index i. -/
def writeHead (count i : Nat) : List Label := if i < count then [.x5a] else [.q1, .t1, .x6]

theorem writeLoop_placed (c : State) (l : Label) (w : Work) (hist : List Action) :
    (c.placed [l] w hist).writeLoop = c.placed (writeHead c.latch.count.toNat w.i) w hist := by
  unfold State.writeLoop writeHead
  have hi : (c.placed [l] w hist).work.i < (c.placed [l] w hist).lcount ↔ w.i < c.latch.count.toNat := Iff.rfl
  simp only [hi]
  split <;> rfl

/-- The bytes WRITE sends. -/
def writeBytes (c : State) : List Byte := addrByte c.latch.addr7 .write :: c.latch.data8 :: bufBytes c.buf c.latch.count.toNat

section
variable {e : EnvStep} {c : State} (h : Answers e c) (w : Work) (hist : List Action)
include h

/-- The sub-address is reached. -/
theorem Answers.comes_x4 (hd : c.dirty = false) : Comes e 13 (c.placed [.x1] w hist) (offers [addrByte c.latch.addr7 .write])
    (c.offered (addrByte c.latch.addr7 .write)) [.q1, .w1, .x4] fun w' => w'.v = c.latch.data8 ∧ w'.nx = w.nx := by
  refine (h.comes_addr .write w hist hd).trans (n := 6) (log' := offers [addrByte c.latch.addr7 .write])
    fun w₁ hist₁ ⟨hv, hnx⟩ => ?_
  have hbyte := h.wrbyte w₁ hist₁ .x3
  rw [hv] at hbyte
  exact hbyte.comes fun w' hist hw => ⟨{ w' with w := .ack, v := c.latch.data8 }, rfl, rfl, (Work.base_nx hw).trans hnx⟩

/-- The data loop begins. -/
theorem Answers.comes_writeLoop (hd : c.dirty = false) : Comes e 19 (c.placed [.x1] w hist)
    (offers [addrByte c.latch.addr7 .write, c.latch.data8]) (c.offered c.latch.data8) (writeHead c.latch.count.toNat 0)
    fun w' => w'.i = 0 ∧ w'.nx = 0 := by
  refine (h.comes_x4 w hist hd).trans (n := 6) (log' := offers [c.latch.data8]) fun w₁ hist₁ ⟨hv, _⟩ => ?_
  have hbyte := (h.offered (addrByte c.latch.addr7 .write)).wrbyte w₁ hist₁ .x4
  rw [hv] at hbyte
  exact hbyte.comes fun w' hist _ => ⟨{ w' with w := .ack, i := 0, nx := 0 },
    congrArg _ (writeLoop_placed (c.offered c.latch.data8) .x4 { w' with w := .ack, i := 0, nx := 0 } hist), rfl, rfl⟩

end

section
variable {e : EnvStep} {c : State} (h : Answers e c) (hcap : c.latch.count.toNat ≤ 256)
include h hcap

/-- X5a: the next byte is read from BUF. -/
theorem Answers.comes_x5b {n k : Nat} {s : State} {log : List Action} {v : Byte} (hk : k < c.latch.count.toNat)
    (hloop : Comes e n s log (c.offered v) (writeHead c.latch.count.toNat k) fun w => w.i = k ∧ w.nx = k) :
    Comes e (n + 1) s log (c.offered v) [.q1, .w1, .x5b] fun w => w.v = Memory.read c.buf k ∧ w.i = k ∧ w.nx = k := by
  have hhead : writeHead c.latch.count.toNat k = [.x5a] := if_pos hk
  rw [hhead] at hloop
  refine hloop.trans (n := 1) (log' := []) fun w hist ⟨hi, hnx⟩ => ?_
  subst hi
  have hrange : w.i < 256 := by omega
  refine .of_act (h.offered v).settled (w' := { w with v := Memory.read c.buf w.i })
    (.memRead w.i (Memory.read c.buf w.i)) ?_ ⟨rfl, rfl, hnx⟩
  simp [act, actAt, actX5a, memRead, State.placed, State.offered, Memory.inRange, hrange, State.goto, Label.opened,
    Label.callee, State.record]

/-- k bytes of the data loop. -/
theorem Answers.comes_writeHead {n : Nat} {s : State} {log : List Action} {v : Byte}
    (hstart : Comes e n s log (c.offered v) (writeHead c.latch.count.toNat 0) fun w => w.i = 0 ∧ w.nx = 0) {k : Nat}
    (hk : k ≤ c.latch.count.toNat) : ∃ v', Comes e (n + 7 * k) s (offers (bufBytes c.buf k) ++ log) (c.offered v')
      (writeHead c.latch.count.toNat k) fun w => w.i = k ∧ w.nx = k := by
  induction k with
  | zero => exact ⟨v, hstart⟩
  | succ k ih =>
    obtain ⟨v', hloop⟩ := ih (by omega)
    refine ⟨Memory.read c.buf k, ?_⟩
    rw [bufBytes_succ, offers_append, List.append_assoc]
    refine (h.comes_x5b hcap hk hloop).trans (n := 6) (log' := offers [Memory.read c.buf k]) fun w hist ⟨hv, hi, _⟩ => ?_
    have hbyte := (h.offered v').wrbyte w hist .x5b
    rw [hv] at hbyte
    refine hbyte.comes fun w' hist hw => ?_
    have hi' : w'.i = k := (Work.base_i hw).trans hi
    subst hi'
    exact ⟨{ w' with w := .ack, i := w'.i + 1, nx := w'.i + 1 },
      congrArg _ (writeLoop_placed (c.offered (Memory.read c.buf w'.i)) .x5b _ hist), rfl, rfl⟩

end

/-- In n rounds the call that sends byte j of the list is reached, with the byte count nx: the bytes before it were offered,
and with any other result than Ack the transfer gives up. -/
def ReachesByte (e : EnvStep) (n : Nat) (s c : State) (bytes : List Byte) (j nx : Nat) : Prop :=
  ∃ (caller : Label) (v : Byte),
    (∀ r, r ≠ .ack → GivesUp caller r (if r = .nak ∧ j = 0 then .badAddr else .commFail)) ∧
    Comes e n s (offers (bytes.take j)) (c.offered v) [.q1, .w1, caller] fun w => bytes[j]? = some w.v ∧ w.nx = nx

theorem Comes.mono {e : EnvStep} {n : Nat} {s c : State} {log : List Action} {st : List Label} {P P' : Work → Prop}
    (h : Comes e n s log c st P) (hP : ∀ w, P w → P' w) : Comes e n s log c st P' := by
  obtain ⟨w, hist, hw, hrounds⟩ := h
  exact ⟨w, hist, hP w hw, hrounds⟩

theorem givesUp_first {x : Transfer} (r : Result) (hr : r ≠ .ack) :
    GivesUp x.lines.addr r (if r = .nak ∧ 0 = 0 then .badAddr else .commFail) := by
  simpa using givesUp_addr x hr

theorem givesUp_later {caller : Label} (hcaller : caller ∈ [Label.d4, .d6, .x4, .x5b]) {j : Nat} (hj : j ≠ 0) (r : Result)
    (hr : r ≠ .ack) : GivesUp caller r (if r = .nak ∧ j = 0 then .badAddr else .commFail) := by
  simpa [hj] using givesUp_byte hcaller hr

/-- WRITE reaches every byte (R279). -/
theorem Answers.reaches_writeByte {e : EnvStep} {c : State} (h : Answers e c) (hd : c.dirty = false)
    (hcap : c.latch.count.toNat ≤ 256) (w : Work) (hist : List Action) (hnx : w.nx = 0) {j : Nat}
    (hj : j ≤ c.latch.count.toNat + 1) :
    ReachesByte e (actionsBeforeWriteByte j) (c.placed [.x1] w hist) c (writeBytes c) j (j - 2) := by
  match j with
  | 0 =>
    refine ⟨.x3, c.trn, givesUp_first (x := .write), (h.comes_addr .write w hist hd).mono fun w' ⟨hv, hnx'⟩ => ?_⟩
    exact ⟨by rw [hv]; rfl, hnx'.trans hnx⟩
  | 1 =>
    refine ⟨.x4, _, givesUp_later (by decide) (by decide), (h.comes_x4 w hist hd).mono fun w' ⟨hv, hnx'⟩ => ?_⟩
    exact ⟨by rw [hv]; rfl, hnx'.trans hnx⟩
  | k + 2 =>
    obtain ⟨v, hloop⟩ := h.comes_writeHead hcap (h.comes_writeLoop w hist hd) (k := k) (by omega)
    have hbyte := h.comes_x5b hcap (by omega) hloop
    have hn : actionsBeforeWriteByte (k + 2) = 19 + 7 * k + 1 := by unfold actionsBeforeWriteByte; omega
    have htake : (writeBytes c).take (k + 2) = [addrByte c.latch.addr7 .write, c.latch.data8] ++ bufBytes c.buf k := by
      simp only [writeBytes, List.take_succ_cons, bufBytes, ← List.map_take, List.take_range, List.cons_append,
        List.nil_append]
      rw [Nat.min_eq_left (by omega)]
    refine ⟨.x5b, v, givesUp_later (by decide) (by omega), ?_⟩
    rw [hn, htake, offers_append]
    refine hbyte.mono fun w' ⟨hv, _, hnx'⟩ => ⟨?_, hnx'⟩
    rw [hv]
    simp only [writeBytes, bufBytes, List.getElem?_cons_succ, List.getElem?_map]
    rw [List.getElem?_range (by omega)]
    rfl

/-- WRITE sends every byte and asks for its final Stop. -/
theorem Answers.comes_x6 {e : EnvStep} {c : State} (h : Answers e c) (hd : c.dirty = false)
    (hcap : c.latch.count.toNat ≤ 256) (w : Work) (hist : List Action) :
    ∃ v, Comes e (19 + 7 * c.latch.count.toNat) (c.placed [.x1] w hist) (offers (writeBytes c)) (c.offered v) [.q1, .t1, .x6]
      (·.nx = c.latch.count.toNat) := by
  obtain ⟨v, hloop⟩ := h.comes_writeHead hcap (h.comes_writeLoop w hist hd) le_rfl
  have hhead : writeHead c.latch.count.toNat c.latch.count.toNat = [.q1, .t1, .x6] := if_neg (Nat.lt_irrefl _)
  rw [hhead, ← offers_append] at hloop
  exact ⟨v, hloop.mono fun w' ⟨_, hnx⟩ => hnx⟩

/-! ## READ up to its data loop (R265) -/

/-- D7, the head of READ's data loop, with index i. -/
def readHead (count i : Nat) : List Label := if i < count then [.q1, .b1, .d7a] else [.q1, .t1, .d8]

/-- At the head of READ's data loop with index k: RDBYTE's answer is ACK unless the byte is the last. -/
def AtReadHead (count k : Nat) (w : Work) : Prop := w.i = k ∧ w.nx = k ∧ (k < count → w.ack = decide (k + 1 < count))

theorem readLoop_placed (c : State) (l : Label) {w : Work} (hist : List Action) {k : Nat} (hi : w.i = k) (hnx : w.nx = k) :
    ∃ w', (c.placed [l] w hist).readLoop = c.placed (readHead c.latch.count.toNat k) w' hist ∧
      AtReadHead c.latch.count.toNat k w' := by
  unfold State.readLoop readHead
  have hif : (c.placed [l] w hist).work.i < (c.placed [l] w hist).lcount ↔ k < c.latch.count.toNat := by rw [← hi]; rfl
  simp only [hif]
  split
  · exact ⟨{ w with ack := decide (w.i + 1 < c.latch.count.toNat) }, rfl, hi, hnx, fun _ => by rw [← hi]⟩
  · exact ⟨w, rfl, hi, hnx, fun h => absurd h ‹_›⟩

/-- The bytes READ sends. -/
def readBytes (c : State) : List Byte := [addrByte c.latch.addr7 .write, c.latch.data8, addrByte c.latch.addr7 .read]

section
variable {e : EnvStep} {c : State} (h : Answers e c) (hd : c.dirty = false) (w : Work) (hist : List Action)
include h hd

/-- The sub-address is reached. -/
theorem Answers.comes_d4 : Comes e 13 (c.placed [.d1] w hist) (offers ((readBytes c).take 1))
    (c.offered (addrByte c.latch.addr7 .write)) [.q1, .w1, .d4] fun w' => w'.v = c.latch.data8 ∧ w'.nx = w.nx := by
  refine (h.comes_addr .read w hist hd).trans (n := 6) (log' := offers [addrByte c.latch.addr7 .write])
    fun w₁ hist₁ ⟨hv, hnx⟩ => ?_
  have hbyte := h.wrbyte w₁ hist₁ .d3
  rw [hv] at hbyte
  exact hbyte.comes fun w' hist hw => ⟨{ w' with w := .ack, v := c.latch.data8 }, rfl, rfl, (Work.base_nx hw).trans hnx⟩

/-- The repeated start is reached. -/
theorem Answers.comes_d5 : Comes e 19 (c.placed [.d1] w hist) (offers ((readBytes c).take 2)) (c.offered c.latch.data8)
    [.q1, .g1, .d5] (·.nx = w.nx) := by
  refine (h.comes_d4 hd w hist).trans (n := 6) (log' := offers [c.latch.data8]) fun w₁ hist₁ ⟨hv, hnx⟩ => ?_
  have hbyte := (h.offered (addrByte c.latch.addr7 .write)).wrbyte w₁ hist₁ .d4
  rw [hv] at hbyte
  exact hbyte.comes fun w' hist hw => ⟨{ w' with w := .ack }, rfl, (Work.base_nx hw).trans hnx⟩

/-- The read address is reached. -/
theorem Answers.comes_d6 : Comes e 25 (c.placed [.d1] w hist) (offers ((readBytes c).take 2)) (c.offered c.latch.data8)
    [.q1, .w1, .d6] fun w' => w'.v = addrByte c.latch.addr7 .read ∧ w'.nx = w.nx := by
  refine (h.comes_d5 hd w hist).trans (n := 6) (log' := []) fun w₁ hist₁ hnx => ?_
  exact ((h.offered c.latch.data8).request w₁ hist₁ .d5 .rstart).comes fun w' hist hw =>
    ⟨{ w' with r := .ok, v := addrByte c.latch.addr7 .read }, rfl, rfl, (Work.base_nx hw).trans hnx⟩

/-- The data loop begins. -/
theorem Answers.comes_readLoop : Comes e 31 (c.placed [.d1] w hist) (offers (readBytes c))
    (c.offered (addrByte c.latch.addr7 .read)) (readHead c.latch.count.toNat 0) (AtReadHead c.latch.count.toNat 0) := by
  refine (h.comes_d6 hd w hist).trans (n := 6) (log' := offers [addrByte c.latch.addr7 .read]) fun w₁ hist₁ ⟨hv, _⟩ => ?_
  have hbyte := (h.offered c.latch.data8).wrbyte w₁ hist₁ .d6
  rw [hv] at hbyte
  refine hbyte.comes fun w' hist _ => ?_
  obtain ⟨w'', hloop, hhead⟩ := readLoop_placed (c.offered (addrByte c.latch.addr7 .read)) .d6
    (w := { w' with w := .ack, i := 0, nx := 0 }) hist rfl rfl
  exact ⟨w'', congrArg _ hloop, hhead⟩

/-- READ reaches each of its three bytes. -/
theorem Answers.reaches_readByte (hnx : w.nx = 0) {j : Nat} (hj : j ≤ 2) :
    ReachesByte e (actionsBeforeReadByte j) (c.placed [.d1] w hist) c (readBytes c) j 0 := by
  match j with
  | 0 =>
    refine ⟨.d3, c.trn, givesUp_first (x := .read), (h.comes_addr .read w hist hd).mono fun w' ⟨hv, hnx'⟩ => ?_⟩
    exact ⟨by rw [hv]; rfl, hnx'.trans hnx⟩
  | 1 =>
    refine ⟨.d4, _, givesUp_later (by decide) (by decide), (h.comes_d4 hd w hist).mono fun w' ⟨hv, hnx'⟩ => ?_⟩
    exact ⟨by rw [hv]; rfl, hnx'.trans hnx⟩
  | 2 =>
    refine ⟨.d6, _, givesUp_later (by decide) (by decide), (h.comes_d6 hd w hist).mono fun w' ⟨hv, hnx'⟩ => ?_⟩
    exact ⟨by rw [hv]; rfl, hnx'.trans hnx⟩

end

end Sys2Proof.Machine

/-! SUPPORT. The transfers that give up, as commands: from the round the failing part begins in to the end of the command (spec/44_transfers.md R267, R270, R277). -/

namespace Sys2Proof.Machine

/-! ## The command as a whole -/

/-- The running command of the submission, where it begins. -/
def State.begun (i : Instr) (s : State) : State :=
  (s.accepted i).placed (submissionOf i).entry.opened (s.accepted i).work s.hist

/-- A settled register file stays. -/
theorem before_of_settled {e : EnvStep} {c : State} (hset : envStep e c = c) (n : Nat) : c.before (List.replicate n e) = c := by
  cases n with
  | zero => rfl
  | succ n => exact hset

section
variable {i : Instr} {s : State} (hb : s.busy = false) (hc : (submissionOf i).counted → s.count.toNat ≤ Config.bufCap)
include hb hc

/-- A command that comes to its `Complete` over rounds of one step. -/
theorem exec_cooperate {e : EnvStep} {c : State} {k n : Nat} {log : List Action} {r : Result} {nx : Nat}
    (h : Comes e k (s.begun i) log c [.fin] fun w => w.fin = r ∧ w.nx = nx) (hset : envStep e c = c) (hk : k ≤ n)
    (hnx : c.latch.op = 0x4#4 ∨ c.latch.op = 0x5#4 ∨ nx = 0) :
    ∃ t, exec i { s with inputs := cooperate e n } = .next t ∧ EndsAs s t r nx k log c := by
  obtain ⟨t, ht, hends⟩ := exec_of_comes hb hc (Passes.refl _) h hk hnx
  rw [before_of_settled hset, List.append_nil, List.length_nil, Nat.zero_add] at hends
  exact ⟨t, ht, hends⟩

/-- What the command does up to the end of the rounds es is followed by a sub-operation with whose result it gives up. -/
theorem exec_givesUp {e : EnvStep} {s₁ c : State} {es : List EnvStep} {m n : Nat} {log log₁ : List Action} {caller : Label}
    {r err : Result} {w : Work} (h : Passes es (s.begun i) log s₁) (h₁ : ReturnsIn e m s₁ log₁ c caller r w)
    (hg : GivesUp caller r err) (hp : 0 < c.params.nCtl) (hn : m + (stopActions e c + 1) ≤ n)
    (hnx : c.latch.op = 0x4#4 ∨ c.latch.op = 0x5#4 ∨ w.nx = 0) :
    ∃ t, exec i { s with inputs := rounds es ++ cooperate e n } = .next t ∧
      Ended s t err w.nx (es.length + (m + (stopActions e c + 1))) ∧ t.dirty = true ∧ t.frame = c.frame ∧
      notes (s.since t) = stopLog ++ log₁ ++ log := by
  obtain ⟨c', hdirty, hframe, hcomes⟩ := h₁.givesUp hg hp
  have hlatch : c'.latch = c.latch := latch_of_fixed (fixed_of_frame hframe)
  obtain ⟨t, ht, hends⟩ := exec_of_comes hb hc h hcomes hn (hlatch.symm ▸ hnx)
  exact ⟨t, ht, hends.ended, hends.dirty.trans (before_dirty _ _ |>.trans hdirty),
    hends.frame.trans (before_frame _ _ |>.trans hframe), hends.noted⟩

end

theorem host_of_frame {i : Instr} {s t : State} (h : t.frame = (s.accepted i).frame) : SameHostSide s t :=
  sameHostSide_of_frame (s := s.accepted i) h

theorem brg_of_frame {i : Instr} {s t : State} (h : t.frame = (s.accepted i).frame) : t.brg = s.brg :=
  brg_of_fixed (s := s.accepted i) (fixed_of_frame h)

/-- A log of bytes offered and one Stop. -/
theorem sent_of_notes {acts : List Action} {bytes : List Byte} (h : notes acts = stopLog ++ offers bytes) :
    trnWrites acts = bytes ∧ stopsAsked acts = 1 := by
  rw [← trnWrites_notes, ← stopsAsked_notes, h, trnWrites_append, stopsAsked_append, trnWrites_offers, stopsAsked_offers]
  exact ⟨List.append_nil _, rfl⟩

/-- The command gave up with err, having sent `sent`: it asked for one Stop, the bus is dirty, and what no failing transfer
writes is as it was. -/
structure GaveUp (s t : State) (err : Result) (nx n : Nat) (sent : List Byte) : Prop where
  ended : Ended s t err nx n
  dirty : t.dirty = true
  host : SameHostSide s t
  brg : t.brg = s.brg
  stops : stopsAsked (s.since t) = 1
  sent : trnWrites (s.since t) = sent

/-- What the log of a transfer that gave up holds. -/
theorem GaveUp.of_log {i : Instr} {s t : State} {err : Result} {nx n : Nat} {sent : List Byte} (hends : Ended s t err nx n)
    (hdirty : t.dirty = true) (hframe : t.frame = (s.accepted i).frame) (hlog : notes (s.since t) = stopLog ++ offers sent) :
    GaveUp s t err nx n sent where
  ended := hends
  dirty := hdirty
  host := host_of_frame hframe
  brg := brg_of_frame hframe
  stops := (sent_of_notes hlog).2
  sent := (sent_of_notes hlog).1

/-! ## A byte that fails -/

/-- Over rounds of e every WRBYTE called in c fails with r, and offers its byte to TRN if `sent`; with the Stop after it that
takes N actions. -/
def FailsByte (e : EnvStep) (c : State) (r : Result) (sent : Bool) (N : Nat) : Prop :=
  ∀ (v : Byte) (w : Work) (hist : List Action) (caller : Label), ∃ (m : Nat) (c' : State), c'.frame = c.frame ∧
    0 < m ∧ m + stopActions e c' = N ∧
    ReturnsIn e m ((c.offered v).placed [.q1, .w1, caller] w hist) (if sent then [.writeTrn w.v] else []) c' caller r w

/-- A transfer whose byte j fails. -/
theorem ReachesByte.exec_stops {i : Instr} {s c : State} {e e' : EnvStep} {k nx j N n : Nat} {bytes : List Byte} {r : Result}
    {sent : Bool} (hreach : ReachesByte e k (s.begun i) c bytes j nx) (hb : s.busy = false)
    (hc : (submissionOf i).counted → s.count.toNat ≤ Config.bufCap) (hframe : c.frame = (s.accepted i).frame)
    (hfail : FailsByte e' (envStep e' c) r sent N) (hr : r ≠ .ack) (hp : 0 < s.params.nCtl) (hN : N + 1 ≤ n)
    (hnx : c.latch.op = 0x4#4 ∨ c.latch.op = 0x5#4 ∨ nx = 0) :
    ∃ t, exec i { s with inputs := cooperate e k ++ cooperate e' n } = .next t ∧
      GaveUp s t (if r = .nak ∧ j = 0 then .badAddr else .commFail) nx (k + (N + 1))
        (bytes.take (if sent then j + 1 else j)) := by
  obtain ⟨caller, v, hg, w, hist, ⟨hv, rfl⟩, hrounds⟩ := hreach
  obtain ⟨m, c', hframe', hm, rfl, hret⟩ := hfail v w hist caller
  have hret' := hret.settle (c₀ := c.offered v) rfl hm
  have hfixed := fixed_of_frame hframe'
  have hparams : c'.params = s.params :=
    (params_of_fixed hfixed).trans (params_of_fixed (s := s.accepted i) (fixed_of_frame hframe))
  have hlatch : c'.latch = c.latch := latch_of_fixed hfixed
  obtain ⟨t, ht, hends, hdirty, htframe, hlog⟩ := exec_givesUp hb hc (i := i) hrounds hret' (hg r hr) (hparams ▸ hp)
    (n := n) (by omega) (hlatch ▸ hnx)
  rw [← cooperate_eq_rounds] at ht
  rw [List.length_replicate, ← Nat.add_assoc m] at hends
  refine ⟨t, ht, .of_log (i := i) hends hdirty (htframe.trans (hframe'.trans hframe)) ?_⟩
  rw [hlog]
  cases sent with
  | false => exact congrArg (stopLog ++ ·) (List.nil_append _)
  | true =>
    have htake : bytes.take (j + 1) = bytes.take j ++ [w.v] := by rw [List.take_add_one, hv]; rfl
    rw [if_pos rfl, if_pos rfl, htake, offers_append, List.append_assoc]
    rfl

/-- A byte that is not acknowledged. -/
theorem failsByte_nak {e : EnvStep} {c : State} (hset : envStep e c = c) (htbf : c.stat.tbf = false)
    (htr : c.stat.trstat = false) (hcol : c.stat.writeCollided = false) (hack : c.stat.ackstat = true) :
    FailsByte e c .nak true (idleActions c + 5 + stopActions e c) := fun v w hist caller =>
  ⟨idleActions c + 5, (c.offered w.v).withDirty true, rfl, by omega, rfl,
    wrbyte_nak_returns (settled_offered hset v) w hist caller htbf htr hcol hack⟩

/-- A byte that meets a byte still queued, a transmission that never ends, or a collision. -/
theorem failsByte_of_stat {e : EnvStep} {c : State} {S : Nat} (hset : envStep e c = c) (hp : 0 < c.params.nXfer)
    (hS : ∀ c' : State, c'.params = c.params → stopActions e c' ≤ S)
    (hfail : c.stat.tbf = true ∨ c.stat.trstat = true ∨ c.stat.writeCollided = true) :
    ∃ r N, r ≠ .ack ∧ r ≠ .nak ∧ N ≤ c.params.nXfer + 10 + S ∧ FailsByte e c r (!c.stat.tbf) N := by
  have hidle := idleActions_le c
  have hclean := hS (c.withDirty true) rfl
  cases htbf : c.stat.tbf with
  | true =>
    exact ⟨.transmitBufferFull, idleActions c + 2 + stopActions e (c.withDirty true), by decide, by decide, by omega,
      fun v w hist caller => ⟨_, (c.offered v).withDirty true, rfl, by omega, rfl,
        wrbyte_full_returns (settled_offered hset v) w hist caller htbf⟩⟩
  | false =>
    cases htr : c.stat.trstat with
    | true =>
      exact ⟨.clockStuck, idleActions c + 3 + c.params.nXfer + stopActions e (c.withDirty true), by decide, by decide,
        by omega, fun v w hist caller => ⟨_, (c.offered w.v).withDirty true, rfl, by omega, rfl,
          wrbyte_stuck_returns (settled_offered hset v) w hist caller htbf htr hp⟩⟩
    | false =>
      have hcol : c.stat.writeCollided = true := by simpa [htbf, htr] using hfail
      have hcycled := hS ((envStep e c.reenabled).withDirty true) rfl
      exact ⟨.busCollision, idleActions c + 7 + stopActions e ((envStep e c.reenabled).withDirty true), by decide, by decide,
        by omega, fun v w hist caller => ⟨_, (envStep e (c.offered w.v).reenabled).withDirty true, rfl, by omega, rfl,
          wrbyte_collides_returns (settled_offered hset v) w hist caller htbf htr hcol⟩⟩

end Sys2Proof.Machine

/-! SUPPORT. WRITE, and READ up to the byte that fails (spec/44_transfers.md R265 to R279): the proofs of O48, O49, O52 and O54. -/

namespace Sys2Proof.Machine

/-! ## From the submission -/

section
variable {s : State} (hcalm : s.stat.calm) (hack : s.stat.ackstat = false)
include hcalm hack

/-- A cooperating controller, from the first round of a command on. -/
theorem answers_accepted (i : Instr) : Answers clearAll (envStep clearAll (s.accepted i)) :=
  answers_clearAll (c := s.accepted i) hcalm hack

variable (hd : s.dirty = false) (hcount : s.count.toNat ≤ 256) (a : BitVec 7) (sub : Byte)
include hd

theorem write_reaches_byte {j : Nat} (hcount : s.count.toNat ≤ 256) (hj : j ≤ s.count.toNat + 1) :
    ReachesByte clearAll (actionsBeforeWriteByte j) (s.begun (.write a sub)) (envStep clearAll (s.accepted (.write a sub)))
      (addrByte a .write :: sub :: bufBytes s.buf s.count.toNat) j (j - 2) := by
  obtain ⟨caller, v, hg, hcomes⟩ := (answers_accepted hcalm hack (.write a sub)).reaches_writeByte hd hcount
    (s.accepted (.write a sub)).work s.hist rfl hj
  exact ⟨caller, v, hg, hcomes.settle rfl (by unfold actionsBeforeWriteByte; omega)⟩

theorem read_reaches_byte {j : Nat} (hj : j ≤ 2) :
    ReachesByte clearAll (actionsBeforeReadByte j) (s.begun (.read a sub)) (envStep clearAll (s.accepted (.read a sub)))
      [addrByte a .write, sub, addrByte a .read] j 0 := by
  obtain ⟨caller, v, hg, hcomes⟩ := (answers_accepted hcalm hack (.read a sub)).reaches_readByte hd
    (s.accepted (.read a sub)).work s.hist rfl hj
  exact ⟨caller, v, hg, hcomes.settle rfl (by unfold actionsBeforeReadByte; split <;> omega)⟩

end

/-! ## WRITE that succeeds -/

section
variable {s : State} (hb : s.busy = false) (hd : s.dirty = false) (hcalm : s.stat.calm) (hack : s.stat.ackstat = false)
  (hcount : s.count.toNat ≤ 256) (a : BitVec 7) (sub : Byte)
include hd hcalm hack hcount

/-- WRITE asks for its final Stop. -/
theorem write_reaches_stop : ∃ v, Comes clearAll (19 + 7 * s.count.toNat) (s.begun (.write a sub))
    (offers (addrByte a .write :: sub :: bufBytes s.buf s.count.toNat))
    ((envStep clearAll (s.accepted (.write a sub))).offered v) [.q1, .t1, .x6] (·.nx = s.count.toNat) := by
  obtain ⟨v, hloop⟩ := (answers_accepted hcalm hack (.write a sub)).comes_x6 hd hcount
    (s.accepted (.write a sub)).work s.hist
  exact ⟨v, hloop.settle rfl (Nat.add_pos_left (by decide) _)⟩

include hb

/-- A WRITE with a cooperating controller and a target that acknowledges. -/
theorem exec_write_ok {n : Nat} (hn : 26 + 7 * s.count.toNat ≤ n) :
    ∃ t v, exec (.write a sub) { s with inputs := cooperate clearAll n } = .next t ∧
      EndsAs s t .ok s.count.toNat (26 + 7 * s.count.toNat)
        (stopLog ++ offers (addrByte a .write :: sub :: bufBytes s.buf s.count.toNat))
        (((envStep clearAll (s.accepted (.write a sub))).offered v).withDirty false) := by
  have hanswers := answers_accepted hcalm hack (.write a sub)
  obtain ⟨v, hloop⟩ := write_reaches_stop hd hcalm hack hcount a sub
  have hoffered := hanswers.offered v
  have hend := hloop.trans (n := 7) (N := 26 + 7 * s.count.toNat) (log' := stopLog)
    (P' := fun w => w.fin = .ok ∧ w.nx = s.count.toNat) (hN := by omega) fun w hist hnx =>
      (hoffered.finalStop (finalStop_write w) hist).mono fun w' hw' => ⟨hw'.1, hw'.2.trans hnx⟩
  obtain ⟨t, ht, hends⟩ := exec_cooperate hb (fun _ => hcount) hend
    (congrArg (State.withDirty false) hoffered.settled) hn (.inr (.inl rfl))
  exact ⟨t, v, ht, hends⟩

end

/-- Settles O48: the bytes one by one, by induction on the index of the data loop, and the final Stop. -/
theorem writeSendsBytes : Obligations.WriteSendsBytes := by
  unfold Obligations.WriteSendsBytes
  intro s a sub n hb hd hcalm hack _ hcount hn
  obtain ⟨t, v, ht, hends⟩ := exec_write_ok hb hd hcalm hack hcount a sub (n := n) (by omega)
  have hframe : t.frame = (s.accepted (.write a sub)).frame := hends.frame
  exact ⟨t, ht, hends.ended, hends.dirty, host_of_frame hframe, (sent_of_notes hends.noted).1,
    brg_of_frame hframe, hends.rcv⟩

/-! ## A byte that is not acknowledged -/

/-- With no request bit set before the Environment's step and no transmission after it, IDLE_CHECK finds an idle controller. -/
theorem idleActions_envStep {e : EnvStep} {c : State} (hc : c.con.requestBits = (false, false, false, false, false))
    (htr : (envStep e c).stat.trstat = false) : idleActions (envStep e c) = 2 := by
  refine idleActions_of_requestBits ?_ htr
  simp only [Con.requestBits, Prod.mk.injEq] at hc
  simp [envStep, Con.afterEnv, Con.requestBits, hc]

/-- A controller that completes every request, but for STOP unless `stops`, and a target that does not acknowledge. -/
abbrev nakStep (stops : Bool) : EnvStep := { clearAll with clrPen := stops, ackstat := some true }

theorem Answers.failsByte_nak {c : State} (h : Answers clearAll c) {N : Nat} (hparams : c.params.nCtl = N) (hp : 0 < N)
    (stops : Bool) :
    FailsByte (nakStep stops) (envStep (nakStep stops) c) .nak true (13 + if stops then 0 else N - 1) := by
  subst hparams
  obtain ⟨htbf, htr, hbcl, hiw, -⟩ := h.calm
  have hidle : idleActions (envStep (nakStep stops) c) = 2 := idleActions_envStep h.requestBits htr
  have hbcl' : (envStep (nakStep stops) c).stat.bcl = false := hbcl
  have hstop : stopActions (nakStep stops) (envStep (nakStep stops) c) = 2 + if stops then 4 else 3 + c.params.nCtl := by
    rw [stopActions, envStep_envStep, hidle, hbcl', if_neg Bool.false_ne_true]
    rfl
  have hfail := Machine.failsByte_nak (envStep_envStep (nakStep stops) c) htbf htr
    (by rw [Stat.writeCollided, hbcl']; exact hiw) rfl
  rw [hidle, hstop] at hfail
  have hN : 2 + 5 + (2 + if stops then 4 else 3 + c.params.nCtl) = 13 + if stops then 0 else c.params.nCtl - 1 := by
    split <;> omega
  rwa [hN] at hfail

/-- Settles O49: the byte is reached with a cooperating controller; the NAK makes WRITE give up, for every byte. -/
theorem writeStopsAtNak : Obligations.WriteStopsAtNak := by
  unfold Obligations.WriteStopsAtNak
  intro s a sub j n stops hb hd hcalm hack ⟨hctl, _, _⟩ hcount hj hn
  have hanswers := answers_accepted hcalm hack (.write a sub)
  obtain ⟨t, ht, hgave⟩ := (write_reaches_byte hcalm hack hd a sub hcount hj).exec_stops hb (fun _ => hcount) rfl
    (hanswers.failsByte_nak (N := s.params.nCtl) rfl hctl stops) (by decide) hctl (n := n) (by split <;> omega)
    (.inr (.inl rfl))
  have hN : actionsBeforeWriteByte j + (13 + (if stops then 0 else s.params.nCtl - 1) + 1) =
      21 + 6 * j + (j - 1) + if stops then 0 else s.params.nCtl - 1 := by unfold actionsBeforeWriteByte; omega
  have hends := hgave.ended
  simp only [true_and] at hends
  exact ⟨t, ht, hN ▸ hends, hgave.dirty, hgave.host, hgave.sent, hgave.brg⟩

/-- Settles O52: as for WRITE, for READ's three bytes. -/
theorem readStopsAtNak : Obligations.ReadStopsAtNak := by
  unfold Obligations.ReadStopsAtNak
  intro s a sub j n stops hb hd hcalm hack ⟨hctl, _, _⟩ hcount hj hn
  have hanswers := answers_accepted hcalm hack (.read a sub)
  obtain ⟨t, ht, hgave⟩ := (read_reaches_byte hcalm hack hd a sub hj).exec_stops hb (fun _ => hcount) rfl
    (hanswers.failsByte_nak (N := s.params.nCtl) rfl hctl stops) (by decide) hctl (n := n) (by split <;> omega) (.inl rfl)
  have hN : actionsBeforeReadByte j + (13 + (if stops then 0 else s.params.nCtl - 1) + 1) =
      actionsBeforeReadByte j + 14 + if stops then 0 else s.params.nCtl - 1 := by omega
  have hends := hgave.ended
  simp only [true_and] at hends
  exact ⟨t, ht, hN ▸ hends, hgave.dirty, hgave.host, hgave.stops, hgave.sent, hgave.brg⟩

/-! ## A byte that fails otherwise -/

/-- What the four steps have in common. -/
theorem byteFailures_stat {e : EnvStep} (he : e ∈ byteFailures) {st : Stat} (htbf : st.tbf = false) :
    e.clrPen = true ∧ (st.afterEnv e).tbf = decide (e.tbf = some true) ∧
      ((st.afterEnv e).tbf = true ∨ (st.afterEnv e).trstat = true ∨ (st.afterEnv e).writeCollided = true) := by
  simp only [byteFailures, List.mem_cons, List.not_mem_nil, or_false] at he
  obtain rfl | rfl | rfl | rfl := he <;> simp [Stat.afterEnv, Stat.writeCollided, clearAll, htbf]

theorem Answers.failsByte {e : EnvStep} {c : State} (h : Answers clearAll c) (he : e ∈ byteFailures) {X : Nat}
    (hparams : c.params.nXfer = X) (hp : 0 < X) :
    ∃ r N, r ≠ .ack ∧ r ≠ .nak ∧ N ≤ X + 18 ∧ FailsByte e (envStep e c) r (!decide (e.tbf = some true)) N := by
  subst hparams
  obtain ⟨hclr, htbf, hstat⟩ := byteFailures_stat he h.calm.1
  rw [← htbf]
  exact failsByte_of_stat (S := 8) (envStep_envStep e c) hp (fun c' _ => stopActions_le_of_clears c' hclr) hstat

theorem take_sent {e : EnvStep} (bytes : List Byte) (j : Nat) :
    bytes.take (if (!decide (e.tbf = some true)) = true then j + 1 else j) =
      bytes.take (if e.tbf = some true then j else j + 1) := by
  by_cases h : e.tbf = some true <;> simp [h]

/-- Settles O54: every byte is reached with a cooperating controller, and each of the four failures makes the transfer give
up. -/
theorem transferStopsAtByte : Obligations.TransferStopsAtByte := by
  unfold Obligations.TransferStopsAtByte
  intro e he s a sub j n hb hd hcalm hack ⟨hctl, hxfer, _⟩ hcount hn
  refine ⟨fun hj => ?_, fun hj => ?_⟩
  · obtain ⟨r, N, hrack, hrnak, hN, hfail⟩ :=
      (answers_accepted hcalm hack (.read a sub)).failsByte he (X := s.params.nXfer) rfl hxfer
    obtain ⟨t, ht, hgave⟩ := (read_reaches_byte hcalm hack hd a sub hj).exec_stops hb (fun _ => hcount) rfl hfail hrack hctl
      (n := n) (by omega) (.inl rfl)
    rw [take_sent, if_neg fun h => hrnak h.1] at hgave
    exact ⟨t, ht, ⟨_, hgave.ended⟩, hgave.dirty, hgave.host, hgave.stops, hgave.sent⟩
  · obtain ⟨r, N, hrack, hrnak, hN, hfail⟩ :=
      (answers_accepted hcalm hack (.write a sub)).failsByte he (X := s.params.nXfer) rfl hxfer
    obtain ⟨t, ht, hgave⟩ := (write_reaches_byte hcalm hack hd a sub hcount hj).exec_stops hb (fun _ => hcount) rfl hfail
      hrack hctl (n := n) (by omega) (.inr (.inl rfl))
    rw [take_sent, if_neg fun h => hrnak h.1] at hgave
    exact ⟨t, ht, ⟨_, hgave.ended⟩, hgave.dirty, hgave.host, hgave.stops, hgave.sent⟩

end Sys2Proof.Machine

/-! SUPPORT. The START, the repeated start or the address byte that fails (spec/44_transfers.md R262, R267, R277): the proofs of O53 and O55. -/

namespace Sys2Proof.Machine

/-! ## The repeated start -/

/-- The registers READ asks for its repeated start with, once the Environment has taken its next step e. -/
def State.atRstart (e : EnvStep) (a : BitVec 7) (sub : Byte) (s : State) : State :=
  envStep e ((envStep clearAll (s.accepted (.read a sub))).offered sub)

section
variable {s : State} (hd : s.dirty = false) (hcalm : s.stat.calm) (hack : s.stat.ackstat = false) (a : BitVec 7) (sub : Byte)
include hd hcalm hack

/-- READ asks for its repeated start. -/
theorem read_reaches_rstart : Comes clearAll 19 (s.begun (.read a sub)) (offers [addrByte a .write, sub])
    ((envStep clearAll (s.accepted (.read a sub))).offered sub) [.q1, .g1, .d5] (·.nx = 0) :=
  ((answers_accepted hcalm hack (.read a sub)).comes_d5 hd (s.accepted (.read a sub)).work s.hist).settle rfl (by decide)

variable (hb : s.busy = false) (hcount : s.count.toNat ≤ 256)
include hb hcount

/-- READ whose repeated start fails after m actions, with a Stop of 7. -/
theorem exec_read_rstart_fails {e : EnvStep} {c' : State} {m n : Nat} {r : Result}
    (hret : ∀ w hist, ReturnsIn e m ((s.atRstart e a sub).placed [.q1, .g1, .d5] w hist) [] c' .d5 r w)
    (hr : r ≠ .ok) (hframe : c'.frame = (s.accepted (.read a sub)).frame) (hp : 0 < s.params.nCtl)
    (hstop : stopActions e c' = 7) (hm : 0 < m) (hn : m + 8 ≤ n) :
    ∃ t, exec (.read a sub) { s with inputs := cooperate clearAll 19 ++ cooperate e n } = .next t ∧
      GaveUp s t .commFail 0 (m + 27) [addrByte a .write, sub] := by
  obtain ⟨w, hist, hnx, hrounds⟩ := read_reaches_rstart hd hcalm hack a sub
  have hfixed := fixed_of_frame hframe
  have hparams : c'.params = s.params := params_of_fixed (s := s.accepted (.read a sub)) hfixed
  have hlatch : c'.latch = (s.accepted (.read a sub)).latch := latch_of_fixed hfixed
  obtain ⟨t, ht, hends, hdirty, htframe, hlog⟩ := exec_givesUp hb (fun _ => hcount) hrounds ((hret w hist).settle rfl hm)
    (givesUp_rstart hr) (hparams ▸ hp) (n := n) (by omega) (.inl (by rw [hlatch]; rfl))
  rw [← cooperate_eq_rounds] at ht
  rw [hnx, hstop, List.length_replicate, Nat.add_comm, Nat.add_assoc] at hends
  exact ⟨t, ht, .of_log hends hdirty (htframe.trans hframe) hlog⟩

end

theorem idleActions_atRstart {s : State} (htr : s.stat.trstat = false) {e : EnvStep} (he : e.trstat = none) (a : BitVec 7)
    (sub : Byte) : idleActions (s.atRstart e a sub) = 2 := by
  refine idleActions_envStep (clearAll_clearsAll.requestBits _) ?_
  show e.trstat.getD s.stat.trstat = false
  rw [he]
  exact htr

/-- With every request bit cleared and a collision that stays reported, STOP takes 7 actions. -/
theorem stopActions_of_bcl {e : EnvStep} {c : State} (he : e.ClearsAll) (hbcl : e.bcl = some true)
    (htr : (envStep e c).stat.trstat = false) : stopActions e c = 7 := by
  have hidle : idleActions (envStep e c) = 2 := idleActions_of_requestBits (he.requestBits _) htr
  have hbcl' : (envStep e c).stat.bcl = true := by simp [envStep, Stat.afterEnv, hbcl]
  rw [stopActions, hidle, if_pos hbcl']

/-- With RSEN still 1 the Stop finds the controller not idle, and completes. -/
theorem stopActions_of_rsen {e : EnvStep} {c : State} (hclr : e.clrRsen = false) (hpen : e.clrPen = true)
    (hrsen : c.con.rsen = true) (hbcl : (envStep e c).stat.bcl = false) : stopActions e c = 7 := by
  have hidle : idleActions (envStep e c) = 3 := by simp [idleActions, notIdle, envStep, Con.afterEnv, hclr, hrsen]
  rw [stopActions, hidle, if_neg (ne_true_of_eq_false hbcl), if_pos hpen]

/-- Settles O53: a collision at the first check, or the poll's timeout; READ gives up before the read address. -/
theorem readStopsAtRstart : Obligations.ReadStopsAtRstart := by
  unfold Obligations.ReadStopsAtRstart
  intro s a sub n collides hb hd hcalm hack ⟨hctl, _, _⟩ hcount hn
  obtain ⟨-, htr, hbcl, -, -⟩ := id hcalm
  have hset : envStep (failingRequest .rsen collides) (s.atRstart (failingRequest .rsen collides) a sub) = _ :=
    envStep_envStep ..
  have hidle := idleActions_atRstart htr (e := failingRequest .rsen collides) rfl a sub
  cases collides with
  | true =>
    have hret w hist := request_collides hset .rstart w hist .d5 rfl rfl
    rw [hidle] at hret
    obtain ⟨t, ht, hgave⟩ := exec_read_rstart_fails hd hcalm hack a sub hb hcount hret (by decide) rfl hctl
      (stopActions_of_bcl ⟨rfl, rfl, rfl, rfl, rfl⟩ rfl htr) (by decide) (n := n) (by omega)
    exact ⟨t, ht, hgave.ended, hgave.dirty, hgave.host, hgave.stops, hgave.sent, hgave.brg⟩
  | false =>
    have hret w hist := request_stuck hset .rstart w hist .d5 rfl hbcl hctl
    rw [hidle] at hret
    obtain ⟨t, ht, hgave⟩ := exec_read_rstart_fails hd hcalm hack a sub hb hcount hret (by decide) rfl hctl
      (stopActions_of_rsen rfl rfl rfl hbcl) (Nat.add_pos_right _ hctl) (n := n)
      (by show 2 + 3 + s.params.nCtl + 8 ≤ n; omega)
    have hN : 2 + 3 + s.params.nCtl + 27 = 32 + s.params.nCtl := by omega
    exact ⟨t, ht, hN ▸ hgave.ended, hgave.dirty, hgave.host, hgave.stops, hgave.sent, hgave.brg⟩

/-! ## START or the address byte, for the three transfers -/

/-- The command of a transfer. -/
def Transfer.instr (x : Transfer) (a : BitVec 7) (sub : Byte) : Instr :=
  match x with
  | .poll => .poll a
  | .read => .read a sub
  | .write => .write a sub

/-- START completes in c: the address byte is reached. -/
theorem Comes.reaches_addr {e : EnvStep} {k : Nat} {s c : State} {x : Transfer} {a : BitVec 7}
    (h : Comes e k s [] c [.q1, .s1, x.lines.start] (·.nx = 0)) (hset : envStep e c = c) (haddr : c.latch.addr7 = a)
    (hsen : e.clrSen = true) (hbcl : c.stat.bcl = false) :
    ReachesByte e (k + (idleActions c + 4)) s c [addrByte a .write] 0 0 := by
  refine ⟨x.lines.addr, c.trn, givesUp_first (x := x), h.trans (log' := []) (hN := rfl) fun w hist hnx => ?_⟩
  refine ((request_returns hset .start w hist x.lines.start hsen hbcl).comes_addr x).mono fun w' ⟨hv, hnx'⟩ => ?_
  rw [hv, haddr]
  exact ⟨rfl, hnx'.trans hnx⟩

theorem cooperate_add (e : EnvStep) (k n : Nat) : cooperate e k ++ cooperate e n = cooperate e (k + n) := by
  simp only [cooperate_eq_rounds, ← rounds_append, List.replicate_append_replicate]

theorem stopActions_le_of_params (e : EnvStep) {c c' : State} (h : c'.params = c.params) (hp : 0 < c.params.nCtl) :
    stopActions e c' ≤ c.params.nCtl + 8 := h ▸ stopActions_le e (h ▸ hp)

/-- A request that collides, or whose bit the Environment does not clear, fails. -/
theorem request_fails {e : EnvStep} {q : Request} {c : State} (hset : envStep e c = c) (w : Work) (hist : List Action)
    (caller : Label) (hp : 0 < c.params.nCtl) (hfail : c.stat.bcl = true ∨ e.clears q.lines.field = false) :
    ∃ r m c', r ≠ .ok ∧ c'.frame = c.frame ∧
      ReturnsIn e m (c.placed [.q1, q.lines.call, caller] w hist) q.log c' caller r w ∧ m ≤ c.params.nCtl + 8 := by
  have hidle := idleActions_le c
  cases hbcl : c.stat.bcl with
  | true =>
    exact ⟨_, _, _, by decide, by simp,
      request_collides hset q w hist caller rfl (by rw [envStep_withField_stat, hset]; exact hbcl), by omega⟩
  | false =>
    exact ⟨_, _, _, by decide, by simp,
      request_stuck hset q w hist caller (hfail.resolve_left (ne_true_of_eq_false hbcl)) hbcl hp, by omega⟩

section
variable {e : EnvStep} {s : State} (x : Transfer) (a : BitVec 7) (sub : Byte)

theorem begun_transfer : s.begun (x.instr a sub) =
    (s.accepted (x.instr a sub)).placed [x.lines.first] (s.accepted (x.instr a sub)).work s.hist := by
  cases x <;> rfl

section
variable (hd : s.dirty = false)
include hd

theorem transfer_reaches_start : Comes e 1 (s.begun (x.instr a sub)) [] (envStep e (s.accepted (x.instr a sub)))
    [.q1, .s1, x.lines.start] (·.nx = 0) := by
  rw [begun_transfer]
  exact comes_start x _ _ rfl hd

/-- START completes: the address byte is reached. -/
theorem transfer_reaches_addr (hsen : e.clrSen = true) (hbcl : (envStep e (s.accepted (x.instr a sub))).stat.bcl = false) :
    ReachesByte e (1 + (idleActions (envStep e (s.accepted (x.instr a sub))) + 4)) (s.begun (x.instr a sub))
      (envStep e (s.accepted (x.instr a sub))) [addrByte a .write] 0 0 :=
  (transfer_reaches_start x a sub hd).reaches_addr (envStep_envStep _ _) (by cases x <;> rfl) hsen hbcl

variable (hb : s.busy = false) (hcount : s.count.toNat ≤ 256) (hp : 0 < s.params.nCtl)
include hb hcount hp

/-- START fails: the transfer gives up with nothing sent. -/
theorem exec_start_fails {n : Nat} (hn : 2 * s.params.nCtl + 18 ≤ n)
    (hfail : (envStep e (s.accepted (x.instr a sub))).stat.bcl = true ∨ e.clrSen = false) :
    ∃ t N, exec (x.instr a sub) { s with inputs := cooperate e n } = .next t ∧ GaveUp s t .commFail 0 N [] := by
  obtain ⟨w, hist, hnx, hrounds⟩ := transfer_reaches_start (e := e) x a sub hd
  have hset := envStep_envStep e (s.accepted (x.instr a sub))
  obtain ⟨r, m, c', hr, hframe, hret, hm⟩ := request_fails (q := .start) hset w hist x.lines.start hp hfail
  have hparams : c'.params = s.params := params_of_fixed (s := s.accepted (x.instr a sub)) (fixed_of_frame hframe)
  have hstop := stopActions_le_of_params e (c := s) hparams hp
  have hm' : m ≤ s.params.nCtl + 8 := hm
  obtain ⟨t, ht, hends, hdirty, htframe, hlog⟩ := exec_givesUp hb (fun _ => hcount) hrounds hret (givesUp_start x hr)
    (hparams ▸ hp) (n := n - 1) (by omega) (.inr (.inr hnx))
  rw [← cooperate_eq_rounds, cooperate_add, Nat.add_sub_cancel' (by omega)] at ht
  rw [hnx] at hends
  exact ⟨t, _, ht, .of_log hends hdirty (htframe.trans hframe) hlog⟩

/-- START completes and the address byte fails. -/
theorem exec_addr_fails {n N : Nat} {r : Result} {sent : Bool} (hsen : e.clrSen = true)
    (hbcl : (envStep e (s.accepted (x.instr a sub))).stat.bcl = false)
    (hfail : FailsByte e (envStep e (s.accepted (x.instr a sub))) r sent N) (hr : r ≠ .ack) (hn : N + 9 ≤ n) :
    ∃ t M, exec (x.instr a sub) { s with inputs := cooperate e n } = .next t ∧
      GaveUp s t (if r = .nak then .badAddr else .commFail) 0 M (if sent then [addrByte a .write] else []) := by
  have hidle := idleActions_le (envStep e (s.accepted (x.instr a sub)))
  have hset := envStep_envStep e (s.accepted (x.instr a sub))
  rw [← hset] at hfail
  obtain ⟨t, ht, hgave⟩ := (transfer_reaches_addr x a sub hd hsen hbcl).exec_stops hb (fun _ => hcount) rfl hfail hr hp
    (n := n - (1 + (idleActions (envStep e (s.accepted (x.instr a sub))) + 4))) (by omega) (.inr (.inr rfl))
  rw [cooperate_add, Nat.add_sub_cancel' (by omega)] at ht
  simp only [and_true] at hgave
  refine ⟨t, 1 + (idleActions (envStep e (s.accepted (x.instr a sub))) + 4) + (N + 1), ht, ?_⟩
  cases sent with
  | true => exact hgave
  | false => exact hgave

end

end

/-- A controller that completes every request, but for START unless `starts` and for STOP unless `stops`. -/
abbrev startStep (starts stops : Bool) : EnvStep := { clearAll with clrSen := starts, clrPen := stops }

/-- With no collision, a byte that fails by the status bits, or is not acknowledged. -/
theorem failsByte_of_addressFails {e : EnvStep} {c : State} {S : Nat} (hset : envStep e c = c) (hbcl : c.stat.bcl = false)
    (hp : 0 < c.params.nXfer) (hS : ∀ c' : State, c'.params = c.params → stopActions e c' ≤ S)
    (hfails : addressFails c.stat true = true ∨ c.stat.ackstat = true) :
    ∃ r N, r ≠ .ack ∧ (r = .nak ↔ ¬addressFails c.stat true = true) ∧ N ≤ c.params.nXfer + 10 + S ∧
      FailsByte e c r (!c.stat.tbf) N := by
  by_cases hstat : c.stat.tbf = true ∨ c.stat.trstat = true ∨ c.stat.writeCollided = true
  · obtain ⟨r, N, hrack, hrnak, hN, hfail⟩ := failsByte_of_stat hset hp hS hstat
    have haddr : addressFails c.stat true = true := by
      simpa [addressFails, Stat.writeCollided, hbcl, or_assoc] using hstat
    exact ⟨r, N, hrack, iff_of_false hrnak (not_not_intro haddr), hN, hfail⟩
  · simp only [not_or, Bool.not_eq_true] at hstat
    obtain ⟨htbf, htr, hcol⟩ := hstat
    have hiw : c.stat.iwcol = false := by simpa [Stat.writeCollided, hbcl] using hcol
    have haddr : ¬addressFails c.stat true = true := by simp [addressFails, hbcl, htbf, htr, hiw]
    have hidle := idleActions_le c
    have hstop := hS c rfl
    rw [htbf]
    exact ⟨.nak, _, by decide, iff_of_true rfl haddr, by omega,
      failsByte_nak hset htbf htr hcol (hfails.resolve_left haddr)⟩

/-- Settles O55: START fails by its status bits, or the address byte does; in both cases the transfer gives up. -/
theorem addressPhaseFails : Obligations.AddressPhaseFails := by
  unfold Obligations.AddressPhaseFails
  intro s a sub n starts stops hb hd ⟨hctl, hxfer, _⟩ hcount hn hfails i hi
  obtain ⟨x, rfl⟩ : ∃ x : Transfer, i = x.instr a sub := by
    simp only [List.mem_cons, List.not_mem_nil, or_false] at hi
    obtain rfl | rfl | rfl := hi
    exacts [⟨.poll, rfl⟩, ⟨.read, rfl⟩, ⟨.write, rfl⟩]
  by_cases hstart : s.stat.bcl = true ∨ starts = false
  · obtain ⟨t, N, ht, hgave⟩ := exec_start_fails x a sub hd hb hcount hctl (e := startStep starts stops) (n := n) (by omega)
      hstart
    have haddr : addressFails s.stat starts = true := by simp [addressFails, or_assoc]; tauto
    have hnone : (s.stat.bcl || !starts || s.stat.tbf) = true := by simp; tauto
    rw [if_pos haddr, if_pos hnone]
    exact ⟨t, ht, ⟨N, hgave.ended⟩, hgave.dirty, hgave.host, hgave.stops, hgave.sent⟩
  · obtain ⟨hbcl, rfl⟩ : s.stat.bcl = false ∧ starts = true := by simpa using hstart
    have hstat : (envStep (startStep true stops) (s.accepted (x.instr a sub))).stat = s.stat := rfl
    obtain ⟨r, N, hrack, hrnak, hN, hfail⟩ := failsByte_of_addressFails (S := s.params.nCtl + 8)
      (envStep_envStep (startStep true stops) (s.accepted (x.instr a sub))) hbcl hxfer
      (fun c' hc' => stopActions_le_of_params (c := s) _ hc' hctl) hfails
    rw [hstat] at hrnak hfail
    have hN' : N ≤ s.params.nXfer + 10 + (s.params.nCtl + 8) := hN
    obtain ⟨t, M, ht, hgave⟩ := exec_addr_fails x a sub hd hb hcount hctl (e := startStep true stops) rfl hbcl hfail hrack
      (n := n) (by omega)
    simp only [hrnak, ite_not] at hgave
    refine ⟨t, ht, ⟨M, hgave.ended⟩, hgave.dirty, hgave.host, hgave.stops, ?_⟩
    rw [hgave.sent, hbcl]
    cases s.stat.tbf <;> rfl

end Sys2Proof.Machine

/-! SUPPORT. READ's data loop (spec/44_transfers.md R265, R266, R268): the bytes one by one, as they stand in RCV. -/

namespace Sys2Proof.Machine

/-! ## One byte -/

/-- The bytes `got` stand in BUF, the rest of BUF and the other registers no READ writes are as in s, the bus is clean and the
controller calm. -/
structure Reading (s c : State) (got : List Byte) : Prop where
  fixed : c.fixed = s.fixed
  dirty : c.dirty = false
  calm : c.stat.calm
  acked : c.stat.ackstat = false
  wf : Memory.wf c.buf = true
  stands : bufBytes c.buf got.length = got
  rest : ∀ x, got.length ≤ x → Memory.read c.buf x = Memory.read s.buf x

/-- The byte stands in RCV. -/
abbrev sendStep (b : Byte) : EnvStep := { clearAll with rbf := some true, rcv := some b }

theorem sendStep_clearsAll (b : Byte) : (sendStep b).ClearsAll := ⟨rfl, rfl, rfl, rfl, rfl⟩

/-- Where the Environment sets RBF it is as if RCV had not been read. -/
theorem envStep_emptied {e : EnvStep} (h : e.rbf = some true) (c : State) : envStep e c.emptied = envStep e c := by
  simp [envStep, State.emptied, Stat.afterEnv, h]

/-- BUF[k] is b. -/
def State.stored (k : Nat) (b : Byte) (c : State) : State := { c with buf := Memory.write c.buf k b }

theorem bufBytes_write {m : Memory} (hm : Memory.wf m = true) {k n : Nat} (hn : n ≤ k) (b : Byte) :
    bufBytes (Memory.write m k b) n = bufBytes m n :=
  List.map_congr_left fun i hi => Memory.read_write_other hm (by have := List.mem_range.mp hi; omega) b

/-- A byte received and stored, over rounds that leave the status bits of a calm controller but RBF. -/
theorem Reading.stored {s c : State} {got : List Byte} (h : Reading s c got) (hcap : got.length < 256) (b : Byte)
    (ack : Bool) : Reading s (((envStep (sendStep b) c).answering ack).stored got.length b) (got ++ [b]) where
  fixed := h.fixed
  dirty := h.dirty
  calm := h.calm
  acked := h.acked
  wf := Memory.write_wf h.wf hcap b
  stands := by
    have hwrite : bufBytes (Memory.write c.buf got.length b) (got.length + 1) = got ++ [b] := by
      rw [bufBytes_succ, bufBytes_write h.wf le_rfl, h.stands, Memory.read_write_same h.wf]
    rw [List.length_append]
    exact hwrite
  rest x hx := by
    rw [List.length_append, List.length_singleton] at hx
    exact (Memory.read_write_other h.wf (by omega) b).trans (h.rest x (by omega))

/-- D7b: the byte is stored. -/
theorem act_d7b_placed {c : State} {w : Work} {k : Nat} (hi : w.i = k) (hcap : k < 256) (hist : List Action) :
    ∃ w', act (c.placed [.d7b] w hist) =
        .next ((c.stored k w.b).placed (readHead c.latch.count.toNat (k + 1)) w' (.memWrite k w.b :: hist)) ∧
      AtReadHead c.latch.count.toNat (k + 1) w' := by
  subst hi
  obtain ⟨w', hloop, hhead⟩ := readLoop_placed (c.stored w.i w.b) .d7b (w := { w with i := w.i + 1, nx := w.i + 1 })
    (.memWrite w.i w.b :: hist) rfl rfl
  refine ⟨w', ?_, hhead⟩
  have hwrite : memWrite (c.placed [.d7b] w hist) = .next ((c.stored w.i w.b).placed [.d7b] w (.memWrite w.i w.b :: hist)) :=
    if_pos (decide_eq_true hcap)
  exact (congrArg (andThen · fun t => .next t.nextByte.readLoop) hwrite).trans (congrArg Host.Outcome.next hloop)

/-- RDBYTE and D7b. -/
theorem Reading.comes_byte {s c : State} {got : List Byte} (h : Reading s c got) (hk : got.length < c.latch.count.toNat)
    (hcap : c.latch.count.toNat ≤ 256) (b : Byte) {w : Work} (hw : AtReadHead c.latch.count.toNat got.length w)
    (hist : List Action) : ∃ c', Reading s c' (got ++ [b]) ∧
      Comes (sendStep b) 10 (c.placed (readHead c.latch.count.toNat got.length) w hist)
        [.writeCon .ackdt (!decide (got.length + 1 < c.latch.count.toNat))] c' (readHead c.latch.count.toNat (got.length + 1))
        (AtReadHead c.latch.count.toNat (got.length + 1)) := by
  obtain ⟨hi, -, hack⟩ := hw
  obtain ⟨-, htr, -, -, hov⟩ := h.calm
  have hset := envStep_envStep (sendStep b) c
  have hidle : idleActions (envStep (sendStep b) c) = 2 :=
    idleActions_of_requestBits ((sendStep_clearsAll b).requestBits _) htr
  have hret := rdbyte_byte_returns hset w hist .d7a rfl rfl rfl hov
  rw [hidle, hack hk] at hret
  have hhead : readHead c.latch.count.toNat got.length = [.q1, .b1, .d7a] := if_pos hk
  rw [hhead]
  refine ⟨_, h.stored (by omega) b (decide (got.length + 1 < c.latch.count.toNat)), ?_⟩
  have hd7b := (hret.settle (c₀ := c) rfl (by decide)).comes (st := [.d7b]) (P := fun w' => w'.i = got.length ∧ w'.b = b)
    fun w' hist hw' => ⟨{ w' with r := .byte b, b := b }, rfl, (Work.base_i hw').trans hi, rfl⟩
  refine hd7b.trans (n := 1) (log' := []) fun w' hist ⟨hi', hb⟩ => ?_
  obtain ⟨w'', hact, hhead'⟩ := act_d7b_placed
    (c := (envStep (sendStep b) c).answering (decide (got.length + 1 < c.latch.count.toNat))) hi' (by omega) hist
  subst hb
  exact .of_act ((envStep_emptied rfl _).trans (settled_answering hset _)) (.memWrite got.length w'.b) hact hhead'

/-! ## The loop -/

/-- The rounds of the bytes. -/
def sendRounds (bytes : List Byte) : List EnvStep := bytes.flatMap fun b => List.replicate 10 (sendStep b)

/-- The answers to the bytes i, i + 1, … of a READ of `count` bytes: NAK for the last alone. -/
def ackBits (count i n : Nat) : List Bool := (List.range' i n).map fun k => !decide (k + 1 < count)

theorem Reading.passes_bytes {s : State} (hcap : s.latch.count.toNat ≤ 256) (bytes : List Byte) {c : State} {got : List Byte}
    (h : Reading s c got) (hlen : got.length + bytes.length ≤ s.latch.count.toNat) {w : Work}
    (hw : AtReadHead s.latch.count.toNat got.length w) (hist : List Action) : ∃ c' w' hist', Reading s c' (got ++ bytes) ∧
      AtReadHead s.latch.count.toNat (got.length + bytes.length) w' ∧
      Passes (sendRounds bytes) (c.placed (readHead s.latch.count.toNat got.length) w hist)
        (answers (ackBits s.latch.count.toNat got.length bytes.length))
        (c'.placed (readHead s.latch.count.toNat (got.length + bytes.length)) w' hist') := by
  induction bytes generalizing c got w hist with
  | nil => exact ⟨c, w, hist, by rwa [List.append_nil], hw, .refl _⟩
  | cons b bytes ih =>
    rw [List.length_cons] at hlen
    have hlatch : c.latch = s.latch := latch_of_fixed h.fixed
    obtain ⟨c₁, h₁, w₁, hist₁, hw₁, hbyte⟩ := h.comes_byte (by rw [hlatch]; omega) (hlatch ▸ hcap) b (hlatch ▸ hw) hist
    rw [hlatch] at hbyte hw₁
    have hlen₁ : (got ++ [b]).length = got.length + 1 := by simp
    obtain ⟨c', w', hist', h', hw', hrest⟩ := ih h₁ (by omega) (hlen₁ ▸ hw₁) hist₁
    have hindex : (got ++ [b]).length + bytes.length = got.length + (bytes.length + 1) := by omega
    rw [hindex, hlen₁] at hrest
    rw [hindex] at hw'
    refine ⟨c', w', hist', by rwa [List.append_assoc] at h', hw', ?_⟩
    have hbits : answers (ackBits s.latch.count.toNat got.length (bytes.length + 1)) =
        answers (ackBits s.latch.count.toNat (got.length + 1) bytes.length) ++
          [.writeCon .ackdt (!decide (got.length + 1 < s.latch.count.toNat))] := by
      simp [answers, ackBits, List.range'_succ]
    rw [List.length_cons, hbits]
    exact Passes.trans hbyte hrest

/-! ## From the submission -/

/-- The rounds of `receives`. -/
def receiveRounds (bytes : List Byte) : List EnvStep := List.replicate 31 clearAll ++ sendRounds bytes

theorem receives_eq_rounds (bytes : List Byte) : receives bytes = rounds (receiveRounds bytes) := by
  rw [receives, receiveRounds, rounds_append, cooperate_eq_rounds, sendRounds, rounds, rounds, List.flatMap_assoc]
  simp only [cooperate_eq_rounds, rounds]

theorem receiveRounds_length (bytes : List Byte) : (receiveRounds bytes).length = 31 + 10 * bytes.length := by
  rw [receiveRounds, List.length_append, List.length_replicate, sendRounds, List.length_flatMap]
  simp [Nat.mul_comm]

/-- READ receives the bytes and stands before the next one, or before its final Stop. -/
theorem read_receives {s : State} (hd : s.dirty = false) (hcalm : s.stat.calm) (hack : s.stat.ackstat = false)
    (hwf : Memory.wf s.buf = true) (hcount : s.count.toNat ≤ 256) (a : BitVec 7) (sub : Byte) {bytes : List Byte}
    (hlen : bytes.length ≤ s.count.toNat) : ∃ c w hist, Reading (s.accepted (.read a sub)) c bytes ∧
      AtReadHead s.count.toNat bytes.length w ∧
      Passes (receiveRounds bytes) (s.begun (.read a sub))
        (answers (ackBits s.count.toNat 0 bytes.length) ++ offers [addrByte a .write, sub, addrByte a .read])
        (c.placed (readHead s.count.toNat bytes.length) w hist) := by
  obtain ⟨w₀, hist₀, hw₀, hstart⟩ := ((answers_accepted hcalm hack (.read a sub)).comes_readLoop hd
    (s.accepted (.read a sub)).work s.hist).settle rfl (by decide)
  have hnone : Reading (s.accepted (.read a sub))
      ((envStep clearAll (s.accepted (.read a sub))).offered (addrByte a .read)) [] :=
    ⟨rfl, hd, hcalm, hack, hwf, rfl, fun _ _ => rfl⟩
  obtain ⟨c, w, hist, hc, hw, hbytes⟩ := hnone.passes_bytes (s := s.accepted (.read a sub)) hcount bytes
    (by rwa [List.length_nil, Nat.zero_add]) hw₀ hist₀
  rw [List.length_nil, Nat.zero_add] at hbytes hw
  exact ⟨c, w, hist, hc, hw, Passes.trans hstart hbytes⟩

end Sys2Proof.Machine

/-! SUPPORT. READ that succeeds, and READ whose target stops sending (spec/44_transfers.md R265 to R269): the proofs of O47, O50 and O51. -/

namespace Sys2Proof.Machine

/-! ## What READ leaves -/

/-- The bytes READ stored, and what it left alone, told of an ending with the registers of c. -/
structure Received (s t : State) (bytes : List Byte) : Prop where
  cmd : t.cmd = s.cmd
  count : t.count = s.count
  brg : t.brg = s.brg
  stands : bufBytes t.buf bytes.length = bytes
  rest : ∀ x, bytes.length ≤ x → Memory.read t.buf x = Memory.read s.buf x

theorem Reading.received {i : Instr} {s c t : State} {bytes : List Byte} (h : Reading (s.accepted i) c bytes)
    (hframe : t.frame = c.frame) : Received s t bytes := by
  have hfixed : t.fixed = (s.accepted i).fixed := (fixed_of_frame hframe).trans h.fixed
  have hbuf := buf_of_frame hframe
  exact ⟨cmd_of_fixed (s := s.accepted i) hfixed, count_of_fixed (s := s.accepted i) hfixed,
    brg_of_fixed (s := s.accepted i) hfixed,  hbuf ▸ h.stands, hbuf ▸ h.rest⟩

/-- Only the last byte of a whole READ is answered with NAK. -/
theorem ackBits_whole (n : Nat) : ackBits n 0 n = (List.range n).map fun i => decide (i + 1 = n) := by
  rw [ackBits, ← List.range_eq_range']
  refine List.map_congr_left fun i hi => ?_
  have := List.mem_range.mp hi
  by_cases h : i + 1 < n <;> simp [h] <;> omega

/-! ## READ that succeeds -/

section
variable {s : State} (hb : s.busy = false) (hd : s.dirty = false) (hcalm : s.stat.calm) (hack : s.stat.ackstat = false)
  (hwf : Memory.wf s.buf = true) (hcount : s.count.toNat ≤ 256) (a : BitVec 7) (sub : Byte) {bytes : List Byte}
include hb hd hcalm hack hwf hcount

/-- A READ whose target sends every byte. -/
theorem exec_read_ok (hlen : bytes.length = s.count.toNat) :
    ∃ t, exec (.read a sub) { s with inputs := sends bytes } = .next t ∧
      Ended s t .ok bytes.length (38 + 10 * bytes.length) ∧ t.dirty = false ∧ Received s t bytes ∧
      notes (s.since t) = stopLog ++
        (answers (ackBits s.count.toNat 0 bytes.length) ++ offers [addrByte a .write, sub, addrByte a .read]) := by
  obtain ⟨c, w, hist, hc, ⟨-, hnx, -⟩, hpasses⟩ := read_receives hd hcalm hack hwf hcount a sub hlen.le
  have hhead : readHead s.count.toNat bytes.length = [.q1, .t1, .d8] := if_neg (by omega)
  rw [hhead] at hpasses
  have hanswers : Answers clearAll (envStep clearAll c) := answers_clearAll hc.calm hc.acked
  have hstop := ((hanswers.finalStop (finalStop_read w) hist).settle rfl (by decide)).mono
    (P' := fun w' => w'.fin = .ok ∧ w'.nx = bytes.length) fun w' hw' => ⟨hw'.1, hw'.2.trans hnx⟩
  have hlatch : c.latch = (s.accepted (.read a sub)).latch := latch_of_fixed hc.fixed
  obtain ⟨t, ht, hends⟩ := exec_of_comes hb (fun _ => hcount) hpasses hstop (n := 8) (by decide)
    (.inl (congrArg Latch.op hlatch))
  refine ⟨t, ?_, ?_, hends.dirty, hc.received hends.frame, hends.noted⟩
  · rw [sends, receives_eq_rounds]
    exact ht
  · have hN : (receiveRounds bytes).length + 7 = 38 + 10 * bytes.length := by rw [receiveRounds_length]; omega
    exact hN ▸ hends.ended

end

/-- Settles O47: the bytes one by one, by induction on the list, and the final Stop. -/
theorem readStoresBytes : Obligations.ReadStoresBytes := by
  unfold Obligations.ReadStoresBytes
  intro s a sub bytes hb hd hcalm hack _ hwf hlen hcap
  obtain ⟨t, ht, hended, hdirty, hgot, hlog⟩ := exec_read_ok hb hd hcalm hack hwf (hlen ▸ hcap) a sub hlen
  refine ⟨t, ht, hended, hdirty, hgot.cmd, hgot.count, hgot.stands, hgot.rest, ?_, ?_, hgot.brg⟩
  · rw [← trnWrites_notes, hlog, trnWrites_append, trnWrites_append, trnWrites_offers, trnWrites_answers]
    rfl
  · rw [← ackdtWrites_notes, hlog, ackdtWrites_append, ackdtWrites_append, ackdtWrites_offers, ackdtWrites_answers, ← hlen,
      ackBits_whole]
    exact List.append_nil _

/-! ## READ whose RDBYTE fails -/

/-- A READ that received the bytes and whose next RDBYTE fails, over rounds of e, after m actions. -/
theorem Reading.exec_stops {s c : State} {a : BitVec 7} {sub : Byte} {bytes : List Byte} {w : Work} {hist : List Action}
    {e : EnvStep} {m n : Nat} {r : Result} {c' : State} {log : List Action} {bit : Bool} (hb : s.busy = false)
    (hcount : s.count.toNat ≤ 256) (hc : Reading (s.accepted (.read a sub)) c bytes)
    (hpasses : Passes (receiveRounds bytes) (s.begun (.read a sub)) log (c.placed [.q1, .b1, .d7a] w hist))
    (hret : ReturnsIn e m ((envStep e c).placed [.q1, .b1, .d7a] w hist) [.writeCon .ackdt bit] c' .d7a r w)
    (hr : ∀ b, r ≠ .byte b) (hframe : c'.frame = c.frame) (hp : 0 < s.params.nCtl) (hm : 0 < m)
    (hn : m + (stopActions e c' + 1) ≤ n) :
    ∃ t, exec (.read a sub) { s with inputs := receives bytes ++ cooperate e n } = .next t ∧
      Ended s t .commFail w.nx (31 + 10 * bytes.length + (m + (stopActions e c' + 1))) ∧ t.dirty = true ∧
      Received s t bytes ∧ notes (s.since t) = stopLog ++ [.writeCon .ackdt bit] ++ log := by
  have hfixed : c'.fixed = (s.accepted (.read a sub)).fixed := (fixed_of_frame hframe).trans hc.fixed
  have hparams : c'.params = s.params := params_of_fixed (s := s.accepted (.read a sub)) hfixed
  have hlatch : c'.latch = (s.accepted (.read a sub)).latch := latch_of_fixed hfixed
  obtain ⟨t, ht, hended, hdirty, htframe, hlog⟩ := exec_givesUp hb (fun _ => hcount) hpasses (hret.settle rfl hm)
    (givesUp_rdbyte hr) (hparams ▸ hp) hn (.inl (congrArg Latch.op hlatch))
  rw [← receives_eq_rounds] at ht
  rw [receiveRounds_length] at hended
  exact ⟨t, ht, hended, hdirty, hc.received (htframe.trans hframe), hlog⟩

/-- READ received fewer bytes than COUNT asks for, and calls RDBYTE again. -/
theorem read_reaches_rdbyte {s : State} (hd : s.dirty = false) (hcalm : s.stat.calm) (hack : s.stat.ackstat = false)
    (hwf : Memory.wf s.buf = true) (hcount : s.count.toNat ≤ 256) (a : BitVec 7) (sub : Byte) {bytes : List Byte}
    (hlen : bytes.length < s.count.toNat) : ∃ c w hist log, Reading (s.accepted (.read a sub)) c bytes ∧
      w.nx = bytes.length ∧ stopsAsked log = 0 ∧
      Passes (receiveRounds bytes) (s.begun (.read a sub)) log (c.placed [.q1, .b1, .d7a] w hist) := by
  obtain ⟨c, w, hist, hc, ⟨-, hnx, -⟩, hpasses⟩ := read_receives hd hcalm hack hwf hcount a sub hlen.le
  have hhead : readHead s.count.toNat bytes.length = [.q1, .b1, .d7a] := if_pos hlen
  rw [hhead] at hpasses
  refine ⟨c, w, hist, _, hc, hnx, ?_, hpasses⟩
  rw [stopsAsked_append, stopsAsked_answers, stopsAsked_offers]

/-- With every request bit cleared and nothing reported STOP takes 6 actions. -/
theorem stopActions_of_clearsAll {e : EnvStep} {c : State} (he : e.ClearsAll) (htr : (envStep e c).stat.trstat = false)
    (hbcl : (envStep e c).stat.bcl = false) : stopActions e c = 6 := by
  have hidle : idleActions (envStep e c) = 2 := idleActions_of_requestBits (he.requestBits _) htr
  rw [stopActions, hidle, if_neg (ne_true_of_eq_false hbcl), if_pos he.pen]

/-- Settles O50: the bytes that came are stored; the poll of the next RDBYTE times out. -/
theorem readStopsAtTimeout : Obligations.ReadStopsAtTimeout := by
  unfold Obligations.ReadStopsAtTimeout
  intro s a sub bytes n hb hd hcalm hack ⟨hctl, hxfer, _⟩ hwf hcount hlen hn
  obtain ⟨c, w, hist, log, hc, hnx, -, hpasses⟩ := read_reaches_rdbyte hd hcalm hack hwf hcount a sub hlen
  obtain ⟨-, htr, hbcl, -, -⟩ := hc.calm
  have hclears : EnvStep.ClearsAll { clearAll with rbf := some false } := ⟨rfl, rfl, rfl, rfl, rfl⟩
  have hidle : idleActions (envStep { clearAll with rbf := some false } c) = 2 :=
    idleActions_of_requestBits (hclears.requestBits _) htr
  have hparams : c.params = s.params := params_of_fixed (s := s.accepted (.read a sub)) hc.fixed
  have hret := rdbyte_timeout_returns (envStep_envStep { clearAll with rbf := some false } c) w hist .d7a rfl rfl
    (hparams ▸ hxfer)
  rw [hidle] at hret
  have hstop := stopActions_of_clearsAll (c := ((envStep { clearAll with rbf := some false } c).answering w.ack).withDirty true)
    hclears htr hbcl
  have hm : (envStep { clearAll with rbf := some false } c).params.nXfer = s.params.nXfer := congrArg Params.nXfer hparams
  obtain ⟨t, ht, hended, hdirty, hgot, -⟩ := hc.exec_stops hb hcount hpasses hret nofun rfl hctl (by omega) (n := n)
    (by omega)
  rw [hstop, hm, hnx] at hended
  have hN : 31 + 10 * bytes.length + (2 + 3 + s.params.nXfer + (6 + 1)) = 43 + 10 * bytes.length + s.params.nXfer := by omega
  exact ⟨t, ht, hN ▸ hended, hdirty, hgot.cmd, hgot.count, hgot.stands, hgot.rest⟩

/-- A byte stands in RCV, and RDBYTE fails all the same. -/
theorem rdbyte_fails {e : EnvStep} {c : State} (hset : envStep e c = c) (w : Work) (hist : List Action) (caller : Label)
    (hrcen : e.clrRcen = true) (hrbf : c.stat.rbf = true) (hp : 0 < c.params.nCtl)
    (hfail : e.clrAcken = true ∧ c.stat.i2cov = true ∨ e.clrAcken = false) :
    ∃ m c' r, 0 < m ∧ m ≤ c.params.nCtl + 10 ∧ c'.frame = c.frame ∧ (∀ b, r ≠ .byte b) ∧
      ReturnsIn e m (c.placed [.q1, .b1, caller] w hist) [.writeCon .ackdt (!w.ack)] c' caller r w := by
  have hidle := idleActions_le c
  obtain ⟨hacken, hov⟩ | hacken := hfail
  · exact ⟨idleActions c + 7, _, .receiveOverflow, by omega, by omega, by simp, nofun,
      rdbyte_overflow_returns hset w hist caller hrcen hacken hrbf hov⟩
  · exact ⟨idleActions c + 5 + c.params.nCtl, _, .clockStuck, by omega, by omega, by simp, nofun,
      rdbyte_stuck_returns hset w hist caller hrcen hacken hrbf hp⟩

/-- What the two steps have in common. -/
theorem readFailures_stat {e : EnvStep} (he : e ∈ [{ clearAll with rbf := some true, i2cov := some true },
    { clearAll with rbf := some true, clrAcken := false }]) (st : Stat) : e.clrPen = true ∧ e.clrRcen = true ∧
      (st.afterEnv e).rbf = true ∧ (e.clrAcken = true ∧ (st.afterEnv e).i2cov = true ∨ e.clrAcken = false) := by
  simp only [List.mem_cons, List.not_mem_nil, or_false] at he
  obtain rfl | rfl := he <;> simp [Stat.afterEnv, clearAll]

/-- Settles O51: the bytes before it are stored; RDBYTE gets one more and fails, so that it is not stored. -/
theorem readStopsAtByte : Obligations.ReadStopsAtByte := by
  unfold Obligations.ReadStopsAtByte
  intro e he s a sub bytes n hb hd hcalm hack ⟨hctl, _, _⟩ hwf hcount hlen hn
  obtain ⟨c, w, hist, log, hc, hnx, hlog, hpasses⟩ := read_reaches_rdbyte hd hcalm hack hwf hcount a sub hlen
  have hparams : c.params = s.params := params_of_fixed (s := s.accepted (.read a sub)) hc.fixed
  obtain ⟨hclr, hrcen, hrbf, hfail⟩ := readFailures_stat he c.stat
  obtain ⟨m, c', r, hm, hmle, hframe, hr, hret⟩ := rdbyte_fails (envStep_envStep e c) w hist .d7a hrcen hrbf
    (hparams ▸ hctl) hfail
  have hstop := stopActions_le_of_clears c' hclr
  have hmle' : m ≤ s.params.nCtl + 10 := hparams ▸ hmle
  obtain ⟨t, ht, hended, hdirty, hgot, hnotes⟩ := hc.exec_stops hb hcount hpasses hret hr hframe hctl hm (n := n) (by omega)
  rw [hnx] at hended
  refine ⟨t, ht, ⟨_, hended⟩, hdirty, ?_, hgot.cmd, hgot.count, hgot.stands, hgot.rest⟩
  rw [← stopsAsked_notes, hnotes, stopsAsked_append, hlog]
  rfl

end Sys2Proof.Machine

/-! SUPPORT. The final Stop that fails, and the round trip (spec/44_transfers.md R262, R267, R277, R281): the proofs of O56 and O57. -/

namespace Sys2Proof.Machine

/-! ## A final Stop that fails -/

/-- The transfer has come to its final Stop, which fails: CommFail, and no other Stop. -/
theorem exec_finalStop_fails {i : Instr} {s c : State} {e : EnvStep} {es : List EnvStep} {caller : Label} {w : Work}
    {hist log : List Action} {n : Nat} (hb : s.busy = false) (hc : (submissionOf i).counted → s.count.toNat ≤ Config.bufCap)
    (hpasses : Passes es (s.begun i) log (c.placed [.q1, .t1, caller] w hist)) (hx : FinalStop caller w)
    (hfixed : c.fixed = (s.accepted i).fixed) (hp : 0 < s.params.nCtl)
    (hfail : (envStep e c).stat.bcl = true ∨ e.clrPen = false) (hn : s.params.nCtl + 9 ≤ n)
    (hnx : (s.accepted i).latch.op = 0x4#4 ∨ (s.accepted i).latch.op = 0x5#4 ∨ w.nx = 0) :
    ∃ t, exec i { s with inputs := rounds es ++ cooperate e n } = .next t ∧ Finished s t .commFail w.nx ∧ t.dirty = true ∧
      t.frame = c.frame ∧ notes (s.since t) = stopLog ++ log := by
  have hparams : c.params = s.params := params_of_fixed (s := s.accepted i) hfixed
  obtain ⟨r, m, c', hr, hframe, hret, hm⟩ := request_fails (q := .stop) (envStep_envStep e c) w hist caller (hparams ▸ hp)
    hfail
  have hend := (hret.exits hx.fails hr).settle (c := c) rfl (Nat.succ_pos _)
  have hm' : m ≤ s.params.nCtl + 8 := hparams ▸ hm
  have hframe' : ((envStep e c').withDirty true).frame = c.frame := hframe
  have hlatch : c'.latch = (s.accepted i).latch := (latch_of_fixed (fixed_of_frame hframe)).trans (latch_of_fixed hfixed)
  obtain ⟨t, ht, hends⟩ := exec_of_comes hb hc hpasses hend (n := n) (by omega) (hlatch.symm ▸ hnx)
  exact ⟨t, ht, ⟨_, hends.ended⟩, hends.dirty.trans (before_dirty _ _), hends.frame.trans ((before_frame _ _).trans hframe'),
    hends.noted⟩

theorem failingStop_fails (collides : Bool) (st : Stat) :
    (st.afterEnv (failingRequest .pen collides)).bcl = true ∨ (failingRequest .pen collides).clrPen = false := by
  cases collides
  · exact .inr rfl
  · exact .inl rfl

/-- POLL, from its START to its final Stop. -/
theorem Answers.comes_p5 {e : EnvStep} {c s : State} {k : Nat} {a : BitVec 7} (h : Answers e c)
    (hstart : Comes e k s [] c [.q1, .s1, .p3] (·.nx = 0)) (haddr : c.latch.addr7 = a) :
    Comes e (k + 12) s (offers [addrByte a .write]) (c.offered (addrByte a .write)) [.q1, .t1, .p5]
      fun w => w.w = .ack ∧ w.nx = 0 := by
  subst haddr
  have hbyte := hstart.trans (n := 6) (N := k + 6) (log' := []) fun w hist hnx =>
    ((h.request w hist .p3 .start).comes_addr .poll).mono (P' := fun w' => w'.v = addrByte c.latch.addr7 .write ∧ w'.nx = 0)
      fun w' hw' => ⟨hw'.1, hw'.2.trans hnx⟩
  refine hbyte.trans (n := 6) (log' := offers [addrByte c.latch.addr7 .write]) fun w hist ⟨hv, hnx⟩ => ?_
  have hret := h.wrbyte w hist .p4
  rw [hv] at hret
  exact hret.comes fun w' hist hw => ⟨{ w' with w := .ack }, rfl, rfl, (Work.base_nx hw).trans hnx⟩

theorem poll_not_counted (a : BitVec 7) : ¬(submissionOf (.poll a)).counted := by simp [Submission.counted, submissionOf]

/-- Settles O56: each transfer comes to its final Stop with a cooperating controller; a Stop that fails is the only one. -/
theorem finalStopFails : Obligations.FinalStopFails := by
  unfold Obligations.FinalStopFails
  intro s a sub bytes n collides hb hd hcalm hack ⟨hctl, _, _⟩ hwf hlen hcap hn
  have hcount : s.count.toNat ≤ 256 := hlen ▸ hcap
  have hfail := failingStop_fails collides
  refine ⟨?_, ?_, ?_⟩
  · obtain ⟨w, hist, ⟨hack', hnx⟩, hpasses⟩ :=
      (answers_accepted hcalm hack (.poll a)).comes_p5 (transfer_reaches_start .poll a sub hd) rfl
    obtain ⟨t, ht, hfin, hdirty, hframe, hlog⟩ := exec_finalStop_fails hb (fun h => absurd h (poll_not_counted a)) hpasses
      (finalStop_poll hack') rfl hctl (hfail _) (n := n) (by omega) (.inr (.inr hnx))
    obtain ⟨htrn, hstops⟩ := sent_of_notes hlog
    rw [← cooperate_eq_rounds] at ht
    rw [hnx] at hfin
    exact ⟨t, ht, hfin, hdirty, host_of_frame (i := .poll a) hframe, hstops, htrn⟩
  · obtain ⟨c, w, hist, hc, ⟨-, hnx, -⟩, hpasses⟩ := read_receives hd hcalm hack hwf hcount a sub hlen.le
    have hhead : readHead s.count.toNat bytes.length = [.q1, .t1, .d8] := if_neg (by omega)
    rw [hhead] at hpasses
    obtain ⟨t, ht, hfin, hdirty, hframe, hlog⟩ := exec_finalStop_fails hb (fun _ => hcount) hpasses (finalStop_read w)
      hc.fixed hctl (hfail _) (n := n) (by omega) (.inl rfl)
    have hgot := hc.received hframe
    rw [← receives_eq_rounds] at ht
    rw [hnx] at hfin
    refine ⟨t, ht, hfin, hdirty, hgot.cmd, hgot.count, ?_, hgot.stands, hgot.rest⟩
    rw [← stopsAsked_notes, hlog, stopsAsked_append, stopsAsked_append, stopsAsked_answers, stopsAsked_offers]
    rfl
  · obtain ⟨v, w, hist, hnx, hpasses⟩ := write_reaches_stop hd hcalm hack hcount a sub
    obtain ⟨t, ht, hfin, hdirty, hframe, hlog⟩ := exec_finalStop_fails hb (fun _ => hcount) hpasses (finalStop_write w) rfl
      hctl (hfail _) (n := n) (by omega) (.inr (.inl rfl))
    obtain ⟨htrn, hstops⟩ := sent_of_notes hlog
    rw [← cooperate_eq_rounds] at ht
    rw [hnx] at hfin
    exact ⟨t, ht, hfin, hdirty, host_of_frame (i := .write a sub) hframe, hstops, htrn⟩

/-! ## The round trip -/

/-- The cells a READ gets are the bytes the WRITE sent (R281). -/
theorem registerFile_of_write (addr sub : Byte) (data : List Byte) (hdata : data.length ≤ 256) :
    (List.range data.length).map (fun k => registerFile (addr :: sub :: data) (sub + BitVec.ofNat 8 k)) = data := by
  refine List.ext_getElem (by simp) fun k hk hk' => ?_
  have hcell : (sub + BitVec.ofNat 8 k - sub).toNat = k := by
    rw [BitVec.add_comm, BitVec.add_sub_cancel, BitVec.toNat_ofNat, Nat.mod_eq_of_lt (by omega)]
  simp only [List.getElem_map, List.getElem_range, registerFile, hcell]
  exact List.getD_eq_getElem _ _ hk'

/-- Settles O57: what WRITE offered to TRN is what the register file gives back, and READ stores it. -/
theorem roundTrip : Obligations.RoundTrip := by
  unfold Obligations.RoundTrip
  intro s a sub m hb hd hcalm hack hpos hcount hwf
  obtain ⟨t, v, ht, hends⟩ := exec_write_ok hb hd hcalm hack hcount a sub (n := 27 + 7 * s.count.toNat) (by omega)
  obtain ⟨hbt, -, hres, -⟩ := hends.ended
  have htcount : t.count = s.count := count_of_fixed (s := s.accepted (.write a sub)) (fixed_of_frame hends.frame)
  have hcells : (List.range s.count.toNat).map (fun k => registerFile (trnWrites (s.since t)) (sub + BitVec.ofNat 8 k)) =
      bufBytes s.buf s.count.toNat := by
    have hfile := registerFile_of_write (addrByte a .write) sub (bufBytes s.buf s.count.toNat) (by rwa [bufBytes_length])
    rwa [bufBytes_length, ← (sent_of_notes hends.noted).1] at hfile
  obtain ⟨u, hu, ⟨-, -, hures, -⟩, -, hgot, -⟩ := exec_read_ok (s := { t with buf := m }) hbt hends.dirty (hends.stat ▸ hcalm)
    (hends.stat ▸ hack) hwf (htcount ▸ hcount) a sub (bytes := bufBytes s.buf s.count.toNat)
    (by rw [bufBytes_length]; exact congrArg _ htcount.symm)
  refine ⟨t, u, ht, ?_, by rw [hres], by rw [hures], ?_⟩
  · rw [hcells]
    exact hu
  · have hstands := hgot.stands
    rwa [bufBytes_length] at hstands

end Sys2Proof.Machine

/-! SUPPORT. POLL on a clean bus and on a dirty one (spec/44_transfers.md R260 to R264): the proofs of O45 and O46. -/

namespace Sys2Proof.Machine

/-! ## A run of the Engine alone, over rounds that find no request bit set -/

/-- CON has no request bit set. -/
abbrev Con.NoRequest (c : Con) : Prop := c.requestBits = (false, false, false, false, false)

/-- The Environment has nothing to clear. -/
theorem settled_clearAll {c : State} (hc : c.con.NoRequest) : envStep clearAll c = c := by
  simp only [Con.NoRequest, Con.requestBits, Prod.mk.injEq] at hc
  obtain ⟨hsen, hrsen, hpen, hrcen, hacken⟩ := hc
  have hcon : c.con.afterEnv clearAll = c.con := by
    cases hcon : c.con
    simp_all [Con.afterEnv, clearAll]
  rw [envStep, hcon]
  rfl

/-- The Engine only sets request bits (R143). -/
theorem noRequest_of_act {s t : State} (h : act s = .next t) (ht : t.con.NoRequest) : s.con.NoRequest := by
  obtain ⟨a, hist, hcon, -⟩ := actionEffects s t h
  cases a
  case writeCon f v =>
    obtain ⟨hsets, -, -⟩ := (engineWrites s t h).1 f v hist
    rw [hcon] at ht
    cases f
    case sen | rsen | pen | rcen | acken =>
      rw [hsets (by decide)] at ht
      simp [Con.NoRequest, Con.requestBits, Con.set] at ht
    all_goals exact ht
  all_goals rwa [hcon] at ht

theorem rcv_of_act {s t : State} (h : act s = .next t) : t.rcv = s.rcv := by
  obtain ⟨a, -, -, -, -, -, -, -, -, -, -, hrcv, -⟩ := actionEffects s t h
  exact hrcv

/-- Where no request bit is set at the end none was before. -/
theorem rounds_of_run {n : Nat} {s t : State} (hrun : run n s = .next t) (hi : s.inputs = []) (hb : t.busy = true)
    (ht : t.con.NoRequest) : s.con.NoRequest ∧ ∃ acts, t.hist = acts ++ s.hist ∧ Rounds clearAll n s (notes acts) t := by
  induction n generalizing s with
  | zero => cases hrun; exact ⟨ht, [], rfl, .refl _⟩
  | succ n ih =>
    cases hbs : s.busy with
    | false => rw [run_idle _ hbs] at hrun; cases hrun; exact absurd hb (by simp [hbs])
    | true =>
      rw [run_alone n hbs hi] at hrun
      obtain ⟨u, hact, hrest⟩ := andThen_eq_next hrun
      obtain ⟨hu, acts, hist, hrounds⟩ := ih hrest (act_inputs hact ▸ hi)
      have hs := noRequest_of_act hact hu
      obtain ⟨a, ha⟩ := (act_acts hact).hist
      have hround : Rounds clearAll 1 _ _ _ := Passes.round (e := clearAll) a hbs ((settled_clearAll hs).symm ▸ hact) ha
      refine ⟨hs, acts ++ [a], by rw [hist, ha, List.append_assoc]; rfl, ?_⟩
      rw [notes_append]
      exact hround.trans hrounds (Nat.add_comm ..)

/-- The same, where the actions are known to be none of those noted. -/
theorem RunsTo.rounds {n k : Nat} {s t : State} (h : RunsTo s n k t) (acts : List Action) (hist : t.hist = acts ++ s.hist)
    (hacts : notes acts = []) (hi : s.inputs = []) (hb : t.busy = true) (ht : t.con.NoRequest) : Rounds clearAll n s [] t := by
  obtain ⟨-, acts', hist', hrounds⟩ := rounds_of_run h.run hi hb ht
  rwa [List.append_cancel_right (hist'.symm.trans hist), hacts] at hrounds

/-! ## RECOVER under POLL, on free lines (R261) -/

/-- The registers RECOVER leaves where it succeeds. -/
def State.afterRecovery (c : State) : State :=
  { c with
    con := c.con.set .on true
    stat := c.stat.afterEnable true
    line := {}
    dirty := false }

/-- Over rounds that clear nothing RECOVER goes in n actions from line l to l', with both lines free. -/
def RecoversTo (c : State) (n : Nat) (l l' : Label) : Prop := ∀ (w : Work) (hist : List Action), ∃ w' hist', w'.nx = w.nx ∧
  Rounds clearAll n (c.recovering [.p2] l w false false hist) [] (c.recovering [.p2] l' w' false false hist')

theorem RecoversTo.trans {c : State} {m n N : Nat} {l l' l'' : Label} (h : RecoversTo c m l l') (h' : RecoversTo c n l' l'')
    (hN : N = m + n := by omega) : RecoversTo c N l l'' := by
  intro w hist
  obtain ⟨w', hist', hnx, hrounds⟩ := h w hist
  obtain ⟨w'', hist'', hnx', hrounds'⟩ := h' w' hist'
  exact ⟨w'', hist'', hnx'.trans hnx, hrounds.trans hrounds'⟩

section
variable {c : State} (hc : c.con.NoRequest)
include hc

/-- The loop on a free SDA. -/
theorem rounds_samples (w : Work) (hist : List Action) (m : Nat) (hm : w.j + m ≤ c.params.nRec) :
    ∃ w' hist', w'.j = w.j + m ∧ w'.nx = w.nx ∧
      Rounds clearAll m (c.recovering [.p2] (toggleHead c.params w.j) w false false hist) []
        (c.recovering [.p2] (toggleHead c.params w'.j) w' false false hist') := by
  induction m with
  | zero => exact ⟨w, hist, rfl, rfl, .refl _⟩
  | succ m ih =>
    obtain ⟨w₁, hist₁, hj, hnx, hrounds⟩ := ih (by omega)
    have hhead : toggleHead c.params w₁.j = .v6a := if_pos (by omega)
    rw [hhead] at hrounds
    have hsample := (runs_sample c [.p2] w₁ false hist₁).rounds [.lineSense .sda true] rfl rfl rfl rfl hc
    exact ⟨{ w₁ with y := true, j := w₁.j + 1 }, _, congrArg (· + 1) hj, hnx, hrounds.trans hsample⟩

/-- V5 and the loop. -/
theorem recoversTo_v7 : RecoversTo c (c.params.nRec + 1) .v5 .v7 := by
  intro w hist
  have hcheck := (runs_clockCheck_high c [.p2] w false hist).rounds [.lineSense .scl true] rfl rfl rfl rfl hc
  obtain ⟨w', hist', hj, hnx, hloop⟩ := rounds_samples hc { w with x := true, j := 0 } (.lineSense .scl true :: hist)
    c.params.nRec (Nat.zero_add _).le
  have hj : w'.j = c.params.nRec := hj.trans (Nat.zero_add _)
  have hhead : toggleHead c.params w'.j = .v7 := if_neg (by omega)
  rw [hhead] at hloop
  exact ⟨w', hist', hnx, hcheck.trans hloop⟩

/-- The line check, the pulse and the final check. -/
theorem recoversTo_v15 : RecoversTo c 8 .v7 .v15 := by
  have hcheck : RecoversTo c 2 .v7 .v9 := fun w hist => ⟨{ w with x := true, y := true }, _, rfl,
    (runs_lineCheck_high c [.p2] w hist).rounds [.lineSense .sda true, .lineSense .scl true] rfl rfl rfl rfl hc⟩
  have hpulse : RecoversTo c 4 .v9 .v13 := fun w hist => ⟨w, _, rfl,
    (runs_pulse c [.p2] w false false hist).rounds
      [.delay Config.tRec, .lineDrive .sda true, .delay Config.tRec, .lineDrive .sda false] rfl rfl rfl rfl hc⟩
  have hfinal : RecoversTo c 2 .v13 .v15 := fun w hist => ⟨{ w with x := true, y := true }, _, rfl,
    (runs_finalCheck_high c [.p2] w hist).rounds [.lineSense .sda true, .lineSense .scl true] rfl rfl rfl rfl hc⟩
  exact hcheck.trans (hpulse.trans hfinal rfl)

/-- V15 and V16. -/
theorem comes_from_v15 (w : Work) (hist : List Action) : Comes clearAll 2 (c.recovering [.p2] .v15 w false false hist) []
    c.afterRecovery [.q1, .s1, .p3] (·.nx = w.nx) := by
  have hruns : RunsTo (c.recovering [.p2] .v15 w false false hist) 2 0
      (c.afterRecovery.placed [.q1, .s1, .p3] { w with r := .ok } ([.dirtyWrite false, .writeCon .on true] ++ hist)) := .of_run [.dirtyWrite false, .writeCon .on true] rfl rfl
  exact ⟨{ w with r := .ok }, _, rfl, hruns.rounds [.dirtyWrite false, .writeCon .on true] rfl rfl rfl rfl hc⟩

/-- RECOVER, called by POLL. -/
theorem comes_recovery {w : Work} {hist : List Action} (hscl : c.line.extSclLow = false) (hsda : c.line.extSdaLow = false) :
    Comes clearAll (c.params.nRec + 15) (c.placed [.v1, .p2] w hist) [] c.afterRecovery [.q1, .s1, .p3] (·.nx = w.nx) := by
  have hopening := (runs_opening (c.placed [] w hist) [.p2]).rounds
    [.delay Config.tRec, .lineDrive .scl true, .lineDrive .sda true, .writeCon .on false] rfl rfl rfl rfl hc
  have hscl' : (c.placed [] w hist).line.extSclLow = false := hscl
  have hsda' : (c.placed [] w hist).line.extSdaLow = false := hsda
  rw [hscl', hsda'] at hopening
  obtain ⟨w₁, hist₁, hnx, hchecks⟩ := (recoversTo_v7 (c := c.placed [] w hist) hc).trans (recoversTo_v15 hc) rfl w
    ([.delay Config.tRec, .lineDrive .scl true, .lineDrive .sda true, .writeCon .on false] ++ hist)
  obtain ⟨w₂, hist₂, hnx₂, hend⟩ := comes_from_v15 (c := c.placed [] w hist) hc w₁ hist₁
  refine ⟨w₂, hist₂, hnx₂.trans hnx, (hopening.trans (hchecks.trans hend rfl) ?_)⟩
  show _ = 4 + (c.params.nRec + 1 + 8 + 2)
  omega

end

/-! ## POLL with a cooperating controller (R261, R262, R264) -/

/-- In k rounds POLL comes to its START, with the registers c: a calm controller, no request bit set, a clean bus. -/
structure PollStarts (s : State) (a : BitVec 7) (k : Nat) (c : State) : Prop where
  comes : Comes clearAll k (s.begun (.poll a)) [] c [.q1, .s1, .p3] (·.nx = 0)
  frame : c.frame = (s.accepted (.poll a)).frame
  noRequest : c.con.NoRequest
  calm : c.stat.calm
  ackstat : c.stat.ackstat = s.stat.ackstat
  rcv : c.rcv = s.rcv

/-- P1 on a dirty bus: RECOVER is called. -/
theorem comes_recoveryCall {e : EnvStep} {c c₁ : State} (w : Work) (hist : List Action) (hset : envStep e c = c₁)
    (hd : c₁.dirty = true) : Comes e 1 (c.placed [.p1] w hist) [] c₁ [.v1, .p2] (·.nx = w.nx) := by
  refine .of_act hset (w' := { w with d := true }) (.dirtyRead true) ?_ rfl
  simp [act, actAt, actP1, dirtyRead, State.placed, hd, State.goto, Label.opened, Label.callee, State.record]

theorem calm_afterEnable {st : Stat} (h : st.calm) : (st.afterEnable true).calm := by
  obtain ⟨htbf, htr, -, -, hov⟩ := h
  exact ⟨htbf, htr, rfl, rfl, hov⟩

theorem pollStarts_clean {s : State} (a : BitVec 7) (hd : s.dirty = false) (hcalm : s.stat.calm) :
    PollStarts s a 1 (envStep clearAll (s.accepted (.poll a))) where
  comes := transfer_reaches_start .poll a 0 hd
  frame := rfl
  noRequest := clearAll_clearsAll.requestBits _
  calm := hcalm
  ackstat := rfl
  rcv := rfl

/-- On a dirty bus RECOVER comes first. -/
theorem pollStarts_dirty {s : State} (a : BitVec 7) (hd : s.dirty = true) (hcalm : s.stat.calm)
    (hscl : s.line.extSclLow = false) (hsda : s.line.extSdaLow = false) :
    PollStarts s a (s.params.nRec + 16) (envStep clearAll (s.accepted (.poll a))).afterRecovery where
  comes := by
    have hcall : Comes clearAll 1 (s.begun (.poll a)) [] (envStep clearAll (s.accepted (.poll a))) [.v1, .p2] (·.nx = 0) :=
      comes_recoveryCall (c := s.accepted (.poll a)) _ _ rfl hd
    refine hcall.trans (n := s.params.nRec + 15) (log' := []) fun w hist hnx => ?_
    exact (comes_recovery (c := envStep clearAll (s.accepted (.poll a))) (clearAll_clearsAll.requestBits _) hscl hsda).mono
      fun w' hw' => hw'.trans hnx
  frame := rfl
  noRequest := clearAll_clearsAll.requestBits s.con
  calm := calm_afterEnable hcalm
  ackstat := rfl
  rcv := rfl

section
variable {s c : State} {a : BitVec 7} {k n : Nat} (h : PollStarts s a k c) (hb : s.busy = false)
include h hb

/-- The target acknowledges its address. -/
theorem PollStarts.exec_ok (hack : s.stat.ackstat = false) (hn : k + 19 ≤ n) :
    ∃ t, exec (.poll a) { s with inputs := cooperate clearAll n } = .next t ∧ Ended s t .ok 0 (k + 19) ∧ t.dirty = false ∧
      t.frame = (s.accepted (.poll a)).frame ∧ trnWrites (s.since t) = [addrByte a .write] := by
  have hanswers : Answers clearAll c := ⟨settled_clearAll h.noRequest, clearAll_clearsAll, h.calm, h.ackstat.trans hack⟩
  have hoffered := hanswers.offered (addrByte a .write)
  have haddr : c.latch.addr7 = a := congrArg Latch.addr7 (latch_of_fixed (fixed_of_frame h.frame))
  have hend := (hanswers.comes_p5 h.comes haddr).trans (n := 7) (N := k + 19) (log' := stopLog) fun w hist hw =>
    (hoffered.finalStop (finalStop_poll hw.1) hist).mono (P' := fun w' => w'.fin = .ok ∧ w'.nx = 0)
      fun w' hw' => ⟨hw'.1, hw'.2.trans hw.2⟩
  obtain ⟨t, ht, hends⟩ := exec_cooperate hb (fun hc => absurd hc (poll_not_counted a)) hend
    (congrArg (State.withDirty false) hoffered.settled) hn (.inr (.inr rfl))
  exact ⟨t, ht, hends.ended, hends.dirty, hends.frame.trans h.frame, (sent_of_notes hends.noted).1⟩

/-- The target does not acknowledge its address. -/
theorem PollStarts.exec_nak (hack : s.stat.ackstat = true) (hp : 0 < s.params.nCtl) (hn : k + 20 ≤ n) :
    ∃ t, exec (.poll a) { s with inputs := cooperate clearAll n } = .next t ∧
      GaveUp s t .badAddr 0 (k + 20) [addrByte a .write] := by
  obtain ⟨htbf, htr, hbcl, hiw, -⟩ := h.calm
  have hset := settled_clearAll h.noRequest
  have hidle : idleActions c = 2 := idleActions_of_requestBits h.noRequest htr
  have haddr : c.latch.addr7 = a := congrArg Latch.addr7 (latch_of_fixed (fixed_of_frame h.frame))
  have hstop : stopActions clearAll c = 6 := stopActions_of_clearsAll clearAll_clearsAll (hset.symm ▸ htr) (hset.symm ▸ hbcl)
  have hfail := failsByte_nak hset htbf htr (by simp [Stat.writeCollided, hbcl, hiw]) (h.ackstat.trans hack)
  rw [hidle, hstop] at hfail
  have hreach := Comes.reaches_addr (x := .poll) h.comes hset haddr rfl hbcl
  rw [hidle] at hreach
  obtain ⟨t, ht, hgave⟩ := hreach.exec_stops hb (fun hc => absurd hc (poll_not_counted a)) h.frame
    (hset.symm ▸ hfail) (by decide) hp (n := n - (k + (2 + 4))) (by omega) (.inr (.inr rfl))
  rw [cooperate_add, Nat.add_sub_cancel' (by omega)] at ht
  exact ⟨t, ht, hgave⟩

end

/-! ## RCV is the Environment's alone to write (R142) -/

/-- RCV as in s, and the Environment is not to write it. -/
structure KeepsRcv (s u : State) : Prop where
  rcv : u.rcv = s.rcv
  quiet : ∀ e, .env e ∈ u.inputs → e.rcv = none

theorem KeepsRcv.tick {s u v : State} (h : KeepsRcv s u) (hb : u.busy = true) (huv : tick u = .next v) : KeepsRcv s v := by
  obtain ⟨rest, hrest, hact | ⟨e, he, rfl⟩ | ⟨err, log, rfl⟩⟩ := tick_running_cases hb huv
  · exact ⟨(rcv_of_act hact).trans h.rcv, fun e he => h.quiet e (hrest.subset (by rwa [act_inputs hact] at he))⟩
  · refine ⟨?_, fun e' he' => h.quiet e' (hrest.subset he')⟩
    show e.rcv.getD u.rcv = s.rcv
    rw [h.quiet e he]
    exact h.rcv
  · exact ⟨h.rcv, fun e he => h.quiet e (hrest.subset he)⟩

theorem exec_rcv {i : Instr} {s t : State} (hb : s.busy = false) (he : ∀ e, .env e ∈ s.inputs → e.rcv = none)
    (ht : exec i s = .next t) : t.rcv = s.rcv := by
  obtain rfl | ⟨-, ht⟩ := exec_idle_cases hb ht
  · rfl
  · have hstart : KeepsRcv s (accept (submissionOf i) s) := ⟨rfl, he⟩
    exact (run_induction (fun _ _ hu hub _ huv => hu.tick hub huv) _ _ _ hstart ht).rcv

theorem mem_cooperate {e e' : EnvStep} {n : Nat} (h : .env e' ∈ cooperate e n) : e' = e := by
  have hmem : ¬n = 0 ∧ e' = e := by simpa [cooperate] using h
  exact hmem.2

/-- Settles O45: from POLL's START on the two cases of the acknowledge; a dirty bus takes N_REC + 15 rounds more. -/
theorem pollResult : Obligations.PollResult := by
  unfold Obligations.PollResult
  intro s a n hb hcalm ⟨hctl, _, _⟩ hlines hn
  obtain ⟨k, c, hk, hstarts⟩ : ∃ k c, k = (if s.dirty then s.params.nRec + 16 else 1) ∧ PollStarts s a k c := by
    cases hd : s.dirty with
    | false => exact ⟨_, _, rfl, pollStarts_clean a hd hcalm⟩
    | true => exact ⟨_, _, rfl, pollStarts_dirty a hd hcalm (hlines hd).1 (hlines hd).2⟩
  have hk' : k ≤ s.params.nRec + 16 := by split at hk <;> omega
  have hrcv {t : State} (ht : exec (.poll a) { s with inputs := cooperate clearAll n } = .next t) : t.rcv = s.rcv :=
    exec_rcv (s := { s with inputs := cooperate clearAll n }) hb (fun e he => mem_cooperate he ▸ rfl) ht
  cases hack : s.stat.ackstat with
  | false =>
    obtain ⟨t, ht, hended, hdirty, hframe, htrn⟩ := hstarts.exec_ok hb hack (n := n) (by omega)
    have hN : k + 19 = if s.dirty then s.params.nRec + 35 else 20 := by split at hk <;> simp_all
    exact ⟨t, ht, host_of_frame hframe, htrn, brg_of_frame hframe, hrcv ht, fun _ => ⟨hdirty, hN ▸ hended⟩, nofun⟩
  | true =>
    obtain ⟨t, ht, hgave⟩ := hstarts.exec_nak hb hack hctl (n := n) (by omega)
    have hN : k + 20 = if s.dirty then s.params.nRec + 36 else 21 := by split at hk <;> simp_all
    exact ⟨t, ht, hgave.host, hgave.sent, hgave.brg, hrcv ht, nofun, fun _ => ⟨hgave.dirty, hN ▸ hgave.ended⟩⟩

/-! ## POLL on held lines (R262) -/

/-- The registers RECOVER leaves where it fails. -/
def State.recoveryFailed (c : State) : State :=
  { c with con := c.con.set .on false, line := { c.line with sclOut := true, sdaOut := true }, dirty := true }

/-- VF and PX: RECOVER fails, and POLL with it. -/
theorem runs_to_fin_of_vf {c : State} {scl sda : Bool} (hscl : c.line.extSclLow = scl) (hsda : c.line.extSdaLow = sda)
    (w : Work) (hist : List Action) {e : Result} (he : e = .sclLow ∨ e = .sdaLow) :
    RunsTo (c.recovering [.p2] .vf { w with e := e } scl sda hist) 2 0
      (c.recoveryFailed.standing .fin { w with e := e, r := e, xe := .hardware, fin := .hardware }
        ([.dirtyWrite true, .dirtyWrite true] ++ hist)) := by
  subst hscl hsda
  refine .of_run [.dirtyWrite true, .dirtyWrite true] ?_ rfl
  obtain rfl | rfl := he <;> rfl

/-- P1 on a dirty bus, the Engine alone. -/
theorem runs_recoveryCall {c : State} (hd : c.dirty = true) (w : Work) (hist : List Action) :
    RunsTo (c.standing .p1 w hist) 1 0
      ((c.standing .p1 { w with d := true } (.dirtyRead true :: hist)).startRecover [.p2]) := by
  refine .of_act (.dirtyRead true) rfl rfl ?_ rfl
  simp [act, actAt, actP1, dirtyRead, State.standing, State.startRecover, hd, State.goto, Label.opened, Label.callee,
    State.record]

/-- POLL, begun in c, comes alone in n actions to its `Complete` with Hardware. -/
def PollFails (c : State) (w : Work) (hist : List Action) (n : Nat) : Prop := ∃ k w' hist', w'.fin = .hardware ∧
  RunsTo (c.standing .p1 w hist) n k (c.recoveryFailed.standing .fin w' hist')

section
variable {c : State} (hd : c.dirty = true) (w : Work) (hist : List Action)
include hd

theorem pollFails_sclHeld (hscl : c.line.extSclLow = true) : PollFails c w hist 8 := by
  obtain ⟨w', hist', hvf⟩ := runs_to_vf_of_sclHeld (c.standing .p1 { w with d := true } (.dirtyRead true :: hist)) [.p2] hscl
  have hend := runs_to_fin_of_vf (c := c) hscl rfl w' hist' (.inl rfl)
  exact ⟨_, _, _, rfl, (runs_recoveryCall hd w hist).trans (hvf.trans hend rfl rfl) rfl rfl⟩

theorem pollFails_sdaHeld (hscl : c.line.extSclLow = false) (hsda : c.line.extSdaLow = true) :
    PollFails c w hist (5 * c.params.nRec + 10) := by
  obtain ⟨w₁, hist₁, hj, hloop⟩ := runs_to_toggleLoop
    (c.standing .p1 { w with d := true } (.dirtyRead true :: hist)) [.p2] hscl
  have hsda' : (c.standing .p1 { w with d := true } (.dirtyRead true :: hist)).line.extSdaLow = true := hsda
  rw [hsda'] at hloop
  obtain ⟨w₂, hist₂, hvf⟩ := runs_to_vf_of_sdaHeld
    (c.standing .p1 { w with d := true } (.dirtyRead true :: hist)) [.p2] w₁ hist₁ (by omega)
  have hend := runs_to_fin_of_vf (c := c) hscl hsda w₂ hist₂ (.inr rfl)
  refine ⟨_, _, _, rfl, (runs_recoveryCall hd w hist).trans (hloop.trans (hvf.trans hend rfl rfl) rfl rfl) ?_ rfl⟩
  show _ = 1 + (5 + (5 * (c.params.nRec - w₁.j) + 2 + 2))
  omega

end

/-- The command POLL that fails so. -/
theorem exec_pollFails {s : State} {a : BitVec 7} {n : Nat} (hb : s.busy = false) (hi : s.inputs = [])
    (h : PollFails (s.accepted (.poll a)) (s.accepted (.poll a)).work s.hist n) (hn : n ≤ 5 * s.params.nRec + 15) :
    ∃ w hist, exec (.poll a) s = .next ((s.accepted (.poll a)).recoveryFailed.completed .hardware w hist) ∧
      Ended s ((s.accepted (.poll a)).recoveryFailed.completed .hardware w hist) .hardware 0 n := by
  obtain ⟨k, w, hist, hfin, hruns⟩ := h
  have hlast : RunsTo ((s.accepted (.poll a)).recoveryFailed.standing .fin w hist) 1 0
      ((s.accepted (.poll a)).recoveryFailed.completed .hardware w hist) := by
    refine .of_act (.complete Result.hardware.code Result.hardware.data 0) rfl rfl ?_ rfl
    rw [← hfin]
    rfl
  obtain ⟨hrun, acts, hhist, hlen, -⟩ := hruns.trans hlast rfl rfl
  have hbound := recoversAlone_bound s.params
  refine ⟨w, hist, ?_, rfl, rfl, rfl, ?_⟩
  · rw [exec_accepted hb fun hc => absurd hc (poll_not_counted a), ← withInputs_self (s := accept _ s) hi]
    exact runCommand_of_run hrun rfl ((by omega : n + 1 ≤ commandBound s.params).trans (Nat.le_add_left ..))
  · obtain ⟨b, acts, rfl⟩ := List.exists_cons_of_length_eq_add_one hlen
    obtain ⟨rfl, hold⟩ := List.cons.inj hhist
    exact ⟨acts, congrArg _ hold, Nat.succ.inj hlen⟩

/-- Settles O46: the clock check fails, or the line check after N_REC toggles; POLL ends with Hardware. -/
theorem pollHardware : Obligations.PollHardware := by
  unfold Obligations.PollHardware
  intro s a hb hi hd hheld
  cases hscl : s.line.extSclLow with
  | true =>
    obtain ⟨w, hist, hexec, hended⟩ := exec_pollFails hb hi (pollFails_sclHeld (c := s.accepted (.poll a)) hd _ _ hscl)
      (by omega)
    exact ⟨_, hexec, ⟨rfl, rfl, fun _ => rfl⟩, rfl, rfl, rfl, rfl, rfl, rfl, rfl, fun _ => hended, nofun⟩
  | false =>
    have hsda : s.line.extSdaLow = true := hheld.resolve_left (ne_true_of_eq_false hscl)
    obtain ⟨w, hist, hexec, hended⟩ := exec_pollFails hb hi (pollFails_sdaHeld (c := s.accepted (.poll a)) hd _ _ hscl hsda)
      (by show 5 * s.params.nRec + 10 ≤ _; omega)
    exact ⟨_, hexec, ⟨rfl, rfl, fun _ => rfl⟩, rfl, rfl, rfl, rfl, rfl, rfl, rfl, nofun, fun _ => hended⟩

end Sys2Proof.Machine

/-! SUPPORT. What the transfers leave alone, under every Environment and Host (spec/44_transfers.md R260, R265, R275, R276): the proof of O58. -/

namespace Sys2Proof.Machine

/-! ## Where a transfer can stand -/

/-- The OPs of the transfers. -/
def transferOps : List (BitVec 4) := [0x3#4, 0x4#4, 0x5#4]

/-- The OPs of the primitives a transfer calls (R260, R265, R275). -/
def calledPrimitives (op : BitVec 4) : List (BitVec 4) :=
  if op = 0x4#4 then [0x6#4, 0x7#4, 0x8#4, 0x9#4, 0xA#4] else [0x6#4, 0x8#4, 0xA#4]

/-- The labels of the operation with this OP. -/
def bodyOf (op : BitVec 4) : List Label := ((entryOf op).getD .fin).body

/-- The labels a transfer can stand at: its own, those of the primitives it calls, and RECOVER's, which POLL calls. -/
def transferLabels (op : BitVec 4) : List Label :=
  bodyOf op ++ Label.shared ++ (calledPrimitives op).flatMap bodyOf ++ if op = 0x3#4 then Label.v1.body else []

theorem bottom_transfer {op : BitVec 4} {l : Label} (h : bottomOk op l = true) : l ∈ transferLabels op := by
  have hown (hl : l ∈ bodyOf op ++ Label.shared) : l ∈ transferLabels op :=
    List.mem_append_left _ (List.mem_append_left _ hl)
  unfold bottomOk at h
  split at h
  · next first hfirst =>
    obtain hl | rfl : l ∈ first.body ∨ l = .fin := by simpa using h
    · exact hown (List.mem_append_left _ (by rwa [bodyOf, hfirst]))
    · exact hown (List.mem_append_right _ (by decide))
  · cases h

theorem callee_transfer : ∀ op ∈ transferOps, ∀ c ∈ transferLabels op, ∀ first ∈ c.callee.toList, ∀ l ∈ first.body,
    l ∈ transferLabels op := by decide

theorem stackOk_transfer {op : BitVec 4} (hop : op ∈ transferOps) {l : Label} {rest : List Label}
    (h : stackOk op (l :: rest) = true) : l ∈ transferLabels op := by
  induction rest generalizing l with
  | nil => exact bottom_transfer h
  | cons c rest ih =>
    obtain ⟨first, hfirst, hl⟩ := stackOk_callee h
    exact callee_transfer op hop c (ih (stackOk_tail h)) first (by simp [hfirst]) l hl

/-- A label belongs to one of the three. -/
theorem transferLabels_cases : ∀ op ∈ transferOps, ∀ l ∈ transferLabels op,
    (∃ p ∈ calledPrimitives op, l ∈ Label.shared ∨ l.primitiveOp = some p) ∨ (op = 0x3#4 ∧ l ∈ Label.v1.body) ∨
      l ∈ bodyOf op := by decide

/-! ## The actions of a transfer -/

/-- The operations a transfer with this OP is made of: those of the primitives it calls, of RECOVER, and its own. -/
inductive TransferOp (op : BitVec 4) (s : State) : State → Prop where
  | primitive {p : BitVec 4} {l : Label} {u : State} (hp : p ∈ calledPrimitives op) (h : PrimitiveOp p l s u) :
      TransferOp op s u
  | recover {u : State} (h : RecoverOp s u) : TransferOp op s u
  | readDirty : TransferOp op s (dirtyRead s)
  | fetch {a : Action} {v : Byte} : TransferOp op s (State.record a { s with work := { s.work with v := v } })
  | store {a : Action} (hop : op = 0x4#4) (hi : s.work.i < s.lcount) (hwf : Memory.wf s.buf = true) :
      TransferOp op s (State.record a { s with buf := Memory.write s.buf s.work.i s.work.b })

/-- What a transfer leaves alone under every Environment and Host, but for BUF. -/
def State.transferKeeps (op : BitVec 4) (s : State) : Word × BitVec 16 × BitVec 16 × Bool × Bool × Nat × Bool :=
  (s.cmd, s.count, s.brg, s.con.slew, s.con.ie, s.draws, if op = 0x4#4 then false else s.con.ackdt)

/-- What it leaves alone besides, if the Environment takes no step. -/
def State.transferQuiet (op : BitVec 4) (s : State) :
    (Byte × Bool × Bool × Bool × Bool × Bool × Bool) × (Bool × Bool × Bool × Bool) :=
  ((s.rcv, s.line.extSclLow, s.line.extSdaLow, s.stat.tbf, s.stat.i2cov, s.stat.trstat, s.stat.ackstat),
    if op = 0x4#4 then (false, false, false, false) else (s.con.rsen, s.con.rcen, s.con.acken, s.stat.rbf))

/-- Only READ stores, and only below COUNT. -/
def SameBytes (op : BitVec 4) (count : Nat) (s u : State) : Prop :=
  ∀ a, (op = 0x4#4 → count ≤ a) → Memory.read u.buf a = Memory.read s.buf a

theorem calledPrimitives_ne {op p : BitVec 4} (hop : op ≠ 0x4#4) (hp : p ∈ calledPrimitives op) : p ≠ 0x7#4 ∧ p ≠ 0x9#4 := by
  rw [calledPrimitives, if_neg hop] at hp
  revert p
  decide

theorem PrimitiveOp.transferKeeps {op p : BitVec 4} {l : Label} {s u : State} (hp : p ∈ calledPrimitives op)
    (h : PrimitiveOp p l s u) :
    u.transferKeeps op = s.transferKeeps op ∧ u.transferQuiet op = s.transferQuiet op ∧ u.buf = s.buf := by
  obtain ⟨hkeeps, hquiet⟩ := h.keeps
  rw [State.primitiveKeeps, State.primitiveKeeps] at hkeeps
  rw [State.quietKeeps, State.quietKeeps, Con.requestsKept, Con.requestsKept, Stat.kept, Stat.kept] at hquiet
  simp only [Prod.mk.injEq] at hkeeps hquiet
  obtain ⟨hcmd, hcount, hbuf, hbrg, hslew, hie, -, -, hdraws, hackdt, -⟩ := hkeeps
  obtain ⟨⟨-, hrsen, -, hrcen, hacken⟩, ⟨hrbf, htbf, hov, htr, hack⟩, hrcv, hline⟩ := hquiet
  refine ⟨?_, ?_, hbuf⟩
  · by_cases hop : op = 0x4#4
    · simp [State.transferKeeps, hop, hcmd, hcount, hbrg, hslew, hie, hdraws]
    · obtain ⟨hne, -⟩ := calledPrimitives_ne hop hp
      rw [if_neg hne, if_neg hne] at hackdt
      simp [State.transferKeeps, hcmd, hcount, hbrg, hslew, hie, hdraws, hackdt]
  · by_cases hop : op = 0x4#4
    · simp [State.transferQuiet, hop, hrcv, hline, htbf, hov, htr, hack]
    · obtain ⟨hne, hne'⟩ := calledPrimitives_ne hop hp
      simp only [hne, hne', if_false] at hrsen hrcen hacken hrbf
      simp [State.transferQuiet, hrcv, hline, htbf, hov, htr, hack, hrsen, hrcen, hacken, hrbf]

theorem RecoverOp.transferKeeps {op : BitVec 4} {s u : State} (h : RecoverOp s u) :
    u.transferKeeps op = s.transferKeeps op ∧ u.transferQuiet op = s.transferQuiet op ∧ u.buf = s.buf := by
  obtain ⟨hkeeps, hbits⟩ := h.keeps
  simp only [State.recoverKeeps, Con.requestBits, Prod.mk.injEq] at hkeeps hbits
  obtain ⟨hcmd, hcount, hbuf, -, hbrg, hackdt, hslew, hie, hdraws⟩ := hkeeps
  obtain ⟨-, hrsen, -, hrcen, hacken⟩ := hbits
  have hquiet : u.rcv = s.rcv ∧ (u.line.extSclLow = s.line.extSclLow ∧ u.line.extSdaLow = s.line.extSdaLow) ∧
      u.stat.kept 0 = s.stat.kept 0 := by
    cases h
    case enable v => exact ⟨rfl, ⟨rfl, rfl⟩, by rw [ctlWriteCon_stat, Stat.afterEnable_kept]⟩
    case drive l v => cases l <;> exact ⟨rfl, ⟨rfl, rfl⟩, rfl⟩
    all_goals exact ⟨rfl, ⟨rfl, rfl⟩, rfl⟩
  obtain ⟨hrcv, ⟨hscl, hsda⟩, hstat⟩ := hquiet
  simp only [Stat.kept, Prod.mk.injEq] at hstat
  obtain ⟨hrbf, htbf, hov, htr, hack⟩ := hstat
  refine ⟨?_, ?_, hbuf⟩
  · simp [State.transferKeeps, hcmd, hcount, hbrg, hslew, hie, hdraws, hackdt]
  · simp_all [State.transferQuiet]

theorem TransferOp.keeps {op : BitVec 4} {s u : State} (h : TransferOp op s u) :
    u.transferKeeps op = s.transferKeeps op ∧ u.transferQuiet op = s.transferQuiet op ∧ SameBytes op s.lcount s u := by
  cases h
  case primitive p l hp h =>
    obtain ⟨hkeeps, hquiet, hbuf⟩ := h.transferKeeps hp
    exact ⟨hkeeps, hquiet, fun a _ => by rw [hbuf]⟩
  case recover h =>
    obtain ⟨hkeeps, hquiet, hbuf⟩ := h.transferKeeps (op := op)
    exact ⟨hkeeps, hquiet, fun a _ => by rw [hbuf]⟩
  case readDirty => exact ⟨rfl, rfl, fun _ _ => rfl⟩
  case fetch => exact ⟨rfl, rfl, fun _ _ => rfl⟩
  case store act hop hi hwf =>
    exact ⟨rfl, rfl, fun a ha => Memory.read_write_other hwf (by have := ha hop; omega) s.work.b⟩

theorem Sequencing.transferKeeps {op : BitVec 4} {u t : State} (h : Sequencing u t) :
    t.transferKeeps op = u.transferKeeps op ∧ t.transferQuiet op = u.transferQuiet op := by
  constructor
  · rw [State.transferKeeps, h.host.cmd, h.host.count, h.brg, h.con, h.draws]; rfl
  · rw [State.transferQuiet, h.rcv, h.line, h.stat, h.con]; rfl

/-- One operation of the transfer, and the sequencing folded into it. -/
def TransferAct (op : BitVec 4) (s t : State) : Prop := ∃ u, TransferOp op s u ∧ Sequencing u t

theorem mark_transfer {op : BitVec 4} (hop : op ∈ transferOps) (v : Bool) (s : State) : TransferOp op s (dirtyWrite v s) :=
  .primitive (p := 0xA#4) (l := .pf) (by revert op; decide) .mark

/-- The three bodies; only READ has a line that stores. -/
theorem bodyOf_transfer : ∀ op ∈ transferOps, ∀ l ∈ bodyOf op,
    l ∈ transferOps.flatMap bodyOf ∧ (l = .d7b → op = 0x4#4) := by decide

/-- The transfers' own lines. -/
theorem actAt_ownLine {op : BitVec 4} (hop : op ∈ transferOps) {l : Label} {s t : State} (hl : l ∈ bodyOf op)
    (hstore : l = .d7b → s.work.i < s.lcount) (hwf : Memory.wf s.buf = true) (ht : actAt l s = .next t) :
    TransferAct op s t := by
  obtain ⟨hline, hread⟩ := bodyOf_transfer op hop l hl
  cases l
  case p1 | d1 | x1 => cases ht; split <;> exact ⟨_, .readDirty, sequencing_of _ _ _⟩
  case p6 | px | d9 | dx | x7 | xx | u2 => exact ⟨_, mark_transfer hop _ _, finish_sequencing ht⟩
  case d7b =>
    obtain ⟨u, hw, ht⟩ := andThen_eq_next (o := memWrite s) ht
    cases ht
    unfold memWrite at hw
    split at hw <;> cases hw
    exact ⟨_, .store (hread rfl) (hstore rfl) hwf, (nextByte_sequencing _).trans (readLoop_sequencing _)⟩
  case x5a =>
    obtain ⟨u, hr, ht⟩ := andThen_eq_next (o := memRead s) ht
    cases ht
    unfold memRead at hr
    split at hr <;> cases hr
    exact ⟨_, .fetch, goto_sequencing _ _⟩
  case p2 | p3 | p4 | p5 | d2 | d3 | d4 | d5 | d6 | d7a | d8 | x2 | x3 | x4 | x5b | x6 | u1 => cases ht
  all_goals exact absurd hline (by decide)

/-- Every action of a transfer is one of its operations. -/
theorem actAt_transfer {op : BitVec 4} (hop : op ∈ transferOps) {l : Label} {s t : State} (hl : l ∈ transferLabels op)
    (hoff : recoverOff s.con.on l = true) (hstore : l = .d7b → s.work.i < s.lcount) (hwf : Memory.wf s.buf = true)
    (ht : actAt l s = .next t) : TransferAct op s t := by
  obtain ⟨p, hp, hprim⟩ | ⟨-, hrec⟩ | hown := transferLabels_cases op hop l hl
  · obtain ⟨u, hu, hseq⟩ := actAt_primitive hprim ht
    exact ⟨u, .primitive hp hu, hseq⟩
  · obtain ⟨u, hu, hseq⟩ := actAt_recoverOp (List.mem_cons_of_mem _ hrec) hoff ht
    exact ⟨u, .recover hu, hseq⟩
  · exact actAt_ownLine hop hown hstore hwf ht

/-! ## The whole run -/

/-- The transfer with this OP, begun in s₀, runs in s or has ended there. -/
structure RunsTransfer (op : BitVec 4) (s₀ s : State) : Prop where
  inv : s.Inv
  latched : s.latch.op = op
  lcount : s.lcount = s₀.count.toNat
  keeps : s.transferKeeps op = s₀.transferKeeps op
  bytes : SameBytes op s₀.count.toNat s₀ s
  quiet : envQuiet s₀.inputs → envQuiet s.inputs ∧ s.transferQuiet op = s₀.transferQuiet op

section
variable {op : BitVec 4} {s₀ s t : State} (h : RunsTransfer op s₀ s)
include h

theorem RunsTransfer.withInputs {rest : List Event} (hrest : rest <:+ s.inputs) :
    RunsTransfer op s₀ (s.withInputs rest) where
  inv := withInputs_keeps rest h.inv
  latched := h.latched
  lcount := h.lcount
  keeps := h.keeps
  bytes := h.bytes
  quiet hq := ⟨fun e he => (h.quiet hq).1 e (hrest.subset he), (h.quiet hq).2⟩

theorem RunsTransfer.act (hop : op ∈ transferOps) (ht : act s = .next t) : RunsTransfer op s₀ t := by
  obtain ⟨l, rest, hf⟩ : ∃ l rest, s.fsm = l :: rest :=
    List.exists_cons_of_ne_nil fun hnil => by rw [Machine.act, hnil] at ht; cases ht
  have hstack := (h.inv.at hf).stack
  have hat : actAt l s = .next t := by rwa [Machine.act, hf] at ht
  have hstore (hl : l = .d7b) : s.work.i < s.lcount := by
    subst hl
    obtain rfl := stackOk_ownOnly (by decide) hstack
    have hcounts := (h.inv.ownAt hf).counts
    simp only [State.countsOk, Bool.and_eq_true, decide_eq_true_eq] at hcounts
    exact hcounts.2
  rw [h.latched] at hstack
  obtain ⟨u, hu, hseq⟩ := actAt_transfer hop (stackOk_transfer hop hstack) (h.inv.topAt hf).off hstore h.inv.memory hat
  obtain ⟨hkeeps, hquiet, hbytes⟩ := hu.keeps
  have hlatch := (act_acts ht).host.latch
  exact {
    inv := act_keeps h.inv ht
    latched := by rw [hlatch, h.latched]
    lcount := by rw [State.lcount, hlatch]; exact h.lcount
    keeps := hseq.transferKeeps.1.trans (hkeeps.trans h.keeps)
    bytes := fun a ha => by rw [hseq.buf, hbytes a (h.lcount ▸ ha), h.bytes a ha]
    quiet := fun hq => by
      rw [act_inputs ht, hseq.transferKeeps.2, hquiet]
      exact h.quiet hq }

theorem RunsTransfer.tick (hop : op ∈ transferOps) (hb : s.busy = true) (ht : tick s = .next t) :
    RunsTransfer op s₀ t := by
  obtain ⟨rest, hrest, hact | ⟨e, he, rfl⟩ | ⟨err, log, rfl⟩⟩ := tick_running_cases hb ht
  · exact (h.withInputs hrest).act hop hact
  · exact {
      inv := tick_keeps h.inv ht
      latched := h.latched
      lcount := h.lcount
      keeps := h.keeps
      bytes := h.bytes
      quiet := fun hq => absurd rfl ((h.quiet hq).1 _ he e) }
  · exact {
      inv := tick_keeps h.inv ht
      latched := h.latched
      lcount := h.lcount
      keeps := h.keeps
      bytes := h.bytes
      quiet := (h.withInputs hrest).quiet }

end

/-- A transfer that has ended, or was rejected, over an ordinary schedule. -/
theorem exec_runsTransfer {i : Instr} {s t : State} (h : s.Inv) (hb : s.busy = false) (ho : ordinary s.inputs)
    (hop : (submissionOf i).op ∈ transferOps) (ht : exec i s = .next t) :
    t = reject s ∨ t.busy = false ∧ RunsTransfer (submissionOf i).op s t := by
  refine (exec_idle_cases hb ht).imp_right fun ⟨hc, ht⟩ => ?_
  have hstart : RunsTransfer (submissionOf i).op s (s.accepted i) :=
    { inv := accept_keeps _ h hb (entryOf_submissionOf i) hc
      latched := rfl
      lcount := rfl
      keeps := rfl
      bytes := fun _ _ => rfl
      quiet := fun hq => ⟨hq, rfl⟩ }
  have hfuel : (s.accepted i).WithinBound := accept_withinBound _ (entryOf_submissionOf i) hc
  obtain ⟨t', ht', htb, -⟩ := run_completes hstart.inv ho hfuel.enough
  obtain rfl : t' = t := Host.Outcome.next.inj (ht'.symm.trans ht)
  exact ⟨htb, run_induction (fun _ _ hs hsb _ hst => hs.tick hop hsb hst) _ _ _ hstart ht'⟩

/-- Settles O58: the run keeps `RunsTransfer`, and both lines are released where it begins and where it ends. -/
theorem transferFrame : Obligations.TransferFrame := by
  unfold Obligations.TransferFrame
  intro s t i h hb ho hop ht
  rw [← submissionOf_op] at hop ⊢
  obtain rfl | ⟨htb, hruns⟩ := exec_runsTransfer h hb ho hop ht
  · exact ⟨rfl, rfl, rfl, rfl, rfl, rfl, rfl, rfl, fun _ _ => rfl, fun _ => rfl, fun _ => ⟨rfl, rfl, rfl, rfl, rfl, rfl,
      fun _ => ⟨rfl, rfl, rfl, rfl⟩⟩⟩
  have hreleased : s.line.sclOut = true ∧ s.line.sdaOut = true := by simpa [linesOk] using h.lines_idle hb
  have hreleased' : t.line.sclOut = true ∧ t.line.sdaOut = true := by simpa [linesOk] using hruns.inv.lines_idle htb
  obtain ⟨hscl, hsda⟩ := hreleased
  obtain ⟨hscl', hsda'⟩ := hreleased'
  have hkeeps := hruns.keeps
  simp only [State.transferKeeps, Prod.mk.injEq] at hkeeps
  obtain ⟨hcmd, hcount, hbrg, hslew, hie, hdraws, hackdt⟩ := hkeeps
  refine ⟨hcmd, hcount, hbrg, hslew, hie, hscl'.trans hscl.symm, hsda'.trans hsda.symm, hdraws, hruns.bytes,
    fun hne => by simpa [hne] using hackdt, fun hq => ?_⟩
  have hquiet := (hruns.quiet hq).2
  simp only [State.transferQuiet, Prod.mk.injEq] at hquiet
  obtain ⟨⟨hrcv, hext, hext', htbf, hov, htr, hack⟩, hbits⟩ := hquiet
  have hline : t.line = s.line := by
    cases htl : t.line
    cases hsl : s.line
    simp_all
  exact ⟨hrcv, hline, htbf, hov, htr, hack, fun hne => by simpa [hne] using hbits⟩

end Sys2Proof.Machine

/-! SUPPORT. The Host's window (spec/45_host_interface.md R290 to R294): which register an offset reaches, and one access as the only event. With it, the statements on the Host's reads and writes. -/

namespace Sys2Proof.Machine

/-! ## The map of the window (R80) -/

theorem hostReg_cmd {off : BitVec 9} (h : off.toNat / 4 = 0) : hostReg off = .cmd := by
  simp [hostReg, h]

theorem hostReg_res {off : BitVec 9} (h : off.toNat / 4 = 1) : hostReg off = .res := by
  simp [hostReg, h]

theorem hostReg_estat {off : BitVec 9} (h : off.toNat / 4 = 2) : hostReg off = .estat := by
  simp [hostReg, h]

theorem hostReg_count {off : BitVec 9} (h : off.toNat / 4 = 3) : hostReg off = .count := by
  simp [hostReg, h]

/-- From the fourth word on the window has no register until BUF's first word. -/
theorem hostReg_of_four_le {off : BitVec 9} (h : 4 ≤ off.toNat / 4) :
    hostReg off = if off.toNat / 4 < 64 then .unmapped else .bufWord (off.toNat / 4 - 64) := by
  unfold hostReg
  split
  case h_5 => rfl
  all_goals omega

theorem hostReg_unmapped {off : BitVec 9} (h : 4 ≤ off.toNat / 4) (h' : off.toNat / 4 < 64) : hostReg off = .unmapped := by
  rw [hostReg_of_four_le h, if_pos h']

theorem hostReg_bufWord {off : BitVec 9} (h : 64 ≤ off.toNat / 4) : hostReg off = .bufWord (off.toNat / 4 - 64) := by
  rw [hostReg_of_four_le (by omega), if_neg (by omega)]

/-! ## One access as the only event -/

/-- A Host read as the only event is taken at once, by a running block and by an idle one. -/
theorem oneEvent_hostRead (off : BitVec 9) (s : State) :
    oneEvent (.hostRead off) s = .next (hostRead off { s with inputs := [] }) := by
  cases hb : s.busy with
  | true => simp [oneEvent, hb, tick, State.withInputs]
  | false => simp [oneEvent, hb, step, stepBody, idleEvent, State.withInputs]

/-- So is a Host write, unless it submits a command. -/
theorem oneEvent_hostWrite {off : BitVec 9} {s : State} (w : Word) (h : s.busy = true ∨ hostReg off ≠ .cmd) :
    oneEvent (.hostWrite off w) s = .next (hostWrite off w { s with inputs := [] }) := by
  obtain hb | hb := Bool.eq_false_or_eq_true s.busy
  · simp [oneEvent, hb, tick, State.withInputs]
  · have hreg : hostReg off ≠ .cmd := h.resolve_left (by simp [hb])
    have hidle : oneEvent (.hostWrite off w) s = idleWrite off w { s with inputs := [] } := by
      simp [oneEvent, hb, step, stepBody, idleEvent, State.withInputs]
    rw [hidle, idleWrite]
    cases hr : hostReg off with
    | cmd => exact absurd hr hreg
    | res | estat | count | unmapped | bufWord => rfl

/-! ## The statements -/

/-- Settles O11: the access is a read of one register (`oneEvent_hostRead`), and each clause reads off which. -/
theorem hostReads : Obligations.HostReads := by
  unfold Obligations.HostReads
  intro s off
  refine ⟨hostReadValue off { s with inputs := [] }, oneEvent_hostRead off s, fun h => ?_, fun h => ?_, fun h => ?_,
    fun h => ?_, fun h h' => ?_, fun h => ?_⟩
  · rw [hostReadValue, hostReg_cmd h]
  · rw [hostReadValue, hostReg_res h]; rfl
  · rw [hostReadValue, hostReg_estat h]; rfl
  · rw [hostReadValue, hostReg_count h]
    exact BitVec.setWidth_eq_append (by decide)
  · rw [hostReadValue, hostReg_unmapped h h']
  · rw [hostReadValue, hostReg_bufWord h]; rfl

/-- Settles O9: a running block drops the write, whichever of the three it is (`hostDropped`). -/
theorem busyHostWrites : Obligations.BusyHostWrites := by
  unfold Obligations.BusyHostWrites
  intro s off w hb h
  rw [oneEvent_hostWrite w (.inl hb), hostWrite]
  obtain h | h | h := h
  · rw [hostReg_cmd h]; simp [hb, hostDropped]
  · rw [hostReg_count h]; simp [hb, hostDropped]
  · rw [hostReg_bufWord h]; simp [hb, hostDropped]

/-- Settles O10: each offset's register says what the write stores, and a word of BUF is its four bytes
(`read_setBufWord`). -/
theorem otherHostWrites : Obligations.OtherHostWrites := by
  unfold Obligations.OtherHostWrites
  intro s off w
  refine ⟨fun h => ?_, fun h => ?_, fun h hb => ?_, fun h hb hwf => ?_, fun h h' => ?_⟩
  · have hreg := hostReg_res h
    rw [oneEvent_hostWrite w (.inr (by simp [hreg])), hostWrite, hreg]
  · have hreg := hostReg_estat h
    rw [oneEvent_hostWrite w (.inr (by simp [hreg])), hostWrite, hreg]
    cases w.getLsbD 2 <;> rfl
  · have hreg := hostReg_count h
    rw [oneEvent_hostWrite w (.inr (by simp [hreg])), hostWrite, hreg]
    simp [hb, BitVec.setWidth_eq_extractLsb']
  · have hreg := hostReg_bufWord h
    have hk := hostReg_bufWord_lt hreg
    refine ⟨setBufWord s.buf (off.toNat / 4 - 64) w, ?_, read_setBufWord hwf hk w⟩
    rw [oneEvent_hostWrite w (.inr (by simp [hreg])), hostWrite, hreg]
    simp [hb]
  · have hreg := hostReg_unmapped h h'
    rw [oneEvent_hostWrite w (.inr (by simp [hreg])), hostWrite, hreg]

/-! ## Submission (R292) -/

/-- Settles O6: the Host's write to CMD is the submission of its word (`step_hostWrite_cmd`). -/
theorem stepRunsDecodedCommand : Obligations.StepRunsDecodedCommand := by
  unfold Obligations.StepRunsDecodedCommand
  have hfirst (s : State) (off : BitVec 9) (w : Word) (i : Instr) (rest : List Event) (hb : s.busy = false)
      (hoff : off.toNat / 4 = 0) (hd : decode w = .ok i) :
      step { s with inputs := .hostWrite off w :: rest } = exec i { s with inputs := rest, cmd := w } := by
    rw [step_hostWrite_cmd w rest hb hoff, submit, hd]
  refine ⟨hfirst, fun s nbits w i hn hd => ?_⟩
  have hword : decode (BitVec.ofNat 32 (w % 2 ^ nbits)) = .ok i := by
    rw [decodeTableWord, tableWord, if_pos hn] at hd
    dsimp only at hd
    split at hd <;> simp_all
  exact hfirst { s with busy := false, fsm := [] } 0x000 _ i s.inputs rfl rfl hword

/-- What an accepted command latches is what stands in its word, the fields it does not read among it (R38, R292). -/
theorem latched_of_decode {w : Word} {i : Instr} {s : State} (h : decode w = .ok i) (hcmd : s.cmd = w) :
    (submissionOf i).latched s =
      { op := opField w, ack := ackField w, data8 := data8Field w, addr7 := addr7Field w, count := s.count } := by
  have hw := standsIn_of_decode h
  subst hcmd
  cases i
  case init | modstart | start | rstart | stop | recover => rw [show opField s.cmd = _ from hw]; rfl
  case poll | wrbyte | rdbyte => obtain ⟨hop, rfl⟩ := hw; rw [hop]; rfl
  case read | write => obtain ⟨hop, rfl, rfl⟩ := hw; rw [hop]; rfl

/-- Settles O8: the word decodes and its COUNT is within BUF, so the command is accepted (`exec_accepted`), and the pause
stops it there. -/
theorem acceptance : Obligations.Acceptance := by
  unfold Obligations.Acceptance
  intro s off w rest hb hoff h
  obtain ⟨hlegal, hcount⟩ := not_or.mp h
  cases hd : decode w with
  | error e => exact absurd ((decodeRefusesIllegalWords w).mp ⟨e, hd⟩) hlegal
  | ok i =>
    have hop := submissionOf_op_of_decode hd
    have hc : (submissionOf i).counted → s.count.toNat ≤ Config.bufCap := fun hu => by
      rw [Submission.counted, hop] at hu
      exact Nat.not_lt.mp fun hlt => hcount ⟨hu, hlt⟩
    refine ⟨(submissionOf i).entry, (congrArg entryOf hop).symm.trans (entryOf_submissionOf i), ?_⟩
    rw [step_hostWrite_cmd w _ hb hoff, submit, hd]
    have hlatched := latched_of_decode (s := { s with inputs := .pause :: rest, cmd := w }) hd rfl
    calc exec i { s with inputs := .pause :: rest, cmd := w }
        = .next (accept (submissionOf i) { s with inputs := .pause :: rest, cmd := w }) := by
          rw [exec_accepted (by exact hb) (by exact hc)]
          exact run_stopped _ (.inr rfl)
      _ = _ := by rw [accept, hlatched]; rfl

end Sys2Proof.Machine

/-! SUPPORT. A running command under two schedules that differ in what the Engine does not see (spec/20_memory.md R93, spec/45_host_interface.md R295): the same without the Host's accesses, or, where the Environment takes no step, nothing at all. With it, the statement that no Host access disturbs a command. -/

namespace Sys2Proof.Machine

/-! ## Whose move is next -/

/-- Under the schedule `evs` the Engine takes its next action: alone, at its turn, or while the Host waits; `rest` is what
the schedule has then. -/
inductive EngineTurn : (evs rest : List Event) → Prop where
  | alone : EngineTurn [] []
  | turn {rest : List Event} : EngineTurn (.engine :: rest) rest
  | waiting {rest : List Event} : EngineTurn (.hostWait :: rest) (.hostWait :: rest)

theorem EngineTurn.suffix {evs rest : List Event} (h : EngineTurn evs rest) : rest <:+ evs := by
  cases h
  case turn => exact List.suffix_cons _ rest
  all_goals exact List.suffix_rfl

/-- A running command's next step, by whose move it is. -/
theorem tick_cases {s t : State} (hb : s.busy = true) (ha : s.atBoundary = false) (ht : tick s = .next t) :
    (∃ rest, EngineTurn s.inputs rest ∧ act (s.withInputs rest) = .next t) ∨
    (∃ e rest, s.inputs = .env e :: rest ∧ t = envStep e (s.withInputs rest)) ∨
    ∃ e rest err log, e.isHostAccess = true ∧ s.inputs = e :: rest ∧
      t = { s.withInputs rest with hostErr := err, hostLog := log } := by
  unfold State.atBoundary at ha
  unfold tick at ht
  split at ht
  · next hi => exact .inl ⟨[], hi ▸ .alone, by rwa [withInputs_self hi]⟩
  · next rest hi => exact .inl ⟨rest, hi ▸ .turn, ht⟩
  · next e rest hi => cases ht; exact .inr (.inl ⟨e, rest, hi, rfl⟩)
  · next off rest hi => cases ht; exact .inr (.inr ⟨_, rest, _, _, rfl, hi, rfl⟩)
  · next off w rest hi =>
    cases ht
    obtain ⟨err, hw⟩ := hostWrite_running off w (s := s.withInputs rest) hb
    exact .inr (.inr ⟨_, rest, err, s.hostLog, rfl, hi, hw⟩)
  · next rest hi => exact .inl ⟨.hostWait :: rest, hi ▸ .waiting, by rwa [withInputs_self hi]⟩
  all_goals next hi => rw [hi] at ha; cases ha

theorem run_engineTurn {s t : State} {rest : List Event} (hb : s.busy = true) (h : EngineTurn s.inputs rest)
    (ht : act (s.withInputs rest) = .next t) : run 1 s = .next t := by
  have htick : tick s = .next t ∧ s.atBoundary = false := by
    unfold tick State.atBoundary
    generalize hi : s.inputs = evs at h
    cases h
    case turn => exact ⟨ht, rfl⟩
    all_goals rw [withInputs_self hi] at ht; exact ⟨ht, rfl⟩
  rw [run_succ 0 hb htick.2, htick.1]
  rfl

/-! ## The same command under another schedule -/

/-- The Engine's action is the same with another Host. -/
theorem act_withHostOf {s t : State} (ht : act s = .next t) (h : State) :
    act (s.withHostOf h) = .next (t.withHostOf h) := by
  rw [act_hostBlind, ht, andThen_next]

/-- Over the schedules in S, f changes the schedule in nothing that the Engine and the Environment see: it may take the
Host's accesses out, and the Engine's turns where it comes to its action all the same. -/
structure Unseen (S : List Event → Prop) (f : List Event → List Event) : Prop where
  suffix {evs rest : List Event} : rest <:+ evs → S evs → S rest
  turn {evs rest : List Event} : EngineTurn evs rest → EngineTurn (f evs) (f rest)
  env {e : EnvStep} {rest : List Event} : S (.env e :: rest) → f (.env e :: rest) = .env e :: f rest
  host {e : Event} {rest : List Event} : e.isHostAccess = true → f (e :: rest) = f rest

/-- u with its schedule changed by f, and with h's HOSTERR and Host's log. -/
def State.rescheduled (f : List Event → List Event) (u h : State) : State := u.withHostOf (h.withInputs (f u.inputs))

/-- Under the changed schedule the run comes to the same states. -/
theorem Unseen.run {S : List Event → Prop} {f : List Event → List Event} (c : Unseen S f) (h : State) {n : Nat} {s t : State}
    (hs : S s.inputs) (ht : run n s = .next t) : ∃ m, run m (s.rescheduled f h) = .next (t.rescheduled f h) := by
  refine (run_induction (P := fun u => S u.inputs ∧ ∃ m, Machine.run m (s.rescheduled f h) = .next (u.rescheduled f h))
    (fun u v ⟨hu, m, hm⟩ hb ha hv => ?_) n s t ⟨hs, 0, rfl⟩ ht).2
  have hmore (hlast : Machine.run 1 (u.rescheduled f h) = .next (v.rescheduled f h)) :
      ∃ m, Machine.run m (s.rescheduled f h) = .next (v.rescheduled f h) :=
    ⟨m + 1, by rw [run_add, hm, andThen_next, hlast]⟩
  obtain ⟨rest, hturn, hact⟩ | ⟨e, rest, hi, rfl⟩ | ⟨e, rest, err, log, he, hi, rfl⟩ := tick_cases hb ha hv
  · have hrest : v.inputs = rest := act_inputs hact
    refine ⟨hrest ▸ c.suffix hturn.suffix hu, hmore (run_engineTurn hb (c.turn hturn) ?_)⟩
    rw [State.rescheduled, State.rescheduled, hrest]
    exact act_withHostOf hact (h.withInputs (f rest))
  · rw [hi] at hu
    refine ⟨c.suffix (List.suffix_cons _ rest) hu, hmore ?_⟩
    have hf : (u.rescheduled f h).inputs = .env e :: f rest := (congrArg f hi).trans (c.env hu)
    exact (run_env (s := u.rescheduled f h) 0 hb hf).trans rfl
  · rw [hi] at hu
    refine ⟨c.suffix (List.suffix_cons _ rest) hu, m, hm.trans ?_⟩
    rw [State.rescheduled, hi, c.host he]
    rfl

/-! ## Without the Host's accesses (R293, R295) -/

theorem unseen_hostAccesses : Unseen (fun _ => True) (List.filter fun e => !e.isHostAccess) where
  suffix _ _ := trivial
  turn h := by cases h <;> constructor
  env _ := rfl
  host he := List.filter_cons_of_neg (by simp [he])

/-! ## The end of a run -/

/-- A command ends in one state, whatever the number of agents' steps given. -/
theorem run_end_unique {m n : Nat} {s t u : State} (ht : run m s = .next t) (hu : run n s = .next u) (htb : t.busy = false)
    (hub : u.busy = false) : t = u := by
  have hm : run (m + n) s = .next t := by rw [run_add, ht, andThen_next, run_idle n htb]
  have hn : run (m + n) s = .next u := by rw [Nat.add_comm, run_add, hu, andThen_next, run_idle m hub]
  exact Host.Outcome.next.inj (hm.symm.trans hn)

/-- An accepted command comes to its end over every ordinary schedule (R341). -/
theorem runCommand_accepted_ends {i : Instr} {s : State} (h : s.Inv) (hb : s.busy = false) (ho : ordinary s.inputs)
    (hc : (submissionOf i).counted → s.count.toNat ≤ Config.bufCap) :
    ∃ t, runCommand (s.accepted i) = .next t ∧ t.busy = false := by
  have hu := entryOf_submissionOf i
  have hfuel : (s.accepted i).WithinBound := accept_withinBound _ hu hc
  obtain ⟨t, ht, htb, -⟩ := run_completes (accept_keeps _ h hb hu hc) ho hfuel.enough
  exact ⟨t, ht, htb⟩

/-- Settles O24: a rejected command looks at no schedule; an accepted one comes to the same end without the Host's accesses
(`Unseen.run`). -/
theorem hostCannotDisturb : Obligations.HostCannotDisturb := by
  unfold Obligations.HostCannotDisturb
  intro s t i evs h hb ho ht
  by_cases hc : (submissionOf i).counted → s.count.toNat ≤ Config.bufCap
  · have hfilter : ordinary (evs.filter fun e => !e.isHostAccess) := fun e he => ho e (List.mem_of_mem_filter he)
    rw [exec_accepted (by exact hb) (by exact hc)] at ht ⊢
    obtain ⟨t', ht', htb⟩ := runCommand_accepted_ends (i := i) (s := s.withInputs evs) (withInputs_keeps evs h) hb ho hc
    obtain rfl : t' = t := Host.Outcome.next.inj (ht'.symm.trans ht)
    obtain ⟨u, hu, hub⟩ := runCommand_accepted_ends (i := i) (s := s.withInputs (evs.filter _))
      (withInputs_keeps _ h) hb hfilter hc
    obtain ⟨m, hm⟩ := unseen_hostAccesses.run s trivial ht
    rw [← run_end_unique hm hu htb hub] at hu
    exact hu
  · obtain ⟨hu, hlarge⟩ := Classical.not_imp.mp hc
    have hrejects (evs' : List Event) : exec i { s with inputs := evs' } = .next (reject { s with inputs := evs' }) :=
      exec_rejects_count hb hu (Nat.lt_of_not_le hlarge)
    rw [hrejects] at ht ⊢
    cases ht
    rfl

end Sys2Proof.Machine

/-! SUPPORT. INIT and MODSTART (spec/45_host_interface.md R300, R302): each a fixed list of actions, none of which reads what the Environment or the Host changes, so a command goes as the Engine takes it alone. With it, the statements on the two. -/

namespace Sys2Proof.Machine

/-! ## What the other agents change while a command runs -/

/-- s with what the Environment and the Host may change while a command runs as in h (R160, R291, R293). -/
def State.withAgentsOf (s h : State) : State :=
  { s with
    con := { h.con with ackdt := s.con.ackdt, slew := s.con.slew, ie := s.con.ie, on := s.con.on }
    stat := h.stat
    rcv := h.rcv
    line := { h.line with sclOut := s.line.sclOut, sdaOut := s.line.sdaOut }
    inputs := h.inputs
    hostLog := h.hostLog
    hostErr := h.hostErr }

/-- The lines of INIT and MODSTART, and `Complete`. -/
def Label.setup : List Label := [.i1, .i2, .i3, .m1, .m2, .m3, .m4, .fin]

/-- An action of INIT or MODSTART reads nothing of the other agents'; its write of CON.ON may clear status bits. -/
theorem actAt_setup {l : Label} {c c' : State} (hl : l ∈ Label.setup) (hf : c.fsm = [l]) (ha : actAt l c = .next c')
    (h : State) : ∃ h', actAt l (c.withAgentsOf h) = .next (c'.withAgentsOf h') := by
  cases l
  case i1 | i2 | m1 | m2 | m3 | fin => cases ha; exact ⟨h, rfl⟩
  case i3 =>
    have ha : (dirtyWrite true c).finish .ok = .next c' := ha
    rw [finish_outermost (by exact hf)] at ha
    cases ha
    exact ⟨h, finish_outermost (by exact hf) .ok⟩
  case m4 =>
    have ha : (ctlWriteCon .on true c).finish .ok = .next c' := ha
    rw [finish_outermost (by exact hf)] at ha
    cases ha
    exact ⟨{ h with stat := h.stat.afterEnable (!c.con.on) }, finish_outermost (by exact hf) .ok⟩
  all_goals exact absurd hl (by decide)

/-! ## A command of such actions alone -/

/-- In c the Engine has n actions of INIT or MODSTART to go, and they lead to f, where the command has ended. -/
inductive SetupRun (f : State) : Nat → State → Prop where
  | ended (hb : f.busy = false) : SetupRun f 0 f
  | action {n : Nat} {c c' : State} {l : Label} (hl : l ∈ Label.setup) (hf : c.fsm = [l]) (hb : c.busy = true)
      (ha : actAt l c = .next c') (hrest : SetupRun f n c') : SetupRun f (n + 1) c

theorem SetupRun.run {f c : State} {n : Nat} (h : SetupRun f n c) (hi : c.inputs = []) : run n c = .next f := by
  induction h with
  | ended hb => rfl
  | @action n c c' l hl hf hb ha hrest ih =>
    have hact : act c = .next c' := by rw [act, hf]; exact ha
    rw [run_alone _ hb hi, hact, andThen_next]
    exact ih ((act_inputs hact).trans hi)

/-- The running command is one of the two with n actions to go to f, but for what the other agents change. -/
def SetsUp (f : State) (n : Nat) (u : State) : Prop := ∃ c h, SetupRun f n c ∧ u = c.withAgentsOf h

theorem setsUp_countdown (f : State) : Countdown (SetsUp f) where
  busy := by
    rintro n u ⟨c, h, hrun, rfl⟩
    cases hrun with
    | action hl hf hb ha hrest => exact hb
  idle := by
    rintro u ⟨c, h, hrun, rfl⟩
    cases hrun with
    | ended hb => exact hb
  act := by
    rintro n u ⟨c, h, hrun, rfl⟩
    cases hrun with
    | @action _ _ c' l hl hf hb ha hrest =>
      obtain ⟨h', hact⟩ := actAt_setup hl hf ha h
      have hact' : act (c.withAgentsOf h) = actAt l (c.withAgentsOf h) := by
        rw [act, show (c.withAgentsOf h).fsm = [l] from hf]
      exact ⟨_, hact'.trans hact, c', h', hrest, rfl⟩
  inputs := by rintro n u rest ⟨c, h, hrun, rfl⟩; exact ⟨c, h.withInputs rest, hrun, rfl⟩
  env := by rintro n u e ⟨c, h, hrun, rfl⟩; exact ⟨c, envStep e h, hrun, rfl⟩
  hostRead := by
    rintro n u off ⟨c, h, hrun, rfl⟩
    exact ⟨c, { h with hostLog := hostReadValue off (c.withAgentsOf h) :: h.hostLog }, hrun, rfl⟩
  hostErr := by rintro n u b ⟨c, h, hrun, rfl⟩; exact ⟨c, { h with hostErr := b }, hrun, rfl⟩

/-- Where the Environment takes no step the Engine acts as if nothing were scheduled. -/
theorem unseen_quiet : Unseen envQuiet fun _ => [] where
  suffix hrest hq e he := hq e (hrest.subset he)
  turn _ := .alone
  env {e _} hq := absurd rfl (hq _ List.mem_cons_self e)
  host _ := rfl

/-- Over every ordinary schedule the command ends as the Engine alone brings it to an end, but for what the other agents
change, and but for what the Host changes where the Environment takes no step. -/
theorem exec_setup {i : Instr} {s f : State} {n : Nat} (hb : s.busy = false) (ho : ordinary s.inputs)
    (hi : ¬(submissionOf i).counted) (hrun : SetupRun f n ((s.accepted i).withInputs [])) (hn : n ≤ 5) :
    ∃ t, exec i s = .next t ∧ (∃ h, t = f.withAgentsOf h) ∧
      (envQuiet s.inputs → f = t.withHostOf ((s.accepted i).withInputs [])) := by
  have hbound : n ≤ commandBound s.params := by unfold commandBound; omega
  have hstart : SetsUp f n (s.accepted i) := ⟨_, s.accepted i, hrun, rfl⟩
  obtain ⟨t, ht, c, h, hend, rfl⟩ := (setsUp_countdown f).runCommand hstart ho hbound
  cases hend with
  | ended hfb =>
    refine ⟨_, (exec_accepted hb fun hu => absurd hu hi).trans ht, ⟨h, rfl⟩, fun hq => ?_⟩
    obtain ⟨m, hm⟩ := unseen_quiet.run (s := s.accepted i) (s.accepted i) hq ht
    exact run_end_unique (hrun.run rfl) hm hfb hfb

/-! ## INIT (R300) -/

/-- Where INIT ends, alone. -/
def State.initEnd (s : State) : State :=
  { s.accepted .init with
    busy := false
    fsm := []
    res := { code := Result.ok.code, data := 0, nxfer := 0 }
    dirty := true
    line := { s.line with sclOut := true, sdaOut := true }
    work := { (s.accepted .init).work with fin := .ok }
    hist := [.complete Result.ok.code 0 0, .dirtyWrite true, .lineDrive .sda true, .lineDrive .scl true] ++ s.hist
    inputs := [] }

theorem setupRun_init (s : State) : SetupRun s.initEnd 4 ((s.accepted .init).withInputs []) :=
  .action (l := .i1) (by decide) rfl rfl rfl <| .action (l := .i2) (by decide) rfl rfl rfl <|
    .action (l := .i3) (by decide) rfl rfl rfl <| .action (l := .fin) (by decide) rfl rfl rfl <| .ended rfl

/-- Settles O32: INIT's four actions over any schedule (`exec_setup`). -/
theorem initResult : Obligations.InitResult := by
  unfold Obligations.InitResult
  refine ⟨by decide, fun s hb ho => ?_⟩
  obtain ⟨t, ht, ⟨h, rfl⟩, hquiet⟩ := exec_setup hb ho (by simp [Submission.counted, submissionOf]) (setupRun_init s) (by omega)
  refine ⟨_, ht, rfl, rfl, rfl, rfl, rfl, rfl, rfl, ⟨rfl, rfl, fun _ => rfl⟩, rfl, rfl, rfl, rfl, rfl, rfl, fun hq => ?_⟩
  have heq := hquiet hq
  exact ⟨(congrArg State.con heq).symm, (congrArg State.stat heq).symm, (congrArg State.rcv heq).symm,
    (congrArg (·.line.extSclLow) heq).symm, (congrArg (·.line.extSdaLow) heq).symm⟩

/-! ## MODSTART (R302) -/

/-- Where MODSTART ends, alone. -/
def State.modstartEnd (s : State) : State :=
  { s.accepted .modstart with
    busy := false
    fsm := []
    res := { code := Result.ok.code, data := 0, nxfer := 0 }
    con := { s.con with slew := Config.slewInit, ie := false, on := true }
    stat := s.stat.afterEnable (!s.con.on)
    brg := Config.brgInit
    work := { (s.accepted .modstart).work with fin := .ok }
    hist := [.complete Result.ok.code 0 0, .writeCon .on true, .writeCon .ie false, .writeCon .slew Config.slewInit,
      .writeBrg Config.brgInit] ++ s.hist
    inputs := [] }

theorem setupRun_modstart (s : State) : SetupRun s.modstartEnd 5 ((s.accepted .modstart).withInputs []) :=
  .action (l := .m1) (by decide) rfl rfl rfl <| .action (l := .m2) (by decide) rfl rfl rfl <|
    .action (l := .m3) (by decide) rfl rfl rfl <| .action (l := .m4) (by decide) rfl rfl rfl <|
    .action (l := .fin) (by decide) rfl rfl rfl <| .ended rfl

/-- Settles O33: MODSTART's five actions over any schedule (`exec_setup`). -/
theorem modstartResult : Obligations.ModstartResult := by
  unfold Obligations.ModstartResult
  refine ⟨by decide, fun s hb ho => ?_⟩
  obtain ⟨t, ht, ⟨h, rfl⟩, hquiet⟩ :=
    exec_setup hb ho (by simp [Submission.counted, submissionOf]) (setupRun_modstart s) (by omega)
  refine ⟨_, ht, rfl, rfl, rfl, rfl, rfl, rfl, rfl, rfl, rfl, ⟨rfl, rfl, fun _ => rfl⟩, rfl, rfl, rfl, rfl, fun hq => ?_⟩
  have heq := hquiet hq
  have hstat : s.stat.afterEnable (!s.con.on) = if s.con.on then s.stat else { s.stat with bcl := false, iwcol := false } := by
    cases s.con.on <;> rfl
  exact ⟨(congrArg State.con heq).symm, (congrArg State.stat heq).symm.trans hstat, (congrArg State.rcv heq).symm,
    (congrArg State.line heq).symm⟩

end Sys2Proof.Machine

/-! SUPPORT. The bytes a command has done (spec/44_transfers.md R266, R276, spec/45_host_interface.md R297): the count never goes back while a command runs, and READ stores a byte exactly where it counts it. With it, the statement on NXFER and on which bytes of BUF a command can change. -/

namespace Sys2Proof.Machine

/-! ## One action: no byte stored, or one stored and counted -/

/-- From s to t no byte is stored, the command goes on, and the count of bytes does not go back. -/
structure Progress (s t : State) : Prop where
  busy : t.busy = s.busy
  buf : t.buf = s.buf
  nx : s.work.nx ≤ t.work.nx

theorem Progress.trans {s t u : State} (h : Progress s t) (h' : Progress t u) : Progress s u :=
  ⟨h'.busy.trans h.busy, h'.buf.trans h.buf, h.nx.trans h'.nx⟩

/-- Sequencing that leaves the count as it is. -/
theorem Sequencing.progress {s t : State} (h : Sequencing s t) (hnx : t.work.nx = s.work.nx) : Progress s t :=
  ⟨h.busy, h.buf, hnx.ge⟩

theorem goto_progress (l : Label) (s : State) : Progress s (s.goto l) := (goto_sequencing l s).progress rfl

theorem toPf_progress (e : Result) (s : State) : Progress s (s.toPf e) := (toPf_sequencing e s).progress rfl

theorem recoverLoop_progress {s u : State} (h : Progress s u) : Progress s u.recoverLoop := by
  unfold State.recoverLoop; split <;> exact h.trans (goto_progress _ u)

theorem readLoop_nx (s : State) : s.readLoop.work.nx = s.work.nx := by unfold State.readLoop; split <;> rfl

theorem writeLoop_nx (s : State) : s.writeLoop.work.nx = s.work.nx := by unfold State.writeLoop; split <;> rfl

theorem afterAddr_nx (l : Label) (s : State) : (s.afterAddr l).work.nx = s.work.nx := by
  unfold State.afterAddr; (repeat' split) <;> rfl

theorem pollClassify_nx (s : State) : s.pollClassify.work.nx = s.work.nx := by
  unfold State.pollClassify; (repeat' split) <;> rfl

/-- A caller sets the count to 0 where it is 0 already (D6, X4), and to the next byte where it is at this one (X5b). -/
theorem resume_progress {c : Label} {r : Result} {u t : State} (hc : c.ownOnly = true → u.countsOk c = true)
    (h : resume c r u = .next t) : Progress u t := by
  have hseq := resume_sequencing h
  refine ⟨hseq.busy, hseq.buf, ?_⟩
  cases c <;> simp only [resume, reduceCtorEq] at h
  case d6 | x4 =>
    have hnx : u.work.nx = 0 := by simpa [State.countsOk] using hc (by decide)
    rw [hnx]; exact Nat.zero_le _
  case x5b =>
    obtain ⟨hnx, -⟩ : u.work.nx = u.work.i ∧ u.work.i < u.lcount := by simpa [State.countsOk] using hc (by decide)
    cases h
    split
    · rw [writeLoop_nx, hnx]; exact Nat.le_succ _
    · exact le_rfl
  case d7a => cases r <;> cases h <;> exact le_rfl
  case p5 => cases h; exact (pollClassify_nx (u.keepT r)).ge
  case d3 | x3 => cases h; exact (afterAddr_nx _ (u.keepW r)).ge
  all_goals cases h; (try split) <;> exact le_rfl

/-- The byte counts of the label that called the running operation. -/
def State.CallerCounts (s : State) : Prop :=
  ∀ l c rest, s.fsm = l :: c :: rest → c.ownOnly = true → s.countsOk c = true

theorem State.Inv.callerCounts {s : State} (h : s.Inv) : s.CallerCounts := by
  intro l c rest hf hc
  have hat := h.at hf
  obtain rfl := stackOk_ownOnly hc (stackOk_tail hat.stack)
  exact (hat.below (by simp)).counts

theorem finish_progress {r : Result} {u t : State} (hc : u.CallerCounts) (h : u.finish r = .next t) : Progress u t := by
  unfold State.finish at h
  split at h
  · cases h
  · cases h; exact ⟨rfl, rfl, le_rfl⟩
  · next l c rest hf =>
    have hstep := resume_progress (u := { u with fsm := c :: rest }) (hc l c rest hf) h
    exact ⟨hstep.busy, hstep.buf, hstep.nx⟩

/-- An operation that leaves BUF and the count alone, then the end of the sub-operation. -/
theorem Progress.finish {r : Result} {s u t : State} (h : u.finish r = .next t) (hc : u.CallerCounts) (hu : Progress s u) :
    Progress s t := hu.trans (finish_progress hc h)

theorem pollUntil_progress {read onDone onTimeout : State → State} {done : State → Bool} {n : Nat} {s : State}
    (hr : Progress s (read s)) (hd : ∀ u, Progress u (onDone u)) (ht : ∀ u, Progress u (onTimeout u)) :
    Progress s (pollUntil read done n onDone onTimeout s) := by
  have hc : Progress s (read s).countPoll := ⟨hr.busy, hr.buf, hr.nx⟩
  unfold pollUntil
  dsimp only
  split
  · exact hc.trans (hd _)
  · split
    · exact hc.trans (ht _)
    · exact hc

/-- Every action but READ's store and `Complete`. -/
theorem actAt_progress {l : Label} {s t : State} (hc : s.CallerCounts) (hfin : l ≠ .fin) (hstore : l ≠ .d7b)
    (h : actAt l s = .next t) : Progress s t := by
  have hsame {u : State} (hb : u.busy = s.busy) (hm : u.buf = s.buf) (hn : u.work.nx = s.work.nx) : Progress s u :=
    ⟨hb, hm, hn.ge⟩
  cases l
  case fin => exact absurd rfl hfin
  case d7b => exact absurd rfl hstore
  -- the actions that end an operation
  case i3 | v16 | vf | pf | p6 | px | d9 | dx | x7 | xx | u2 | e2 | m4 | b8 =>
    exact Progress.finish h hc (hsame rfl rfl rfl)
  -- the actions that end it on one of their branches
  case q2 | s5 | g5 | t5 =>
    simp only [actAt, actQ2, actS5, actG5, actT5, secondCheck] at h
    split at h
    · cases h; exact hsame rfl rfl rfl
    · exact Progress.finish h hc (hsame rfl rfl rfl)
  case w5 =>
    simp only [actAt, actW5] at h
    (repeat' split at h)
    · cases h; exact hsame rfl rfl rfl
    · cases h; exact hsame rfl rfl rfl
    · exact Progress.finish h hc (hsame rfl rfl rfl)
  case q3 =>
    simp only [actAt, actQ3] at h
    (repeat' split at h)
    · exact Progress.finish h hc (hsame rfl rfl rfl)
    · cases h
    · cases h
  -- the polls and the loops
  case s4 | g4 | t4 | b6 | w4 | b4 =>
    cases h; exact pollUntil_progress (hsame rfl rfl rfl) (goto_progress _) (toPf_progress _)
  case v5 | v6a =>
    cases h
    split
    · exact recoverLoop_progress (hsame rfl rfl rfl)
    · exact hsame rfl rfl rfl
  case v6e => cases h; exact recoverLoop_progress (hsame rfl rfl rfl)
  case x5a =>
    obtain ⟨u, hr, ht⟩ := andThen_eq_next (o := memRead s) h
    cases ht
    cases memRead_atomic hr
    exact hsame rfl rfl rfl
  -- a branch on what was just read
  case s3 | g3 | t3 => cases h; unfold firstCheck; split <;> exact hsame rfl rfl rfl
  case v8 | w2 | b7 | p1 | d1 | x1 => cases h; split <;> exact hsame rfl rfl rfl
  case v14 => cases h; (repeat' split) <;> exact hsame rfl rfl rfl
  -- one operation and a `goto`; a line that calls is no action
  case s1 | g1 | t1 | w1 | b1 | sc | gc | tc | wc | p2 | p3 | p4 | p5 | d2 | d3 | d4 | d5 | d6 | d7a | d8 | x2 | x3 | x4 |
      x5b | x6 | u1 => cases h
  all_goals cases h; exact hsame rfl rfl rfl

/-- READ's store: the byte goes to index i, and i + 1 bytes are counted. -/
theorem actAt_store {s t : State} (h : actAt .d7b s = .next t) :
    t.busy = s.busy ∧ t.buf = Memory.write s.buf s.work.i s.work.b ∧ t.work.nx = s.work.i + 1 := by
  obtain ⟨u, hw, ht⟩ := andThen_eq_next (o := memWrite s) h
  cases ht
  have hatomic := memWrite_atomic hw
  have hseq := readLoop_sequencing u.nextByte
  rw [hseq.busy, hseq.buf, readLoop_nx]
  cases hatomic
  exact ⟨rfl, rfl, rfl⟩

/-! ## The end (R296, R297) -/

/-- RES as a command leaves it: NXFER is the count, the whole COUNT after Ok, and none after BadAddr and BusDirty. -/
def State.CountReported (s : State) : Prop :=
  ∃ r : Result, s.res.code = r.code ∧ s.res.nxfer = s.nxfer ∧
    (s.latch.op = 0x4#4 ∨ s.latch.op = 0x5#4 → s.work.nx ≤ s.lcount ∧ (r = .ok → s.work.nx = s.lcount) ∧
      (r = .badAddr ∨ r = .busDirty → s.work.nx = 0))

theorem complete_reports {s t : State} (hcounts : s.countsOk .fin = true) (h : actAt .fin s = .next t) : t.CountReported := by
  cases h
  refine ⟨s.work.fin, rfl, rfl, fun hop => ?_⟩
  have hop : s.latch.op = 0x4#4 ∨ s.latch.op = 0x5#4 := hop
  simp only [State.countsOk, hop, if_true, Bool.and_eq_true, Bool.or_eq_true, decide_eq_true_eq] at hcounts
  obtain ⟨⟨hle, hok⟩, hnone⟩ := hcounts
  exact ⟨hle, hok.resolve_left ∘ not_not_intro, fun hr => hnone.resolve_left fun hne => hr.elim hne.1 hne.2⟩

/-! ## The whole run -/

/-- The command that runs in c with no byte done runs in s, or has ended there. -/
structure Counting (c s : State) : Prop where
  inv : s.Inv
  latch : s.latch = c.latch
  bytes : ∀ a, (c.latch.op = 0x4#4 → s.work.nx ≤ a) → Memory.read s.buf a = Memory.read c.buf a
  ended : s.busy = false → s.CountReported

section
variable {c s t : State} (h : Counting c s)
include h

theorem Counting.act (hb : s.busy = true) (ht : act s = .next t) : Counting c t := by
  obtain ⟨l, rest, hf⟩ : ∃ l rest, s.fsm = l :: rest :=
    List.exists_cons_of_ne_nil fun hnil => by rw [Machine.act, hnil] at ht; cases ht
  have hat : actAt l s = .next t := by rwa [Machine.act, hf] at ht
  have hinv := act_keeps h.inv ht
  have hlatch : t.latch = c.latch := (act_acts ht).host.latch.trans h.latch
  by_cases hfin : l = .fin
  · subst hfin
    obtain rfl := stackOk_ownOnly (by decide) (h.inv.at hf).stack
    have hreport := complete_reports (h.inv.ownAt hf).counts hat
    cases hat
    exact { inv := hinv, latch := hlatch, bytes := h.bytes, ended := fun _ => hreport }
  by_cases hstore : l = .d7b
  · subst hstore
    obtain rfl := stackOk_ownOnly (by decide) (h.inv.at hf).stack
    obtain ⟨hbusy, hbuf, hnx⟩ := actAt_store hat
    have hread : s.latch.op = 0x4#4 := List.mem_singleton.mp (show _ ∈ [0x4#4] from bottomOk_op (h.inv.at hf).stack)
    obtain ⟨hcount, -⟩ : s.work.nx = s.work.i ∧ s.work.i < s.lcount := by
      simpa [State.countsOk] using (h.inv.ownAt hf).counts
    refine { inv := hinv, latch := hlatch, bytes := fun a ha => ?_, ended := fun hn => ?_ }
    · have ha : s.work.i + 1 ≤ a := hnx ▸ ha (h.latch ▸ hread)
      rw [hbuf, Memory.read_write_other h.inv.memory (by omega)]
      exact h.bytes a fun _ => by omega
    · exact Bool.noConfusion ((hbusy.trans hb).symm.trans hn)
  · have hstep := actAt_progress h.inv.callerCounts hfin hstore hat
    refine { inv := hinv, latch := hlatch, bytes := fun a ha => ?_, ended := fun hn => ?_ }
    · rw [hstep.buf]
      exact h.bytes a fun hop => hstep.nx.trans (ha hop)
    · exact Bool.noConfusion ((hstep.busy.trans hb).symm.trans hn)

theorem Counting.tick (hb : s.busy = true) (ht : tick s = .next t) : Counting c t := by
  have hinv := tick_keeps h.inv ht
  obtain ⟨rest, -, hact | ⟨e, -, rfl⟩ | ⟨err, log, rfl⟩⟩ := tick_running_cases hb ht
  · have hmoved : Counting c (s.withInputs rest) :=
      { inv := withInputs_keeps rest h.inv, latch := h.latch, bytes := h.bytes, ended := h.ended }
    exact hmoved.act hb hact
  · exact { inv := hinv, latch := h.latch, bytes := h.bytes, ended := h.ended }
  · exact { inv := hinv, latch := h.latch, bytes := h.bytes, ended := h.ended }

end

theorem Result.eq_of_code (r : Result) : (r.code = Result.ok.code → r = .ok) ∧
    (r.code = Result.badAddr.code → r = .badAddr) ∧ (r.code = Result.busDirty.code → r = .busDirty) := by
  cases r <;> simp [Result.code]

/-- Settles O20: the run keeps `Counting`, and `Complete` reports the count. -/
theorem byteCount : Obligations.ByteCount := by
  unfold Obligations.ByteCount
  intro s i h hb ho hc
  rw [← submissionOf_op] at hc ⊢
  obtain ⟨t, ht, htb⟩ := runCommand_accepted_ends h hb ho hc
  have hstart : Counting (s.accepted i) (s.accepted i) :=
    { inv := accept_keeps _ h hb (entryOf_submissionOf i) hc
      latch := rfl
      bytes := fun _ _ => rfl
      ended := nofun }
  have hend : Counting (s.accepted i) t := run_induction (fun _ _ hs hsb _ hst => hs.tick hsb hst) _ _ _ hstart ht
  obtain ⟨r, hcode, hnxfer, hcount⟩ := hend.ended htb
  obtain ⟨hok, hbadAddr, hbusDirty⟩ := r.eq_of_code
  have hop : t.latch.op = (submissionOf i).op := congrArg Latch.op hend.latch
  have hlcount : t.lcount = s.count.toNat := congrArg (fun l => l.count.toNat) hend.latch
  rw [hop, hlcount] at hcount
  rw [State.nxfer, hop] at hnxfer
  -- a count within COUNT is its own low 16 bits
  have hnx (hu : (submissionOf i).op = 0x4#4 ∨ (submissionOf i).op = 0x5#4) : t.res.nxfer.toNat = t.work.nx := by
    have hlt := s.count.isLt
    have hle := (hcount hu).1
    rw [hnxfer, if_pos hu, BitVec.toNat_ofNat, Nat.mod_eq_of_lt (by omega)]
  refine ⟨t, (exec_accepted hb hc).trans ht, fun hu => hnxfer.trans (if_neg hu), fun hu => ?_, fun a ha => ?_⟩
  · obtain ⟨hle, hall, hnone⟩ := hcount hu
    rw [hcode]
    refine ⟨(hnx hu).trans_le hle, fun hr => BitVec.eq_of_toNat_eq ((hnx hu).trans (hall (hok hr))), fun hr => ?_⟩
    exact BitVec.eq_of_toNat_eq ((hnx hu).trans (hnone (hr.imp hbadAddr hbusDirty)))
  · exact hend.bytes a fun hread => hnx (.inl hread) ▸ ha hread

end Sys2Proof.Machine

/-! SUPPORT. How a command ends (spec/60_exceptions.md): within the invariant nothing stops the machine but a Host access of another width (R330, R81); an accepted command performs at most its bound of actions and one `Complete` (R285, R341), with one result of its own set and the tracker as that result says (R321, R322). -/

namespace Sys2Proof.Machine

/-! ## Nothing stops the machine (R330) -/

/-- One agent's step while a command runs goes on. -/
theorem tick_next {s : State} (h : s.Inv) (hb : s.busy = true) : ∃ t, tick s = .next t := by
  have hact {u : State} (hu : u.Inv) (hub : u.busy = true) : ∃ t, act u = .next t :=
    (act_decreases hu hub).imp fun _ ht => ht.1
  unfold tick
  split
  · exact hact h hb
  · exact hact (withInputs_keeps _ h) hb
  · exact ⟨_, rfl⟩
  · exact ⟨_, rfl⟩
  · exact ⟨_, rfl⟩
  · exact hact h hb
  all_goals exact ⟨s, rfl⟩

/-- So does a run, over any schedule. -/
theorem run_next (n : Nat) {s : State} (h : s.Inv) : ∃ t, run n s = .next t := by
  induction n generalizing s with
  | zero => exact ⟨s, rfl⟩
  | succ n ih =>
    unfold run
    split
    · exact ⟨s, rfl⟩
    · next hgo =>
      obtain ⟨hb, -⟩ : s.busy = true ∧ s.atBoundary = false := by simpa using hgo
      obtain ⟨u, hu⟩ := tick_next h hb
      rw [hu, andThen_next]
      exact ih (tick_keeps h hu)

theorem goOn_next {s : State} (h : s.Inv) : ∃ t, goOn s = .next t := by
  unfold goOn
  split
  · exact run_next _ h
  · exact ⟨s, rfl⟩

/-- A command offered to an idle block is accepted or rejected. -/
theorem exec_next (i : Instr) {s : State} (h : s.Inv) (hb : s.busy = false) : ∃ t, exec i s = .next t := by
  by_cases hc : (submissionOf i).counted → s.count.toNat ≤ Config.bufCap
  · rw [exec_accepted hb hc]
    exact run_next _ (accept_keeps _ h hb (entryOf_submissionOf i) hc)
  · obtain ⟨hu, hlarge⟩ := Classical.not_imp.mp hc
    exact ⟨_, exec_rejects_count hb hu (Nat.lt_of_not_le hlarge)⟩

theorem submit_next (w : Word) {s : State} (h : s.Inv) (hb : s.busy = false) : ∃ t, submit w s = .next t := by
  unfold submit
  split
  · exact ⟨_, rfl⟩
  · exact exec_next _ h hb

theorem idleWrite_next (off : BitVec 9) (w : Word) {s : State} (h : s.Inv) (hb : s.busy = false) :
    ∃ t, idleWrite off w s = .next t := by
  unfold idleWrite
  split
  · next hreg => exact submit_next w (hostWrite_keeps off w h) (by simp [hostWrite, hreg, hb])
  all_goals exact ⟨_, rfl⟩

theorem idleEvent_next {e : Event} {s : State} (h : s.Inv) (hb : s.busy = false) (he : e ≠ .hostNarrow) :
    ∃ t, idleEvent e s = .next t := by
  cases e with
  | hostWrite off w => exact idleWrite_next off w h hb
  | hostNarrow => exact absurd rfl he
  | engine | env | hostRead | hostWait | reset | pause => exact ⟨_, rfl⟩

/-- A step goes on, or refuses the Host access of another width at the head of the schedule. -/
theorem step_next_or_refused {s : State} (h : s.Inv) :
    (∃ t, step s = .next t) ∨ (step s = .refused .hostWidth ∧ s.inputs.head? = some .hostNarrow) := by
  unfold step stepBody
  split
  · exact .inl (goOn_next h)
  · exact .inl (goOn_next (withInputs_keeps _ h))
  · exact .inl ⟨_, rfl⟩
  · next hi => exact .inr ⟨rfl, by rw [hi]; rfl⟩
  · next e rest _ _ hnarrow hi =>
    refine .inl ?_
    split
    · exact run_next _ h
    · next hb => exact idleEvent_next (withInputs_keeps rest h) (by simpa using hb) hnarrow

/-- Settles O16: within the invariant every agent's step goes on, and so does every run (`run_next`); what is left is the
event the step refuses by name. -/
theorem stepNeverFaults : Obligations.StepNeverFaults := by
  unfold Obligations.StepNeverFaults
  intro s h
  obtain ⟨t, ht⟩ | ⟨hr, hhead⟩ := step_next_or_refused h
  · rw [ht]
    exact ⟨nofun, nofun⟩
  · rw [hr]
    exact ⟨nofun, fun r hr => ⟨(Host.Outcome.refused.inj hr).symm, hhead⟩⟩

/-! ## What the actions keep, an accepted command keeps to its end -/

/-- P is kept by every Engine action of a state within the invariant, and no other agent's step touches it. -/
structure KeptByActions (P : State → Prop) : Prop where
  act : ∀ {s t : State}, s.Inv → P s → act s = .next t → P t
  inputs : ∀ (rest : List Event) {s : State}, P s → P (s.withInputs rest)
  env : ∀ (e : EnvStep) {s : State}, P s → P (envStep e s)
  hostSide : ∀ (err : Bool) (log : List Word) {s : State}, P s → P { s with hostErr := err, hostLog := log }

section
variable {P : State → Prop} (k : KeptByActions P)
include k

theorem KeptByActions.tick {s t : State} (h : s.Inv) (hP : P s) (hb : s.busy = true) (ht : tick s = .next t) : P t := by
  obtain ⟨rest, -, hact | ⟨e, -, rfl⟩ | ⟨err, log, rfl⟩⟩ := tick_running_cases hb ht
  · exact k.act (withInputs_keeps rest h) (k.inputs rest hP) hact
  · exact k.env e (k.inputs rest hP)
  · exact k.hostSide err log (k.inputs rest hP)

/-- An accepted command comes to its end over every ordinary schedule, and P, true at its acceptance, is true there. -/
theorem KeptByActions.exec {i : Instr} {s : State} (h : s.Inv) (hb : s.busy = false) (ho : ordinary s.inputs)
    (hc : (submissionOf i).counted → s.count.toNat ≤ Config.bufCap) (hP : P (s.accepted i)) :
    ∃ t, exec i s = .next t ∧ t.Inv ∧ t.busy = false ∧ P t := by
  obtain ⟨t, ht, htb⟩ := runCommand_accepted_ends h hb ho hc
  have hstart : (s.accepted i).Inv ∧ P (s.accepted i) := ⟨accept_keeps _ h hb (entryOf_submissionOf i) hc, hP⟩
  obtain ⟨hinv, hPt⟩ := run_induction (P := fun u => u.Inv ∧ P u)
    (fun _ _ hu hub _ hut => ⟨tick_keeps hu.1 hut, k.tick hu.1 hu.2 hub hut⟩) _ _ _ hstart ht
  exact ⟨t, (exec_accepted hb hc).trans ht, hinv, htb, hPt⟩

end

/-- The action of the Engine is that of the deepest label. -/
theorem actAt_of_act {s t : State} (h : act s = .next t) : ∃ l rest, s.fsm = l :: rest ∧ actAt l s = .next t := by
  unfold act at h
  split at h
  · cases h
  · next l rest hf => exact ⟨l, rest, hf, h⟩

/-- Where `Complete` comes next, nothing else stands on the stack. -/
theorem State.Inv.fin_alone {s : State} {rest : List Label} (h : s.Inv) (hf : s.fsm = .fin :: rest) : s.fsm = [.fin] := by
  obtain rfl := stackOk_ownOnly (by decide) (h.at hf).stack
  exact hf

/-- Every action but `Complete` leaves the command running. -/
theorem actAt_busy {l : Label} {s t : State} (h : s.Inv) (hl : l ≠ .fin) (ht : actAt l s = .next t) : t.busy = s.busy := by
  by_cases hstore : l = .d7b
  · subst hstore
    exact (actAt_store ht).1
  · exact (actAt_progress h.callerCounts hl hstore ht).busy

/-! ## The actions of a command, counted (R285, R341) -/

/-- None of the actions is a `Complete`. -/
def NoComplete (acts : List Action) : Prop := ∀ a ∈ acts, ∀ c d n, a ≠ .complete c d n

/-- Every action but that of `fin` adds an entry to the history that is no `Complete`. -/
theorem actAt_records {l : Label} {s t : State} (h : s.Inv) (hb : s.busy = true) (hl : l ≠ .fin)
    (ht : actAt l s = .next t) : ∃ a, t.hist = a :: s.hist ∧ NoComplete [a] := by
  obtain ⟨a, u, ha, hseq⟩ := actAt_took ht
  refine ⟨a, hseq.hist.trans ha.hist, List.forall_mem_singleton.mpr ?_⟩
  rintro c d n rfl
  -- a `Complete` would have ended the command
  have hidle : u.busy = false := by cases ha; rfl
  have hrunning : u.busy = true := by rw [← hseq.busy, actAt_busy h hl ht, hb]
  exact Bool.noConfusion (hidle.symm.trans hrunning)

/-- The command begun in c has performed so many actions that those that remain fit in what remained in c, and once it
has ended its last entry is its one `Complete`, with the values RES holds. -/
structure Spends (c s : State) : Prop where
  running : s.busy = true →
    ∃ acts, s.hist = acts ++ c.hist ∧ acts.length + s.remaining ≤ c.remaining ∧ NoComplete acts
  ended : s.busy = false → ∃ acts, s.hist = .complete s.res.code s.res.data s.res.nxfer :: (acts ++ c.hist) ∧
    acts.length + 1 ≤ c.remaining ∧ NoComplete acts

theorem spends_keptByActions (c : State) : KeptByActions (Spends c) where
  inputs _ _ h := ⟨h.running, h.ended⟩
  env _ _ h := ⟨h.running, h.ended⟩
  hostSide _ _ _ h := ⟨h.running, h.ended⟩
  act {s t} h hs ht := by
    have hb := act_busy h ht
    obtain ⟨acts, hhist, hlen, hno⟩ := hs.running hb
    obtain ⟨u, hu, hlt⟩ := act_decreases h hb
    obtain rfl : u = t := Host.Outcome.next.inj (hu.symm.trans ht)
    obtain ⟨l, rest, hf, hat⟩ := actAt_of_act ht
    by_cases hl : l = .fin
    · subst hl
      cases hat
      exact ⟨nofun, fun _ => ⟨acts, congrArg _ hhist, by omega, hno⟩⟩
    · obtain ⟨a, ha, hnoa⟩ := actAt_records h hb hl hat
      have hrun := (actAt_busy h hl hat).trans hb
      refine ⟨fun _ => ⟨a :: acts, by rw [ha, hhist]; rfl, ?_, ?_⟩, fun hn => Bool.noConfusion (hn.symm.trans hrun)⟩
      · rw [List.length_cons]
        omega
      · exact List.forall_mem_cons.mpr ⟨List.forall_mem_singleton.mp hnoa, hno⟩

/-- What remains of an accepted command is its bound of actions, and its `Complete`. -/
theorem accepted_remaining_le (i : Instr) (s : State) :
    (s.accepted i).remaining ≤ actionBound s.params s.count.toNat i + 1 := by
  rw [State.accepted, remaining_accept]
  cases i with
  | read | write =>
    simp only [submissionOf, Label.opened, Label.callee, stackWeight, Label.weight, actionBound, Nat.add_comm 1 (wrbyteBound _)]
    omega
  | init | modstart | poll | wrbyte | rdbyte | start | rstart | stop | recover =>
    simp only [submissionOf, Label.opened, Label.callee, stackWeight, Label.weight, actionBound, recoverBound, requestBound,
      wrbyteBound, rdbyteBound]
    omega

theorem accepted_spends (i : Instr) (s : State) : Spends (s.accepted i) (s.accepted i) :=
  ⟨fun _ => ⟨[], rfl, by simp, nofun⟩, nofun⟩

/-- Settles O18: the run keeps `Spends`, and what remains at acceptance is the bound (`accepted_remaining_le`). -/
theorem commandCompletes : Obligations.CommandCompletes := by
  unfold Obligations.CommandCompletes
  refine ⟨fun s i h hb ho hc => ?_, fun _ _ _ => by and_intros <;> rfl⟩
  rw [← submissionOf_op] at hc
  obtain ⟨t, ht, hinv, htb, hspends⟩ := (spends_keptByActions (s.accepted i)).exec h hb ho hc (accepted_spends i s)
  obtain ⟨acts, hhist, hlen, hno⟩ := hspends.ended htb
  exact ⟨t, acts, t.res.code, t.res.data, t.res.nxfer, ht, htb, hinv.fsm_idle htb, rfl, hhist,
    Nat.le_of_succ_le_succ (hlen.trans (accepted_remaining_le i s)), hno⟩

/-! ## The result, and the tracker after it (R321, R322) -/

/-- The commands whose success leaves the tracker as it was (R322): all but INIT, RECOVER and the transfers. -/
def keepsTracker (op : BitVec 4) : Prop := op ∉ [0x1#4, 0x3#4, 0x4#4, 0x5#4, 0xB#4]

theorem keepsTracker_of_trackerAfter {op : BitVec 4} {r : Result} (h : trackerAfter op r = none) :
    r.isError = false ∧ keepsTracker op := by
  unfold trackerAfter at h
  split_ifs at h with herr hinit hclean
  exact ⟨by simpa using herr, by simpa [keepsTracker, hinit] using hclean⟩

/-- The only line of such a command that writes the tracker is the failure exit of the primitive it is. -/
theorem writer_of_keepsTracker {op : BitVec 4} {l : Label} {rest : List Label} (hop : keepsTracker op)
    (h : stackOk op (l :: rest) = true) (hl : l ∈ Label.marksDirty ++ Label.marksClean) : l = .pf ∧ rest = [] := by
  cases rest with
  | nil =>
    have hown : ∀ l ∈ Label.marksDirty ++ Label.marksClean, ∀ op ∈ l.ops,
        op ∈ [0x1#4, 0x3#4, 0x4#4, 0x5#4, 0xB#4] ∨ l = .pf := by decide
    exact ⟨(hown l hl op (bottomOk_op h)).resolve_left hop, rfl⟩
  | cons c rest =>
    -- what writes the tracker is called by a transfer
    obtain ⟨first, hc, hbody⟩ := stackOk_callee h
    have hsubs : ∀ first ∈ [Label.q1, .e1], ∀ l ∈ first.body, l ∉ Label.marksDirty ++ Label.marksClean := by decide
    have hcaller : c.ownOnly = true ∧ ∀ op ∈ c.ops, op ∈ [0x1#4, 0x3#4, 0x4#4, 0x5#4, 0xB#4] := by
      cases c <;> simp only [Label.callee, Option.some.injEq, reduceCtorEq] at hc
      case s1 | g1 | t1 | w1 | b1 | sc | gc | tc | wc => exact absurd hl (hsubs first (by simp [← hc]) l hbody)
      all_goals decide
    obtain ⟨hown, hops⟩ := hcaller
    have htail := stackOk_tail h
    obtain rfl := stackOk_ownOnly hown htail
    exact absurd (hops op (bottomOk_op htail)) hop

/-- At the failure exit of a primitive issued as a command the result is an error (R221, R247). -/
theorem actAt_pf_error {s t : State} (h : s.Inv) (hf : s.fsm = [.pf]) (ht : actAt .pf s = .next t) :
    t.fsm = [.fin] ∧ t.work.fin.isError = true := by
  have herr : primError s.running s.work.e = true := (h.topAt hf).error
  rw [State.running, hf] at herr
  have ht : (dirtyWrite true s).finish s.work.e = .next t := ht
  rw [finish_outermost (by exact hf)] at ht
  cases ht
  exact ⟨rfl, (primError_result herr).2.1⟩

/-- The command begun in c holds its one result where it has ended, and the tracker is what that result says. A command
whose success leaves the tracker has left it so far, or is about to report an error. -/
structure Reports (c s : State) : Prop where
  op : s.latch.op = c.latch.op
  running : s.busy = true → keepsTracker c.latch.op → s.dirty = c.dirty ∨ s.fsm = [.fin] ∧ s.work.fin.isError = true
  ended : s.busy = false → ∃ r : Result, resultOf c.latch.op r = true ∧ s.res.code = r.code ∧ s.res.data = r.data ∧
    s.dirty = (trackerAfter c.latch.op r).getD c.dirty

/-- The result `Complete` reports is one of the command's own, and the tracker fits it. -/
theorem Reports.fin {c s : State} (hs : Reports c s) (h : s.Inv) (hf : s.fsm = [.fin]) :
    resultOf c.latch.op s.work.fin = true ∧ s.dirty = (trackerAfter c.latch.op s.work.fin).getD c.dirty := by
  have hown := h.ownAt hf
  have hresult : resultOf s.latch.op s.work.fin = true := hown.exit
  have htracker : s.dirty = (trackerAfter s.latch.op s.work.fin).getD s.dirty := of_decide_eq_true hown.tracker
  rw [hs.op] at hresult htracker
  refine ⟨hresult, ?_⟩
  cases hafter : trackerAfter c.latch.op s.work.fin with
  | some d => rwa [hafter] at htracker
  | none =>
    obtain ⟨hok, hop⟩ := keepsTracker_of_trackerAfter hafter
    have hb : s.busy = true := (h.at hf).busy
    exact (hs.running hb hop).resolve_right fun herr => Bool.noConfusion (hok.symm.trans herr.2)

theorem reports_keptByActions (c : State) : KeptByActions (Reports c) where
  inputs _ _ h := ⟨h.op, h.running, h.ended⟩
  env _ _ h := ⟨h.op, h.running, h.ended⟩
  hostSide _ _ _ h := ⟨h.op, h.running, h.ended⟩
  act {s t} h hs ht := by
    have hb := act_busy h ht
    have hop : t.latch.op = c.latch.op := (congrArg Latch.op (act_acts ht).host.latch).trans hs.op
    obtain ⟨l, rest, hf, hat⟩ := actAt_of_act ht
    by_cases hl : l = .fin
    · subst hl
      obtain ⟨hresult, htracker⟩ := hs.fin h (h.fin_alone hf)
      cases hat
      exact ⟨hop, nofun, fun _ => ⟨s.work.fin, hresult, rfl, rfl, htracker⟩⟩
    · have hrun := (actAt_busy h hl hat).trans hb
      refine ⟨hop, fun _ hkeeps => ?_, fun hn => Bool.noConfusion (hn.symm.trans hrun)⟩
      by_cases hwriter : l ∈ Label.marksDirty ++ Label.marksClean
      · obtain ⟨rfl, rfl⟩ := writer_of_keepsTracker (hs.op ▸ hkeeps) (h.at hf).stack hwriter
        exact .inr (actAt_pf_error h hf hat)
      · obtain ⟨hdirty, hclean⟩ := not_or.mp (mt List.mem_append.mpr hwriter)
        have hsame : t.dirty = s.dirty := by rw [actAt_dirty hat, Label.tracker, if_neg hdirty, if_neg hclean]
        have hnotFin : s.fsm ≠ [.fin] := fun hfin => hl (List.cons.inj (hf.symm.trans hfin)).1
        exact .inl (hsame.trans ((hs.running hb hkeeps).resolve_right fun herr => hnotFin herr.1))

/-- Settles O19: the run keeps `Reports`, which says the result and the tracker where it has ended. -/
theorem oneResult : Obligations.OneResult := by
  unfold Obligations.OneResult
  intro s i h hb ho hc
  rw [← submissionOf_op] at hc ⊢
  have hstart : Reports (s.accepted i) (s.accepted i) := ⟨rfl, fun _ _ => .inl rfl, nofun⟩
  obtain ⟨t, ht, -, htb, hreports⟩ := (reports_keptByActions (s.accepted i)).exec h hb ho hc hstart
  obtain ⟨r, hresult, hcode, hdata, htracker⟩ := hreports.ended htb
  exact ⟨t, r, ht, hresult, hcode, hdata, htracker⟩

end Sys2Proof.Machine
